-- ==== Sys2Proof/Word.lean ====
section
/-! DEFINITION. The word types of the block (10_state.md R33, 20_memory.md R82) and nothing else. -/

namespace Sys2Proof

/-- One byte: the only width of a host-memory access (20_memory.md R82). -/
abbrev Byte := BitVec 8

/-- One host-visible register, and one command word (10_state.md R33, 30_encoding.md R110). -/
abbrev Word := BitVec 32

end Sys2Proof
end

