-- ==== Sys2Proof/Syntax.lean ====
section
/-! DEFINITION. The eight commands of spec/opcode_table.json (30_encoding.md R116). -/

namespace Sys2Proof

/-- A command, one constructor per row of the opcode table. -/
inductive Instr where
  /-- INIT with its raw LEVEL and WBITS fields (40_commands.md R152). -/
  | init (level : BitVec 4) (wbits : BitVec 8)
  /-- RESET (40_commands.md R153). -/
  | reset
  /-- DEFLATE with FLUSH = NO_FLUSH (40_commands.md R155). -/
  | deflateNoFlush
  /-- DEFLATE with FLUSH = SYNC_FLUSH. -/
  | deflateSyncFlush
  /-- DEFLATE with FLUSH = FULL_FLUSH. -/
  | deflateFullFlush
  /-- DEFLATE with FLUSH = FINISH. -/
  | deflateFinish
  /-- END (40_commands.md R168). -/
  | endStream
  /-- BOUND (40_commands.md R170). -/
  | bound
deriving DecidableEq, Repr, Inhabited

end Sys2Proof
end

