-- ==== Sys2Proof/WellFormed.lean ====
section
/-! DEFINITION. Which commands are legal (30_encoding.md R114 to R116): only INIT has operands to check. -/

namespace Sys2Proof

/-- LEVEL is legal: 0..9, or 15 for the default level (30_encoding.md R114). -/
def levelLegal (level : BitVec 4) : Bool :=
  level.toNat ≤ 9 || level.toNat == 15

/-- WBITS, read as a signed 8-bit value, lies in one of the three ranges of 30_encoding.md R115. -/
def wbitsLegal (wbits : BitVec 8) : Bool :=
  let w := wbits.toInt
  (-15 ≤ w && w ≤ -8) || (8 ≤ w && w ≤ 15) || (24 ≤ w && w ≤ 31)

/-- "An INIT word is legal only if LEVEL is in {0..9, 15} and WBITS is a legal value" (30_encoding.md R116);
the other commands have no operands. -/
def Instr.wf : Instr → Bool
  | .init level wbits => levelLegal level && wbitsLegal wbits
  | .reset => true
  | .deflateNoFlush => true
  | .deflateSyncFlush => true
  | .deflateFullFlush => true
  | .deflateFinish => true
  | .endStream => true
  | .bound => true

end Sys2Proof
end

