-- ==== Sys2Proof/Decode.lean ====
section
/-! DEFINITION. Decoding a command word, total and rejecting by name, and encoding one (30_encoding.md R110 to R117). -/

namespace Sys2Proof

/-- Why a word is no command: the checks of 30_encoding.md R111 in their order. A reserved word is no refusal of the
model: executing it raises StreamError (60_exceptions.md R323 causes 1 to 3). -/
inductive DecodeError where
  /-- OP 0x0 or 0x6..0xF (30_encoding.md R112). -/
  | reservedOp
  /-- A field this OP does not use, or RSVD, is nonzero (30_encoding.md R111). -/
  | unusedFieldNonzero
  /-- FLUSH 1 or 5..15 in a DEFLATE word (30_encoding.md R113). -/
  | reservedFlush
deriving DecidableEq, Repr

/-- The fields of the one command format (30_encoding.md R110). -/
def fieldOp (w : Word) : BitVec 4 := w.extractLsb' 0 4
def fieldFlush (w : Word) : BitVec 4 := w.extractLsb' 4 4
def fieldLevel (w : Word) : BitVec 4 := w.extractLsb' 8 4
def fieldWbits (w : Word) : BitVec 8 := w.extractLsb' 12 8
def fieldRsvd (w : Word) : BitVec 12 := w.extractLsb' 20 12

/-- The FLUSH field of a DEFLATE word (30_encoding.md R113). -/
def decodeFlush (flush : BitVec 4) : Except DecodeError Instr :=
  if flush = 0 then .ok .deflateNoFlush
  else if flush = 2 then .ok .deflateSyncFlush
  else if flush = 3 then .ok .deflateFullFlush
  else if flush = 4 then .ok .deflateFinish
  else .error .reservedFlush

/-- LEVEL, WBITS and RSVD are all zero. -/
def initFieldsZero (w : Word) : Bool :=
  fieldLevel w == 0 && fieldWbits w == 0 && fieldRsvd w == 0

/-- Every field but OP is zero. -/
def onlyOp (w : Word) : Bool :=
  fieldFlush w == 0 && initFieldsZero w

/-- Decoding in the order of 30_encoding.md R111: OP, then the unused fields and RSVD, then the used field. The reserved
values of INIT's own LEVEL and WBITS are checked by INIT's meaning, which is where 40_commands.md R152 checks them
(log 11). -/
def decode (w : Word) : Except DecodeError Instr :=
  if fieldOp w = 1 then
    if fieldFlush w = 0 ∧ fieldRsvd w = 0 then .ok (.init (fieldLevel w) (fieldWbits w))
    else .error .unusedFieldNonzero
  else if fieldOp w = 2 then
    if onlyOp w then .ok .reset else .error .unusedFieldNonzero
  else if fieldOp w = 3 then
    if initFieldsZero w then decodeFlush (fieldFlush w) else .error .unusedFieldNonzero
  else if fieldOp w = 4 then
    if onlyOp w then .ok .endStream else .error .unusedFieldNonzero
  else if fieldOp w = 5 then
    if onlyOp w then .ok .bound else .error .unusedFieldNonzero
  else .error .reservedOp

/-- A command word from its fields, high to low (30_encoding.md R110). -/
def commandWord (wbits : BitVec 8) (level flush op : BitVec 4) : Word :=
  (0 : BitVec 12) ++ wbits ++ level ++ flush ++ op

/-- The word of a command (30_encoding.md R116, R118). -/
def encode : Instr → Word
  | .init level wbits => commandWord wbits level 0 1
  | .reset => commandWord 0 0 0 2
  | .deflateNoFlush => commandWord 0 0 0 3
  | .deflateSyncFlush => commandWord 0 0 2 3
  | .deflateFullFlush => commandWord 0 0 3 3
  | .deflateFinish => commandWord 0 0 4 3
  | .endStream => commandWord 0 0 0 4
  | .bound => commandWord 0 0 0 5

/-- The command word whose low `nbits` bits are `w` and whose other bits are 0. -/
def tableWord (nbits w : Nat) : Word := BitVec.ofNat 32 (w % 2 ^ nbits)

/-- The instruction the decoder reads from a word numbered as spec/opcode_table.json numbers it. -/
def decodeTableWord (nbits w : Nat) : Option Instr := (decode (tableWord nbits w)).toOption

end Sys2Proof
end

