-- ==== Sys2Proof/Config.lean ====
section
/-! DEFINITION. The named parameters of 00_scope.md R7, and the opaque constants that stand for what the spec leaves open.
An opaque constant has no body: no proof can learn its value. -/

namespace Sys2Proof.Config

/-- `MIN_MATCH`. -/
@[simp] abbrev minMatch : Nat := 3

/-- `MAX_MATCH`. -/
@[simp] abbrev maxMatch : Nat := 258

/-- `MIN_LOOKAHEAD`. -/
@[simp] abbrev minLookahead : Nat := 262

/-- `ADDR_W`: the host address width. -/
@[simp] abbrev addrW : Nat := 32

/-- `MEM_LEVEL`, which sizes the hash, the symbol buffer and the pending capacity. -/
@[simp] abbrev memLevel : Nat := 8

/-- `HASH_BITS`, `MEM_LEVEL + 7`. -/
@[simp] abbrev hashBits : Nat := 15

/-- `HASH_SIZE`: the entries of `S.head`. -/
@[simp] abbrev hashSize : Nat := 32768

/-- `HASH_SHIFT`, `(HASH_BITS + MIN_MATCH - 1) / MIN_MATCH`. -/
@[simp] abbrev hashShift : Nat := 5

/-- `LIT_BUFSIZE`, `1 << (MEM_LEVEL + 6)`; a block holds at most one symbol less. -/
@[simp] abbrev litBufsize : Nat := 16384

/-- `PENDING_CAP`, `4 * LIT_BUFSIZE`; used only by the level-0 block size rule (41_lz77.md R215). -/
@[simp] abbrev pendingCap : Nat := 65536

/-- `MAX_BLOCK` of 41_lz77.md R215. -/
@[simp] abbrev maxBlock : Nat := 65531

/-- `L_CODES`. -/
@[simp] abbrev lCodes : Nat := 286

/-- `D_CODES`. -/
@[simp] abbrev dCodes : Nat := 30

/-- `BL_CODES`. -/
@[simp] abbrev blCodes : Nat := 19

/-- `MAX_BITS`. -/
@[simp] abbrev maxBits : Nat := 15

/-- `MAX_BL_BITS`. -/
@[simp] abbrev maxBlBits : Nat := 7

/-- `TOO_FAR`. -/
@[simp] abbrev tooFar : Nat := 4096

/-- `HEAP_SIZE` of 42_huffman_builder.md R241. -/
@[simp] abbrev heapSize : Nat := 573

/-- `IMPL_MAX_WBITS` (92_eei_decisions.md D18): 15 in this hardware (log 17). -/
@[simp] abbrev implMaxWbits : Nat := 15

/-- `GZIP_OS` (92_eei_decisions.md D16): 3 in this hardware (log 17). -/
@[simp] abbrev gzipOs : Byte := 3

/-- `IMPL_ID`, the OPEN value of the ID register (10_state.md R34; log 10). -/
opaque implId : Word

/-- `BASE`, the OPEN base address of the register block (20_memory.md R84; log 10). -/
opaque base : Word

/-- FREE VALUE: what a read of a register other than STATUS returns while BUSY = 1 (70_reset_and_hazards.md R365),
at a draw and a register offset (log 7). -/
opaque freeRead : Nat → Nat → Word

/-- FREE VALUE: a byte of the output range of a command that hardware reset abandoned (70_reset_and_hazards.md R360),
at a draw and an address (log 9). -/
opaque freeByte : Nat → Nat → Byte

/-- FREE VALUE: a cell of `S.prev` that nothing has written since INIT (10_state.md R53), at a draw and a cell (log 5). -/
opaque freePrev : Nat → Nat → BitVec 16

end Sys2Proof.Config
end

