-- ==== Sys2Proof/Machine/Table.lean ====
section
/-! DEFINITION. Finite tables indexed by window positions, hash values and symbols: the plain-data form of the internal
memories of 20_memory.md R81 (log 16). A table is a binary tree of fixed depth over the bits of the index, least
significant first, so that one access costs `Table.depth` steps. A cell that is not in the tree is absent; what an absent
cell reads as is said by the caller. -/

namespace Sys2Proof.Machine

/-- A table of cells of type `α`. -/
inductive Table (α : Type) where
  /-- No cell present. -/
  | empty
  /-- One present cell (at the bottom). -/
  | leaf (v : α)
  /-- The cells of even and of odd index. -/
  | fork (even odd : Table α)
deriving DecidableEq, Repr, Inhabited

namespace Table

/-- Index bits: every index of 20_memory.md R81 is below `2 ^ 16`. -/
@[simp] abbrev depth : Nat := 16

/-- A fork without an empty subtree below it on both sides, so that equal tables are equal data. -/
def join {α : Type} : Table α → Table α → Table α
  | .empty, .empty => .empty
  | l, r => .fork l r

/-- The even half and the odd half. -/
def halves {α : Type} : Table α → Table α × Table α
  | .fork l r => (l, r)
  | _ => (.empty, .empty)

/-- The cell at index `i` of a tree of depth `d`. -/
def readAt {α : Type} : Nat → Nat → Table α → Option α
  | 0, _, .leaf v => some v
  | 0, _, _ => none
  | d + 1, i, t => if i % 2 = 0 then readAt d (i / 2) t.halves.1 else readAt d (i / 2) t.halves.2

/-- The tree with the cell at index `i` set (`some`) or removed (`none`). -/
def writeAt {α : Type} : Nat → Nat → Option α → Table α → Table α
  | 0, _, some v, _ => .leaf v
  | 0, _, none, _ => .empty
  | d + 1, i, v, t =>
    if i % 2 = 0 then join (writeAt d (i / 2) v t.halves.1) t.halves.2
    else join t.halves.1 (writeAt d (i / 2) v t.halves.2)

/-- The cell at index `i`, if present. -/
def read? {α : Type} (t : Table α) (i : Nat) : Option α := readAt depth i t

/-- The table with cell `i` present and holding `v`. -/
def write {α : Type} (t : Table α) (i : Nat) (v : α) : Table α := writeAt depth i (some v) t

/-- The entry of an array whose absent cells hold `z`. -/
def get {α : Type} (z : α) (t : Table α) (i : Nat) : α := (t.read? i).getD z

/-- The array with entry `i` set, in canonical form: a cell that holds `z` is absent. -/
def set {α : Type} [DecidableEq α] (z : α) (t : Table α) (i : Nat) (v : α) : Table α :=
  writeAt depth i (if v = z then none else some v) t

/-- Every present cell replaced by `f` of it (`none` removes it). -/
def mapCells {α : Type} (f : α → Option α) : Table α → Table α
  | .empty => .empty
  | .leaf v => match f v with
    | some u => .leaf u
    | none => .empty
  | .fork l r => join (mapCells f l) (mapCells f r)

end Table

end Sys2Proof.Machine
end

