-- ==== Sys2Proof/Machine/Stream.lean ====
section
/-! DEFINITION. The internal stream state `S` (10_state.md section 3) as plain data, but for `S.state`, `S.total_in`,
`S.total_out` and `S.check`, which are fields of `State`. -/

namespace Sys2Proof.Machine

/-- `S.state` (10_state.md R40). -/
inductive Phase where
  | uninit | init | active | finishing | done
deriving DecidableEq, Repr, Inhabited

/-- `S.wrap` (10_state.md R41). -/
inductive Wrap where
  | raw | zlib | gzip
deriving DecidableEq, Repr, Inhabited

/-- `S.strategy` (00_scope.md R8). -/
inductive Strategy where
  | stored | fast | slow
deriving DecidableEq, Repr, Inhabited

/-- The flush modes of DEFLATE (30_encoding.md R113). -/
inductive Flush where
  | noFlush | syncFlush | fullFlush | finish
deriving DecidableEq, Repr, Inhabited

/-- `S.last_flush` (10_state.md R47). -/
inductive LastFlush where
  | noneYet
  | outFull
  | mode (f : Flush)
deriving DecidableEq, Repr, Inhabited

/-- An entry of `S.syms` (10_state.md R45): the spec's `(0, lc)` and `(dist, lc)`. -/
inductive Sym where
  | lit (b : Byte)
  | copy (dist len : Nat)
deriving DecidableEq, Repr, Inhabited

/-- What a strategy returns (41_lz77.md R212). -/
inductive BlockState where
  | needMore | blockDone | finishStarted | finishDone
deriving DecidableEq, Repr, Inhabited

/-- The fields of `S`, named as in 10_state.md R41 to R47. -/
structure Stream where
  level : Nat
  wrap : Wrap
  reqWbits : Nat
  wBits : Nat
  goodMatch : Nat
  maxLazy : Nat
  niceMatch : Nat
  maxChain : Nat
  strategy : Strategy
  /-- `S.window`; an absent cell holds 0. -/
  window : Table Byte
  /-- `S.head`, of `HASH_SIZE` entries (10_state.md R43); an absent cell holds 0 (NIL). -/
  head : Table (BitVec 16)
  /-- `S.prev`; an absent cell has not been written since INIT and is unspecified (10_state.md R53; log 5). -/
  prev : Table (BitVec 16)
  /-- MODEL's own: the draw at which the unwritten cells of `S.prev` read (log 5). -/
  prevEpoch : Nat
  /-- MODEL's own: by how much the slides since INIT have lowered the unwritten cells of `S.prev`, no further than 0, which
  65536 reaches for every 16-bit value (41_lz77.md R205; log 5). -/
  prevLowered : Nat
  insH : BitVec Config.hashBits
  strstart : Nat
  lookahead : Nat
  blockStart : Int
  matchLength : Nat
  prevLength : Nat
  matchStart : Int
  prevMatch : Int
  matchAvailable : Bool
  insert : Nat
  /-- `S.lfreq`; an absent counter is 0. -/
  lfreq : Table Nat
  /-- `S.dfreq`; an absent counter is 0. -/
  dfreq : Table Nat
  /-- `S.syms`, newest first (log 16). -/
  syms : List Sym
  bitacc : Nat
  bitcount : Nat
  /-- `S.pending`, oldest byte first. -/
  pending : List Byte
  lastFlush : LastFlush
  trailerDone : Bool
deriving DecidableEq, Repr, Inhabited

/-- The values the model names for `S` at `State.reset`: the spec leaves them unspecified. DESIGN CHOICE, unsafe (log 3). -/
def Stream.reset : Stream where
  level := 0
  wrap := .raw
  reqWbits := 0
  wBits := 0
  goodMatch := 0
  maxLazy := 0
  niceMatch := 0
  maxChain := 0
  strategy := .stored
  window := .empty
  head := .empty
  prev := .empty
  prevEpoch := 0
  prevLowered := 0
  insH := 0
  strstart := 0
  lookahead := 0
  blockStart := 0
  matchLength := 0
  prevLength := 0
  matchStart := 0
  prevMatch := 0
  matchAvailable := false
  insert := 0
  lfreq := .empty
  dfreq := .empty
  syms := []
  bitacc := 0
  bitcount := 0
  pending := []
  lastFlush := .noneYet
  trailerDone := false

end Sys2Proof.Machine
end

