-- ==== Sys2Proof/Config/Free.lean ====
section
/-! DEFINITION. The free value for the whole of `S`: what hardware reset and END leave unspecified. -/

namespace Sys2Proof.Config

/-- FREE VALUE: every field of `S` other than `S.state` after a hardware reset (70_reset_and_hazards.md R360) or END
(40_commands.md R168), at a draw (log 4). -/
opaque freeStream : Nat → Sys2Proof.Machine.Stream

end Sys2Proof.Config
end

