-- ==== Sys2Proof/Machine/Checksum.lean ====
section
/-! DEFINITION. Adler-32 and CRC-32 (44_checksum.md). -/

namespace Sys2Proof.Machine

/-- One byte of `Adler32` on the two sums `(s1, s2)` (44_checksum.md R311). -/
def adlerStep (s : Nat × Nat) (b : Byte) : Nat × Nat :=
  let s1 := (s.1 + b.toNat) % 65521
  (s1, (s.2 + s1) % 65521)

/-- `Adler32(a, b[0 .. n))` (44_checksum.md R311). -/
def adler32 (a : Word) (bytes : List Byte) : Word :=
  let s := bytes.foldl adlerStep (a.toNat % 65536, a.toNat / 65536)
  BitVec.ofNat 32 (s.2 * 65536 + s.1)

/-- One of the eight steps of a `CRC_TABLE` entry (44_checksum.md R312). -/
def crcShift (x : Word) : Word := if x.getLsbD 0 then 0xEDB88320 ^^^ (x >>> 1) else x >>> 1

/-- `CRC_TABLE[k]` (44_checksum.md R312). -/
def crcTable (k : Byte) : Word :=
  crcShift (crcShift (crcShift (crcShift (crcShift (crcShift (crcShift (crcShift (k.setWidth 32))))))))

/-- One byte of `Crc32` between the complements (44_checksum.md R312). -/
def crcStep (c : Word) (b : Byte) : Word := crcTable (c.setWidth 8 ^^^ b) ^^^ (c >>> 8)

/-- `Crc32(c, b[0 .. n))` (44_checksum.md R312). -/
def crc32 (c : Word) (bytes : List Byte) : Word :=
  bytes.foldl crcStep (c ^^^ 0xFFFFFFFF) ^^^ 0xFFFFFFFF

/-- `UpdateCheck(bytes)` for the wrapper (44_checksum.md R310, R313). -/
def updateCheck (wrap : Wrap) (check : Word) (bytes : List Byte) : Word :=
  match wrap with
  | .zlib => adler32 check bytes
  | .gzip => crc32 check bytes
  | .raw => check

/-- The value INIT and RESET give CHECK (40_commands.md R154). -/
def initialCheck : Wrap → Word
  | .gzip => 0
  | .zlib => 1
  | .raw => 1

end Sys2Proof.Machine
end

