-- ==== Sys2Proof/Machine/Memory.lean ====
section
/-! DEFINITION. Host memory (20_memory.md R80, R82): the listed cells in one canonical form, addresses strictly rising and
no listed cell equal to what an unlisted address reads as. -/

namespace Sys2Proof.Machine

/-- Host memory as its listed cells. -/
abbrev Memory := List Host.Cell

namespace Memory

/-- Host memory ends here: `ADDR_W` = 32 bits of address (20_memory.md R80). -/
@[simp] abbrev size : Nat := 2 ^ Config.addrW

/-- What a byte of host memory that nothing has written reads as. DESIGN CHOICE, unsafe (log 6). -/
def unlisted : Byte := 0

/-- `MemRead(addr, 1)` (00_scope.md R10, 20_memory.md R82). -/
def read : Memory → Nat → Byte
  | [], _ => unlisted
  | (k, v) :: rest, a => if a = k then v else read rest a

/-- `MemWrite(addr, 1, v)` (00_scope.md R10, 20_memory.md R82), keeping the canonical form. -/
def write : Memory → Nat → Byte → Memory
  | [], a, v => if v = unlisted then [] else [(a, v)]
  | (k, u) :: rest, a, v =>
    if a < k then
      if v = unlisted then (k, u) :: rest else (a, v) :: (k, u) :: rest
    else if a = k then
      if v = unlisted then rest else (a, v) :: rest
    else (k, u) :: write rest a v

/-- The listed addresses are all above `a`. -/
def above (a : Nat) (m : Memory) : Bool := m.all (fun c => a < c.1)

/-- The canonical form: addresses strictly rising and below `size`, no cell equal to the unlisted value. -/
def wf : Memory → Bool
  | [] => true
  | (k, v) :: rest => above k rest && (v != unlisted && (decide (k < size) && wf rest))

end Memory

end Sys2Proof.Machine
end

