-- ==== Sys2Proof/Machine/State.lean ====
section
/-! DEFINITION. The whole state of the block as plain data, its state after hardware reset, and the reasons a step stops. -/

namespace Sys2Proof.Machine

/-- STATUS.RESULT (60_exceptions.md R320). -/
inductive Result where
  | ok | streamEnd | needDict | versionError | bufError | memError | dataError | streamError
deriving DecidableEq, Repr, Inhabited

/-- One move of the world outside the block (70_reset_and_hazards.md R376; log 1; memory accesses while BUSY = 1: log 21). -/
inductive HostMove where
  /-- The host reads the register at a byte offset from BASE. -/
  | regRead (offset : Nat)
  /-- The host writes the register at a byte offset from BASE; at CMD's offset this starts a command. -/
  | regWrite (offset : Nat) (value : Word)
  /-- The host reads one byte of its memory. -/
  | memRead (addr : Nat)
  /-- The host writes one byte of its memory. -/
  | memWrite (addr : Nat) (value : Byte)
  /-- The platform asserts hardware reset (70_reset_and_hazards.md R360). -/
  | hardReset
  /-- The latency of the command in progress is over (70_reset_and_hazards.md R378; log 2). -/
  | cmdDone
deriving DecidableEq, Repr, Inhabited

/-- Everything the spec gives the machine (10_state.md, 20_memory.md R80), and the model's own fields, named last. -/
structure State where
  /-- STATUS.RESULT (10_state.md R35). -/
  result : Result
  /-- STATUS.OVERRUN (10_state.md R35). -/
  overrun : Bool
  /-- IN_PTR (10_state.md R37). -/
  inPtr : Word
  /-- IN_AVAIL (10_state.md R37). -/
  inAvail : Word
  /-- OUT_PTR (10_state.md R37). -/
  outPtr : Word
  /-- OUT_AVAIL (10_state.md R37). -/
  outAvail : Word
  /-- TOTAL_IN, which is `S.total_in` (10_state.md R38). -/
  totalIn : Word
  /-- TOTAL_OUT, which is `S.total_out` (10_state.md R38). -/
  totalOut : Word
  /-- CHECK, which is `S.check` (10_state.md R39). -/
  check : Word
  /-- BOUND (40_commands.md R170). -/
  bound : Word
  /-- CONFIG (10_state.md R36). -/
  config : Word
  /-- `S.state` (10_state.md R40), mirrored by STATUS.STATE. -/
  phase : Phase
  /-- The other fields of `S` (10_state.md R41 to R47). -/
  stream : Stream
  /-- Host memory (20_memory.md R80). -/
  memory : Memory
  /-- MODEL's own: the command word in progress. STATUS.BUSY is 1 exactly when there is one (log 2, log 13). -/
  running : Option Word
  /-- MODEL's own: the coming moves of the world outside (log 1). -/
  inputs : List HostMove
  /-- MODEL's own: what the host's last read returned (log 14). -/
  readData : Word
  /-- MODEL's own: how many free values have been drawn (log 14). -/
  draws : Nat
deriving DecidableEq, Repr, Inhabited

/-- Why the machine stops with a fault. -/
inductive Fault where
  /-- Raised by a host move that names an address outside the `2 ^ 32` bytes of host memory (20_memory.md R80), which
  do not exist. No command raises it. SAFE: the model stops (log 18). -/
  | addressOutsideHostMemory
deriving DecidableEq, Repr

/-- Why the model gives no meaning to a move. -/
inductive Refusal where
  /-- Raised by an arm of `exec` whose instruction has no meaning yet. SAFE: the model stops. -/
  | notModelled (mnemonic : String)
  /-- Raised by a host register access that is not an aligned word at offsets 0x00..0xFC: it "has no meaning in this spec;
  a model gives the host no such move (refused)" (20_memory.md R83). SAFE: the model stops (log 8). -/
  | registerAccessWithoutMeaning
  /-- Raised by a host access to the input or output range that 20_memory.md R90 and 70_reset_and_hazards.md R366 forbid
  while BUSY = 1: "a model gives the host no such move". SAFE: the model stops (log 8). -/
  | hostTouchesBufferWhileBusy
deriving DecidableEq, Repr

/-- The machine right after hardware reset (70_reset_and_hazards.md R361): every register 0, STATUS Ok and UNINIT, no
command in progress. The rest of `S` is unspecified there; the model names values (log 3). Host memory lists nothing. -/
def State.reset : State where
  result := .ok
  overrun := false
  inPtr := 0
  inAvail := 0
  outPtr := 0
  outAvail := 0
  totalIn := 0
  totalOut := 0
  check := 0
  bound := 0
  config := 0
  phase := .uninit
  stream := Stream.reset
  memory := []
  running := none
  inputs := []
  readData := 0
  draws := 0

end Sys2Proof.Machine
end

