-- ==== Sys2Proof/Machine/Flags.lean ====
section
/-! DEFINITION. STATUS and what it is made of (10_state.md R35), the result codes (60_exceptions.md R320), and the flush
ranks of the no-progress test (10_state.md R47). -/

namespace Sys2Proof.Machine

/-- STATUS.RESULT as a number (60_exceptions.md R320). -/
def Result.code : Result → BitVec 4
  | .ok => 0x0
  | .streamEnd => 0x1
  | .needDict => 0x2
  | .versionError => 0xA
  | .bufError => 0xB
  | .memError => 0xC
  | .dataError => 0xD
  | .streamError => 0xE

/-- STATUS.STATE as a number (10_state.md R35). -/
def Phase.code : Phase → BitVec 3
  | .uninit => 0
  | .init => 1
  | .active => 2
  | .finishing => 3
  | .done => 4

/-- CONFIG.WRAP as a number (10_state.md R36). -/
def Wrap.code : Wrap → BitVec 2
  | .raw => 0
  | .zlib => 1
  | .gzip => 2

/-- STATUS.BUSY (10_state.md R35): a command is in progress. -/
def State.busy (s : State) : Bool := s.running.isSome

/-- The STATUS register: RESULT 3:0, STATE 6:4, BUSY 8, OVERRUN 9, the other bits 0 (10_state.md R35). -/
def statusWord (s : State) : Word :=
  (0 : BitVec 22) ++ BitVec.ofBool s.overrun ++ BitVec.ofBool s.busy ++ (0 : BitVec 1) ++ s.phase.code ++ s.result.code

/-- The CONFIG value of an accepted INIT: LEVEL 3:0, WBITS 11:4, WRAP 13:12 (10_state.md R36). -/
def configWord (level : Nat) (wbits : BitVec 8) (wrap : Wrap) : Word :=
  (0 : BitVec 18) ++ wrap.code ++ wbits ++ BitVec.ofNat 4 level

/-- `Rank` of a flush mode: 0, 4, 6, 8 (10_state.md R47). -/
def Flush.rank : Flush → Int
  | .noFlush => 0
  | .syncFlush => 4
  | .fullFlush => 6
  | .finish => 8

/-- `Rank` of `S.last_flush` (10_state.md R47). -/
def LastFlush.rank : LastFlush → Int
  | .noneYet => -4
  | .outFull => -2
  | .mode f => f.rank

end Sys2Proof.Machine
end

