-- ==== Sys2Proof/Machine/Ops.lean ====
section
/-! DEFINITION. The named operations over registers and host memory: ending a command, raising a result code, the two memory
primitives, and the register file. -/

namespace Sys2Proof.Machine

/-- The end of a command: RESULT gets its code and BUSY falls; STATE mirrors `S.state` by itself (40_commands.md R150). -/
def endCommand (r : Result) (s : State) : State := { s with result := r, running := none }

/-- `raise E` (00_scope.md R10, 60_exceptions.md R321): TAKING AN EXCEPTION. The command ends with code `E`, and the state
already written stays written. There is no trap, vector, saved register or return operation (R331, R332): this is all an
exception does. -/
def raise (e : Result) (s : State) : State := endCommand e s

/-- The state with its stream changed. -/
def State.onStream (f : Stream → Stream) (s : State) : State := { s with stream := f s.stream }

/-- Every field of `S` but `S.state` becomes unspecified: a free value at a fresh draw (log 4). -/
def forgetStream (s : State) : State := { s with stream := Config.freeStream s.draws, draws := s.draws + 1 }

/-- The input byte `i` places after IN_PTR. -/
def inputByte (s : State) (i : Nat) : Byte := s.memory.read (s.inPtr + BitVec.ofNat 32 i).toNat

/-- One turn of `ReadInput`'s loop (20_memory.md R87): a byte at IN_PTR goes to window index `dst`. -/
def readByte (dst : Nat) (s : State) : State :=
  { s with
    stream := { s.stream with window := s.stream.window.set 0 dst (s.memory.read s.inPtr.toNat) }
    inPtr := s.inPtr + 1
    inAvail := s.inAvail - 1
    totalIn := s.totalIn + 1 }

/-- `k` turns of the loop. -/
def readBytes : Nat → Nat → State → State
  | 0, _, s => s
  | k + 1, dst, s => readBytes k (dst + 1) (readByte dst s)

/-- How many bytes `ReadInput(n)` moves. -/
def readCount (n : Nat) (s : State) : Nat := min n s.inAvail.toNat

/-- `ReadInput(n, dst)` (20_memory.md R87) with its `UpdateCheck`. -/
def readInput (n dst : Nat) (s : State) : State :=
  let k := readCount n s
  { readBytes k dst s with
    check := updateCheck s.stream.wrap s.check ((List.range k).map (inputByte s)) }

/-- One turn of `FlushPending`'s loop (20_memory.md R88): byte `b` goes to OUT_PTR and `rest` stays queued. -/
def writeByte (b : Byte) (rest : List Byte) (s : State) : State :=
  { s with
    stream := { s.stream with pending := rest }
    memory := s.memory.write s.outPtr.toNat b
    outPtr := s.outPtr + 1
    outAvail := s.outAvail - 1
    totalOut := s.totalOut + 1 }

/-- The loop of `FlushPending`: it ends with the queue or with the output space. -/
def flushBytes : List Byte → State → State
  | [], s => s
  | b :: rest, s => if s.outAvail = 0 then s else flushBytes rest (writeByte b rest s)

/-- `FlushPending()` (20_memory.md R88). -/
def flushPending (s : State) : State := flushBytes s.stream.pending s

/-- A host read of the register at a byte offset while BUSY = 0 (10_state.md R33): CMD and the reserved offsets read 0. -/
def readReg (offset : Nat) (s : State) : Word :=
  match offset with
  | 0x00 => Config.implId
  | 0x08 => statusWord s
  | 0x0C => s.inPtr
  | 0x10 => s.inAvail
  | 0x14 => s.outPtr
  | 0x18 => s.outAvail
  | 0x1C => s.totalIn
  | 0x20 => s.totalOut
  | 0x24 => s.check
  | 0x28 => s.bound
  | 0x2C => s.config
  | _ => 0

/-- A host write of a register other than CMD while BUSY = 0: only the four RW registers take it (10_state.md R33). -/
def writeReg (offset : Nat) (v : Word) (s : State) : State :=
  match offset with
  | 0x0C => { s with inPtr := v }
  | 0x10 => { s with inAvail := v }
  | 0x14 => { s with outPtr := v }
  | 0x18 => { s with outAvail := v }
  | _ => s

/-- A host write of CMD while BUSY = 0: the word is latched and BUSY rises (40_commands.md R150). -/
def latchCommand (w : Word) (s : State) : State := { s with running := some w }

end Sys2Proof.Machine
end

