-- ==== Sys2Proof/Machine/Bound.lean ====
section
/-! DEFINITION. BOUND (40_commands.md section 6). -/

namespace Sys2Proof.Machine

/-- The formula of 40_commands.md R170, mod 2^32. -/
def boundOf (n : Word) : Word := n + (n >>> 12) + (n >>> 14) + (n >>> 25) + 13

/-- BOUND (40_commands.md R170), in every stream state. -/
def execBound (s : State) : Host.Outcome State Fault Refusal :=
  .next (endCommand .ok { s with bound := boundOf s.inAvail })

end Sys2Proof.Machine
end

