-- ==== Sys2Proof/Machine/BitWriter.lean ====
section
/-! DEFINITION. The bit writer (43_block_serializer.md section 5): `S.bitacc`, `S.bitcount` and `S.pending`. -/

namespace Sys2Proof.Machine

/-- The low `k` bytes of `v`, least significant first. -/
def lowBytes : Nat → Nat → List Byte
  | 0, _ => []
  | k + 1, v => BitVec.ofNat 8 v :: lowBytes k (v / 256)

/-- `SendBits(v, n)`: the `n` low bits of `v` (43_block_serializer.md R290). The loop of the rule queues
`(bitcount + n) / 8` bytes and leaves the rest in the accumulator. -/
def sendBits (v n : Nat) (t : Stream) : Stream :=
  let acc := t.bitacc ||| v % 2 ^ n * 2 ^ t.bitcount
  let k := (t.bitcount + n) / 8
  { t with
    bitacc := acc / 256 ^ k
    bitcount := (t.bitcount + n) % 8
    pending := t.pending ++ lowBytes k acc }

/-- `AlignByte()` (43_block_serializer.md R287). -/
def alignByte (t : Stream) : Stream :=
  { t with
    bitacc := 0
    bitcount := 0
    pending := if t.bitcount > 0 then t.pending ++ [BitVec.ofNat 8 t.bitacc] else t.pending }

/-- `PutByte(b)` (43_block_serializer.md R287), used at byte boundaries only. -/
def putByte (b : Byte) (t : Stream) : Stream := { t with pending := t.pending ++ [b] }

/-- `PutByte` of each byte in order. -/
def putBytes (bytes : List Byte) (t : Stream) : Stream := { t with pending := t.pending ++ bytes }

/-- The four bytes of a word, most significant first (20_memory.md R85). -/
def bytesBE (w : Word) : List Byte :=
  [w.extractLsb' 24 8, w.extractLsb' 16 8, w.extractLsb' 8 8, w.extractLsb' 0 8]

/-- The four bytes of a word, least significant first (20_memory.md R85). -/
def bytesLE (w : Word) : List Byte :=
  [w.extractLsb' 0 8, w.extractLsb' 8 8, w.extractLsb' 16 8, w.extractLsb' 24 8]

end Sys2Proof.Machine
end

