-- ==== Sys2Proof/Machine/Params.lean ====
section
/-! DEFINITION. The constant tables of the block (10_state.md R31): the per-level configuration, the length and distance
alphabets, the code-length alphabet and the fixed codes. -/

namespace Sys2Proof.Machine

/-- One row of the per-level configuration (00_scope.md R8). -/
structure LevelRow where
  good : Nat
  lazy : Nat
  nice : Nat
  chain : Nat
  strategy : Strategy
deriving DecidableEq, Repr, Inhabited

/-- `CONFIG_TABLE` (00_scope.md R8). INIT admits no level above 9. -/
def configTable : Nat → LevelRow
  | 0 => ⟨0, 0, 0, 0, .stored⟩
  | 1 => ⟨4, 4, 8, 4, .fast⟩
  | 2 => ⟨4, 5, 16, 8, .fast⟩
  | 3 => ⟨4, 6, 32, 32, .fast⟩
  | 4 => ⟨4, 4, 16, 16, .slow⟩
  | 5 => ⟨8, 16, 32, 32, .slow⟩
  | 6 => ⟨8, 16, 128, 128, .slow⟩
  | 7 => ⟨8, 32, 128, 256, .slow⟩
  | 8 => ⟨32, 128, 258, 1024, .slow⟩
  | _ => ⟨32, 258, 258, 4096, .slow⟩

/-- A row of the length alphabet: a symbol, its number of extra bits, and the lengths it covers (30_encoding.md R126). -/
structure LenRow where
  sym : Nat
  extra : Nat
  first : Nat
  last : Nat
deriving DecidableEq, Repr

/-- The length alphabet (30_encoding.md R126). -/
def lenRows : List LenRow :=
  [⟨257, 0, 3, 3⟩, ⟨258, 0, 4, 4⟩, ⟨259, 0, 5, 5⟩, ⟨260, 0, 6, 6⟩, ⟨261, 0, 7, 7⟩, ⟨262, 0, 8, 8⟩, ⟨263, 0, 9, 9⟩,
   ⟨264, 0, 10, 10⟩, ⟨265, 1, 11, 12⟩, ⟨266, 1, 13, 14⟩]
  ++ [⟨267, 1, 15, 16⟩, ⟨268, 1, 17, 18⟩, ⟨269, 2, 19, 22⟩, ⟨270, 2, 23, 26⟩, ⟨271, 2, 27, 30⟩, ⟨272, 2, 31, 34⟩,
   ⟨273, 3, 35, 42⟩, ⟨274, 3, 43, 50⟩, ⟨275, 3, 51, 58⟩, ⟨276, 3, 59, 66⟩]
  ++ [⟨277, 4, 67, 82⟩, ⟨278, 4, 83, 98⟩, ⟨279, 4, 99, 114⟩, ⟨280, 4, 115, 130⟩, ⟨281, 5, 131, 162⟩,
   ⟨282, 5, 163, 194⟩, ⟨283, 5, 195, 226⟩, ⟨284, 5, 227, 257⟩, ⟨285, 0, 258, 258⟩]

/-- What the symbol functions answer for an operand that no row covers; no command reaches it (log 19). -/
def noLenRow : LenRow := ⟨285, 0, 258, 258⟩

/-- The row whose range holds the length. -/
def lenRow (len : Nat) : LenRow := (lenRows.find? (fun r => r.first ≤ len && len ≤ r.last)).getD noLenRow

/-- The row of a symbol. -/
def lenRowOfSym (sym : Nat) : LenRow := (lenRows.find? (fun r => r.sym == sym)).getD noLenRow

/-- `LenSym(len)` (30_encoding.md R126). -/
def lenSym (len : Nat) : Nat := (lenRow len).sym

/-- `LenBase(sym)`. -/
def lenBase (sym : Nat) : Nat := (lenRowOfSym sym).first

/-- `LenExtra(sym)`. -/
def lenExtra (sym : Nat) : Nat := (lenRowOfSym sym).extra

/-- `DistExtra(c)` (30_encoding.md R127). -/
def distExtra (c : Nat) : Nat := if c < 4 then 0 else (c - 2) / 2

/-- `DistBase(c)` (30_encoding.md R127). -/
def distBase (c : Nat) : Nat := if c < 4 then c + 1 else (2 + c % 2) * 2 ^ distExtra c + 1

/-- The last distance of code `c` (30_encoding.md R127). -/
def distLast (c : Nat) : Nat := distBase c + 2 ^ distExtra c - 1

/-- `DistSym(d)`: the code covering `d` (30_encoding.md R127). Above every code it answers 30; no command reaches it
(log 19). -/
def distSym (d : Nat) : Nat := ((List.range Config.dCodes).find? (fun c => d ≤ distLast c)).getD Config.dCodes

/-- `BL_ORDER` (30_encoding.md R129). -/
def blOrder : List Nat := [16, 17, 18, 0, 8, 7, 9, 6, 10, 5, 11, 4, 12, 3, 13, 2, 14, 1, 15]

/-- `BlExtra` (43_block_serializer.md R276): extra bits of a code-length symbol. -/
def blExtra (sym : Nat) : Nat := if sym = 16 then 2 else if sym = 17 then 3 else if sym = 18 then 7 else 0

/-- `BitReverse(v, k)` (42_huffman_builder.md R253): bit `i` of the result is bit `k - 1 - i` of `v`. -/
def bitReverse (v : Nat) : Nat → Nat
  | 0 => 0
  | k + 1 => v % 2 * 2 ^ k + bitReverse (v / 2) k

/-- The lengths of the fixed literal/length code (30_encoding.md R128, 42_huffman_builder.md R254). -/
def fixedLitLen (sym : Nat) : Nat :=
  if sym ≤ 143 then 8 else if sym ≤ 255 then 9 else if sym ≤ 279 then 7 else 8

/-- The fixed literal/length codes most significant bit first, as 30_encoding.md R128 lists them. -/
def fixedLitCodeMsb (sym : Nat) : Nat :=
  if sym ≤ 143 then 0x30 + sym
  else if sym ≤ 255 then 0x190 + (sym - 144)
  else if sym ≤ 279 then sym - 256
  else 0xC0 + (sym - 280)

/-- The fixed literal/length codes as stored: bit-reversed (42_huffman_builder.md R253, R254). -/
def fixedLitCode (sym : Nat) : Nat := bitReverse (fixedLitCodeMsb sym) (fixedLitLen sym)

/-- The lengths of the fixed distance code (42_huffman_builder.md R254). -/
def fixedDistLen (_code : Nat) : Nat := 5

/-- The fixed distance codes as stored (42_huffman_builder.md R254). -/
def fixedDistCode (code : Nat) : Nat := bitReverse code 5

end Sys2Proof.Machine
end

