-- ==== Sys2Proof/Machine/Huffman.lean ====
section
/-! DEFINITION. The Huffman tree builder (42_huffman_builder.md). -/

namespace Sys2Proof.Machine

/-- The two cost accumulators of a block (42_huffman_builder.md R240, R247). -/
structure Cost where
  optLen : Int
  staticLen : Int
deriving DecidableEq, Repr

/-- The fixed arguments of one call of `BuildTree` (42_huffman_builder.md R240). -/
structure TreeKind where
  elems : Nat
  stree : Option (Nat → Nat)
  extra : Nat → Nat
  base : Nat
  maxLength : Nat

/-- The literal/length call. -/
def litKind : TreeKind where
  elems := Config.lCodes
  stree := some fixedLitLen
  extra := fun i => lenExtra (257 + i)
  base := 257
  maxLength := Config.maxBits

/-- The distance call. -/
def distKind : TreeKind where
  elems := Config.dCodes
  stree := some fixedDistLen
  extra := distExtra
  base := 0
  maxLength := Config.maxBits

/-- The code-length call. -/
def blKind : TreeKind where
  elems := Config.blCodes
  stree := none
  extra := blExtra
  base := 0
  maxLength := Config.maxBlBits

/-- A code: lengths, bit-reversed codes (0 for a symbol of length 0: log 22), and the largest symbol used. -/
structure Code where
  len : Table Nat
  code : Table Nat
  maxCode : Nat
deriving DecidableEq, Repr

/-- The working storage of one call (42_huffman_builder.md R241); an absent cell is 0. -/
structure Work where
  freq : Table Nat
  depth : Table Nat
  dad : Table Nat
  len : Table Nat
  heap : Table Nat
  heapLen : Nat
  heapMax : Nat
  maxCode : Int
  blCount : Table Nat
  overflow : Nat
  cost : Cost
deriving DecidableEq, Repr

/-- The working storage before the leaves are entered. -/
def Work.start (freq : Table Nat) (cost : Cost) : Work where
  freq := freq
  depth := .empty
  dad := .empty
  len := .empty
  heap := .empty
  heapLen := 0
  heapMax := Config.heapSize
  maxCode := -1
  blCount := .empty
  overflow := 0
  cost := cost

/-- `Smaller(n, m)` (42_huffman_builder.md R242). -/
def smaller (w : Work) (n m : Nat) : Bool :=
  w.freq.get 0 n < w.freq.get 0 m
    || (w.freq.get 0 n == w.freq.get 0 m && w.depth.get 0 n ≤ w.depth.get 0 m)

/-- The child of heap position `j / 2` that the sift compares with. -/
def siftChild (w : Work) (j : Nat) : Nat :=
  if j < w.heapLen && smaller w (w.heap.get 0 (j + 1)) (w.heap.get 0 j) then j + 1 else j

/-- The loop of `DownHeap` with `v` in hand at position `k`. The bound counts turns; `k` at least doubles in each, so
`heapLen` turns are enough (log 12). -/
def siftLoop (v : Nat) : Nat → Nat → Work → Work
  | 0, k, w => { w with heap := w.heap.set 0 k v }
  | n + 1, k, w =>
    if 2 * k ≤ w.heapLen then
      let j := siftChild w (2 * k)
      if smaller w v (w.heap.get 0 j) then { w with heap := w.heap.set 0 k v }
      else siftLoop v n j { w with heap := w.heap.set 0 k (w.heap.get 0 j) }
    else { w with heap := w.heap.set 0 k v }

/-- `DownHeap(k)` (42_huffman_builder.md R243). -/
def downHeap (k : Nat) (w : Work) : Work := siftLoop (w.heap.get 0 k) w.heapLen k w

/-- Entering the leaf `n` if it is used (42_huffman_builder.md R244). -/
def addLeaf (w : Work) (n : Nat) : Work :=
  if w.freq.get 0 n ≠ 0 then
    { w with
      heapLen := w.heapLen + 1
      heap := w.heap.set 0 (w.heapLen + 1) n
      maxCode := n
      depth := w.depth.set 0 n 0 }
  else { w with len := w.len.set 0 n 0 }

/-- The leaf that 42_huffman_builder.md R244 forces next. -/
def forcedNode (w : Work) : Nat := if w.maxCode < 2 then (w.maxCode + 1).toNat else 0

/-- Forcing one leaf (42_huffman_builder.md R244). -/
def forceLeaf (kind : TreeKind) (w : Work) : Work :=
  let node := forcedNode w
  { w with
    maxCode := if w.maxCode < 2 then w.maxCode + 1 else w.maxCode
    heapLen := w.heapLen + 1
    heap := w.heap.set 0 (w.heapLen + 1) node
    freq := w.freq.set 0 node 1
    depth := w.depth.set 0 node 0
    cost := { optLen := w.cost.optLen - 1
              staticLen := w.cost.staticLen - ((kind.stree.map (fun f => (f node : Int))).getD 0) } }

/-- At least two codes (42_huffman_builder.md R244): at most two turns. -/
def forceLeaves (kind : TreeKind) : Nat → Work → Work
  | 0, w => w
  | n + 1, w => if w.heapLen < 2 then forceLeaves kind n (forceLeaf kind w) else w

/-- `for n in heap_len/2 down to 1: DownHeap(n)` (42_huffman_builder.md R245). -/
def heapify : Nat → Work → Work
  | 0, w => w
  | n + 1, w => heapify n (downHeap (n + 1) w)

/-- Removing the least node: its number, and the heap without it (42_huffman_builder.md R245). -/
def popLeast (w : Work) : Nat × Work :=
  (w.heap.get 0 1,
    downHeap 1 { w with heap := w.heap.set 0 1 (w.heap.get 0 w.heapLen), heapLen := w.heapLen - 1 })

/-- Storing a removed node at the top end of the heap array. -/
def shelve (n : Nat) (w : Work) : Work :=
  { w with heapMax := w.heapMax - 1, heap := w.heap.set 0 (w.heapMax - 1) n }

/-- One merge (42_huffman_builder.md R245). -/
def mergeStep (node : Nat) (w : Work) : Work :=
  let popped := popLeast w
  let n := popped.1
  let m := popped.2.heap.get 0 1
  let w := shelve m (shelve n popped.2)
  let w := { w with
    freq := w.freq.set 0 node (w.freq.get 0 n + w.freq.get 0 m)
    depth := w.depth.set 0 node (max (w.depth.get 0 n) (w.depth.get 0 m) + 1)
    dad := (w.dad.set 0 n node).set 0 m node
    heap := w.heap.set 0 1 node }
  downHeap 1 w

/-- Merging until one node is left. Each turn removes one node, so `heapLen` turns are enough (log 12). -/
def mergeLoop : Nat → Nat → Work → Work
  | 0, _, w => w
  | turns + 1, node, w =>
    let w := mergeStep node w
    if w.heapLen < 2 then w else mergeLoop turns (node + 1) w

/-- The extra bits of leaf `n` (42_huffman_builder.md R247). -/
def leafExtra (kind : TreeKind) (n : Nat) : Nat := if kind.base ≤ n then kind.extra (n - kind.base) else 0

/-- `CostTerms(n, bits)` (42_huffman_builder.md R247). -/
def costTerms (kind : TreeKind) (freq n bits : Nat) (c : Cost) : Cost where
  optLen := c.optLen + (freq * (bits + leafExtra kind n) : Nat)
  staticLen := c.staticLen + ((kind.stree.map (fun f => ((freq * (f n + leafExtra kind n) : Nat) : Int))).getD 0)

/-- The length of the node at heap place `h` (42_huffman_builder.md R246). -/
def bitLenStep (kind : TreeKind) (w : Work) (h : Nat) : Work :=
  let n := w.heap.get 0 h
  let deep := w.len.get 0 (w.dad.get 0 n) + 1
  let bits := if kind.maxLength < deep then kind.maxLength else deep
  let w := { w with
    len := w.len.set 0 n bits
    overflow := if kind.maxLength < deep then w.overflow + 1 else w.overflow }
  if (n : Int) ≤ w.maxCode then
    { w with
      blCount := w.blCount.set 0 bits (w.blCount.get 0 bits + 1)
      cost := costTerms kind (w.freq.get 0 n) n bits w.cost }
  else w

/-- The first pass: the root, then every node after its parent (42_huffman_builder.md R246). -/
def genBitLen (kind : TreeKind) (w : Work) : Work :=
  let w := { w with len := w.len.set 0 (w.heap.get 0 w.heapMax) 0, blCount := .empty, overflow := 0 }
  (List.range' (w.heapMax + 1) (Config.heapSize - 1 - w.heapMax)).foldl (bitLenStep kind) w

/-- The largest level at or below `bits` that has a leaf. -/
def fullLevel (blCount : Table Nat) : Nat → Nat
  | 0 => 0
  | bits + 1 => if blCount.get 0 (bits + 1) = 0 then fullLevel blCount bits else bits + 1

/-- One repair of the length counts (42_huffman_builder.md R249). -/
def repairStep (maxLength : Nat) (w : Work) : Work :=
  let bits := fullLevel w.blCount (maxLength - 1)
  let c := w.blCount.set 0 bits (w.blCount.get 0 bits - 1)
  let c := c.set 0 (bits + 1) (c.get 0 (bits + 1) + 2)
  let c := c.set 0 maxLength (c.get 0 maxLength - 1)
  { w with blCount := c, overflow := w.overflow - 2 }

/-- Repairs until no overflow is left (42_huffman_builder.md R249). Each turn lowers `overflow`, which bounds the turns. -/
def repairLoop (maxLength : Nat) : Nat → Work → Work
  | 0, w => w
  | n + 1, w => if w.overflow = 0 then w else repairLoop maxLength n (repairStep maxLength w)

/-- Giving length `bits` to the next `k` leaves below heap place `h` (42_huffman_builder.md R250); answers the place
reached. -/
def assignLevel (bits : Nat) : Nat → Nat → Work → Nat × Work
  | h, 0, w => (h, w)
  | 0, _, w => (0, w)
  | h + 1, k + 1, w =>
    let m := w.heap.get 0 h
    if w.maxCode < (m : Int) then assignLevel bits h (k + 1) w
    else if w.len.get 0 m ≠ bits then
      assignLevel bits h k { w with
        cost := { w.cost with
          optLen := w.cost.optLen + ((bits : Int) - ((w.len.get 0 m : Nat) : Int)) * ((w.freq.get 0 m : Nat) : Int) }
        len := w.len.set 0 m bits }
    else assignLevel bits h k w

/-- `for bits in max_length down to 1` (42_huffman_builder.md R250). -/
def assignLevels : Nat → Nat × Work → Nat × Work
  | 0, hw => hw
  | bits + 1, hw => assignLevels bits (assignLevel (bits + 1) hw.1 (hw.2.blCount.get 0 (bits + 1)) hw.2)

/-- Length limiting, when it is needed (42_huffman_builder.md R248 to R250). -/
def limitLengths (kind : TreeKind) (w : Work) : Work :=
  if w.overflow = 0 then w
  else (assignLevels kind.maxLength (Config.heapSize, repairLoop kind.maxLength w.overflow w)).2

/-- `next_code[bits]` of `GenCodes` (42_huffman_builder.md R252). -/
def nextCode (blCount : Table Nat) : Nat → Nat
  | 0 => 0
  | bits + 1 => (nextCode blCount bits + (if bits = 0 then 0 else blCount.get 0 bits)) * 2

/-- The table `next_code[1 .. 15]`. -/
def nextCodes (blCount : Table Nat) : Table Nat :=
  (List.range' 1 Config.maxBits).foldl (fun t bits => t.set 0 bits (nextCode blCount bits)) .empty

/-- One symbol of `GenCodes`: the codes so far, and the next code of each length (42_huffman_builder.md R252). -/
def genCodeStep (len : Table Nat) (acc : Table Nat × Table Nat) (n : Nat) : Table Nat × Table Nat :=
  let l := len.get 0 n
  if l = 0 then acc
  else (acc.1.set 0 n (bitReverse (acc.2.get 0 l) l), acc.2.set 0 l (acc.2.get 0 l + 1))

/-- `GenCodes(len, max_code, bl_count)` (42_huffman_builder.md R252). The rule assigns no code to a symbol of length 0, though
R240 returns the whole table: its entry is 0 here. DESIGN CHOICE (log 22); no output reads such an entry. -/
def genCodes (len : Table Nat) (maxCode : Nat) (blCount : Table Nat) : Table Nat :=
  ((List.range (maxCode + 1)).foldl (genCodeStep len) (.empty, nextCodes blCount)).1

/-- The heap of the leaves of a call, at least two of them (42_huffman_builder.md R244, R245). -/
def buildHeap (kind : TreeKind) (freq : Table Nat) (cost : Cost) : Work :=
  let w := forceLeaves kind 2 ((List.range kind.elems).foldl addLeaf (Work.start freq cost))
  heapify (w.heapLen / 2) w

/-- The tree with the lengths of its leaves (42_huffman_builder.md R245 to R250). -/
def growTree (kind : TreeKind) (w : Work) : Work :=
  let w := mergeLoop w.heapLen kind.elems w
  limitLengths kind (genBitLen kind (shelve (w.heap.get 0 1) w))

/-- `BuildTree` (42_huffman_builder.md R240): the code, and the accumulators with this call's terms. -/
def buildTree (kind : TreeKind) (freq : Table Nat) (cost : Cost) : Code × Cost :=
  let w := growTree kind (buildHeap kind freq cost)
  let maxCode := w.maxCode.toNat
  ({ len := w.len, code := genCodes w.len maxCode w.blCount, maxCode := maxCode }, w.cost)

end Sys2Proof.Machine
end

