-- ==== Sys2Proof/Machine/Block.lean ====
section
/-! DEFINITION. Block tallies, block choice and sending a block (43_block_serializer.md sections 1 to 4). -/

namespace Sys2Proof.Machine

/-- `InitBlock()` (43_block_serializer.md R271). -/
def initBlock (t : Stream) : Stream :=
  { t with lfreq := Table.empty.set 0 256 1, dfreq := .empty, syms := [] }

/-- The symbol buffer has reached `LIT_BUFSIZE - 1` entries (41_lz77.md R210, 43_block_serializer.md R272). -/
def symsFull (t : Stream) : Bool := t.syms.length == Config.litBufsize - 1

/-- One more occurrence in a counter table. -/
def bump (freq : Table Nat) (sym : Nat) : Table Nat := freq.set 0 sym (freq.get 0 sym + 1)

/-- `TallyLit(b)` (43_block_serializer.md R272); its answer is `symsFull` afterwards. -/
def tallyLit (b : Byte) (t : Stream) : Stream :=
  { t with syms := .lit b :: t.syms, lfreq := bump t.lfreq b.toNat }

/-- `TallyDist(dist, len)` (43_block_serializer.md R272); its answer is `symsFull` afterwards. -/
def tallyDist (dist len : Nat) (t : Stream) : Stream :=
  { t with
    syms := .copy dist len :: t.syms
    lfreq := bump t.lfreq (lenSym len)
    dfreq := bump t.dfreq (distSym dist) }

/-- A code-length symbol with its extra value and number of extra bits (43_block_serializer.md R274). -/
structure RunOp where
  sym : Nat
  value : Nat
  bits : Nat
deriving DecidableEq, Repr

/-- `GUARD` (43_block_serializer.md R274): equal to no length. -/
def guardLen : Nat := 0xFFFF

/-- `(max_count, min_count)` for the run that starts at `next`, after a run of `cur` (43_block_serializer.md R274). -/
def runLimits (next : Nat) (cur : Option Nat) : Nat × Nat :=
  if next = 0 then (138, 3) else if cur = some next then (6, 3) else (7, 4)

/-- The ops of a finished run of `count` lengths `cur` (43_block_serializer.md R274). -/
def runEmit (cur count minCount : Nat) (prev : Option Nat) : List RunOp :=
  if count < minCount then List.replicate count ⟨cur, 0, 0⟩
  else if cur ≠ 0 then
    if prev ≠ some cur then [⟨cur, 0, 0⟩, ⟨16, count - 1 - 3, 2⟩] else [⟨16, count - 3, 2⟩]
  else if count ≤ 10 then [⟨17, count - 3, 3⟩]
  else [⟨18, count - 11, 7⟩]

/-- The loop of `RunOps` over the lengths still to describe (43_block_serializer.md R274). -/
def runLoop : List Nat → Option Nat → Nat → Nat × Nat → List RunOp
  | [], _, _, _ => []
  | cur :: rest, prev, count, limits =>
    let next := rest.headD guardLen
    if count + 1 < limits.1 ∧ cur = next then runLoop rest prev (count + 1) limits
    else runEmit cur (count + 1) limits.2 prev ++ runLoop rest (some cur) 0 (runLimits next (some cur))

/-- `RunOps` on the list of lengths `len[0 .. max_code]` (43_block_serializer.md R274). -/
def runOpsOf (lens : List Nat) : List RunOp := runLoop lens none 0 (runLimits (lens.headD guardLen) none)

/-- The lengths `len[0 .. max_code]` of a code. -/
def codeLens (c : Code) : List Nat := (List.range (c.maxCode + 1)).map (c.len.get 0)

/-- `RunOps(len, max_code)` of a code. -/
def runOps (c : Code) : List RunOp := runOpsOf (codeLens c)

/-- `BlFreq` (43_block_serializer.md R277). -/
def blFreq (lit dist : Code) : Table Nat :=
  (runOps lit ++ runOps dist).foldl (fun t op => bump t op.sym) .empty

/-- The search of 43_block_serializer.md R275 from index `r` down. -/
def maxBlindexFrom (blLen : Table Nat) : Nat → Nat
  | 0 => 0
  | r + 1 => if 3 ≤ r + 1 ∧ blLen.get 0 (blOrder.getD (r + 1) 0) = 0 then maxBlindexFrom blLen r else r + 1

/-- `max_blindex` (43_block_serializer.md R275). -/
def maxBlindex (blLen : Table Nat) : Nat := maxBlindexFrom blLen 18

/-- `SendBits` of a symbol's code. -/
def sendSym (code len : Nat → Nat) (sym : Nat) (t : Stream) : Stream := sendBits (code sym) (len sym) t

/-- `SendBits` of extra bits, when there are any. -/
def sendExtra (v n : Nat) (t : Stream) : Stream := if n > 0 then sendBits v n t else t

/-- `SendTree` (43_block_serializer.md R279). -/
def sendTree (c bl : Code) (t : Stream) : Stream :=
  (runOps c).foldl (fun t op => sendExtra op.value op.bits (sendSym (bl.code.get 0) (bl.len.get 0) op.sym t)) t

/-- `SendAllTrees` (43_block_serializer.md R280) with `blcodes = maxBl + 1`. -/
def sendAllTrees (lit dist bl : Code) (maxBl : Nat) (t : Stream) : Stream :=
  let t := sendBits (lit.maxCode + 1 - 257) 5 t
  let t := sendBits (dist.maxCode + 1 - 1) 5 t
  let t := sendBits (maxBl + 1 - 4) 4 t
  let t := (blOrder.take (maxBl + 1)).foldl (fun t sym => sendBits (bl.len.get 0 sym) 3 t) t
  sendTree dist bl (sendTree lit bl t)

/-- BFINAL as a number. -/
def finalBit (last : Bool) : Nat := if last then 1 else 0

/-- The 3-bit block header (30_encoding.md R123). -/
def sendHeader (btype : Nat) (last : Bool) (t : Stream) : Stream := sendBits (btype * 2 + finalBit last) 3 t

/-- LEN and NLEN of a stored block (43_block_serializer.md R282). -/
def storedLengths (n : Nat) : List Byte :=
  let v : BitVec 16 := BitVec.ofNat 16 n
  [v.extractLsb' 0 8, v.extractLsb' 8 8, (~~~v).extractLsb' 0 8, (~~~v).extractLsb' 8 8]

/-- `SendStoredBlock(buf, n, last)` (43_block_serializer.md R282) with `n` the length of `buf`. -/
def sendStoredBlock (buf : List Byte) (last : Bool) (t : Stream) : Stream :=
  putBytes buf (putBytes (storedLengths buf.length) (alignByte (sendHeader 0 last t)))

/-- One symbol of `CompressBlock` (43_block_serializer.md R283). -/
def sendEntry (lcode llen dcode dlen : Nat → Nat) (t : Stream) : Sym → Stream
  | .lit b => sendSym lcode llen b.toNat t
  | .copy dist len =>
    let s := lenSym len
    let t := sendExtra (len - lenBase s) (lenExtra s) (sendSym lcode llen s t)
    let c := distSym dist
    sendExtra (dist - distBase c) (distExtra c) (sendSym dcode dlen c t)

/-- `CompressBlock` (43_block_serializer.md R283). -/
def compressBlock (lcode llen dcode dlen : Nat → Nat) (t : Stream) : Stream :=
  sendSym lcode llen 256 (t.syms.reverse.foldl (sendEntry lcode llen dcode dlen) t)

/-- The three codes of a block with its cost estimates (43_block_serializer.md R276). -/
structure BlockCodes where
  lit : Code
  dist : Code
  bl : Code
  maxBl : Nat
  /-- `acc` after the header terms have been added. -/
  cost : Cost
deriving DecidableEq, Repr

/-- The three calls of `BuildTree` and the header terms (43_block_serializer.md R276). -/
def blockCodes (lfreq dfreq : Table Nat) : BlockCodes :=
  let l := buildTree litKind lfreq ⟨0, 0⟩
  let d := buildTree distKind dfreq l.2
  let b := buildTree blKind (blFreq l.1 d.1) d.2
  let maxBl := maxBlindex b.1.len
  { lit := l.1
    dist := d.1
    bl := b.1
    maxBl := maxBl
    cost := { b.2 with optLen := b.2.optLen + ((3 * (maxBl + 1) + 5 + 5 + 4 : Nat) : Int) } }

/-- An estimate in whole bytes: the bits, 3 header bits, rounded up (43_block_serializer.md R276, R278). -/
def costBytes (bits : Int) : Int := (bits + 3 + 7) / 8

/-- Which form a block takes (43_block_serializer.md R278). -/
inductive BlockForm where
  | stored | fixed | dynamic
deriving DecidableEq, Repr

/-- The comparison of 43_block_serializer.md R276 on the dynamic and fixed estimates in bytes. -/
def chooseForm (hasBuf : Bool) (storedLen optB staticB : Int) : BlockForm :=
  let optB := if staticB ≤ optB then staticB else optB
  if hasBuf && decide (storedLen + 4 ≤ optB) then .stored
  else if staticB = optB then .fixed
  else .dynamic

/-- The form of a block of a level above 0, and of a block of level 0, whose two estimates are `stored_len + 5`
(43_block_serializer.md R276, R278). -/
def blockForm (level : Nat) (hasBuf : Bool) (storedLen : Int) (cost : Cost) : BlockForm :=
  if level > 0 then chooseForm hasBuf storedLen (costBytes cost.optLen) (costBytes cost.staticLen)
  else chooseForm hasBuf storedLen (storedLen + 5) (storedLen + 5)

/-- Sending a block in a form (43_block_serializer.md R276, R281). -/
def sendBlock (form : BlockForm) (bc : BlockCodes) (buf : List Byte) (last : Bool) (t : Stream) : Stream :=
  match form with
  | .stored => sendStoredBlock buf last t
  | .fixed => compressBlock fixedLitCode fixedLitLen fixedDistCode fixedDistLen (sendHeader 1 last t)
  | .dynamic =>
    compressBlock (bc.lit.code.get 0) (bc.lit.len.get 0) (bc.dist.code.get 0) (bc.dist.len.get 0)
      (sendAllTrees bc.lit bc.dist bc.bl bc.maxBl (sendHeader 2 last t))

/-- `FlushBlock(buf, stored_len, last)` (43_block_serializer.md R276). The codes are built from the tallies at every level
here; at level 0 nothing reads them, so that no tree is built there. -/
def flushBlock (buf : Option (List Byte)) (storedLen : Int) (last : Bool) (t : Stream) : Stream :=
  let bc := blockCodes t.lfreq t.dfreq
  let form := blockForm t.level buf.isSome storedLen bc.cost
  let t := initBlock (sendBlock form bc (buf.getD []) last t)
  if last then alignByte t else t

end Sys2Proof.Machine
end

