-- ==== Sys2Proof/Machine/Lz77.lean ====
section
/-! DEFINITION. The match finder and the three strategies (41_lz77.md). -/

namespace Sys2Proof.Machine

/-- `W_SIZE` (10_state.md R41). -/
def Stream.wSize (t : Stream) : Nat := 2 ^ t.wBits

/-- `WINDOW_BYTES`: the length of `S.window` (00_scope.md R7, 10_state.md R42). -/
def Stream.windowBytes (t : Stream) : Nat := 2 * t.wSize

/-- `MAX_DIST` (10_state.md R41). -/
def Stream.maxDist (t : Stream) : Nat := t.wSize - Config.minLookahead

/-- `S.window[i]`. -/
def Stream.windowAt (t : Stream) (i : Nat) : Byte := t.window.get 0 i

/-- An entry of `S.head` or `S.prev` after a slide by `size` (41_lz77.md R205). -/
def slidePos (size : Nat) (m : BitVec 16) : BitVec 16 :=
  if size ≤ m.toNat then BitVec.ofNat 16 (m.toNat - size) else 0

/-- `S.prev[i]`: a cell that nothing has written since INIT reads the free value INIT left there (10_state.md R53; log 5),
lowered by the slides since (41_lz77.md R205). -/
def Stream.prevAt (t : Stream) (i : Nat) : Nat :=
  ((t.prev.read? i).getD (slidePos t.prevLowered (Config.freePrev t.prevEpoch i))).toNat

/-- `UpdateHash(h, c)` on 15-bit hashes (41_lz77.md R200). -/
def updateHash (h : BitVec Config.hashBits) (c : Byte) : BitVec Config.hashBits :=
  (h <<< Config.hashShift) ^^^ c.setWidth Config.hashBits

/-- `InsertString(p)` without its answer (41_lz77.md R201). -/
def insertString (p : Nat) (t : Stream) : Stream :=
  let h := updateHash t.insH (t.windowAt (p + 2))
  { t with
    insH := h
    prev := t.prev.write (p % t.wSize) (t.head.get 0 h.toNat)
    head := t.head.set 0 h.toNat (BitVec.ofNat 16 p) }

/-- The answer of `InsertString(p)`: the previous head of its chain (41_lz77.md R201). -/
def insertAnswer (p : Nat) (t : Stream) : Nat := (t.head.get 0 (updateHash t.insH (t.windowAt (p + 2))).toNat).toNat

/-- `S.window[0 .. size) <- S.window[size .. 2 * size)`. -/
def slideWindow (size : Nat) (window : Table Byte) : Table Byte :=
  (List.range size).foldl (fun win i => win.set 0 i (win.get 0 (i + size))) window

/-- `Slide()` (41_lz77.md R205). `prevLowered` takes the cells of `S.prev` that nothing has written down with the others
(log 5). -/
def slide (t : Stream) : Stream :=
  let size := t.wSize
  { t with
    window := slideWindow size t.window
    matchStart := t.matchStart - size
    strstart := t.strstart - size
    blockStart := t.blockStart - size
    insert := if t.insert > t.strstart - size then t.strstart - size else t.insert
    head := t.head.mapCells (fun m => if slidePos size m = 0 then none else some (slidePos size m))
    prev := t.prev.mapCells (fun m => some (slidePos size m))
    prevLowered := min (t.prevLowered + size) 65536 }

/-- Loading `S.ins_h` from the two bytes at `st` (41_lz77.md R204, R213). -/
def preloadHash (st : Nat) (t : Stream) : Stream :=
  { t with insH := updateHash ((t.windowAt st).setWidth Config.hashBits) (t.windowAt (st + 1)) }

/-- `while S.insert != 0` of 41_lz77.md R204, at window index `st`, with `n` = `S.insert` turns at most. -/
def insertDeferred : Nat → Nat → Stream → Stream
  | 0, _, t => t
  | n + 1, st, t =>
    let t := { insertString st t with insert := n }
    if t.lookahead + n < 3 then t else insertDeferred n (st + 1) t

/-- What follows a read in `FillWindow`: the new lookahead and the deferred insertions (41_lz77.md R204). -/
def afterRead (k : Nat) (t : Stream) : Stream :=
  let t := { t with lookahead := t.lookahead + k }
  if t.strategy ≠ .stored ∧ 3 ≤ t.lookahead + t.insert then
    let st := t.strstart - t.insert
    insertDeferred t.insert st (preloadHash st t)
  else t

/-- `Slide()` when `FillWindow` needs it (41_lz77.md R204). -/
def slideIfFull (t : Stream) : Stream := if t.wSize + t.maxDist ≤ t.strstart then slide t else t

/-- `more` of `FillWindow`, after the slide if there is one (41_lz77.md R204). -/
def windowRoom (t : Stream) : Nat :=
  let more := t.windowBytes - t.lookahead - t.strstart
  if t.wSize + t.maxDist ≤ t.strstart then more + t.wSize else more

/-- The read of one turn of `FillWindow`, in a window that has slid, with room for `more` bytes. -/
def fillRead (more : Nat) (s : State) : State :=
  (readInput more (s.stream.strstart + s.stream.lookahead) s).onStream (afterRead (readCount more s))

/-- `FillWindow()` (41_lz77.md R204). Every turn but the last reads input, which bounds the turns (log 12). -/
def fillLoop : Nat → State → State
  | 0, s => s
  | n + 1, s =>
    let more := windowRoom s.stream
    let s := s.onStream slideIfFull
    if s.inAvail = 0 then s
    else
      let s := fillRead more s
      if s.stream.lookahead < Config.minLookahead ∧ s.inAvail ≠ 0 then fillLoop n s else s

/-- `FillWindow()` (41_lz77.md R204). -/
def fillWindow (s : State) : State := fillLoop (s.inAvail.toNat + 1) s

/-- The largest `k <= cap` with `S.window[a .. a+k) = S.window[b .. b+k)` (41_lz77.md R209). -/
def matchRun (t : Stream) : Nat → Nat → Nat → Nat
  | 0, _, _ => 0
  | cap + 1, a, b => if t.windowAt a = t.windowAt b then matchRun t cap (a + 1) (b + 1) + 1 else 0

/-- `cap` of `LongestMatch` (41_lz77.md R209). -/
def matchCap (t : Stream) : Nat := min Config.maxMatch t.lookahead

/-- `nice` of `LongestMatch` (41_lz77.md R209). -/
def niceLength (t : Stream) : Nat := if t.lookahead < t.niceMatch then t.lookahead else t.niceMatch

/-- `chain` of `LongestMatch` (41_lz77.md R209). -/
def chainLength (t : Stream) : Nat := if t.goodMatch ≤ t.prevLength then t.maxChain / 4 else t.maxChain

/-- `limit` of `LongestMatch` (41_lz77.md R209). -/
def chainLimit (t : Stream) : Nat := if t.maxDist < t.strstart then t.strstart - t.maxDist else 0

/-- The loop of `LongestMatch` with `chain` candidates left, the first at `cur` (41_lz77.md R209). It answers the best
length and where its match starts. -/
def chainLoop (t : Stream) : Nat → Nat → Nat → Int → Nat × Int
  | 0, _, best, start => (best, start)
  | chain + 1, cur, best, start =>
    let len := matchRun t (matchCap t) cur t.strstart
    let next := t.prevAt (cur % t.wSize)
    if best < len then
      if niceLength t ≤ len then (len, (cur : Int))
      else if chainLimit t < next ∧ chain ≠ 0 then chainLoop t chain next len (cur : Int)
      else (len, (cur : Int))
    else if chainLimit t < next ∧ chain ≠ 0 then chainLoop t chain next best start
    else (best, start)

/-- What the search from candidate `cur` finds: a length and a start (41_lz77.md R209). -/
def searchChain (cur : Nat) (t : Stream) : Nat × Int := chainLoop t (chainLength t) cur t.prevLength t.matchStart

/-- `LongestMatch(cur)` as an update: `S.match_start` moves to the best match, and the answer goes to `S.match_length`, as
both of its callers do (41_lz77.md R209, R213, R214). -/
def longestMatch (cur : Nat) (t : Stream) : Stream :=
  let found := searchChain cur t
  { t with matchStart := found.2, matchLength := min found.1 t.lookahead }

/-- The block's bytes, while they are still in the window (41_lz77.md R211). -/
def blockBytes (t : Stream) : Option (List Byte) :=
  if 0 ≤ t.blockStart then
    some ((List.range' t.blockStart.toNat (t.strstart - t.blockStart.toNat)).map t.windowAt)
  else none

/-- `FlushBlockOnly(last)` without its `FlushPending` (41_lz77.md R211). -/
def closeBlock (last : Bool) (t : Stream) : Stream :=
  { flushBlock (blockBytes t) (t.strstart - t.blockStart) last t with blockStart := t.strstart }

/-- `FlushBlockOnly(last)` (41_lz77.md R211); `FlushBlockChk` then tests OUT_AVAIL. -/
def flushBlockOnly (last : Bool) (s : State) : State := flushPending (s.onStream (closeBlock last))

/-- `FlushBlockChk(1)` as the end of a FINISH (41_lz77.md R215, R216). -/
def finalBlock (s : State) : BlockState × State :=
  let s := flushBlockOnly true s
  (if s.outAvail = 0 then .finishStarted else .finishDone, s)

/-- `FlushBlockChk(0)` before a flush point (41_lz77.md R215, R216). -/
def flushPoint (s : State) : BlockState × State :=
  let s := flushBlockOnly false s
  (if s.outAvail = 0 then .needMore else .blockDone, s)

/-- `FinishStrategy(f)` (41_lz77.md R216). -/
def finishStrategy (f : Flush) (s : State) : BlockState × State :=
  let s := s.onStream (fun t => { t with insert := min t.strstart 2 })
  if f = .finish then finalBlock s
  else if s.stream.syms ≠ [] then flushPoint s
  else (.blockDone, s)

/-- The hash lookup: the insertion (41_lz77.md R207). -/
def lookupInsert (t : Stream) : Stream := if 3 ≤ t.lookahead then insertString t.strstart t else t

/-- The hash lookup: the candidate, 0 for none (41_lz77.md R207). -/
def lookupHead (t : Stream) : Nat := if 3 ≤ t.lookahead then insertAnswer t.strstart t else 0

/-- A candidate that may be searched from: not NIL and not too far (41_lz77.md R202, R207). -/
def searchable (t : Stream) (h : Nat) : Bool := h != 0 && decide ((t.strstart : Int) - h ≤ t.maxDist)

/-- `repeat: S.strstart <- S.strstart + 1 ; InsertString(S.strstart)`, `n` times (41_lz77.md R213). -/
def advanceInserting : Nat → Stream → Stream
  | 0, t => t
  | n + 1, t => advanceInserting n (insertString (t.strstart + 1) { t with strstart := t.strstart + 1 })

/-- The distance from `here` back to the start of a match. -/
def distanceFrom (here start : Int) : Nat := (here - start).toNat

/-- The match search of one iteration of `DeflateFast` (41_lz77.md R213). -/
def fastSearch (t : Stream) : Stream :=
  let h := lookupHead t
  let t := lookupInsert t
  if searchable t h then longestMatch h t else t

/-- Emitting the match that `DeflateFast` found (41_lz77.md R213). -/
def fastMatch (t : Stream) : Stream :=
  let len := t.matchLength
  let t := tallyDist (distanceFrom t.strstart t.matchStart) len t
  let t := { t with lookahead := t.lookahead - len }
  if len ≤ t.maxLazy ∧ 3 ≤ t.lookahead then
    let t := advanceInserting (len - 1) t
    { t with strstart := t.strstart + 1, matchLength := 0 }
  else
    let t := { t with strstart := t.strstart + len, matchLength := 0 }
    preloadHash t.strstart t

/-- Emitting the byte at `S.strstart` (41_lz77.md R213). -/
def fastLiteral (t : Stream) : Stream :=
  let t := tallyLit (t.windowAt t.strstart) t
  { t with lookahead := t.lookahead - 1, strstart := t.strstart + 1 }

/-- One iteration of `DeflateFast` on a filled window (41_lz77.md R213). -/
def fastStep (t : Stream) : Stream :=
  let t := fastSearch t
  if 3 ≤ t.matchLength then fastMatch t else fastLiteral t

/-- The window fill at the top of an iteration (41_lz77.md R213, R214). -/
def refill (s : State) : State := if s.stream.lookahead < Config.minLookahead then fillWindow s else s

/-- The loop of `DeflateFast`. Every turn consumes a byte of input or lookahead, which bounds the turns (log 12). -/
def fastLoop (f : Flush) : Nat → State → BlockState × State
  | 0, s => (.needMore, s)
  | n + 1, s =>
    let s := refill s
    if s.stream.lookahead < Config.minLookahead ∧ f = .noFlush then (.needMore, s)
    else if s.stream.lookahead = 0 then finishStrategy f s
    else
      let s := s.onStream fastStep
      if symsFull s.stream then
        let s := flushBlockOnly false s
        if s.outAvail = 0 then (.needMore, s) else fastLoop f n s
      else fastLoop f n s

/-- The turns that the lookahead and the input can feed, and the last one. -/
def turnBound (s : State) : Nat := s.stream.lookahead + s.inAvail.toNat + 1

/-- `DeflateFast(f)` (41_lz77.md R213). -/
def deflateFast (f : Flush) (s : State) : BlockState × State := fastLoop f (turnBound s) s

/-- `repeat: S.strstart <- S.strstart + 1 ; if S.strstart <= max_insert: InsertString(S.strstart)`, `n` times
(41_lz77.md R214). -/
def advanceLazily (maxInsert : Nat) : Nat → Stream → Stream
  | 0, t => t
  | n + 1, t =>
    let t := { t with strstart := t.strstart + 1 }
    advanceLazily maxInsert n (if t.strstart ≤ maxInsert then insertString t.strstart t else t)

/-- The match search of one iteration of `DeflateSlow` (41_lz77.md R214). -/
def slowSearch (t : Stream) : Stream :=
  let h := lookupHead t
  let t := lookupInsert t
  let t := { t with prevLength := t.matchLength, prevMatch := t.matchStart, matchLength := 2 }
  if searchable t h && decide (t.prevLength < t.maxLazy) then
    let t := longestMatch h t
    if t.matchLength = 3 ∧ (Config.tooFar : Int) < t.strstart - t.matchStart then { t with matchLength := 2 } else t
  else t

/-- Emitting the held match (41_lz77.md R214). -/
def slowMatch (t : Stream) : Stream :=
  let maxInsert := t.strstart + t.lookahead - 3
  let len := t.prevLength
  let t := tallyDist (distanceFrom ((t.strstart : Int) - 1) t.prevMatch) len t
  let t := { t with lookahead := t.lookahead - (len - 1) }
  let t := advanceLazily maxInsert (len - 2) t
  { t with prevLength := 0, matchAvailable := false, matchLength := 2, strstart := t.strstart + 1 }

/-- Emitting the held literal (41_lz77.md R214), before the block is ended if it is full. -/
def slowLiteral (t : Stream) : Stream := tallyLit (t.windowAt (t.strstart - 1)) t

/-- `S.strstart <- S.strstart + 1 ; S.lookahead <- S.lookahead - 1` (41_lz77.md R214). -/
def passByte (t : Stream) : Stream := { t with strstart := t.strstart + 1, lookahead := t.lookahead - 1 }

/-- The held literal at the end of the input (41_lz77.md R214). -/
def slowLast (t : Stream) : Stream :=
  if t.matchAvailable then { slowLiteral t with matchAvailable := false } else t

/-- The loop of `DeflateSlow`. Every turn consumes a byte of input or lookahead, which bounds the turns (log 12). -/
def slowLoop (f : Flush) : Nat → State → BlockState × State
  | 0, s => (.needMore, s)
  | n + 1, s =>
    let s := refill s
    if s.stream.lookahead < Config.minLookahead ∧ f = .noFlush then (.needMore, s)
    else if s.stream.lookahead = 0 then finishStrategy f (s.onStream slowLast)
    else
      let s := s.onStream slowSearch
      if 3 ≤ s.stream.prevLength ∧ s.stream.matchLength ≤ s.stream.prevLength then
        let s := s.onStream slowMatch
        if symsFull s.stream then
          let s := flushBlockOnly false s
          if s.outAvail = 0 then (.needMore, s) else slowLoop f n s
        else slowLoop f n s
      else if s.stream.matchAvailable then
        let s := s.onStream slowLiteral
        let s := if symsFull s.stream then flushBlockOnly false s else s
        let s := s.onStream passByte
        if s.outAvail = 0 then (.needMore, s) else slowLoop f n s
      else slowLoop f n (s.onStream (fun t => passByte { t with matchAvailable := true }))

/-- `DeflateSlow(f)` (41_lz77.md R214). -/
def deflateSlow (f : Flush) (s : State) : BlockState × State := slowLoop f (turnBound s) s

/-- `max_start` (41_lz77.md R215). -/
def maxStart (t : Stream) : Int := t.blockStart + Config.maxBlock

/-- Taking the whole lookahead into the block, up to `MAX_BLOCK` bytes of block (41_lz77.md R215). -/
def storedTake (t : Stream) : Stream :=
  let stop := t.strstart + t.lookahead
  if maxStart t ≤ stop then
    { t with lookahead := (stop - maxStart t).toNat, strstart := (maxStart t).toNat }
  else { t with lookahead := 0, strstart := stop }

/-- The block holds `MAX_BLOCK` bytes (41_lz77.md R215). -/
def storedBlockFull (t : Stream) : Bool := maxStart t ≤ t.strstart

/-- The block holds `MAX_DIST` bytes (41_lz77.md R215). -/
def storedBlockLong (t : Stream) : Bool := (t.maxDist : Int) ≤ t.strstart - t.blockStart

/-- The end of `DeflateStored`, the input being exhausted (41_lz77.md R215). -/
def storedEnd (f : Flush) (s : State) : BlockState × State :=
  let s := s.onStream (fun t => { t with insert := 0 })
  if f = .finish then finalBlock s
  else if s.stream.blockStart < s.stream.strstart then flushPoint s
  else (.blockDone, s)

/-- The loop of `DeflateStored`. Every turn consumes a byte of input or lookahead, but for one that starts with an
overlong block; that bounds the turns (log 12). -/
def storedLoop (f : Flush) : Nat → State → BlockState × State
  | 0, s => (.needMore, s)
  | n + 1, s =>
    let s := if s.stream.lookahead ≤ 1 then fillWindow s else s
    if s.stream.lookahead = 0 then
      if f = .noFlush then (.needMore, s) else storedEnd f s
    else
      let full := storedBlockFull (storedTake s.stream)
      let s := s.onStream storedTake
      let s := if full then flushBlockOnly false s else s
      if full && s.outAvail == 0 then (.needMore, s)
      else
        let long := storedBlockLong s.stream
        let s := if long then flushBlockOnly false s else s
        if long && s.outAvail == 0 then (.needMore, s) else storedLoop f n s

/-- `DeflateStored(f)` (41_lz77.md R215). -/
def deflateStored (f : Flush) (s : State) : BlockState × State :=
  storedLoop f (turnBound s + s.stream.strstart + s.stream.blockStart.natAbs + 1) s

/-- `RunStrategy(f)` (41_lz77.md R212). -/
def runStrategy (f : Flush) (s : State) : BlockState × State :=
  match s.stream.strategy with
  | .stored => deflateStored f s
  | .fast => deflateFast f s
  | .slow => deflateSlow f s

end Sys2Proof.Machine
end

