-- ==== Sys2Proof/Machine/Operands.lean ====
section
/-! DEFINITION. The operands of the commands: INIT's LEVEL and WBITS, and the buffer registers DEFLATE checks. -/

namespace Sys2Proof.Machine

/-- The level of a LEVEL field, 15 being the default level 6; `none` for a reserved value (30_encoding.md R114). -/
def levelOperand (level : BitVec 4) : Option Nat :=
  if level = 15 then some 6 else if level.toNat ≤ 9 then some level.toNat else none

/-- The wrapper and window log2 of a WBITS field, read as the signed 8-bit integer of 30_encoding.md R115; `none` for a
reserved value. -/
def wbitsOperand (wbits : BitVec 8) : Option (Wrap × Nat) :=
  let w := wbits.toInt
  if -15 ≤ w ∧ w ≤ -8 then some (.raw, (-w).toNat)
  else if 8 ≤ w ∧ w ≤ 15 then some (.zlib, w.toNat)
  else if 24 ≤ w ∧ w ≤ 31 then some (.gzip, (w - 16).toNat)
  else none

/-- `NullFault()` (40_commands.md R157). -/
def nullFault (s : State) : Bool :=
  s.outPtr == 0 || (s.inAvail != 0 && s.inPtr == 0)

/-- The buffer wraps around the end of the address space (20_memory.md R86). -/
def wraps (ptr avail : Word) : Bool := 2 ^ Config.addrW < ptr.toNat + avail.toNat

/-- Address `a` lies in the buffer `[ptr, ptr + avail)`. -/
def inRange (ptr avail : Word) (a : Nat) : Bool := ptr.toNat ≤ a && a < ptr.toNat + avail.toNat

/-- Both buffers are non-empty and intersect (20_memory.md R86). -/
def overlap (inPtr inAvail outPtr outAvail : Word) : Bool :=
  inAvail != 0 && (outAvail != 0 &&
    (decide (inPtr.toNat < outPtr.toNat + outAvail.toNat) && decide (outPtr.toNat < inPtr.toNat + inAvail.toNat)))

/-- `RangeFault()` (40_commands.md R157, 20_memory.md R86). -/
def rangeFault (s : State) : Bool :=
  wraps s.inPtr s.inAvail || wraps s.outPtr s.outAvail || overlap s.inPtr s.inAvail s.outPtr s.outAvail

end Sys2Proof.Machine
end

