-- ==== Sys2Proof/Machine/Deflate.lean ====
section
/-! DEFINITION. DEFLATE (40_commands.md section 4). -/

namespace Sys2Proof.Machine

/-- FLEVEL (30_encoding.md R121). -/
def levelHint (level : Nat) : Nat :=
  if level < 2 then 0 else if level ≤ 5 then 1 else if level = 6 then 2 else 3

/-- The 16-bit zlib header before its check bits (30_encoding.md R121). -/
def zlibHeaderBase (level reqWbits : Nat) : Nat :=
  (8 + (reqWbits - 8) * 16) * 256 + levelHint level * 64

/-- The 16-bit zlib header `H` (30_encoding.md R121). -/
def zlibHeader (level reqWbits : Nat) : Nat :=
  zlibHeaderBase level reqWbits + (31 - zlibHeaderBase level reqWbits % 31)

/-- XFL of the gzip header (30_encoding.md R122). -/
def gzipXfl (level : Nat) : Byte := if level = 9 then 2 else if level < 2 then 4 else 0

/-- The bytes of the wrapper header (30_encoding.md R120 to R122). -/
def headerBytes (wrap : Wrap) (level reqWbits : Nat) : List Byte :=
  match wrap with
  | .raw => []
  | .zlib => [BitVec.ofNat 8 (zlibHeader level reqWbits / 256), BitVec.ofNat 8 (zlibHeader level reqWbits)]
  | .gzip => [0x1F, 0x8B, 0x08, 0x00, 0x00, 0x00, 0x00, 0x00, gzipXfl level, Config.gzipOs]

/-- `EmitHeader()` (40_commands.md R156). -/
def emitHeader (t : Stream) : Stream := putBytes (headerBytes t.wrap t.level t.reqWbits) t

/-- The bytes of the wrapper trailer (40_commands.md R165). -/
def trailerBytes (wrap : Wrap) (check totalIn : Word) : List Byte :=
  match wrap with
  | .raw => []
  | .zlib => bytesBE check
  | .gzip => bytesLE check ++ bytesLE totalIn

/-- `EmitTrailer()` (40_commands.md R165). -/
def emitTrailer (s : State) : State := s.onStream (putBytes (trailerBytes s.stream.wrap s.check s.totalIn))

/-- Forgetting the match history at a FULL_FLUSH (40_commands.md R164). -/
def clearHistory (t : Stream) : Stream :=
  if t.lookahead = 0 then { t with head := .empty, strstart := 0, blockStart := 0, insert := 0 }
  else { t with head := .empty }

/-- `FlushMarker(f)` (40_commands.md R164). -/
def flushMarker (f : Flush) (t : Stream) : Stream :=
  let t := sendStoredBlock [] false t
  if f = .fullFlush then clearHistory t else t

/-- Setting `S.last_flush`. -/
def setLastFlush (l : LastFlush) (s : State) : State := s.onStream (fun t => { t with lastFlush := l })

/-- Setting `S.trailer_done`. -/
def markTrailer (s : State) : State := s.onStream (fun t => { t with trailerDone := true })

/-- Setting `S.state`. -/
def setPhase (p : Phase) (s : State) : State := { s with phase := p }

/-- The checks of 40_commands.md R155 lines 1 to 5, in their order: the code raised, if any. -/
def deflateCheck (f : Flush) (s : State) : Option Result :=
  if s.phase = .uninit ∨ s.phase = .done then some .streamError
  else if nullFault s then some .streamError
  else if rangeFault s then some .streamError
  else if s.phase = .finishing ∧ f ≠ .finish then some .streamError
  else if s.outAvail = 0 then some .bufError
  else none

/-- The no-progress test of 40_commands.md R155 line 10 (R160), against the previous `S.last_flush`. -/
def noProgress (f : Flush) (old : LastFlush) (s : State) : Bool :=
  s.inAvail == 0 && (decide (f.rank ≤ old.rank) && f != .finish)

/-- `return Ok` with `S.last_flush <- OUT_FULL` (40_commands.md R155 lines 9, 18 and 28). -/
def returnOutFull (s : State) : State := endCommand .ok (setLastFlush .outFull s)

/-- Lines 29 to 35 of 40_commands.md R155. -/
def deflateTail (f : Flush) (s : State) : State :=
  if f ≠ .finish then endCommand .ok s
  else if s.stream.wrap = .raw ∨ s.stream.trailerDone then endCommand .streamEnd (setPhase .done s)
  else
    let s := flushPending (markTrailer (emitTrailer s))
    if s.stream.pending ≠ [] then endCommand .ok s
    else endCommand .streamEnd (setPhase .done s)

/-- Line 21 of 40_commands.md R155: the final block has been queued. -/
def enterFinishing (b : BlockState) (s : State) : State :=
  if b = .finishStarted ∨ b = .finishDone then setPhase .finishing s else s

/-- Lines 21 to 35 of 40_commands.md R155, on what the strategy returned. -/
def afterStrategy (f : Flush) (b : BlockState) (s : State) : State :=
  let s := enterFinishing b s
  if b = .needMore ∨ b = .finishStarted then
    if s.outAvail = 0 then returnOutFull s else endCommand .ok s
  else if b = .blockDone then
    let s := flushPending (s.onStream (flushMarker f))
    if s.outAvail = 0 then returnOutFull s else deflateTail f s
  else deflateTail f s

/-- Line 19 of 40_commands.md R155: there is something for the strategy to do. -/
def strategyHasWork (f : Flush) (s : State) : Bool :=
  s.inAvail != 0 || (s.stream.lookahead != 0 || (f != .noFlush && s.phase != .finishing))

/-- Lines 19 to 35 of 40_commands.md R155. -/
def deflateRun (f : Flush) (s : State) : State :=
  if strategyHasWork f s then
    let r := runStrategy f s
    afterStrategy f r.1 r.2
  else deflateTail f s

/-- Lines 13 to 35 of 40_commands.md R155: the header once per stream, then the strategy. -/
def deflateHeader (f : Flush) (s : State) : State :=
  if s.phase = .init then
    let s := setPhase .active (s.onStream emitHeader)
    if s.stream.wrap ≠ .raw then
      let s := flushPending s
      if s.stream.pending ≠ [] then returnOutFull s else deflateRun f s
    else deflateRun f s
  else deflateRun f s

/-- Lines 12 to 35 of 40_commands.md R155. -/
def deflateFinishing (f : Flush) (s : State) : State :=
  if s.phase = .finishing ∧ s.inAvail ≠ 0 then raise .bufError s else deflateHeader f s

/-- Lines 6 to 35 of 40_commands.md R155, the checks of lines 1 to 5 having passed. -/
def deflateBody (f : Flush) (s : State) : State :=
  let old := s.stream.lastFlush
  let s := setLastFlush (.mode f) s
  if s.stream.pending ≠ [] then
    let s := flushPending s
    if s.outAvail = 0 then returnOutFull s else deflateFinishing f s
  else if noProgress f old s then raise .bufError s
  else deflateFinishing f s

/-- DEFLATE with flush mode `f` (40_commands.md R155). -/
def deflate (f : Flush) (s : State) : State :=
  match deflateCheck f s with
  | some e => raise e s
  | none => deflateBody f s

/-- DEFLATE.NO_FLUSH (40_commands.md R155). -/
def execDeflateNoFlush (s : State) : Host.Outcome State Fault Refusal := .next (deflate .noFlush s)

/-- DEFLATE.SYNC_FLUSH (40_commands.md R155). -/
def execDeflateSyncFlush (s : State) : Host.Outcome State Fault Refusal := .next (deflate .syncFlush s)

/-- DEFLATE.FULL_FLUSH (40_commands.md R155). -/
def execDeflateFullFlush (s : State) : Host.Outcome State Fault Refusal := .next (deflate .fullFlush s)

/-- DEFLATE.FINISH (40_commands.md R155). -/
def execDeflateFinish (s : State) : Host.Outcome State Fault Refusal := .next (deflate .finish s)

end Sys2Proof.Machine
end

