-- ==== Sys2Proof/Machine/Lifecycle.lean ====
section
/-! DEFINITION. INIT, RESET and END (40_commands.md sections 2, 3 and 5). -/

namespace Sys2Proof.Machine

/-- The fields of `S` that `ResetStream()` writes, but for `S.state`, the counters and `S.check` (40_commands.md R154,
10_state.md R53). -/
def resetFields (t : Stream) : Stream :=
  initBlock { t with
    head := .empty
    strstart := 0
    blockStart := 0
    lookahead := 0
    insert := 0
    matchLength := 2
    prevLength := 2
    matchAvailable := false
    matchStart := 0
    prevMatch := 0
    insH := 0
    bitacc := 0
    bitcount := 0
    pending := []
    lastFlush := .noneYet
    trailerDone := false }

/-- `ResetStream()` (40_commands.md R154). -/
def resetStream (s : State) : State :=
  { s with
    phase := .init
    totalIn := 0
    totalOut := 0
    check := initialCheck s.stream.wrap
    stream := resetFields s.stream }

/-- The configuration fields INIT writes, with the zero-filled window and a `S.prev` in which nothing has been written
(40_commands.md R152, 10_state.md R53). -/
def configureStream (level : Nat) (wrap : Wrap) (wb draw : Nat) (t : Stream) : Stream :=
  let row := configTable level
  { t with
    level := level
    wrap := wrap
    reqWbits := wb
    wBits := max wb 9
    goodMatch := row.good
    maxLazy := row.lazy
    niceMatch := row.nice
    maxChain := row.chain
    strategy := row.strategy
    window := .empty
    prev := .empty
    prevEpoch := draw
    prevLowered := 0 }

/-- What INIT does once its operands are accepted (40_commands.md R152). -/
def startStream (level : Nat) (wbits : BitVec 8) (wrap : Wrap) (wb : Nat) (s : State) : State :=
  resetStream { s with
    config := configWord level wbits wrap
    stream := configureStream level wrap wb s.draws s.stream
    draws := s.draws + 1 }

/-- INIT (40_commands.md R152): the checks in order, then the new stream. -/
def initCommand (level : BitVec 4) (wbits : BitVec 8) (s : State) : State :=
  match levelOperand level with
  | none => raise .streamError s
  | some lv =>
    match wbitsOperand wbits with
    | none => raise .streamError s
    | some (wrap, wb) =>
      if Config.implMaxWbits < wb then raise .memError s
      else endCommand .ok (startStream lv wbits wrap wb s)

/-- INIT (40_commands.md R152). -/
def execInit (level : BitVec 4) (wbits : BitVec 8) (s : State) : Host.Outcome State Fault Refusal :=
  .next (initCommand level wbits s)

/-- RESET (40_commands.md R153). -/
def execReset (s : State) : Host.Outcome State Fault Refusal :=
  .next (if s.phase = .uninit then raise .streamError s else endCommand .ok (resetStream s))

/-- END (40_commands.md R168): `S` but for `S.state` is unspecified afterwards (log 4). -/
def execEndStream (s : State) : Host.Outcome State Fault Refusal :=
  .next (if s.phase = .uninit then raise .streamError s
    else endCommand .ok { forgetStream s with phase := .uninit, config := 0 })

end Sys2Proof.Machine
end

