-- ==== Sys2Proof/Machine/Dispatch.lean ====
section
/-! DEFINITION. One arm per command of the opcode table. -/

namespace Sys2Proof.Machine

def exec (i : Instr) (s : State) : Host.Outcome State Fault Refusal :=
  match i with
  | .init level wbits => Sys2Proof.Machine.execInit level wbits s
  | .reset => Sys2Proof.Machine.execReset s
  | .deflateNoFlush => Sys2Proof.Machine.execDeflateNoFlush s
  | .deflateSyncFlush => Sys2Proof.Machine.execDeflateSyncFlush s
  | .deflateFullFlush => Sys2Proof.Machine.execDeflateFullFlush s
  | .deflateFinish => Sys2Proof.Machine.execDeflateFinish s
  | .endStream => Sys2Proof.Machine.execEndStream s
  | .bound => Sys2Proof.Machine.execBound s

end Sys2Proof.Machine
end

