-- ==== Sys2Proof/Machine/Execute.lean ====
section
/-! DEFINITION. What the block does with a command word and with the moves of the world outside
(40_commands.md R150, 70_reset_and_hazards.md R360, R365 to R367, R376). -/

namespace Sys2Proof.Machine

/-- `Execute(c)` and the completion of the command (40_commands.md R150). A word that is no command raises StreamError and
has no other effect (30_encoding.md R111; 60_exceptions.md R323 causes 1 to 3). -/
def execute (w : Word) (s : State) : Host.Outcome State Fault Refusal :=
  match decode w with
  | .ok i => exec i s
  | .error _ => .next (raise .streamError s)

/-- The flush mode of a DEFLATE word. -/
def flushOf (w : Word) : Option Flush :=
  match decode w with
  | .ok .deflateNoFlush => some .noFlush
  | .ok .deflateSyncFlush => some .syncFlush
  | .ok .deflateFullFlush => some .fullFlush
  | .ok .deflateFinish => some .finish
  | _ => none

/-- The command in progress may write its output range: a DEFLATE that passes the checks that come before any access
(20_memory.md R80, R86; 40_commands.md R155 lines 1 to 5). -/
def mayWrite (s : State) : Bool :=
  match s.running.bind flushOf with
  | some f => (deflateCheck f s).isNone
  | none => false

/-- `count` bytes from address `a` become unspecified: free values at a draw (log 9). -/
def scramble (draw : Nat) : Nat → Nat → Memory → Memory
  | 0, _, m => m
  | count + 1, a, m => scramble draw count (a + 1) (m.write a (Config.freeByte draw a))

/-- What an abandoned command leaves in host memory (70_reset_and_hazards.md R360). -/
def abandonedMemory (s : State) : Memory :=
  if mayWrite s then scramble s.draws s.outAvail.toNat s.outPtr.toNat s.memory else s.memory

/-- Hardware reset (70_reset_and_hazards.md R360): a signal, not a command. The registers take their reset values, the
command in progress is abandoned, and the rest of `S` is unspecified (log 4). The model's own inputs and last read stay. -/
def hardReset (s : State) : State :=
  { State.reset with
    memory := abandonedMemory s
    stream := Config.freeStream s.draws
    draws := s.draws + 1
    inputs := s.inputs
    readData := s.readData }

/-- A register access that the spec gives a meaning: an aligned word at offsets 0x00..0xFC (20_memory.md R83). -/
def registerOffset (offset : Nat) : Bool := offset % 4 == 0 && decide (offset < 256)

/-- The offset of CMD (10_state.md R33). -/
def cmdOffset : Nat := 0x04

/-- The offset of STATUS (10_state.md R33). -/
def statusOffset : Nat := 0x08

/-- A host read of a byte of its memory. -/
def hostLoad (addr : Nat) (s : State) : State := { s with readData := (s.memory.read addr).setWidth 32 }

/-- A host write of a byte of its memory. -/
def hostStore (addr : Nat) (v : Byte) (s : State) : State := { s with memory := s.memory.write addr v }

/-- A move while BUSY = 0 (70_reset_and_hazards.md R376): every register and memory access is allowed. -/
def idleMove (m : HostMove) (s : State) : Host.Outcome State Fault Refusal :=
  match m with
  | .regRead offset =>
    if registerOffset offset then .next { s with readData := readReg offset s }
    else .refused .registerAccessWithoutMeaning
  | .regWrite offset v =>
    if registerOffset offset then
      .next (if offset = cmdOffset then latchCommand v s else writeReg offset v s)
    else .refused .registerAccessWithoutMeaning
  | .memRead addr =>
    if addr < Memory.size then .next (hostLoad addr s) else .fault .addressOutsideHostMemory
  | .memWrite addr v =>
    if addr < Memory.size then .next (hostStore addr v s) else .fault .addressOutsideHostMemory
  | .hardReset => .next (hardReset s)
  | .cmdDone => .next s

/-- A register read while BUSY = 1: STATUS shows BUSY = 1 and the previous RESULT and STATE, every other register a free
value (70_reset_and_hazards.md R365; log 7). -/
def busyRead (offset : Nat) (s : State) : State :=
  if offset = statusOffset then { s with readData := statusWord s }
  else { s with readData := Config.freeRead s.draws offset, draws := s.draws + 1 }

/-- A register write while BUSY = 1: CMD sets OVERRUN, every other register ignores it (70_reset_and_hazards.md R366,
R367). -/
def busyWrite (offset : Nat) (s : State) : State :=
  if offset = cmdOffset then { s with overrun := true } else s

/-- A move while BUSY = 1, but for the end of the command (70_reset_and_hazards.md R360, R365 to R367; 20_memory.md R90).
The rules forbid a write of input bytes and any access to output bytes, and list memory accesses only between commands; that
the host's other memory accesses, a read of input bytes among them, act as while BUSY = 0 is the model's DESIGN CHOICE
(log 21). -/
def busyMove (m : HostMove) (s : State) : Host.Outcome State Fault Refusal :=
  match m with
  | .regRead offset =>
    if registerOffset offset then .next (busyRead offset s) else .refused .registerAccessWithoutMeaning
  | .regWrite offset _ =>
    if registerOffset offset then .next (busyWrite offset s) else .refused .registerAccessWithoutMeaning
  | .memRead addr =>
    if addr < Memory.size then
      if inRange s.outPtr s.outAvail addr then .refused .hostTouchesBufferWhileBusy else .next (hostLoad addr s)
    else .fault .addressOutsideHostMemory
  | .memWrite addr v =>
    if addr < Memory.size then
      if inRange s.outPtr s.outAvail addr || inRange s.inPtr s.inAvail addr then .refused .hostTouchesBufferWhileBusy
      else .next (hostStore addr v s)
    else .fault .addressOutsideHostMemory
  | .hardReset => .next (hardReset s)
  | .cmdDone => .next s

/-- One step of the machine with the next move taken off the list. While a command is in progress and no other move comes
before its end, it executes (log 1, log 2). -/
def nextMove (s : State) : Host.Outcome State Fault Refusal :=
  match s.running, s.inputs with
  | none, [] => .next s
  | none, m :: rest => idleMove m { s with inputs := rest }
  | some w, [] => execute w s
  | some w, .cmdDone :: rest => execute w { s with inputs := rest }
  | some _, m :: rest => busyMove m { s with inputs := rest }

end Sys2Proof.Machine
end

