-- ==== Sys2Proof/Machine/Step.lean ====
section
/-! DEFINITION. One step of the machine, and how a command word is placed so that the next step runs it. -/

namespace Sys2Proof.Machine

/-- One step (log 1, log 2). -/
def step (s : State) : Host.Outcome State Fault Refusal := nextMove s

/-- The state in which the host has just written the word to CMD and the command's latency is over, so that the very next
step executes it (log 1). -/
def State.withFetchWord (s : State) (nbits w : Nat) : State :=
  { latchCommand (tableWord nbits w) s with inputs := .cmdDone :: s.inputs }

end Sys2Proof.Machine
end

