-- ==== Sys2Proof/Safety.lean ====
section
/-! DEFINITION. What claims about the block are stated in: the causes of result codes, the invariants of the stream, the
bit stream as a list of bits, and what one command may change. -/

namespace Sys2Proof.Machine

/-- WBITS of a command word read as 30_encoding.md R115 reads it: `CMD[19:12] - 256 * CMD[19]`. -/
def signedWbits (w : Word) : Int := (w.toNat / 2 ^ 12 % 256 : Nat) - 256 * ((w.toNat / 2 ^ 19 % 2 : Nat) : Int)

/-- LEVEL of a command word (30_encoding.md R114). -/
def levelNumber (w : Word) : Nat := w.toNat / 2 ^ 8 % 16

/-- "An INIT word is legal only if LEVEL is in {0..9, 15} and WBITS is a legal value" (30_encoding.md R116). -/
def LegalInitWord (w : Word) : Prop :=
  (levelNumber w ≤ 9 ∨ levelNumber w = 15) ∧
    ((-15 ≤ signedWbits w ∧ signedWbits w ≤ -8) ∨ (8 ≤ signedWbits w ∧ signedWbits w ≤ 15) ∨
      (24 ≤ signedWbits w ∧ signedWbits w ≤ 31))

/-- `wbits` is the WBITS field of a wrapper with a window log2 of `wb` (30_encoding.md R115). -/
def WbitsStands (wbits : BitVec 8) (wrap : Wrap) (wb : Nat) : Prop :=
  8 ≤ wb ∧ wb ≤ 15 ∧
    match wrap with
    | .raw => wbits.toInt = -(wb : Int)
    | .zlib => wbits.toInt = wb
    | .gzip => wbits.toInt = wb + 16

/-- `lv` is the level that a LEVEL field selects (30_encoding.md R114). -/
def LevelStands (level : BitVec 4) (lv : Nat) : Prop := lv ≤ 9 ∧ lv = if level.toNat = 15 then 6 else level.toNat

/-- What a read of the register at an offset answers while BUSY = 0 (10_state.md R33). -/
def registerRead (s : State) (offset : Nat) : Word :=
  if offset = 0x00 then Config.implId
  else if offset = 0x08 then statusWord s
  else if offset = 0x0C then s.inPtr
  else if offset = 0x10 then s.inAvail
  else if offset = 0x14 then s.outPtr
  else if offset = 0x18 then s.outAvail
  else if offset = 0x1C then s.totalIn
  else if offset = 0x20 then s.totalOut
  else if offset = 0x24 then s.check
  else if offset = 0x28 then s.bound
  else if offset = 0x2C then s.config
  else 0

/-- An offset of one of the 64 words of the register block (20_memory.md R80, R83). -/
def WordOffset (offset : Nat) : Prop := offset % 4 = 0 ∧ offset < 256

/-- An address is in the output range of `s`, or in its input range. -/
def InOutput (s : State) (a : Nat) : Prop := s.outPtr.toNat ≤ a ∧ a < s.outPtr.toNat + s.outAvail.toNat
def InInput (s : State) (a : Nat) : Prop := s.inPtr.toNat ≤ a ∧ a < s.inPtr.toNat + s.inAvail.toNat

/-- The address of the `i`-th byte that a DEFLATE from `s` stores (20_memory.md R88). -/
def storeAddress (s : State) (i : Nat) : Nat := (s.outPtr + BitVec.ofNat 32 i).toNat

/-- How many bytes were stored between `s` and `t` (10_state.md R37). -/
def storedCount (s t : State) : Nat := (s.outAvail - t.outAvail).toNat

/-- The first `k` bytes of the input, as they stand in host memory (20_memory.md R87). -/
def inputBytes (s : State) (k : Nat) : List Byte := (List.range k).map (inputByte s)

/-- The DEFLATE command of a flush mode. -/
def deflateInstr : Flush → Instr
  | .noFlush => .deflateNoFlush
  | .syncFlush => .deflateSyncFlush
  | .fullFlush => .deflateFullFlush
  | .finish => .deflateFinish

/-- A state in which only STATUS.RESULT and BUSY have changed, as after a raise with no other effect
(60_exceptions.md R323). -/
def onlyResult (e : Result) (s : State) : State := { s with result := e, running := none }

/-- `NullFault()` in numbers (40_commands.md R157). -/
def NullBuffers (s : State) : Prop :=
  s.outPtr.toNat = 0 ∨ (s.inAvail.toNat ≠ 0 ∧ s.inPtr.toNat = 0)

/-- `RangeFault()` in numbers (20_memory.md R86). -/
def BadRanges (s : State) : Prop :=
  2 ^ 32 < s.inPtr.toNat + s.inAvail.toNat ∨ 2 ^ 32 < s.outPtr.toNat + s.outAvail.toNat ∨
    ∃ a, s.inPtr.toNat ≤ a ∧ a < s.inPtr.toNat + s.inAvail.toNat ∧
      s.outPtr.toNat ≤ a ∧ a < s.outPtr.toNat + s.outAvail.toNat

/-- The five causes of StreamError that a DEFLATE has (60_exceptions.md R323 causes 6 to 10). -/
def DeflateStreamError (f : Flush) (s : State) : Prop :=
  s.phase = .uninit ∨ s.phase = .done ∨ NullBuffers s ∨ BadRanges s ∨ (s.phase = .finishing ∧ f ≠ .finish)

/-- The ten causes of StreamError, for the command word `w` (60_exceptions.md R323). -/
def StreamErrorCause (w : Word) (s : State) : Prop :=
  (w.toNat % 16 = 0 ∨ 6 ≤ w.toNat % 16) ∨
  (w.toNat % 16 = 1 ∧ (w.toNat / 16 % 16 ≠ 0 ∨ w.toNat / 2 ^ 20 ≠ 0)) ∨
  ((w.toNat % 16 = 2 ∨ w.toNat % 16 = 4 ∨ w.toNat % 16 = 5) ∧ w.toNat / 16 ≠ 0) ∨
  (w.toNat % 16 = 3 ∧ w.toNat / 256 ≠ 0) ∨
  (w.toNat % 16 = 3 ∧ (w.toNat / 16 % 16 = 1 ∨ 5 ≤ w.toNat / 16 % 16)) ∨
  (w.toNat % 16 = 1 ∧ 10 ≤ w.toNat / 256 % 16 ∧ w.toNat / 256 % 16 ≤ 14) ∨
  (w.toNat % 16 = 1 ∧ ¬ ((-15 ≤ (fieldWbits w).toInt ∧ (fieldWbits w).toInt ≤ -8) ∨
    (8 ≤ (fieldWbits w).toInt ∧ (fieldWbits w).toInt ≤ 15) ∨
    (24 ≤ (fieldWbits w).toInt ∧ (fieldWbits w).toInt ≤ 31))) ∨
  ((w.toNat = 2 ∨ w.toNat = 4) ∧ s.phase = .uninit) ∨
  ∃ f, w = encode (deflateInstr f) ∧ DeflateStreamError f s

/-- The stream runs the DEFLATE's own effect: none of the checks of 40_commands.md R155 that come before the strategy
raises a code or turns the command away. -/
def DeflateAccepted (f : Flush) (s : State) : Prop :=
  ¬ DeflateStreamError f s ∧ s.outAvail.toNat ≠ 0 ∧ (s.phase = .finishing → s.inAvail.toNat = 0) ∧
    (s.stream.pending = [] → s.inAvail.toNat = 0 → f ≠ .finish → s.stream.lastFlush.rank < f.rank)

/-- The configuration of a stream is one INIT accepts (10_state.md R41, 40_commands.md R152). -/
def ConfigOk (t : Stream) : Prop :=
  t.level ≤ 9 ∧ 8 ≤ t.reqWbits ∧ t.reqWbits ≤ 15 ∧ t.wBits = max t.reqWbits 9 ∧
    t.goodMatch = (configTable t.level).good ∧ t.maxLazy = (configTable t.level).lazy ∧
    t.niceMatch = (configTable t.level).nice ∧ t.maxChain = (configTable t.level).chain ∧
    t.strategy = (configTable t.level).strategy

/-- `0 <= S.bitcount <= 7` and `S.bitacc < 2^S.bitcount` (43_block_serializer.md R289). -/
def WriterOk (t : Stream) : Prop := t.bitcount ≤ 7 ∧ t.bitacc < 2 ^ t.bitcount

/-- How many input bytes a symbol stands for. -/
def Sym.span : Sym → Nat
  | .lit _ => 1
  | .copy _ len => len

/-- How many input bytes the symbols of the block stand for. -/
def symsSpan (t : Stream) : Nat := (t.syms.map Sym.span).sum

/-- A byte is held back by lazy matching. -/
def heldByte (t : Stream) : Nat := if t.matchAvailable then 1 else 0

/-- Every symbol is a literal, or a match of length 3..258 at a distance 1..MAX_DIST (10_state.md R45,
41_lz77.md R209, 30_encoding.md R133 item 7). -/
def SymsOk (t : Stream) : Prop := ∀ d l, Sym.copy d l ∈ t.syms → 3 ≤ l ∧ l ≤ 258 ∧ 1 ≤ d ∧ d ≤ t.maxDist

/-- `S` holds the positions inserted since the table was cleared: every entry of `S.head` is NIL or one of them, each lies
below `bound`, and a chain leads from each that is less than a window back to an earlier one or to NIL (41_lz77.md R201,
R202, R217 item 6). -/
def ChainSet (t : Stream) (bound : Nat) (S : Nat → Prop) : Prop :=
  (∀ h, (t.head.get 0 h).toNat ≠ 0 → S (t.head.get 0 h).toNat) ∧
  ∀ p, S p → 1 ≤ p ∧ p < bound ∧ (bound ≤ p + t.wSize →
    (t.prev.read? (p % t.wSize)).isSome = true ∧ t.prevAt (p % t.wSize) < p ∧
      (t.prevAt (p % t.wSize) ≠ 0 → S (t.prevAt (p % t.wSize))))

/-- The hash chains of the stream are sound: only positions before the deferred ones and with three known bytes have been
inserted (41_lz77.md R203, R204). -/
def ChainOk (t : Stream) : Prop :=
  ∃ S, ChainSet t t.strstart S ∧ ∀ p, S p → p + t.insert < t.strstart ∧ p + 3 ≤ t.strstart + t.lookahead

/-- The stream's invariants between commands, strategy STORED (41_lz77.md R215, R217). -/
def StoredOk (t : Stream) : Prop :=
  t.syms = [] ∧ t.insert = 0 ∧ 0 ≤ t.blockStart ∧ (t.strstart : Int) - t.blockStart < t.maxDist

/-- The stream's invariants between commands, strategies FAST and SLOW (41_lz77.md R204, R217): the symbols of the block
stand for exactly the bytes from `S.block_start` to `S.strstart`, but for the byte lazy matching holds back; insertions wait
only while three bytes are not known. -/
def MatchingOk (t : Stream) : Prop :=
  (t.strstart : Int) - t.blockStart = symsSpan t + heldByte t ∧ SymsOk t ∧ ChainOk t ∧
    (t.insert = 0 ∨ t.lookahead + t.insert < 3)

/-- The match scalars of strategy FAST between commands (41_lz77.md R213). -/
def FastOk (t : Stream) : Prop := t.matchLength < 3 ∧ t.prevLength = 2

/-- The match scalars of strategy SLOW between commands: a match worth holding is held, and starts 1..MAX_DIST before the
held byte (41_lz77.md R214). -/
def SlowOk (t : Stream) : Prop :=
  t.matchLength ≤ 258 ∧ (3 ≤ t.matchLength → t.matchAvailable = true ∧ t.matchLength ≤ t.lookahead + 1 ∧
    t.matchStart + 1 < t.strstart ∧ (t.strstart : Int) - 1 - t.matchStart ≤ t.maxDist)

/-- The literal/length symbol of an entry of the symbol buffer (43_block_serializer.md R272). -/
def Sym.litLen : Sym → Nat
  | .lit b => b.toNat
  | .copy _ len => lenSym len

/-- The distance symbol of an entry of the symbol buffer (43_block_serializer.md R272). -/
def Sym.dist : Sym → Option Nat
  | .lit _ => none
  | .copy dist _ => some (distSym dist)

/-- The counters of the block count its symbols, and one end-of-block code (10_state.md R45, 43_block_serializer.md R271,
R272). -/
def TallyOk (t : Stream) : Prop :=
  (∀ i, i < Config.lCodes →
    t.lfreq.get 0 i = t.syms.countP (fun e => e.litLen == i) + (if i = 256 then 1 else 0)) ∧
  ∀ i, i < Config.dCodes → t.dfreq.get 0 i = t.syms.countP (fun e => e.dist == some i)

/-- The invariants of 41_lz77.md R217, with what their preservation rests on. -/
def WindowOk (t : Stream) : Prop :=
  t.strstart + t.lookahead ≤ t.windowBytes ∧
  t.blockStart ≤ t.strstart ∧
  t.insert ≤ 2 ∧ t.insert ≤ t.strstart ∧
  TallyOk t ∧
  (t.matchAvailable = true → t.strategy = .slow) ∧
  (t.strategy = .stored → StoredOk t) ∧
  (t.strategy ≠ .stored → MatchingOk t) ∧
  (t.strategy = .fast → FastOk t) ∧
  (t.strategy = .slow → SlowOk t)

/-- The invariants of a started stream between commands. -/
def StreamOk (t : Stream) : Prop :=
  ConfigOk t ∧ WriterOk t ∧ WindowOk t ∧ t.syms.length < Config.litBufsize - 1

/-- Everything consumed is in a queued block, at every level: no literal is held back and the open block, from
`S.block_start` to `S.strstart`, is empty (41_lz77.md R212, R215, R217 item 4; 43_block_serializer.md R270). -/
def AllEncoded (s : State) : Prop :=
  s.inAvail = 0 ∧ s.stream.lookahead = 0 ∧ s.stream.syms = [] ∧ s.stream.matchAvailable = false ∧
    s.stream.blockStart = s.stream.strstart

/-- What each answer of a strategy says about the state it leaves (41_lz77.md R212; 40_commands.md R159, R166). -/
def StrategyPost (f : Flush) (b : BlockState) (s : State) : Prop :=
  match b with
  | .needMore => s.outAvail = 0 ∨ (f = .noFlush ∧ s.inAvail = 0)
  | .blockDone => (f = .syncFlush ∨ f = .fullFlush) ∧ AllEncoded s
  | .finishStarted => f = .finish ∧ AllEncoded s ∧ s.stream.bitcount = 0 ∧ s.outAvail = 0
  | .finishDone => f = .finish ∧ AllEncoded s ∧ s.stream.bitcount = 0 ∧ s.outAvail ≠ 0 ∧ s.stream.pending = []

/-- Once the final block is out, nothing waits to be encoded, the open block is empty, and no bits wait for a byte
(43_block_serializer.md R284, 40_commands.md R161, R165, 60_exceptions.md R325). -/
def FinishedOk (s : State) : Prop :=
  s.phase = .finishing ∨ s.phase = .done →
    s.stream.lookahead = 0 ∧ s.stream.bitcount = 0 ∧ s.stream.syms = [] ∧ s.stream.blockStart = s.stream.strstart

/-- The invariant every step keeps: host memory is in its canonical form, and a stream that has been started satisfies
its invariants. -/
def Inv (s : State) : Prop :=
  s.memory.wf = true ∧
    (s.phase ≠ .uninit → StreamOk s.stream) ∧ FinishedOk s

/-- The `n` low bits of `v`, least significant first: how a field goes on the wire (43_block_serializer.md R290). -/
def lowBits (v n : Nat) : List Bool := (List.range n).map v.testBit

/-- The bits of queued bytes in stream order: least significant first within each byte (20_memory.md R85). -/
def byteBits (bytes : List Byte) : List Bool := bytes.flatMap (fun b => lowBits b.toNat 8)

/-- The bits emitted and not yet moved to host memory, in stream order (43_block_serializer.md R286). -/
def queuedBits (t : Stream) : List Bool := byteBits t.pending ++ lowBits t.bitacc t.bitcount

/-- The code lengths that a sequence of code-length symbols describes, after the lengths `done` (30_encoding.md R130):
16 repeats the previous length, 17 and 18 are runs of zero. -/
def expandOps : List RunOp → List Nat → List Nat
  | [], done => done
  | op :: rest, done =>
    expandOps rest
      (if op.sym = 16 then done ++ List.replicate (op.value + 3) (done.getLastD 0)
       else if op.sym = 17 then done ++ List.replicate (op.value + 3) 0
       else if op.sym = 18 then done ++ List.replicate (op.value + 11) 0
       else done ++ [op.sym])

/-- The loop of `SendBits` as 43_block_serializer.md R290 writes it, for at most `n` turns. -/
def drainBits : Nat → Stream → Stream
  | 0, t => t
  | n + 1, t =>
    if 8 ≤ t.bitcount then
      drainBits n { t with
        pending := t.pending ++ [BitVec.ofNat 8 (t.bitacc &&& 0xFF)]
        bitacc := t.bitacc >>> 8
        bitcount := t.bitcount - 8 }
    else t

/-- A Huffman code on the wire: its `k` bits, most significant first (20_memory.md R85). -/
def msbBits (v k : Nat) : List Bool := (lowBits v k).reverse

/-- An entry of the symbol buffer on the wire, under codes and lengths whose codes go most significant bit first and extra
bits least significant bit first (30_encoding.md R131). -/
def entryBits (lcode llen dcode dlen : Nat → Nat) : Sym → List Bool
  | .lit b => msbBits (lcode b.toNat) (llen b.toNat)
  | .copy dist len =>
    msbBits (lcode (lenSym len)) (llen (lenSym len)) ++ lowBits (len - lenBase (lenSym len)) (lenExtra (lenSym len)) ++
      (msbBits (dcode (distSym dist)) (dlen (distSym dist)) ++
        lowBits (dist - distBase (distSym dist)) (distExtra (distSym dist)))

/-- A code-length symbol on the wire, with its extra bits (43_block_serializer.md R279). -/
def runOpBits (bl : Code) (op : RunOp) : List Bool :=
  lowBits (bl.code.get 0 op.sym) (bl.len.get 0 op.sym) ++ lowBits op.value op.bits

/-- One turn of `DeflateSlow` on a filled window, without the block end (41_lz77.md R214). -/
def slowTurn (t : Stream) : Stream :=
  let u := slowSearch t
  if 3 ≤ u.prevLength ∧ u.matchLength ≤ u.prevLength then slowMatch u
  else if u.matchAvailable then passByte (slowLiteral u)
  else passByte { u with matchAvailable := true }

/-- A held match worth emitting is one: its bytes, from `S.match_start`, are those from the held byte on
(41_lz77.md R209, R214). A slide can move the start of a match held at distance `MAX_DIST` to -1 (R205): the byte there has
left the window, and the agreement speaks of the others. -/
def HeldAgrees (t : Stream) : Prop :=
  3 ≤ t.matchLength → -1 ≤ t.matchStart ∧ ∀ i : Nat, i < t.matchLength → 0 ≤ t.matchStart + i →
    t.windowAt (t.matchStart + i).toNat = t.windowAt (t.strstart - 1 + i)

/-- Everything of the stream that no DEFLATE changes: its configuration (10_state.md R41). -/
def SameConfig (t u : Stream) : Prop :=
  u.level = t.level ∧ u.wrap = t.wrap ∧ u.reqWbits = t.reqWbits ∧ u.wBits = t.wBits ∧ u.goodMatch = t.goodMatch ∧
    u.maxLazy = t.maxLazy ∧ u.niceMatch = t.niceMatch ∧ u.maxChain = t.maxChain ∧ u.strategy = t.strategy ∧
    u.prevEpoch = t.prevEpoch

/-- Every read of memory `m` at an address of the input range answers what `s` has there (70_reset_and_hazards.md R377). -/
def SameInput (m : Memory) (s : State) : Prop :=
  ∀ a, InInput s a → m.read a = s.memory.read a

end Sys2Proof.Machine
end

