-- ==== Sys2Proof/Certificates/Slice0/Obligations.lean ====
section
/-! DEFINITION. The statements about the block that the provers prove. Each docstring names the rules of spec/ it rests on;
where a clause is the model's own choice, it names the log entry. -/

section

open Sys2Proof Sys2Proof.Machine

/-! Encoding of commands. -/

/-- Decoding and encoding a command word are inverse to each other, in both directions: no bit is dropped and no word but
its own decodes to a command (30_encoding.md R110 to R117). At an INIT word with a reserved LEVEL or WBITS the identity is
the model's DESIGN CHOICE: the decoder accepts it and INIT's meaning raises StreamError (log 11). -/
def Obligations.DecodeEncodeInverse : Prop :=
  (∀ i, decode (encode i) = .ok i) ∧ ∀ w i, decode w = .ok i → encode i = w

/-- The opcode map (30_encoding.md R116): each row's words are its command; an INIT word with a reserved field value and
every word that matches no row end with StreamError. That an INIT word with a reserved LEVEL or WBITS decodes to INIT, whose
meaning raises the StreamError, is the model's DESIGN CHOICE (log 11). -/
def Obligations.OpcodeMap : Prop :=
  ∀ (w : Word) (s : State),
    (w &&& 0xFFF000FF = 0x00000001 →
      decode w = .ok (.init (BitVec.ofNat 4 (levelNumber w)) (BitVec.ofNat 8 (w.toNat / 2 ^ 12))) ∧
      (LegalInitWord w → ∃ t, execute w s = .next t ∧ t.result = .ok) ∧
      (¬ LegalInitWord w → execute w s = .next (onlyResult .streamError s))) ∧
    (w &&& 0xFFFFFFFF = 0x00000002 → decode w = .ok .reset) ∧
    (w &&& 0xFFFFFFFF = 0x00000003 → decode w = .ok .deflateNoFlush) ∧
    (w &&& 0xFFFFFFFF = 0x00000023 → decode w = .ok .deflateSyncFlush) ∧
    (w &&& 0xFFFFFFFF = 0x00000033 → decode w = .ok .deflateFullFlush) ∧
    (w &&& 0xFFFFFFFF = 0x00000043 → decode w = .ok .deflateFinish) ∧
    (w &&& 0xFFFFFFFF = 0x00000004 → decode w = .ok .endStream) ∧
    (w &&& 0xFFFFFFFF = 0x00000005 → decode w = .ok .bound) ∧
    (w &&& 0xFFF000FF ≠ 0x00000001 → w ≠ 0x00000002 → w ≠ 0x00000003 → w ≠ 0x00000023 → w ≠ 0x00000033 →
      w ≠ 0x00000043 → w ≠ 0x00000004 → w ≠ 0x00000005 → execute w s = .next (onlyResult .streamError s))

/-- One word of each kind, its bits written out from the fields of 30_encoding.md R110 (RSVD, WBITS, LEVEL, FLUSH, OP),
decodes to the command it stands for. -/
def Obligations.WrittenOutWords : Prop :=
  decode 0b000000000000_00001111_1111_0000_0001 = .ok (.init 0b1111 0b00001111) ∧
  decode 0b000000000000_11110110_0001_0000_0001 = .ok (.init 0b0001 0b11110110) ∧
  decode 0b000000000000_00000000_0000_0000_0010 = .ok .reset ∧
  decode 0b000000000000_00000000_0000_0010_0011 = .ok .deflateSyncFlush ∧
  decode 0b000000000000_00000000_0000_0100_0011 = .ok .deflateFinish ∧
  decode 0b000000000000_00000000_0000_0000_0100 = .ok .endStream ∧
  decode 0b000000000000_00000000_0000_0000_0101 = .ok .bound

/-! The machine's step. -/

/-- A step runs the decoded command: with command word `w` in progress and no other move of the host before its end, the
step is `exec` of the command `w` decodes to, or a StreamError with no other effect (30_encoding.md R111;
40_commands.md R150; log 1). -/
def Obligations.StepRunsTheDecodedCommand : Prop :=
  ∀ (s : State) (w : Word),
    (∀ i, decode w = .ok i →
      (s.running = some w → s.inputs = [] → step s = exec i s) ∧
      (∀ rest, s.running = some w → s.inputs = .cmdDone :: rest → step s = exec i { s with inputs := rest }) ∧
      step (s.withFetchWord 32 w.toNat) = exec i { s with running := some w }) ∧
    (∀ e, decode w = .error e → s.running = some w → s.inputs = [] → step s = .next (onlyResult .streamError s))

/-- A CMD write while BUSY = 0 executes one command (40_commands.md R150): BUSY rises with RESULT and STATE still the old
ones, then the whole of `Execute` is one step, which always terminates in a next state, and BUSY falls with the new RESULT
and STATE. -/
def Obligations.CommandCycle : Prop :=
  ∀ (s : State) (v : Word) (rest : List HostMove), s.running = none →
    s.inputs = .regWrite 0x04 v :: .cmdDone :: rest →
    ∃ u t, step s = .next u ∧ u = { s with inputs := .cmdDone :: rest, running := some v } ∧
      (statusWord u).getLsbD 8 = true ∧ (statusWord u).extractLsb' 0 7 = (statusWord s).extractLsb' 0 7 ∧
      step u = .next t ∧ execute v { u with inputs := rest } = .next t ∧ t.running = none ∧
      (statusWord t).getLsbD 8 = false ∧ (statusWord t).extractLsb' 0 4 = t.result.code ∧
      (statusWord t).extractLsb' 4 3 = t.phase.code

/-! Registers, host memory and hardware reset. -/

/-- STATUS (10_state.md R35) and the numbers of its fields (10_state.md R35, 60_exceptions.md R320). -/
def Obligations.StatusWordLayout : Prop :=
  (∀ s : State,
    (statusWord s).extractLsb' 0 4 = s.result.code ∧ (statusWord s).extractLsb' 4 3 = s.phase.code ∧
      (statusWord s).getLsbD 7 = false ∧ (statusWord s).getLsbD 8 = s.running.isSome ∧
      (statusWord s).getLsbD 9 = s.overrun ∧ (statusWord s).extractLsb' 10 22 = 0) ∧
  [Result.ok, .streamEnd, .needDict, .versionError, .bufError, .memError, .dataError, .streamError].map
      (fun r => r.code.toNat) = [0, 1, 2, 10, 11, 12, 13, 14] ∧
  [Phase.uninit, .init, .active, .finishing, .done].map (fun p => p.code.toNat) = [0, 1, 2, 3, 4]

/-- Every register at `State.reset` reads its reset value, STATUS being 0 (70_reset_and_hazards.md R361, 10_state.md R33). -/
def Obligations.ResetRegisters : Prop :=
  (∀ offset, WordOffset offset → readReg offset State.reset = if offset = 0 then Config.implId else 0) ∧
    statusWord State.reset = 0 ∧ State.reset.phase = .uninit ∧ State.reset.running = none

/-- Register accesses while BUSY = 0 (10_state.md R33, R37; 20_memory.md R83): a read answers the register and changes
nothing else of the block; a write reaches IN_PTR, IN_AVAIL, OUT_PTR and OUT_AVAIL only; an access that is not one of a word
of the block is a move the model does not give (log 8). -/
def Obligations.IdleRegisterAccess : Prop :=
  ∀ (s : State) (offset : Nat) (v : Word) (rest : List HostMove), s.running = none →
    (WordOffset offset → s.inputs = .regRead offset :: rest →
      step s = .next { s with inputs := rest, readData := registerRead s offset }) ∧
    (WordOffset offset → offset ≠ 0x04 → s.inputs = .regWrite offset v :: rest →
      step s = .next { s with
        inputs := rest
        inPtr := if offset = 0x0C then v else s.inPtr
        inAvail := if offset = 0x10 then v else s.inAvail
        outPtr := if offset = 0x14 then v else s.outPtr
        outAvail := if offset = 0x18 then v else s.outAvail }) ∧
    (¬ WordOffset offset → (s.inputs = .regRead offset :: rest ∨ s.inputs = .regWrite offset v :: rest) →
      step s = .refused .registerAccessWithoutMeaning)

/-- Host memory while BUSY = 0 (20_memory.md R80, R82): `2^32` bytes; a read answers the byte, a write changes that byte
only; an address outside does not exist (log 18). -/
def Obligations.HostMemoryAccess : Prop :=
  ∀ (s : State) (a : Nat) (v : Byte) (rest : List HostMove), s.running = none → s.memory.wf = true →
    (a < 2 ^ 32 → s.inputs = .memRead a :: rest →
      step s = .next { s with inputs := rest, readData := (s.memory.read a).setWidth 32 }) ∧
    (a < 2 ^ 32 → s.inputs = .memWrite a v :: rest →
      ∃ m : Memory, step s = .next { s with inputs := rest, memory := m } ∧ m.wf = true ∧
        ∀ b, m.read b = if b = a then v else s.memory.read b) ∧
    (2 ^ 32 ≤ a → (s.inputs = .memRead a :: rest ∨ s.inputs = .memWrite a v :: rest) →
      step s = .fault .addressOutsideHostMemory)

/-- A CMD write while BUSY = 1 is ignored and sets STATUS.OVERRUN, which stays 1 until hardware reset and is set by nothing
else (70_reset_and_hazards.md R367, 10_state.md R35). -/
def Obligations.BusyCommandWriteOverruns : Prop :=
  (∀ (s : State) (w v : Word) (rest : List HostMove), s.running = some w → s.inputs = .regWrite 0x04 v :: rest →
    step s = .next { s with inputs := rest, overrun := true }) ∧
  (∀ s t : State, step s = .next t → s.overrun = true → s.inputs.head? ≠ some .hardReset → t.overrun = true) ∧
  (∀ s t : State, step s = .next t → s.overrun = false → t.overrun = true →
    s.running.isSome = true ∧ ∃ v, s.inputs.head? = some (.regWrite 0x04 v))

/-- The other accesses while BUSY = 1 (70_reset_and_hazards.md R365, R366; 20_memory.md R80, R83, R90): STATUS shows BUSY = 1
with the previous RESULT and STATE; a read of any other register answers some value, and changes nothing of the block but how
many free values have been drawn (log 7); a write other than to CMD is ignored; an access that is not one of a word of the
block, a write of a byte of the input range and any access to a byte of the output range are moves the model does not give
(log 8); every other memory access acts as while BUSY = 0, which is the model's DESIGN CHOICE (log 21); an address outside
host memory does not exist (log 18). -/
def Obligations.BusyAccess : Prop :=
  ∀ (s : State) (w : Word) (offset a : Nat) (v : Word) (b : Byte) (rest : List HostMove), s.running = some w →
    (s.inputs = .regRead 0x08 :: rest →
      step s = .next { s with inputs := rest, readData := statusWord s } ∧ (statusWord s).getLsbD 8 = true) ∧
    (WordOffset offset → offset ≠ 0x08 → s.inputs = .regRead offset :: rest →
      ∃ x, step s = .next { s with inputs := rest, readData := x, draws := s.draws + 1 }) ∧
    (WordOffset offset → offset ≠ 0x04 → s.inputs = .regWrite offset v :: rest →
      step s = .next { s with inputs := rest }) ∧
    (¬ WordOffset offset → (s.inputs = .regRead offset :: rest ∨ s.inputs = .regWrite offset v :: rest) →
      step s = .refused .registerAccessWithoutMeaning) ∧
    (a < 2 ^ 32 → InOutput s a → (s.inputs = .memRead a :: rest ∨ s.inputs = .memWrite a b :: rest) →
      step s = .refused .hostTouchesBufferWhileBusy) ∧
    (a < 2 ^ 32 → InInput s a → s.inputs = .memWrite a b :: rest → step s = .refused .hostTouchesBufferWhileBusy) ∧
    (a < 2 ^ 32 → ¬ InOutput s a → s.inputs = .memRead a :: rest →
      step s = .next { s with inputs := rest, readData := (s.memory.read a).setWidth 32 }) ∧
    (a < 2 ^ 32 → ¬ InOutput s a → ¬ InInput s a → s.memory.wf = true → s.inputs = .memWrite a b :: rest →
      ∃ m : Memory, step s = .next { s with inputs := rest, memory := m } ∧ m.wf = true ∧
        ∀ c, m.read c = if c = a then b else s.memory.read c) ∧
    (2 ^ 32 ≤ a → (s.inputs = .memRead a :: rest ∨ s.inputs = .memWrite a b :: rest) →
      step s = .fault .addressOutsideHostMemory)

/-- Hardware reset (70_reset_and_hazards.md R360): it may come at any time, also while BUSY = 1; the command in progress is
abandoned, every register takes its reset value, `S.state` is UNINIT and the rest of `S` unspecified (a free value, log 4);
only bytes of the output range of the abandoned command may have changed. -/
def Obligations.HardwareResetEffect : Prop :=
  ∀ (s : State) (rest : List HostMove), s.inputs = .hardReset :: rest →
    ∃ t, step s = .next t ∧
      (∀ offset, WordOffset offset → registerRead t offset = if offset = 0 then Config.implId else 0) ∧
      statusWord t = 0 ∧ t.phase = .uninit ∧ t.running = none ∧ t.inputs = rest ∧
      (∃ draw, t.stream = Config.freeStream draw) ∧
      ∀ a, s.running = none ∨ ¬ InOutput s a → t.memory.read a = s.memory.read a

/-! INIT, RESET, END and BOUND. -/

/-- INIT with legal operands (40_commands.md R152, R154; 10_state.md R53), whatever stream there was before: the whole next
state, with the search parameters and the strategy of the level in the table of 00_scope.md R8. The unwritten cells of `S.prev` are unspecified there (log 5). -/
def Obligations.InitStartsStream : Prop :=
  ∀ (level : BitVec 4) (wbits : BitVec 8) (s : State) (lv wb good lazy nice chain : Nat) (strategy : Strategy) (wrap : Wrap),
    LevelStands level lv → WbitsStands wbits wrap wb →
    (lv, good, lazy, nice, chain, strategy) ∈
      [(0, 0, 0, 0, 0, Strategy.stored), (1, 4, 4, 8, 4, .fast), (2, 4, 5, 16, 8, .fast), (3, 4, 6, 32, 32, .fast),
        (4, 4, 4, 16, 16, .slow), (5, 8, 16, 32, 32, .slow), (6, 8, 16, 128, 128, .slow), (7, 8, 32, 128, 256, .slow),
        (8, 32, 128, 258, 1024, .slow), (9, 32, 258, 258, 4096, .slow)] →
    exec (.init level wbits) s = .next { s with
      result := .ok
      running := none
      phase := .init
      totalIn := 0
      totalOut := 0
      check := if wrap = .gzip then 0 else 1
      config := BitVec.ofNat 32
        (lv + 16 * wbits.toNat + 4096 * (match wrap with | .raw => 0 | .zlib => 1 | .gzip => 2))
      draws := s.draws + 1
      stream := {
        level := lv
        wrap := wrap
        reqWbits := wb
        wBits := if wb = 8 then 9 else wb
        goodMatch := good
        maxLazy := lazy
        niceMatch := nice
        maxChain := chain
        strategy := strategy
        window := .empty
        head := .empty
        prev := .empty
        prevEpoch := s.draws
        prevLowered := 0
        insH := 0
        strstart := 0
        lookahead := 0
        blockStart := 0
        matchLength := 2
        prevLength := 2
        matchStart := 0
        prevMatch := 0
        matchAvailable := false
        insert := 0
        lfreq := Table.empty.set 0 256 1
        dfreq := .empty
        syms := []
        bitacc := 0
        bitcount := 0
        pending := []
        lastFlush := .noneYet
        trailerDone := false } }

/-- LEVEL and WBITS of an INIT word (30_encoding.md R114, R115): the values of LEVEL and of the signed WBITS, what each
selects, and a StreamError for every other value. No window is larger than `IMPL_MAX_WBITS` (log 17). -/
def Obligations.InitOperands : Prop :=
  ∀ (w : Word) (s : State), w &&& 0xFFF000FF = 0x00000001 →
    (10 ≤ levelNumber w ∧ levelNumber w ≤ 14 → execute w s = .next (onlyResult .streamError s)) ∧
    (¬ (-15 ≤ signedWbits w ∧ signedWbits w ≤ -8) ∧ ¬ (8 ≤ signedWbits w ∧ signedWbits w ≤ 15) ∧
        ¬ (24 ≤ signedWbits w ∧ signedWbits w ≤ 31) → execute w s = .next (onlyResult .streamError s)) ∧
    (LegalInitWord w → ∃ t, execute w s = .next t ∧ t.result = .ok ∧
      t.stream.level = (if levelNumber w = 15 then 6 else levelNumber w) ∧
      (-15 ≤ signedWbits w ∧ signedWbits w ≤ -8 →
        t.stream.wrap = .raw ∧ (t.stream.reqWbits : Int) = - signedWbits w) ∧
      (8 ≤ signedWbits w ∧ signedWbits w ≤ 15 → t.stream.wrap = .zlib ∧ (t.stream.reqWbits : Int) = signedWbits w) ∧
      (24 ≤ signedWbits w ∧ signedWbits w ≤ 31 →
        t.stream.wrap = .gzip ∧ (t.stream.reqWbits : Int) = signedWbits w - 16) ∧
      t.stream.wBits = max t.stream.reqWbits 9 ∧ t.stream.reqWbits ≤ Config.implMaxWbits)

/-- RESET (40_commands.md R153, R154): StreamError before any INIT or after END; otherwise the stream starts again with the
same configuration, and the window and `S.prev` are kept. -/
def Obligations.ResetRestartsStream : Prop :=
  ∀ s : State,
    (s.phase = .uninit → exec .reset s = .next (onlyResult .streamError s)) ∧
    (s.phase ≠ .uninit → exec .reset s = .next { s with
      result := .ok
      running := none
      phase := .init
      totalIn := 0
      totalOut := 0
      check := if s.stream.wrap = .gzip then 0 else 1
      stream := { s.stream with
        head := .empty
        strstart := 0
        blockStart := 0
        lookahead := 0
        insert := 0
        matchLength := 2
        prevLength := 2
        matchAvailable := false
        matchStart := 0
        prevMatch := 0
        insH := 0
        lfreq := Table.empty.set 0 256 1
        dfreq := .empty
        syms := []
        bitacc := 0
        bitcount := 0
        pending := []
        lastFlush := .noneYet
        trailerDone := false } })

/-- END (40_commands.md R168): StreamError when no stream exists; otherwise `S.state` is UNINIT, CONFIG 0, and the rest of
`S` unspecified (a free value, log 4), every other register keeping its value. -/
def Obligations.EndReleasesStream : Prop :=
  ∀ s : State,
    (s.phase = .uninit → exec .endStream s = .next (onlyResult .streamError s)) ∧
    (s.phase ≠ .uninit → ∃ draw, exec .endStream s = .next { s with
      result := .ok
      running := none
      phase := .uninit
      config := 0
      stream := Config.freeStream draw
      draws := s.draws + 1 })

/-- BOUND (40_commands.md R170), in every stream state: the formula mod 2^32; it wraps, and is smaller than `n`, exactly from
`n = 0xFFEC0104` on. -/
def Obligations.BoundFormula : Prop :=
  ∀ (s : State) (n : Nat), n = s.inAvail.toNat →
    exec .bound s = .next { s with
      result := .ok
      running := none
      bound := BitVec.ofNat 32 (n + n / 2 ^ 12 + n / 2 ^ 14 + n / 2 ^ 25 + 13) } ∧
    (n < 0xFFEC0104 → n + n / 2 ^ 12 + n / 2 ^ 14 + n / 2 ^ 25 + 13 < 2 ^ 32) ∧
    (0xFFEC0104 ≤ n → (n + n / 2 ^ 12 + n / 2 ^ 14 + n / 2 ^ 25 + 13) % 2 ^ 32 < n)

/-! Result codes. -/

/-- StreamError has exactly ten causes, and no other effect (60_exceptions.md R323). -/
def Obligations.StreamErrorHasTenCauses : Prop :=
  ∀ (w : Word) (s : State),
    (StreamErrorCause w s → execute w s = .next (onlyResult .streamError s)) ∧
    (¬ StreamErrorCause w s → ∃ t, execute w s = .next t ∧ t.result ≠ .streamError)

/-- BufError is raised by DEFLATE only, in exactly three cases, each with its effect (60_exceptions.md R326; 40_commands.md
R155 lines 5, 11 and 12, R160). Case 3 stands behind line 9, which ends the command when the pending bytes fill the output
space. -/
def Obligations.BufErrorHasThreeCauses : Prop :=
  (∀ (w : Word) (s t : State), execute w s = .next t → t.result = .bufError → ∃ f, w = encode (deflateInstr f)) ∧
  ∀ (f : Flush) (s : State), ¬ DeflateStreamError f s →
    (s.outAvail = 0 → exec (deflateInstr f) s = .next (onlyResult .bufError s)) ∧
    (s.outAvail ≠ 0 → s.stream.pending = [] → s.inAvail = 0 → f ≠ .finish → f.rank ≤ s.stream.lastFlush.rank →
      exec (deflateInstr f) s =
        .next { onlyResult .bufError s with stream := { s.stream with lastFlush := .mode f } }) ∧
    (s.outAvail ≠ 0 → s.phase = .finishing → s.inAvail ≠ 0 → s.stream.pending.length < s.outAvail.toNat →
      exec (deflateInstr f) s =
        .next (onlyResult .bufError { flushPending s with
          stream := { (flushPending s).stream with lastFlush := .mode f } })) ∧
    (s.outAvail ≠ 0 → ¬ (s.stream.pending = [] ∧ s.inAvail = 0 ∧ f ≠ .finish ∧ f.rank ≤ s.stream.lastFlush.rank) →
      ¬ (s.phase = .finishing ∧ s.inAvail ≠ 0 ∧ s.stream.pending.length < s.outAvail.toNat) →
      ∃ t, exec (deflateInstr f) s = .next t ∧ t.result ≠ .bufError)

/-- StreamEnd is written only by a DEFLATE with FINISH, when the final block, the padding and the trailer are all in host
memory: no input, lookahead, symbol, byte of an open block, bit or queued byte is left; it sets DONE, and every later DEFLATE
raises StreamError (60_exceptions.md R325, 40_commands.md R162, R166). The premise is the invariant every step keeps. -/
def Obligations.StreamEndMeansComplete : Prop :=
  ∀ (w : Word) (s t : State), Inv s → execute w s = .next t → t.result = .streamEnd →
    w = encode .deflateFinish ∧ s.phase ≠ .done ∧ t.phase = .done ∧
    t.inAvail = 0 ∧ t.stream.lookahead = 0 ∧ t.stream.syms = [] ∧ t.stream.blockStart = t.stream.strstart ∧
    t.stream.bitcount = 0 ∧ t.stream.pending = [] ∧
    (t.stream.wrap = .raw ∨ t.stream.trailerDone = true) ∧
    ∀ f, exec (deflateInstr f) t = .next (onlyResult .streamError t)

/-- The codes a command writes: DataError, NeedDict and VersionError never (60_exceptions.md R328), MemError never in this
hardware (R327; log 17). So no step gives RESULT one of them. -/
def Obligations.ResultCodesWritten : Prop :=
  (∀ (w : Word) (s : State), ∃ t, execute w s = .next t ∧
    (t.result = .ok ∨ t.result = .streamEnd ∨ t.result = .bufError ∨ t.result = .streamError)) ∧
  ∀ s t : State, step s = .next t →
    (s.result ≠ .dataError ∧ s.result ≠ .needDict ∧ s.result ≠ .versionError ∧ s.result ≠ .memError) →
    t.result ≠ .dataError ∧ t.result ≠ .needDict ∧ t.result ≠ .versionError ∧ t.result ≠ .memError

/-! DEFLATE. -/

/-- Every DEFLATE that none of the checks of 40_commands.md R155 turns away completes: it consumes `k` input bytes and
produces `m` output bytes, the cursors, counters and the checksum follow (10_state.md R37 to R39; 20_memory.md R87, R88;
44_checksum.md R313), and it ends with Ok, or with StreamEnd under FINISH. -/
def Obligations.DeflateCompletes : Prop :=
  ∀ (f : Flush) (s : State), DeflateAccepted f s →
    ∃ (t : State) (k m : Nat), exec (deflateInstr f) s = .next t ∧ t.running = none ∧
      (t.result = .ok ∨ (f = .finish ∧ t.result = .streamEnd)) ∧ (s.stream.pending = [] → t.phase ≠ .init) ∧
      k ≤ s.inAvail.toNat ∧ m ≤ s.outAvail.toNat ∧
      t.inPtr = s.inPtr + BitVec.ofNat 32 k ∧ t.inAvail.toNat = s.inAvail.toNat - k ∧
      t.totalIn = s.totalIn + BitVec.ofNat 32 k ∧
      t.outPtr = s.outPtr + BitVec.ofNat 32 m ∧ t.outAvail.toNat = s.outAvail.toNat - m ∧
      t.totalOut = s.totalOut + BitVec.ofNat 32 m ∧
      t.check = updateCheck s.stream.wrap s.check (inputBytes s k)

/-- What DEFLATE leaves unchanged, in every outcome: CONFIG, BOUND, OVERRUN, the configuration in `S`, and every byte of
memory but the `m` it stored at OUT_PTR on, `m` being how much OUT_AVAIL fell (10_state.md R35 to R37; 20_memory.md R80,
R88). -/
def Obligations.DeflateFrame : Prop :=
  ∀ (f : Flush) (s t : State), exec (deflateInstr f) s = .next t →
    t.config = s.config ∧ t.bound = s.bound ∧ t.overrun = s.overrun ∧ t.inputs = s.inputs ∧
    t.readData = s.readData ∧ t.draws = s.draws ∧ SameConfig s.stream t.stream ∧ t.running = none ∧
    ∀ a, (∀ i, i < storedCount s t → a ≠ storeAddress s i) → t.memory.read a = s.memory.read a

/-- What the other commands leave unchanged (10_state.md R37, R38, R53; 20_memory.md R80; 70_reset_and_hazards.md R362): all
of host memory, the cursors and OVERRUN for each; TOTAL_IN, TOTAL_OUT and CHECK for END and BOUND; BOUND for all but BOUND;
CONFIG and the configuration, the window and `S.prev` for RESET; `S` and CONFIG for BOUND. -/
def Obligations.OtherCommandsFrame : Prop :=
  ∀ (i : Instr) (s t : State), (∀ f, i ≠ deflateInstr f) → exec i s = .next t →
    (∀ a, t.memory.read a = s.memory.read a) ∧ t.inPtr = s.inPtr ∧ t.inAvail = s.inAvail ∧ t.outPtr = s.outPtr ∧
    t.outAvail = s.outAvail ∧ t.overrun = s.overrun ∧ t.inputs = s.inputs ∧ t.readData = s.readData ∧
    t.running = none ∧
    (i ≠ .bound → t.bound = s.bound) ∧
    (i = .endStream ∨ i = .bound → t.totalIn = s.totalIn ∧ t.totalOut = s.totalOut ∧ t.check = s.check) ∧
    (i = .reset → t.config = s.config ∧ SameConfig s.stream t.stream ∧ t.stream.window = s.stream.window ∧
      (∀ i, t.stream.prevAt i = s.stream.prevAt i) ∧ t.stream.prev = s.stream.prev ∧ t.draws = s.draws) ∧
    (i = .bound → t.config = s.config ∧ t.phase = s.phase ∧ t.stream = s.stream ∧ t.draws = s.draws)

/-- The progress property (40_commands.md R159): when DEFLATE returns Ok, the input or the output space is used up. The
premise is the invariant every step keeps. -/
def Obligations.ProgressProperty : Prop :=
  ∀ (f : Flush) (s t : State), Inv s → exec (deflateInstr f) s = .next t → t.result = .ok →
    t.inAvail = 0 ∨ t.outAvail = 0

/-- What each answer of a strategy means (41_lz77.md R212; `StrategyPost`), and that it keeps the stream's invariants
(R217), in every started stream. -/
def Obligations.StrategyAnswers : Prop :=
  ∀ (f : Flush) (s : State), StreamOk s.stream →
    StrategyPost f (runStrategy f s).1 (runStrategy f s).2 ∧ StreamOk (runStrategy f s).2.stream

/-- A SYNC_FLUSH or FULL_FLUSH that returns Ok with output space left has consumed the whole input, and its queue is empty: the
last four bytes in host memory are the flush marker. After SYNC_FLUSH the open block is empty too, at every level, so
everything consumed is out. FULL_FLUSH empties the match history and sets the positions to 0 whatever was sent, so that its
block was closed before is said by `StrategyAnswers` (40_commands.md R158, R164; 30_encoding.md R132). The premise is the
invariant every step keeps. -/
def Obligations.FlushPointInMemory : Prop :=
  ∀ (f : Flush) (s t : State), Inv s → f = .syncFlush ∨ f = .fullFlush → exec (deflateInstr f) s = .next t →
    t.result = .ok → t.outAvail ≠ 0 →
    s.outPtr.toNat + 4 ≤ t.outPtr.toNat ∧
    t.memory.read (t.outPtr.toNat - 4) = 0x00 ∧ t.memory.read (t.outPtr.toNat - 3) = 0x00 ∧
    t.memory.read (t.outPtr.toNat - 2) = 0xFF ∧ t.memory.read (t.outPtr.toNat - 1) = 0xFF ∧
    t.inAvail = 0 ∧ t.stream.lookahead = 0 ∧ t.stream.syms = [] ∧ t.stream.matchAvailable = false ∧
    t.stream.bitcount = 0 ∧ t.stream.pending = [] ∧
    (f = .syncFlush → t.stream.blockStart = t.stream.strstart) ∧
    (f = .fullFlush → (∀ h, t.stream.head.get 0 h = 0) ∧ t.stream.strstart = 0 ∧ t.stream.blockStart = 0 ∧
      t.stream.insert = 0)

/-- The header comes first, once per stream, even with no input (40_commands.md R155 lines 13 to 18, R156): the first
accepted DEFLATE of a stream puts the header's bytes, as many as there is space for, at OUT_PTR. -/
def Obligations.HeaderComesFirst : Prop :=
  ∀ (f : Flush) (s : State), s.memory.wf = true → s.phase = .init → s.stream.pending = [] → DeflateAccepted f s →
    ∃ t, exec (deflateInstr f) s = .next t ∧ t.phase ≠ .init ∧
      ∀ i, i < s.outAvail.toNat → i < (headerBytes s.stream.wrap s.stream.level s.stream.reqWbits).length →
        (headerBytes s.stream.wrap s.stream.level s.stream.reqWbits)[i]? =
          some (t.memory.read (s.outPtr.toNat + i))

/-- The wrapper's bytes: the zlib header and its check bits, with the rule's examples (30_encoding.md R121), the gzip header
(R122), and the trailers (40_commands.md R165). -/
def Obligations.WrapperBytes : Prop :=
  (∀ level req, level ≤ 9 → 8 ≤ req → req ≤ 15 → ∃ h, headerBytes .zlib level req =
      [BitVec.ofNat 8 (h / 256), BitVec.ofNat 8 (h % 256)] ∧ h < 65536 ∧ h / 4096 = req - 8 ∧ h / 256 % 16 = 8 ∧
      h / 64 % 4 = (if level < 2 then 0 else if level ≤ 5 then 1 else if level = 6 then 2 else 3) ∧
      h / 32 % 2 = 0 ∧ h % 31 = 0) ∧
  headerBytes .zlib 6 15 = [0x78, 0x9C] ∧ headerBytes .zlib 1 15 = [0x78, 0x01] ∧
  headerBytes .zlib 9 15 = [0x78, 0xDA] ∧
  (∀ level req, headerBytes .gzip level req =
    [0x1F, 0x8B, 0x08, 0x00, 0x00, 0x00, 0x00, 0x00,
      if level = 9 then 2 else if level < 2 then 4 else 0, 3]) ∧
  (∀ level req, headerBytes .raw level req = []) ∧
  ∀ check totalIn : Word,
    (trailerBytes .raw check totalIn = []) ∧
    (trailerBytes .zlib check totalIn).map BitVec.toNat =
      [check.toNat / 2 ^ 24, check.toNat / 2 ^ 16 % 256, check.toNat / 2 ^ 8 % 256, check.toNat % 256] ∧
    (trailerBytes .gzip check totalIn).map BitVec.toNat =
      [check.toNat % 256, check.toNat / 2 ^ 8 % 256, check.toNat / 2 ^ 16 % 256, check.toNat / 2 ^ 24,
        totalIn.toNat % 256, totalIn.toNat / 2 ^ 8 % 256, totalIn.toNat / 2 ^ 16 % 256, totalIn.toNat / 2 ^ 24]

/-- FINISH on a fresh stream of a level above 0 with no input writes the empty stream: the header, the final fixed block
`03 00` (43_block_serializer.md R285 example 2; 40_commands.md R155, corner cases) and the trailer, and returns StreamEnd. -/
def Obligations.EmptyStreamBytes : Prop :=
  ∀ (s : State) (t0 : Stream) (bytes : List Byte), ConfigOk t0 → t0.level ≠ 0 → s.stream = resetFields t0 →
    s.phase = .init → s.memory.wf = true → ¬ DeflateStreamError .finish s → s.inAvail = 0 →
    bytes = headerBytes t0.wrap t0.level t0.reqWbits ++ [0x03, 0x00] ++ trailerBytes t0.wrap s.check s.totalIn →
    bytes.length < s.outAvail.toNat →
    ∃ t, exec .deflateFinish s = .next t ∧ t.result = .streamEnd ∧ t.phase = .done ∧
      t.outPtr.toNat = s.outPtr.toNat + bytes.length ∧
      ∀ i, i < bytes.length → bytes[i]? = some (t.memory.read (s.outPtr.toNat + i))

/-- One-shot compression at level 0 (41_lz77.md R215; 43_block_serializer.md R278, R282; 30_encoding.md R120, R124): FINISH on
a fresh stream, with fewer input bytes than `MAX_DIST` and enough output space, writes the header, one final stored block
that holds the input verbatim, and the trailer with the input's checksum, and returns StreamEnd. -/
def Obligations.StoredOneShotBytes : Prop :=
  ∀ (s : State) (t0 : Stream) (n : Nat) (bytes : List Byte), ConfigOk t0 → t0.level = 0 → s.stream = resetFields t0 →
    s.phase = .init → s.memory.wf = true → ¬ DeflateStreamError .finish s →
    n = s.inAvail.toNat → n < t0.maxDist →
    bytes = headerBytes t0.wrap t0.level t0.reqWbits ++
      [0x01, BitVec.ofNat 8 (n % 256), BitVec.ofNat 8 (n / 256), BitVec.ofNat 8 (255 - n % 256),
        BitVec.ofNat 8 (255 - n / 256)] ++ inputBytes s n ++
      trailerBytes t0.wrap (updateCheck t0.wrap s.check (inputBytes s n)) (s.totalIn + BitVec.ofNat 32 n) →
    bytes.length < s.outAvail.toNat →
    ∃ t, exec .deflateFinish s = .next t ∧ t.result = .streamEnd ∧ t.phase = .done ∧ t.inAvail = 0 ∧
      t.outPtr.toNat = s.outPtr.toNat + bytes.length ∧
      ∀ i, i < bytes.length → bytes[i]? = some (t.memory.read (s.outPtr.toNat + i))

/-! The bit writer and the block serializer. -/

/-- `SendBits(v, n)` is the loop of 43_block_serializer.md R290, and appends the `n` low bits of `v`, least significant
first, to the stream. -/
def Obligations.SendBitsAppendsLowBits : Prop :=
  ∀ (v n : Nat) (t : Stream), WriterOk t → n ≤ 16 → v < 2 ^ n →
    sendBits v n t =
      drainBits n { t with bitacc := t.bitacc ||| v <<< t.bitcount, bitcount := t.bitcount + n } ∧
    queuedBits (sendBits v n t) = queuedBits t ++ lowBits v n

/-- `AlignByte` pads with zero bits to the next byte boundary, and `PutByte` at a boundary appends a byte
(43_block_serializer.md R287). -/
def Obligations.AlignAndPutByte : Prop :=
  ∀ (t : Stream) (b : Byte), WriterOk t →
    (queuedBits (alignByte t) = queuedBits t ++ List.replicate ((8 - t.bitcount) % 8) false ∧
      (alignByte t).bitcount = 0 ∧ (alignByte t).bitacc = 0) ∧
    (t.bitcount = 0 → queuedBits (putByte b t) = queuedBits t ++ lowBits b.toNat 8 ∧ (putByte b t).bitcount = 0)

/-- A stored block on the wire (30_encoding.md R124, 43_block_serializer.md R282): header bits, padding, LEN, NLEN = ~LEN,
each least significant byte first, then the bytes verbatim. -/
def Obligations.StoredBlockBits : Prop :=
  ∀ (buf : List Byte) (last : Bool) (t : Stream), WriterOk t → buf.length ≤ 65535 →
    queuedBits (sendStoredBlock buf last t) =
      queuedBits t ++ [last, false, false] ++ List.replicate ((8 - (t.bitcount + 3) % 8) % 8) false ++
        byteBits [BitVec.ofNat 8 (buf.length % 256), BitVec.ofNat 8 (buf.length / 256),
          BitVec.ofNat 8 (255 - buf.length % 256), BitVec.ofNat 8 (255 - buf.length / 256)] ++ byteBits buf ∧
    (sendStoredBlock buf last t).bitcount = 0

/-- `FlushMarker` (40_commands.md R164, 30_encoding.md R132): the partial byte is completed, or a zero byte formed, then
`00 00 FF FF`; FULL_FLUSH clears `S.head` and, with no lookahead, the positions, and keeps `S.prev`. -/
def Obligations.FlushMarkerBytes : Prop :=
  ∀ (f : Flush) (t : Stream), WriterOk t →
    (flushMarker f t).pending = t.pending ++
      (if t.bitcount ≤ 5 then [BitVec.ofNat 8 t.bitacc] else [BitVec.ofNat 8 t.bitacc, 0x00]) ++
      [0x00, 0x00, 0xFF, 0xFF] ∧
    (flushMarker f t).bitcount = 0 ∧ (flushMarker f t).bitacc = 0 ∧ (flushMarker f t).prev = t.prev ∧
    (∀ i, (flushMarker f t).prevAt i = t.prevAt i) ∧
    (f ≠ .fullFlush → (flushMarker f t).head = t.head ∧ (flushMarker f t).strstart = t.strstart ∧
      (flushMarker f t).blockStart = t.blockStart ∧ (flushMarker f t).insert = t.insert) ∧
    (f = .fullFlush → (∀ h, (flushMarker f t).head.get 0 h = 0) ∧
      (t.lookahead = 0 → (flushMarker f t).strstart = 0 ∧ (flushMarker f t).blockStart = 0 ∧
        (flushMarker f t).insert = 0) ∧
      (t.lookahead ≠ 0 → (flushMarker f t).strstart = t.strstart ∧ (flushMarker f t).blockStart = t.blockStart ∧
        (flushMarker f t).insert = t.insert))

/-- Every block starts with BFINAL, then BTYPE least significant bit first: 0 stored, 1 fixed, 2 dynamic, never 3
(30_encoding.md R123). -/
def Obligations.BlockHeaderBits : Prop :=
  ∀ (form : BlockForm) (bc : BlockCodes) (buf : List Byte) (last : Bool) (t : Stream), WriterOk t →
    ∃ rest, queuedBits (sendBlock form bc buf last t) = queuedBits t ++
      (match form with
        | .stored => [last, false, false]
        | .fixed => [last, true, false]
        | .dynamic => [last, false, true]) ++ rest

/-- The body of a fixed or dynamic block (30_encoding.md R131): every entry in order, then the end-of-block code; the codes,
held bit-reversed, go most significant bit first, the extra bits least significant bit first. -/
def Obligations.BlockBodyBits : Prop :=
  ∀ (lcode llen dcode dlen : Nat → Nat) (t : Stream), WriterOk t →
    queuedBits (compressBlock (fun i => bitReverse (lcode i) (llen i)) llen (fun i => bitReverse (dcode i) (dlen i)) dlen t)
      = queuedBits t ++ t.syms.reverse.flatMap (entryBits lcode llen dcode dlen) ++ msbBits (lcode 256) (llen 256)

/-- The tree description of a dynamic block (43_block_serializer.md R280; 30_encoding.md R129): HLIT, HDIST, HCLEN, the
code-length-code lengths in `BL_ORDER`, then the literal/length lengths and the distance lengths. -/
def Obligations.TreeDescriptionBits : Prop :=
  ∀ (lit dist bl : Code) (maxBl : Nat) (t : Stream), WriterOk t →
    queuedBits (sendAllTrees lit dist bl maxBl t) =
      queuedBits t ++ (lowBits (lit.maxCode + 1 - 257) 5 ++ (lowBits (dist.maxCode + 1 - 1) 5 ++
        (lowBits (maxBl + 1 - 4) 4 ++ ((blOrder.take (maxBl + 1)).flatMap (fun sym => lowBits (bl.len.get 0 sym) 3) ++
          ((runOps lit).flatMap (runOpBits bl) ++ (runOps dist).flatMap (runOpBits bl))))))

/-- The block choice (43_block_serializer.md R276, R278), in bytes rounded up from the bit estimates: stored when the bytes
are in the window and cost no more with 4 bytes added; else fixed when no larger than dynamic; else dynamic. At level 0
always stored, the bytes being in the window. -/
def Obligations.BlockChoice : Prop :=
  ∀ (level : Nat) (hasBuf : Bool) (storedLen : Int) (cost : Cost) (optB staticB : Int),
    optB * 8 - 8 < cost.optLen + 3 → cost.optLen + 3 ≤ optB * 8 →
    staticB * 8 - 8 < cost.staticLen + 3 → cost.staticLen + 3 ≤ staticB * 8 →
    (level ≠ 0 → hasBuf = true → storedLen + 4 ≤ min optB staticB →
      blockForm level hasBuf storedLen cost = .stored) ∧
    (level ≠ 0 → (hasBuf = false ∨ min optB staticB < storedLen + 4) → staticB ≤ optB →
      blockForm level hasBuf storedLen cost = .fixed) ∧
    (level ≠ 0 → (hasBuf = false ∨ min optB staticB < storedLen + 4) → optB < staticB →
      blockForm level hasBuf storedLen cost = .dynamic) ∧
    (level = 0 → hasBuf = true → blockForm level hasBuf storedLen cost = .stored)

/-! Huffman codes. -/

/-- The canonical assignment (42_huffman_builder.md R252): the code of symbol `n` is the first code of its length plus the
number of earlier symbols of that length, bit-reversed; the first codes follow the recurrence of the rule. The code 0 of a
symbol of length 0 is the model's choice, not the rule's (log 22). -/
def Obligations.CanonicalCodes : Prop :=
  ∀ (len blCount : Table Nat) (maxCode n : Nat), maxCode < 65536 → n ≤ maxCode →
    (∀ m, m ≤ maxCode → len.get 0 m ≤ 15) →
    (genCodes len maxCode blCount).get 0 n =
      (if len.get 0 n = 0 then 0
       else bitReverse (nextCode blCount (len.get 0 n) +
         (List.range n).countP (fun m => len.get 0 m == len.get 0 n)) (len.get 0 n)) ∧
    nextCode blCount 1 = 0 ∧
    ∀ b, nextCode blCount (b + 2) = (nextCode blCount (b + 1) + blCount.get 0 (b + 1)) * 2

/-- `BitReverse(v, k)` (42_huffman_builder.md R253): bit `i` of the result is bit `k - 1 - i` of `v`; sending it least
significant bit first puts the code's most significant bit first on the wire. -/
def Obligations.BitReversedCodes : Prop :=
  ∀ (v k : Nat), v < 2 ^ k →
    bitReverse v k < 2 ^ k ∧ (∀ i, i < k → (bitReverse v k).testBit i = v.testBit (k - 1 - i)) ∧
    ∀ t, WriterOk t → queuedBits (sendBits (bitReverse v k) k t) = queuedBits t ++ msbBits v k

/-- The fixed codes (30_encoding.md R128, 42_huffman_builder.md R254): the literal/length codes are the canonical assignment
over the 288 fixed lengths. -/
def Obligations.FixedCodes : Prop :=
  (List.range 288).map fixedLitCode =
    (List.range 288).map ((genCodes ((List.range 288).foldl (fun t n => t.set 0 n (fixedLitLen n)) .empty) 287
      ((List.range 288).foldl (fun t n => bump t (fixedLitLen n)) .empty)).get 0) ∧
  (List.range 30).map fixedDistCode = (List.range 30).map (fun d => bitReverse d 5)

/-- `RunOps` reproduces the lengths exactly, with legal code-length symbols and extra values that fit their bits
(43_block_serializer.md R274, 30_encoding.md R130). -/
def Obligations.RunOpsReproduceLengths : Prop :=
  ∀ lens : List Nat, (∀ l ∈ lens, l ≤ 15) →
    expandOps (runOpsOf lens) [] = lens ∧
    ∀ op ∈ runOpsOf lens, op.sym ≤ 18 ∧ op.bits = blExtra op.sym ∧ op.value < 2 ^ op.bits

/-- The lengths of a built code (42_huffman_builder.md R244, R246, R250, R251; 30_encoding.md R133 item 6): no code is longer
than its tree allows; in each of the three trees a used symbol has a code, whatever the frequencies, and at least two symbols
have one. -/
def Obligations.CodeLengthCeiling : Prop :=
  (∀ (kind : TreeKind) (freq : Table Nat) (cost : Cost) (n : Nat),
    (buildTree kind freq cost).1.len.get 0 n ≤ kind.maxLength) ∧
  ∀ (kind : TreeKind) (freq : Table Nat) (cost : Cost) (len : Nat → Nat),
    kind = litKind ∨ kind = distKind ∨ kind = blKind → len = (buildTree kind freq cost).1.len.get 0 →
    (∀ n, n < kind.elems → freq.get 0 n ≠ 0 → 1 ≤ len n ∧ len n ≤ kind.maxLength) ∧
    ∃ a b, a < b ∧ b < kind.elems ∧ 1 ≤ len a ∧ 1 ≤ len b

/-- The length alphabet (30_encoding.md R126): the 29 rows, each a symbol, its extra-bit count, and the first and the last
length it covers. `LenSym` answers the symbol whose row holds the length, `LenBase` and `LenExtra` the row's first length and
extra-bit count; the rows cover the lengths 3..258. -/
def Obligations.LengthSymbols : Prop :=
  ∀ rows, rows =
      [(257, 0, 3, 3), (258, 0, 4, 4), (259, 0, 5, 5), (260, 0, 6, 6), (261, 0, 7, 7), (262, 0, 8, 8), (263, 0, 9, 9),
        (264, 0, 10, 10), (265, 1, 11, 12), (266, 1, 13, 14), (267, 1, 15, 16), (268, 1, 17, 18), (269, 2, 19, 22),
        (270, 2, 23, 26), (271, 2, 27, 30), (272, 2, 31, 34), (273, 3, 35, 42), (274, 3, 43, 50), (275, 3, 51, 58),
        (276, 3, 59, 66), (277, 4, 67, 82), (278, 4, 83, 98), (279, 4, 99, 114), (280, 4, 115, 130), (281, 5, 131, 162),
        (282, 5, 163, 194), (283, 5, 195, 226), (284, 5, 227, 257), (285, 0, 258, 258)] →
    (∀ sym extra first last, (sym, extra, first, last) ∈ rows →
      lenExtra sym = extra ∧ lenBase sym = first ∧
        ∀ len, first ≤ len → len ≤ last → lenSym len = sym ∧ len - lenBase sym < 2 ^ lenExtra sym) ∧
    ∀ len, 3 ≤ len → len ≤ 258 → ∃ row ∈ rows, row.1 = lenSym len ∧ row.2.2.1 ≤ len ∧ len ≤ row.2.2.2

/-- The distance symbols (30_encoding.md R127): `DistExtra`, `DistBase`, and `DistSym(d)`, the one code that covers `d`. -/
def Obligations.DistanceSymbols : Prop :=
  (∀ c, distExtra c = (if c < 4 then 0 else (c - 2) >>> 1) ∧
    distBase c = if c < 4 then c + 1 else ((2 + (c &&& 1)) <<< distExtra c) + 1) ∧
  ∀ d, 1 ≤ d → d ≤ 32768 →
    distSym d < 30 ∧ ∀ c, c < 30 → (distBase c ≤ d ∧ d ≤ distBase c + 2 ^ distExtra c - 1 ↔ c = distSym d)

/-! The match finder. -/

/-- `UpdateHash` and the hash of three bytes, a function of the three bytes only (41_lz77.md R200). -/
def Obligations.HashOfThreeBytes : Prop :=
  ∀ (h : BitVec 15) (a b c : Byte),
    (updateHash h c).toNat = ((h.toNat <<< 5) ^^^ c.toNat) &&& 0x7FFF ∧
    (updateHash (updateHash (updateHash h a) b) c).toNat =
      ((a.toNat <<< 10) ^^^ (b.toNat <<< 5) ^^^ c.toNat) &&& 0x7FFF

/-- `InsertString(p)` (41_lz77.md R201): the position becomes the head of its chain, its link the old head, which is the
answer; no other entry changes. -/
def Obligations.InsertStringLinks : Prop :=
  ∀ (t : Stream) (p : Nat) (h : Nat), p < 65536 → t.wBits ≤ 15 →
    h = (updateHash t.insH (t.windowAt (p + 2))).toNat →
    insertAnswer p t = (t.head.get 0 h).toNat ∧ (insertString p t).insH.toNat = h ∧
    ((insertString p t).head.get 0 h).toNat = p ∧
    (∀ j, j < Config.hashSize → j ≠ h → (insertString p t).head.get 0 j = t.head.get 0 j) ∧
    (insertString p t).prevAt (p % t.wSize) = (t.head.get 0 h).toNat ∧
    ∀ j, j < t.wSize → j ≠ p % t.wSize → (insertString p t).prevAt j = t.prevAt j

/-- One turn of `DeflateFast` on a filled window (41_lz77.md R209, R213): it takes the next input bytes off the lookahead and
records a symbol that stands for exactly those bytes, a match being 3..258 bytes long, within MAX_DIST, and equal to the
lookahead byte by byte. -/
def Obligations.FastTurnIsSound : Prop :=
  ∀ t : Stream, StreamOk t → t.strategy = .fast → t.lookahead ≠ 0 →
    (fastStep t).window = t.window ∧
    (((fastStep t).syms = .lit (t.windowAt t.strstart) :: t.syms ∧
        (fastStep t).strstart = t.strstart + 1 ∧ (fastStep t).lookahead = t.lookahead - 1) ∨
      ∃ d l, (fastStep t).syms = .copy d l :: t.syms ∧ (fastStep t).strstart = t.strstart + l ∧
        (fastStep t).lookahead = t.lookahead - l ∧ 3 ≤ l ∧ l ≤ 258 ∧ l ≤ t.lookahead ∧
        1 ≤ d ∧ d ≤ t.maxDist ∧ d < t.strstart ∧
        ∀ i, i < l → t.windowAt (t.strstart - d + i) = t.windowAt (t.strstart + i))

/-- One turn of `DeflateSlow` on a filled window (41_lz77.md R209, R214), the held match agreeing with the input: the held
byte stays or becomes a literal, or the held match is emitted, 3..258 bytes long, within MAX_DIST, and equal to the bytes
from the held one on; and a match held afterwards agrees with the input again. A match held at distance MAX_DIST over a slide
(R205) can start one byte before the window: its distance is then `S.strstart`, and the equality is that of the bytes still
in the window. -/
def Obligations.SlowTurnIsSound : Prop :=
  ∀ t : Stream, StreamOk t → t.strategy = .slow → t.lookahead ≠ 0 → HeldAgrees t →
    HeldAgrees (slowTurn t) ∧ (slowTurn t).window = t.window ∧
    ((t.matchAvailable = false ∧ (slowTurn t).syms = t.syms ∧ (slowTurn t).matchAvailable = true ∧
        (slowTurn t).strstart = t.strstart + 1 ∧ (slowTurn t).lookahead = t.lookahead - 1) ∨
      (t.matchAvailable = true ∧ (slowTurn t).syms = .lit (t.windowAt (t.strstart - 1)) :: t.syms ∧
        (slowTurn t).matchAvailable = true ∧ (slowTurn t).strstart = t.strstart + 1 ∧
        (slowTurn t).lookahead = t.lookahead - 1) ∨
      (t.matchAvailable = true ∧ ∃ d l, (slowTurn t).syms = .copy d l :: t.syms ∧
        (slowTurn t).matchAvailable = false ∧ (slowTurn t).strstart + 1 = t.strstart + l ∧
        (slowTurn t).lookahead + l = t.lookahead + 1 ∧ 3 ≤ l ∧ l ≤ 258 ∧ 1 ≤ d ∧ d ≤ t.maxDist ∧ d ≤ t.strstart ∧
        ∀ i, i < l → d + 1 ≤ t.strstart + i →
          t.windowAt (t.strstart - 1 + i - d) = t.windowAt (t.strstart - 1 + i)))

/-- `FillWindow` (41_lz77.md R204; 20_memory.md R87): `k` input bytes join the end of the lookahead, in order, the lookahead
and the history within MAX_DIST stay what they were, whether or not the window slid, and it ends with 262 bytes of lookahead
or with the input used up. A match that lazy matching holds agrees with the input afterwards if it did before (R214). -/
def Obligations.FillWindowContent : Prop :=
  ∀ s : State, StreamOk s.stream → s.stream.lookahead < 262 →
    ∃ k, k ≤ s.inAvail.toNat ∧ (fillWindow s).inAvail.toNat = s.inAvail.toNat - k ∧
      (fillWindow s).stream.lookahead = s.stream.lookahead + k ∧
      (262 ≤ s.stream.lookahead + k ∨ k = s.inAvail.toNat) ∧
      (∀ i, i < s.stream.lookahead →
        (fillWindow s).stream.windowAt ((fillWindow s).stream.strstart + i) =
          s.stream.windowAt (s.stream.strstart + i)) ∧
      (∀ i, i < k →
        (fillWindow s).stream.windowAt ((fillWindow s).stream.strstart + s.stream.lookahead + i) = inputByte s i) ∧
      (∀ d, 1 ≤ d → d ≤ s.stream.maxDist → d ≤ s.stream.strstart →
        d ≤ (fillWindow s).stream.strstart ∧
          (fillWindow s).stream.windowAt ((fillWindow s).stream.strstart - d) =
            s.stream.windowAt (s.stream.strstart - d)) ∧
      (s.stream.strategy = .slow → HeldAgrees s.stream → HeldAgrees (fillWindow s).stream)

/-- `Slide` keeps the upper half of the window and moves every position down, each entry of `S.head` and of `S.prev` among
them, a cell of `S.prev` that nothing has written too: whatever it holds, it falls by `W_SIZE` (41_lz77.md R205). -/
def Obligations.SlideKeepsUpperHalf : Prop :=
  ∀ t : Stream, 9 ≤ t.wBits → t.wBits ≤ 15 → t.wSize + t.maxDist ≤ t.strstart → t.insert ≤ 2 →
    (∀ i, i < t.wSize → (slide t).windowAt i = t.windowAt (i + t.wSize)) ∧
    (∀ i, t.wSize ≤ i → i < 2 * t.wSize → (slide t).windowAt i = t.windowAt i) ∧
    (slide t).strstart + t.wSize = t.strstart ∧ (slide t).blockStart = t.blockStart - t.wSize ∧
    (slide t).matchStart = t.matchStart - t.wSize ∧ (slide t).insert = t.insert ∧
    (∀ h, ((slide t).head.get 0 h).toNat = (t.head.get 0 h).toNat - t.wSize) ∧
    ∀ i, (slide t).prevAt i = t.prevAt i - t.wSize

/-! The two memory primitives and the checksums. -/

/-- `ReadInput(n, dst)` (20_memory.md R87): the next `min(n, IN_AVAIL)` bytes of host memory go to the window in order, and
the cursor, TOTAL_IN and the checksum follow; nothing else changes. -/
def Obligations.ReadInputEffect : Prop :=
  ∀ (n dst k : Nat) (s : State), k = min n s.inAvail.toNat → dst + k ≤ 65536 →
    ∃ win : Table Byte, readInput n dst s = { s with
        inPtr := s.inPtr + BitVec.ofNat 32 k
        inAvail := s.inAvail - BitVec.ofNat 32 k
        totalIn := s.totalIn + BitVec.ofNat 32 k
        check := updateCheck s.stream.wrap s.check (inputBytes s k)
        stream := { s.stream with window := win } } ∧
      (∀ i, i < k → win.get 0 (dst + i) = s.memory.read (s.inPtr + BitVec.ofNat 32 i).toNat) ∧
      ∀ j, j < 65536 → j < dst ∨ dst + k ≤ j → win.get 0 j = s.stream.window.get 0 j

/-- `FlushPending` (20_memory.md R88): the first `min(len(S.pending), OUT_AVAIL)` queued bytes go to host memory in order,
and the cursor and TOTAL_OUT follow; nothing else changes. -/
def Obligations.FlushPendingEffect : Prop :=
  ∀ (s : State) (k : Nat), s.memory.wf = true → s.outPtr.toNat + s.outAvail.toNat ≤ 2 ^ 32 →
    k = min s.stream.pending.length s.outAvail.toNat →
    ∃ m : Memory, flushPending s = { s with
        outPtr := s.outPtr + BitVec.ofNat 32 k
        outAvail := s.outAvail - BitVec.ofNat 32 k
        totalOut := s.totalOut + BitVec.ofNat 32 k
        memory := m
        stream := { s.stream with pending := s.stream.pending.drop k } } ∧
      m.wf = true ∧
      (∀ i, i < k → s.stream.pending[i]? = some (m.read (s.outPtr.toNat + i))) ∧
      ∀ a, a < s.outPtr.toNat ∨ s.outPtr.toNat + k ≤ a → m.read a = s.memory.read a

/-- The checksums are combinable, the empty input changes neither, and a stream starts at their initial values
(44_checksum.md R314). -/
def Obligations.ChecksumsCombine : Prop :=
  (∀ a c : Word, adler32 a [] = a ∧ crc32 c [] = c) ∧
  (∀ (a c : Word) (x y : List Byte), adler32 (adler32 a x) y = adler32 a (x ++ y) ∧
    crc32 (crc32 c x) y = crc32 c (x ++ y)) ∧
  initialCheck .zlib = 1 ∧ initialCheck .gzip = 0

/-- The table form of CRC-32 is the bit-serial division by the reflected polynomial 0xEDB88320: one byte is eight bit steps
on the whole register, each a shift right, with the polynomial xored in when a one falls out (44_checksum.md R312). -/
def Obligations.CrcIsBitSerial : Prop :=
  ∀ (c : Word) (b : Byte),
    crcStep c b =
      (fun r : Word => if r.toNat % 2 = 1 then 0xEDB88320 ^^^ (r >>> 1) else r >>> 1)^[8] (c ^^^ b.setWidth 32)

/-- Adler-32 from its initial value in closed form (44_checksum.md R311): one plus the sum of the bytes, and the sum of the
partial sums, each mod 65521. -/
def Obligations.AdlerClosedForm : Prop :=
  ∀ bytes : List Byte,
    (adler32 1 bytes).toNat =
      ((bytes.length + ((List.range bytes.length).map
          (fun i => (bytes.length - i) * (bytes.getD i 0).toNat)).sum) % 65521) * 65536 +
        (1 + (bytes.map BitVec.toNat).sum) % 65521

/-! The whole machine. -/

/-- The invariant holds at reset. -/
def Obligations.InvAtReset : Prop := Inv State.reset

/-- Every step keeps the invariant, from every state that has it (41_lz77.md R217; 43_block_serializer.md R289; 10_state.md
R45; 20_memory.md R80): host memory stays canonical, and a started stream keeps a legal configuration, a bit writer with at
most 7 bits, tallies that count the symbols of the block, symbols that cover exactly the block's bytes at distances within
MAX_DIST, hash chains that hold only inserted positions, and match scalars in range. -/
def Obligations.StepKeepsInv : Prop := ∀ s t : State, Inv s → step s = .next t → Inv t

/-- Determinism (70_reset_and_hazards.md R377): the result, every register, `S` and every output byte of a command depend on
the registers, `S` and the bytes of the input range only: another host memory with the same input bytes, other moves of the
host to come and another last read of the host (the model's own fields, logs 1 and 14) change none of them. -/
def Obligations.CommandDependsOnInputOnly : Prop :=
  ∀ (w : Word) (s : State) (m : Memory) (moves : List HostMove) (lastRead : Word),
    s.memory.wf = true → m.wf = true → SameInput m s →
    ∃ t t', execute w s = .next t ∧
      execute w { s with memory := m, inputs := moves, readData := lastRead } = .next t' ∧
      t' = { t with memory := t'.memory, inputs := moves, readData := lastRead } ∧
      ∀ i, i < storedCount s t → t'.memory.read (storeAddress s i) = t.memory.read (storeAddress s i)

end
end

