-- ==== Sys2Proof/Laws/Stream.lean ====
section
/-! SUPPORT. One lemma per field of `Stream` per update of it, so that no later proof unfolds a record update. -/

namespace Sys2Proof.Machine

@[simp] theorem initBlock_level (t : Stream) : (initBlock t).level = t.level := rfl
@[simp] theorem initBlock_wrap (t : Stream) : (initBlock t).wrap = t.wrap := rfl
@[simp] theorem initBlock_reqWbits (t : Stream) : (initBlock t).reqWbits = t.reqWbits := rfl
@[simp] theorem initBlock_wBits (t : Stream) : (initBlock t).wBits = t.wBits := rfl
@[simp] theorem initBlock_goodMatch (t : Stream) : (initBlock t).goodMatch = t.goodMatch := rfl
@[simp] theorem initBlock_maxLazy (t : Stream) : (initBlock t).maxLazy = t.maxLazy := rfl
@[simp] theorem initBlock_niceMatch (t : Stream) : (initBlock t).niceMatch = t.niceMatch := rfl
@[simp] theorem initBlock_maxChain (t : Stream) : (initBlock t).maxChain = t.maxChain := rfl
@[simp] theorem initBlock_strategy (t : Stream) : (initBlock t).strategy = t.strategy := rfl
@[simp] theorem initBlock_window (t : Stream) : (initBlock t).window = t.window := rfl
@[simp] theorem initBlock_head (t : Stream) : (initBlock t).head = t.head := rfl
@[simp] theorem initBlock_prev (t : Stream) : (initBlock t).prev = t.prev := rfl
@[simp] theorem initBlock_prevEpoch (t : Stream) : (initBlock t).prevEpoch = t.prevEpoch := rfl
@[simp] theorem initBlock_prevLowered (t : Stream) : (initBlock t).prevLowered = t.prevLowered := rfl
@[simp] theorem initBlock_insH (t : Stream) : (initBlock t).insH = t.insH := rfl
@[simp] theorem initBlock_strstart (t : Stream) : (initBlock t).strstart = t.strstart := rfl
@[simp] theorem initBlock_lookahead (t : Stream) : (initBlock t).lookahead = t.lookahead := rfl
@[simp] theorem initBlock_blockStart (t : Stream) : (initBlock t).blockStart = t.blockStart := rfl
@[simp] theorem initBlock_matchLength (t : Stream) : (initBlock t).matchLength = t.matchLength := rfl
@[simp] theorem initBlock_prevLength (t : Stream) : (initBlock t).prevLength = t.prevLength := rfl
@[simp] theorem initBlock_matchStart (t : Stream) : (initBlock t).matchStart = t.matchStart := rfl
@[simp] theorem initBlock_prevMatch (t : Stream) : (initBlock t).prevMatch = t.prevMatch := rfl
@[simp] theorem initBlock_matchAvailable (t : Stream) : (initBlock t).matchAvailable = t.matchAvailable := rfl
@[simp] theorem initBlock_insert (t : Stream) : (initBlock t).insert = t.insert := rfl
@[simp] theorem initBlock_lfreq (t : Stream) : (initBlock t).lfreq = Table.empty.set 0 256 1 := rfl
@[simp] theorem initBlock_dfreq (t : Stream) : (initBlock t).dfreq = .empty := rfl
@[simp] theorem initBlock_syms (t : Stream) : (initBlock t).syms = [] := rfl
@[simp] theorem initBlock_bitacc (t : Stream) : (initBlock t).bitacc = t.bitacc := rfl
@[simp] theorem initBlock_bitcount (t : Stream) : (initBlock t).bitcount = t.bitcount := rfl
@[simp] theorem initBlock_pending (t : Stream) : (initBlock t).pending = t.pending := rfl
@[simp] theorem initBlock_lastFlush (t : Stream) : (initBlock t).lastFlush = t.lastFlush := rfl
@[simp] theorem initBlock_trailerDone (t : Stream) : (initBlock t).trailerDone = t.trailerDone := rfl

@[simp] theorem tallyLit_level (b : Byte) (t : Stream) : (tallyLit b t).level = t.level := rfl
@[simp] theorem tallyLit_wrap (b : Byte) (t : Stream) : (tallyLit b t).wrap = t.wrap := rfl
@[simp] theorem tallyLit_reqWbits (b : Byte) (t : Stream) : (tallyLit b t).reqWbits = t.reqWbits := rfl
@[simp] theorem tallyLit_wBits (b : Byte) (t : Stream) : (tallyLit b t).wBits = t.wBits := rfl
@[simp] theorem tallyLit_goodMatch (b : Byte) (t : Stream) : (tallyLit b t).goodMatch = t.goodMatch := rfl
@[simp] theorem tallyLit_maxLazy (b : Byte) (t : Stream) : (tallyLit b t).maxLazy = t.maxLazy := rfl
@[simp] theorem tallyLit_niceMatch (b : Byte) (t : Stream) : (tallyLit b t).niceMatch = t.niceMatch := rfl
@[simp] theorem tallyLit_maxChain (b : Byte) (t : Stream) : (tallyLit b t).maxChain = t.maxChain := rfl
@[simp] theorem tallyLit_strategy (b : Byte) (t : Stream) : (tallyLit b t).strategy = t.strategy := rfl
@[simp] theorem tallyLit_window (b : Byte) (t : Stream) : (tallyLit b t).window = t.window := rfl
@[simp] theorem tallyLit_head (b : Byte) (t : Stream) : (tallyLit b t).head = t.head := rfl
@[simp] theorem tallyLit_prev (b : Byte) (t : Stream) : (tallyLit b t).prev = t.prev := rfl
@[simp] theorem tallyLit_prevEpoch (b : Byte) (t : Stream) : (tallyLit b t).prevEpoch = t.prevEpoch := rfl
@[simp] theorem tallyLit_prevLowered (b : Byte) (t : Stream) : (tallyLit b t).prevLowered = t.prevLowered := rfl
@[simp] theorem tallyLit_insH (b : Byte) (t : Stream) : (tallyLit b t).insH = t.insH := rfl
@[simp] theorem tallyLit_strstart (b : Byte) (t : Stream) : (tallyLit b t).strstart = t.strstart := rfl
@[simp] theorem tallyLit_lookahead (b : Byte) (t : Stream) : (tallyLit b t).lookahead = t.lookahead := rfl
@[simp] theorem tallyLit_blockStart (b : Byte) (t : Stream) : (tallyLit b t).blockStart = t.blockStart := rfl
@[simp] theorem tallyLit_matchLength (b : Byte) (t : Stream) : (tallyLit b t).matchLength = t.matchLength := rfl
@[simp] theorem tallyLit_prevLength (b : Byte) (t : Stream) : (tallyLit b t).prevLength = t.prevLength := rfl
@[simp] theorem tallyLit_matchStart (b : Byte) (t : Stream) : (tallyLit b t).matchStart = t.matchStart := rfl
@[simp] theorem tallyLit_prevMatch (b : Byte) (t : Stream) : (tallyLit b t).prevMatch = t.prevMatch := rfl
@[simp] theorem tallyLit_matchAvailable (b : Byte) (t : Stream) : (tallyLit b t).matchAvailable = t.matchAvailable := rfl
@[simp] theorem tallyLit_insert (b : Byte) (t : Stream) : (tallyLit b t).insert = t.insert := rfl
@[simp] theorem tallyLit_lfreq (b : Byte) (t : Stream) : (tallyLit b t).lfreq = bump t.lfreq b.toNat := rfl
@[simp] theorem tallyLit_dfreq (b : Byte) (t : Stream) : (tallyLit b t).dfreq = t.dfreq := rfl
@[simp] theorem tallyLit_syms (b : Byte) (t : Stream) : (tallyLit b t).syms = .lit b :: t.syms := rfl
@[simp] theorem tallyLit_bitacc (b : Byte) (t : Stream) : (tallyLit b t).bitacc = t.bitacc := rfl
@[simp] theorem tallyLit_bitcount (b : Byte) (t : Stream) : (tallyLit b t).bitcount = t.bitcount := rfl
@[simp] theorem tallyLit_pending (b : Byte) (t : Stream) : (tallyLit b t).pending = t.pending := rfl
@[simp] theorem tallyLit_lastFlush (b : Byte) (t : Stream) : (tallyLit b t).lastFlush = t.lastFlush := rfl
@[simp] theorem tallyLit_trailerDone (b : Byte) (t : Stream) : (tallyLit b t).trailerDone = t.trailerDone := rfl

@[simp] theorem tallyDist_level (d l : Nat) (t : Stream) : (tallyDist d l t).level = t.level := rfl
@[simp] theorem tallyDist_wrap (d l : Nat) (t : Stream) : (tallyDist d l t).wrap = t.wrap := rfl
@[simp] theorem tallyDist_reqWbits (d l : Nat) (t : Stream) : (tallyDist d l t).reqWbits = t.reqWbits := rfl
@[simp] theorem tallyDist_wBits (d l : Nat) (t : Stream) : (tallyDist d l t).wBits = t.wBits := rfl
@[simp] theorem tallyDist_goodMatch (d l : Nat) (t : Stream) : (tallyDist d l t).goodMatch = t.goodMatch := rfl
@[simp] theorem tallyDist_maxLazy (d l : Nat) (t : Stream) : (tallyDist d l t).maxLazy = t.maxLazy := rfl
@[simp] theorem tallyDist_niceMatch (d l : Nat) (t : Stream) : (tallyDist d l t).niceMatch = t.niceMatch := rfl
@[simp] theorem tallyDist_maxChain (d l : Nat) (t : Stream) : (tallyDist d l t).maxChain = t.maxChain := rfl
@[simp] theorem tallyDist_strategy (d l : Nat) (t : Stream) : (tallyDist d l t).strategy = t.strategy := rfl
@[simp] theorem tallyDist_window (d l : Nat) (t : Stream) : (tallyDist d l t).window = t.window := rfl
@[simp] theorem tallyDist_head (d l : Nat) (t : Stream) : (tallyDist d l t).head = t.head := rfl
@[simp] theorem tallyDist_prev (d l : Nat) (t : Stream) : (tallyDist d l t).prev = t.prev := rfl
@[simp] theorem tallyDist_prevEpoch (d l : Nat) (t : Stream) : (tallyDist d l t).prevEpoch = t.prevEpoch := rfl
@[simp] theorem tallyDist_prevLowered (d l : Nat) (t : Stream) : (tallyDist d l t).prevLowered = t.prevLowered := rfl
@[simp] theorem tallyDist_insH (d l : Nat) (t : Stream) : (tallyDist d l t).insH = t.insH := rfl
@[simp] theorem tallyDist_strstart (d l : Nat) (t : Stream) : (tallyDist d l t).strstart = t.strstart := rfl
@[simp] theorem tallyDist_lookahead (d l : Nat) (t : Stream) : (tallyDist d l t).lookahead = t.lookahead := rfl
@[simp] theorem tallyDist_blockStart (d l : Nat) (t : Stream) : (tallyDist d l t).blockStart = t.blockStart := rfl
@[simp] theorem tallyDist_matchLength (d l : Nat) (t : Stream) : (tallyDist d l t).matchLength = t.matchLength := rfl
@[simp] theorem tallyDist_prevLength (d l : Nat) (t : Stream) : (tallyDist d l t).prevLength = t.prevLength := rfl
@[simp] theorem tallyDist_matchStart (d l : Nat) (t : Stream) : (tallyDist d l t).matchStart = t.matchStart := rfl
@[simp] theorem tallyDist_prevMatch (d l : Nat) (t : Stream) : (tallyDist d l t).prevMatch = t.prevMatch := rfl
@[simp] theorem tallyDist_matchAvailable (d l : Nat) (t : Stream) : (tallyDist d l t).matchAvailable = t.matchAvailable := rfl
@[simp] theorem tallyDist_insert (d l : Nat) (t : Stream) : (tallyDist d l t).insert = t.insert := rfl
@[simp] theorem tallyDist_lfreq (d l : Nat) (t : Stream) : (tallyDist d l t).lfreq = bump t.lfreq (lenSym l) := rfl
@[simp] theorem tallyDist_dfreq (d l : Nat) (t : Stream) : (tallyDist d l t).dfreq = bump t.dfreq (distSym d) := rfl
@[simp] theorem tallyDist_syms (d l : Nat) (t : Stream) : (tallyDist d l t).syms = .copy d l :: t.syms := rfl
@[simp] theorem tallyDist_bitacc (d l : Nat) (t : Stream) : (tallyDist d l t).bitacc = t.bitacc := rfl
@[simp] theorem tallyDist_bitcount (d l : Nat) (t : Stream) : (tallyDist d l t).bitcount = t.bitcount := rfl
@[simp] theorem tallyDist_pending (d l : Nat) (t : Stream) : (tallyDist d l t).pending = t.pending := rfl
@[simp] theorem tallyDist_lastFlush (d l : Nat) (t : Stream) : (tallyDist d l t).lastFlush = t.lastFlush := rfl
@[simp] theorem tallyDist_trailerDone (d l : Nat) (t : Stream) : (tallyDist d l t).trailerDone = t.trailerDone := rfl

@[simp] theorem sendBits_level (v n : Nat) (t : Stream) : (sendBits v n t).level = t.level := rfl
@[simp] theorem sendBits_wrap (v n : Nat) (t : Stream) : (sendBits v n t).wrap = t.wrap := rfl
@[simp] theorem sendBits_reqWbits (v n : Nat) (t : Stream) : (sendBits v n t).reqWbits = t.reqWbits := rfl
@[simp] theorem sendBits_wBits (v n : Nat) (t : Stream) : (sendBits v n t).wBits = t.wBits := rfl
@[simp] theorem sendBits_goodMatch (v n : Nat) (t : Stream) : (sendBits v n t).goodMatch = t.goodMatch := rfl
@[simp] theorem sendBits_maxLazy (v n : Nat) (t : Stream) : (sendBits v n t).maxLazy = t.maxLazy := rfl
@[simp] theorem sendBits_niceMatch (v n : Nat) (t : Stream) : (sendBits v n t).niceMatch = t.niceMatch := rfl
@[simp] theorem sendBits_maxChain (v n : Nat) (t : Stream) : (sendBits v n t).maxChain = t.maxChain := rfl
@[simp] theorem sendBits_strategy (v n : Nat) (t : Stream) : (sendBits v n t).strategy = t.strategy := rfl
@[simp] theorem sendBits_window (v n : Nat) (t : Stream) : (sendBits v n t).window = t.window := rfl
@[simp] theorem sendBits_head (v n : Nat) (t : Stream) : (sendBits v n t).head = t.head := rfl
@[simp] theorem sendBits_prev (v n : Nat) (t : Stream) : (sendBits v n t).prev = t.prev := rfl
@[simp] theorem sendBits_prevEpoch (v n : Nat) (t : Stream) : (sendBits v n t).prevEpoch = t.prevEpoch := rfl
@[simp] theorem sendBits_prevLowered (v n : Nat) (t : Stream) : (sendBits v n t).prevLowered = t.prevLowered := rfl
@[simp] theorem sendBits_insH (v n : Nat) (t : Stream) : (sendBits v n t).insH = t.insH := rfl
@[simp] theorem sendBits_strstart (v n : Nat) (t : Stream) : (sendBits v n t).strstart = t.strstart := rfl
@[simp] theorem sendBits_lookahead (v n : Nat) (t : Stream) : (sendBits v n t).lookahead = t.lookahead := rfl
@[simp] theorem sendBits_blockStart (v n : Nat) (t : Stream) : (sendBits v n t).blockStart = t.blockStart := rfl
@[simp] theorem sendBits_matchLength (v n : Nat) (t : Stream) : (sendBits v n t).matchLength = t.matchLength := rfl
@[simp] theorem sendBits_prevLength (v n : Nat) (t : Stream) : (sendBits v n t).prevLength = t.prevLength := rfl
@[simp] theorem sendBits_matchStart (v n : Nat) (t : Stream) : (sendBits v n t).matchStart = t.matchStart := rfl
@[simp] theorem sendBits_prevMatch (v n : Nat) (t : Stream) : (sendBits v n t).prevMatch = t.prevMatch := rfl
@[simp] theorem sendBits_matchAvailable (v n : Nat) (t : Stream) : (sendBits v n t).matchAvailable = t.matchAvailable := rfl
@[simp] theorem sendBits_insert (v n : Nat) (t : Stream) : (sendBits v n t).insert = t.insert := rfl
@[simp] theorem sendBits_lfreq (v n : Nat) (t : Stream) : (sendBits v n t).lfreq = t.lfreq := rfl
@[simp] theorem sendBits_dfreq (v n : Nat) (t : Stream) : (sendBits v n t).dfreq = t.dfreq := rfl
@[simp] theorem sendBits_syms (v n : Nat) (t : Stream) : (sendBits v n t).syms = t.syms := rfl
@[simp] theorem sendBits_bitacc (v n : Nat) (t : Stream) : (sendBits v n t).bitacc = (t.bitacc ||| v % 2 ^ n * 2 ^ t.bitcount) / 256 ^ ((t.bitcount + n) / 8) := rfl
@[simp] theorem sendBits_bitcount (v n : Nat) (t : Stream) : (sendBits v n t).bitcount = (t.bitcount + n) % 8 := rfl
@[simp] theorem sendBits_pending (v n : Nat) (t : Stream) : (sendBits v n t).pending = t.pending ++ lowBytes ((t.bitcount + n) / 8) (t.bitacc ||| v % 2 ^ n * 2 ^ t.bitcount) := rfl
@[simp] theorem sendBits_lastFlush (v n : Nat) (t : Stream) : (sendBits v n t).lastFlush = t.lastFlush := rfl
@[simp] theorem sendBits_trailerDone (v n : Nat) (t : Stream) : (sendBits v n t).trailerDone = t.trailerDone := rfl

@[simp] theorem alignByte_level (t : Stream) : (alignByte t).level = t.level := rfl
@[simp] theorem alignByte_wrap (t : Stream) : (alignByte t).wrap = t.wrap := rfl
@[simp] theorem alignByte_reqWbits (t : Stream) : (alignByte t).reqWbits = t.reqWbits := rfl
@[simp] theorem alignByte_wBits (t : Stream) : (alignByte t).wBits = t.wBits := rfl
@[simp] theorem alignByte_goodMatch (t : Stream) : (alignByte t).goodMatch = t.goodMatch := rfl
@[simp] theorem alignByte_maxLazy (t : Stream) : (alignByte t).maxLazy = t.maxLazy := rfl
@[simp] theorem alignByte_niceMatch (t : Stream) : (alignByte t).niceMatch = t.niceMatch := rfl
@[simp] theorem alignByte_maxChain (t : Stream) : (alignByte t).maxChain = t.maxChain := rfl
@[simp] theorem alignByte_strategy (t : Stream) : (alignByte t).strategy = t.strategy := rfl
@[simp] theorem alignByte_window (t : Stream) : (alignByte t).window = t.window := rfl
@[simp] theorem alignByte_head (t : Stream) : (alignByte t).head = t.head := rfl
@[simp] theorem alignByte_prev (t : Stream) : (alignByte t).prev = t.prev := rfl
@[simp] theorem alignByte_prevEpoch (t : Stream) : (alignByte t).prevEpoch = t.prevEpoch := rfl
@[simp] theorem alignByte_prevLowered (t : Stream) : (alignByte t).prevLowered = t.prevLowered := rfl
@[simp] theorem alignByte_insH (t : Stream) : (alignByte t).insH = t.insH := rfl
@[simp] theorem alignByte_strstart (t : Stream) : (alignByte t).strstart = t.strstart := rfl
@[simp] theorem alignByte_lookahead (t : Stream) : (alignByte t).lookahead = t.lookahead := rfl
@[simp] theorem alignByte_blockStart (t : Stream) : (alignByte t).blockStart = t.blockStart := rfl
@[simp] theorem alignByte_matchLength (t : Stream) : (alignByte t).matchLength = t.matchLength := rfl
@[simp] theorem alignByte_prevLength (t : Stream) : (alignByte t).prevLength = t.prevLength := rfl
@[simp] theorem alignByte_matchStart (t : Stream) : (alignByte t).matchStart = t.matchStart := rfl
@[simp] theorem alignByte_prevMatch (t : Stream) : (alignByte t).prevMatch = t.prevMatch := rfl
@[simp] theorem alignByte_matchAvailable (t : Stream) : (alignByte t).matchAvailable = t.matchAvailable := rfl
@[simp] theorem alignByte_insert (t : Stream) : (alignByte t).insert = t.insert := rfl
@[simp] theorem alignByte_lfreq (t : Stream) : (alignByte t).lfreq = t.lfreq := rfl
@[simp] theorem alignByte_dfreq (t : Stream) : (alignByte t).dfreq = t.dfreq := rfl
@[simp] theorem alignByte_syms (t : Stream) : (alignByte t).syms = t.syms := rfl
@[simp] theorem alignByte_bitacc (t : Stream) : (alignByte t).bitacc = 0 := rfl
@[simp] theorem alignByte_bitcount (t : Stream) : (alignByte t).bitcount = 0 := rfl
@[simp] theorem alignByte_pending (t : Stream) : (alignByte t).pending = if t.bitcount > 0 then t.pending ++ [BitVec.ofNat 8 t.bitacc] else t.pending := rfl
@[simp] theorem alignByte_lastFlush (t : Stream) : (alignByte t).lastFlush = t.lastFlush := rfl
@[simp] theorem alignByte_trailerDone (t : Stream) : (alignByte t).trailerDone = t.trailerDone := rfl

@[simp] theorem putBytes_level (bs : List Byte) (t : Stream) : (putBytes bs t).level = t.level := rfl
@[simp] theorem putBytes_wrap (bs : List Byte) (t : Stream) : (putBytes bs t).wrap = t.wrap := rfl
@[simp] theorem putBytes_reqWbits (bs : List Byte) (t : Stream) : (putBytes bs t).reqWbits = t.reqWbits := rfl
@[simp] theorem putBytes_wBits (bs : List Byte) (t : Stream) : (putBytes bs t).wBits = t.wBits := rfl
@[simp] theorem putBytes_goodMatch (bs : List Byte) (t : Stream) : (putBytes bs t).goodMatch = t.goodMatch := rfl
@[simp] theorem putBytes_maxLazy (bs : List Byte) (t : Stream) : (putBytes bs t).maxLazy = t.maxLazy := rfl
@[simp] theorem putBytes_niceMatch (bs : List Byte) (t : Stream) : (putBytes bs t).niceMatch = t.niceMatch := rfl
@[simp] theorem putBytes_maxChain (bs : List Byte) (t : Stream) : (putBytes bs t).maxChain = t.maxChain := rfl
@[simp] theorem putBytes_strategy (bs : List Byte) (t : Stream) : (putBytes bs t).strategy = t.strategy := rfl
@[simp] theorem putBytes_window (bs : List Byte) (t : Stream) : (putBytes bs t).window = t.window := rfl
@[simp] theorem putBytes_head (bs : List Byte) (t : Stream) : (putBytes bs t).head = t.head := rfl
@[simp] theorem putBytes_prev (bs : List Byte) (t : Stream) : (putBytes bs t).prev = t.prev := rfl
@[simp] theorem putBytes_prevEpoch (bs : List Byte) (t : Stream) : (putBytes bs t).prevEpoch = t.prevEpoch := rfl
@[simp] theorem putBytes_prevLowered (bs : List Byte) (t : Stream) : (putBytes bs t).prevLowered = t.prevLowered := rfl
@[simp] theorem putBytes_insH (bs : List Byte) (t : Stream) : (putBytes bs t).insH = t.insH := rfl
@[simp] theorem putBytes_strstart (bs : List Byte) (t : Stream) : (putBytes bs t).strstart = t.strstart := rfl
@[simp] theorem putBytes_lookahead (bs : List Byte) (t : Stream) : (putBytes bs t).lookahead = t.lookahead := rfl
@[simp] theorem putBytes_blockStart (bs : List Byte) (t : Stream) : (putBytes bs t).blockStart = t.blockStart := rfl
@[simp] theorem putBytes_matchLength (bs : List Byte) (t : Stream) : (putBytes bs t).matchLength = t.matchLength := rfl
@[simp] theorem putBytes_prevLength (bs : List Byte) (t : Stream) : (putBytes bs t).prevLength = t.prevLength := rfl
@[simp] theorem putBytes_matchStart (bs : List Byte) (t : Stream) : (putBytes bs t).matchStart = t.matchStart := rfl
@[simp] theorem putBytes_prevMatch (bs : List Byte) (t : Stream) : (putBytes bs t).prevMatch = t.prevMatch := rfl
@[simp] theorem putBytes_matchAvailable (bs : List Byte) (t : Stream) : (putBytes bs t).matchAvailable = t.matchAvailable := rfl
@[simp] theorem putBytes_insert (bs : List Byte) (t : Stream) : (putBytes bs t).insert = t.insert := rfl
@[simp] theorem putBytes_lfreq (bs : List Byte) (t : Stream) : (putBytes bs t).lfreq = t.lfreq := rfl
@[simp] theorem putBytes_dfreq (bs : List Byte) (t : Stream) : (putBytes bs t).dfreq = t.dfreq := rfl
@[simp] theorem putBytes_syms (bs : List Byte) (t : Stream) : (putBytes bs t).syms = t.syms := rfl
@[simp] theorem putBytes_bitacc (bs : List Byte) (t : Stream) : (putBytes bs t).bitacc = t.bitacc := rfl
@[simp] theorem putBytes_bitcount (bs : List Byte) (t : Stream) : (putBytes bs t).bitcount = t.bitcount := rfl
@[simp] theorem putBytes_pending (bs : List Byte) (t : Stream) : (putBytes bs t).pending = t.pending ++ bs := rfl
@[simp] theorem putBytes_lastFlush (bs : List Byte) (t : Stream) : (putBytes bs t).lastFlush = t.lastFlush := rfl
@[simp] theorem putBytes_trailerDone (bs : List Byte) (t : Stream) : (putBytes bs t).trailerDone = t.trailerDone := rfl

@[simp] theorem preloadHash_level (p : Nat) (t : Stream) : (preloadHash p t).level = t.level := rfl
@[simp] theorem preloadHash_wrap (p : Nat) (t : Stream) : (preloadHash p t).wrap = t.wrap := rfl
@[simp] theorem preloadHash_reqWbits (p : Nat) (t : Stream) : (preloadHash p t).reqWbits = t.reqWbits := rfl
@[simp] theorem preloadHash_wBits (p : Nat) (t : Stream) : (preloadHash p t).wBits = t.wBits := rfl
@[simp] theorem preloadHash_goodMatch (p : Nat) (t : Stream) : (preloadHash p t).goodMatch = t.goodMatch := rfl
@[simp] theorem preloadHash_maxLazy (p : Nat) (t : Stream) : (preloadHash p t).maxLazy = t.maxLazy := rfl
@[simp] theorem preloadHash_niceMatch (p : Nat) (t : Stream) : (preloadHash p t).niceMatch = t.niceMatch := rfl
@[simp] theorem preloadHash_maxChain (p : Nat) (t : Stream) : (preloadHash p t).maxChain = t.maxChain := rfl
@[simp] theorem preloadHash_strategy (p : Nat) (t : Stream) : (preloadHash p t).strategy = t.strategy := rfl
@[simp] theorem preloadHash_window (p : Nat) (t : Stream) : (preloadHash p t).window = t.window := rfl
@[simp] theorem preloadHash_head (p : Nat) (t : Stream) : (preloadHash p t).head = t.head := rfl
@[simp] theorem preloadHash_prev (p : Nat) (t : Stream) : (preloadHash p t).prev = t.prev := rfl
@[simp] theorem preloadHash_prevEpoch (p : Nat) (t : Stream) : (preloadHash p t).prevEpoch = t.prevEpoch := rfl
@[simp] theorem preloadHash_prevLowered (p : Nat) (t : Stream) : (preloadHash p t).prevLowered = t.prevLowered := rfl
@[simp] theorem preloadHash_insH (p : Nat) (t : Stream) : (preloadHash p t).insH = updateHash ((t.windowAt p).setWidth Config.hashBits) (t.windowAt (p + 1)) := rfl
@[simp] theorem preloadHash_strstart (p : Nat) (t : Stream) : (preloadHash p t).strstart = t.strstart := rfl
@[simp] theorem preloadHash_lookahead (p : Nat) (t : Stream) : (preloadHash p t).lookahead = t.lookahead := rfl
@[simp] theorem preloadHash_blockStart (p : Nat) (t : Stream) : (preloadHash p t).blockStart = t.blockStart := rfl
@[simp] theorem preloadHash_matchLength (p : Nat) (t : Stream) : (preloadHash p t).matchLength = t.matchLength := rfl
@[simp] theorem preloadHash_prevLength (p : Nat) (t : Stream) : (preloadHash p t).prevLength = t.prevLength := rfl
@[simp] theorem preloadHash_matchStart (p : Nat) (t : Stream) : (preloadHash p t).matchStart = t.matchStart := rfl
@[simp] theorem preloadHash_prevMatch (p : Nat) (t : Stream) : (preloadHash p t).prevMatch = t.prevMatch := rfl
@[simp] theorem preloadHash_matchAvailable (p : Nat) (t : Stream) : (preloadHash p t).matchAvailable = t.matchAvailable := rfl
@[simp] theorem preloadHash_insert (p : Nat) (t : Stream) : (preloadHash p t).insert = t.insert := rfl
@[simp] theorem preloadHash_lfreq (p : Nat) (t : Stream) : (preloadHash p t).lfreq = t.lfreq := rfl
@[simp] theorem preloadHash_dfreq (p : Nat) (t : Stream) : (preloadHash p t).dfreq = t.dfreq := rfl
@[simp] theorem preloadHash_syms (p : Nat) (t : Stream) : (preloadHash p t).syms = t.syms := rfl
@[simp] theorem preloadHash_bitacc (p : Nat) (t : Stream) : (preloadHash p t).bitacc = t.bitacc := rfl
@[simp] theorem preloadHash_bitcount (p : Nat) (t : Stream) : (preloadHash p t).bitcount = t.bitcount := rfl
@[simp] theorem preloadHash_pending (p : Nat) (t : Stream) : (preloadHash p t).pending = t.pending := rfl
@[simp] theorem preloadHash_lastFlush (p : Nat) (t : Stream) : (preloadHash p t).lastFlush = t.lastFlush := rfl
@[simp] theorem preloadHash_trailerDone (p : Nat) (t : Stream) : (preloadHash p t).trailerDone = t.trailerDone := rfl

@[simp] theorem insertString_level (p : Nat) (t : Stream) : (insertString p t).level = t.level := rfl
@[simp] theorem insertString_wrap (p : Nat) (t : Stream) : (insertString p t).wrap = t.wrap := rfl
@[simp] theorem insertString_reqWbits (p : Nat) (t : Stream) : (insertString p t).reqWbits = t.reqWbits := rfl
@[simp] theorem insertString_wBits (p : Nat) (t : Stream) : (insertString p t).wBits = t.wBits := rfl
@[simp] theorem insertString_goodMatch (p : Nat) (t : Stream) : (insertString p t).goodMatch = t.goodMatch := rfl
@[simp] theorem insertString_maxLazy (p : Nat) (t : Stream) : (insertString p t).maxLazy = t.maxLazy := rfl
@[simp] theorem insertString_niceMatch (p : Nat) (t : Stream) : (insertString p t).niceMatch = t.niceMatch := rfl
@[simp] theorem insertString_maxChain (p : Nat) (t : Stream) : (insertString p t).maxChain = t.maxChain := rfl
@[simp] theorem insertString_strategy (p : Nat) (t : Stream) : (insertString p t).strategy = t.strategy := rfl
@[simp] theorem insertString_window (p : Nat) (t : Stream) : (insertString p t).window = t.window := rfl
@[simp] theorem insertString_head (p : Nat) (t : Stream) : (insertString p t).head = t.head.set 0 (updateHash t.insH (t.windowAt (p + 2))).toNat (BitVec.ofNat 16 p) := rfl
@[simp] theorem insertString_prev (p : Nat) (t : Stream) : (insertString p t).prev = t.prev.write (p % t.wSize) (t.head.get 0 (updateHash t.insH (t.windowAt (p + 2))).toNat) := rfl
@[simp] theorem insertString_prevEpoch (p : Nat) (t : Stream) : (insertString p t).prevEpoch = t.prevEpoch := rfl
@[simp] theorem insertString_prevLowered (p : Nat) (t : Stream) : (insertString p t).prevLowered = t.prevLowered := rfl
@[simp] theorem insertString_insH (p : Nat) (t : Stream) : (insertString p t).insH = updateHash t.insH (t.windowAt (p + 2)) := rfl
@[simp] theorem insertString_strstart (p : Nat) (t : Stream) : (insertString p t).strstart = t.strstart := rfl
@[simp] theorem insertString_lookahead (p : Nat) (t : Stream) : (insertString p t).lookahead = t.lookahead := rfl
@[simp] theorem insertString_blockStart (p : Nat) (t : Stream) : (insertString p t).blockStart = t.blockStart := rfl
@[simp] theorem insertString_matchLength (p : Nat) (t : Stream) : (insertString p t).matchLength = t.matchLength := rfl
@[simp] theorem insertString_prevLength (p : Nat) (t : Stream) : (insertString p t).prevLength = t.prevLength := rfl
@[simp] theorem insertString_matchStart (p : Nat) (t : Stream) : (insertString p t).matchStart = t.matchStart := rfl
@[simp] theorem insertString_prevMatch (p : Nat) (t : Stream) : (insertString p t).prevMatch = t.prevMatch := rfl
@[simp] theorem insertString_matchAvailable (p : Nat) (t : Stream) : (insertString p t).matchAvailable = t.matchAvailable := rfl
@[simp] theorem insertString_insert (p : Nat) (t : Stream) : (insertString p t).insert = t.insert := rfl
@[simp] theorem insertString_lfreq (p : Nat) (t : Stream) : (insertString p t).lfreq = t.lfreq := rfl
@[simp] theorem insertString_dfreq (p : Nat) (t : Stream) : (insertString p t).dfreq = t.dfreq := rfl
@[simp] theorem insertString_syms (p : Nat) (t : Stream) : (insertString p t).syms = t.syms := rfl
@[simp] theorem insertString_bitacc (p : Nat) (t : Stream) : (insertString p t).bitacc = t.bitacc := rfl
@[simp] theorem insertString_bitcount (p : Nat) (t : Stream) : (insertString p t).bitcount = t.bitcount := rfl
@[simp] theorem insertString_pending (p : Nat) (t : Stream) : (insertString p t).pending = t.pending := rfl
@[simp] theorem insertString_lastFlush (p : Nat) (t : Stream) : (insertString p t).lastFlush = t.lastFlush := rfl
@[simp] theorem insertString_trailerDone (p : Nat) (t : Stream) : (insertString p t).trailerDone = t.trailerDone := rfl

@[simp] theorem longestMatch_level (c : Nat) (t : Stream) : (longestMatch c t).level = t.level := rfl
@[simp] theorem longestMatch_wrap (c : Nat) (t : Stream) : (longestMatch c t).wrap = t.wrap := rfl
@[simp] theorem longestMatch_reqWbits (c : Nat) (t : Stream) : (longestMatch c t).reqWbits = t.reqWbits := rfl
@[simp] theorem longestMatch_wBits (c : Nat) (t : Stream) : (longestMatch c t).wBits = t.wBits := rfl
@[simp] theorem longestMatch_goodMatch (c : Nat) (t : Stream) : (longestMatch c t).goodMatch = t.goodMatch := rfl
@[simp] theorem longestMatch_maxLazy (c : Nat) (t : Stream) : (longestMatch c t).maxLazy = t.maxLazy := rfl
@[simp] theorem longestMatch_niceMatch (c : Nat) (t : Stream) : (longestMatch c t).niceMatch = t.niceMatch := rfl
@[simp] theorem longestMatch_maxChain (c : Nat) (t : Stream) : (longestMatch c t).maxChain = t.maxChain := rfl
@[simp] theorem longestMatch_strategy (c : Nat) (t : Stream) : (longestMatch c t).strategy = t.strategy := rfl
@[simp] theorem longestMatch_window (c : Nat) (t : Stream) : (longestMatch c t).window = t.window := rfl
@[simp] theorem longestMatch_head (c : Nat) (t : Stream) : (longestMatch c t).head = t.head := rfl
@[simp] theorem longestMatch_prev (c : Nat) (t : Stream) : (longestMatch c t).prev = t.prev := rfl
@[simp] theorem longestMatch_prevEpoch (c : Nat) (t : Stream) : (longestMatch c t).prevEpoch = t.prevEpoch := rfl
@[simp] theorem longestMatch_prevLowered (c : Nat) (t : Stream) : (longestMatch c t).prevLowered = t.prevLowered := rfl
@[simp] theorem longestMatch_insH (c : Nat) (t : Stream) : (longestMatch c t).insH = t.insH := rfl
@[simp] theorem longestMatch_strstart (c : Nat) (t : Stream) : (longestMatch c t).strstart = t.strstart := rfl
@[simp] theorem longestMatch_lookahead (c : Nat) (t : Stream) : (longestMatch c t).lookahead = t.lookahead := rfl
@[simp] theorem longestMatch_blockStart (c : Nat) (t : Stream) : (longestMatch c t).blockStart = t.blockStart := rfl
@[simp] theorem longestMatch_matchLength (c : Nat) (t : Stream) : (longestMatch c t).matchLength = min (searchChain c t).1 t.lookahead := rfl
@[simp] theorem longestMatch_prevLength (c : Nat) (t : Stream) : (longestMatch c t).prevLength = t.prevLength := rfl
@[simp] theorem longestMatch_matchStart (c : Nat) (t : Stream) : (longestMatch c t).matchStart = (searchChain c t).2 := rfl
@[simp] theorem longestMatch_prevMatch (c : Nat) (t : Stream) : (longestMatch c t).prevMatch = t.prevMatch := rfl
@[simp] theorem longestMatch_matchAvailable (c : Nat) (t : Stream) : (longestMatch c t).matchAvailable = t.matchAvailable := rfl
@[simp] theorem longestMatch_insert (c : Nat) (t : Stream) : (longestMatch c t).insert = t.insert := rfl
@[simp] theorem longestMatch_lfreq (c : Nat) (t : Stream) : (longestMatch c t).lfreq = t.lfreq := rfl
@[simp] theorem longestMatch_dfreq (c : Nat) (t : Stream) : (longestMatch c t).dfreq = t.dfreq := rfl
@[simp] theorem longestMatch_syms (c : Nat) (t : Stream) : (longestMatch c t).syms = t.syms := rfl
@[simp] theorem longestMatch_bitacc (c : Nat) (t : Stream) : (longestMatch c t).bitacc = t.bitacc := rfl
@[simp] theorem longestMatch_bitcount (c : Nat) (t : Stream) : (longestMatch c t).bitcount = t.bitcount := rfl
@[simp] theorem longestMatch_pending (c : Nat) (t : Stream) : (longestMatch c t).pending = t.pending := rfl
@[simp] theorem longestMatch_lastFlush (c : Nat) (t : Stream) : (longestMatch c t).lastFlush = t.lastFlush := rfl
@[simp] theorem longestMatch_trailerDone (c : Nat) (t : Stream) : (longestMatch c t).trailerDone = t.trailerDone := rfl

@[simp] theorem slide_level (t : Stream) : (slide t).level = t.level := rfl
@[simp] theorem slide_wrap (t : Stream) : (slide t).wrap = t.wrap := rfl
@[simp] theorem slide_reqWbits (t : Stream) : (slide t).reqWbits = t.reqWbits := rfl
@[simp] theorem slide_wBits (t : Stream) : (slide t).wBits = t.wBits := rfl
@[simp] theorem slide_goodMatch (t : Stream) : (slide t).goodMatch = t.goodMatch := rfl
@[simp] theorem slide_maxLazy (t : Stream) : (slide t).maxLazy = t.maxLazy := rfl
@[simp] theorem slide_niceMatch (t : Stream) : (slide t).niceMatch = t.niceMatch := rfl
@[simp] theorem slide_maxChain (t : Stream) : (slide t).maxChain = t.maxChain := rfl
@[simp] theorem slide_strategy (t : Stream) : (slide t).strategy = t.strategy := rfl
@[simp] theorem slide_window (t : Stream) : (slide t).window = slideWindow t.wSize t.window := rfl
@[simp] theorem slide_head (t : Stream) : (slide t).head = t.head.mapCells (fun m => if slidePos t.wSize m = 0 then none else some (slidePos t.wSize m)) := rfl
@[simp] theorem slide_prev (t : Stream) : (slide t).prev = t.prev.mapCells (fun m => some (slidePos t.wSize m)) := rfl
@[simp] theorem slide_prevEpoch (t : Stream) : (slide t).prevEpoch = t.prevEpoch := rfl
@[simp] theorem slide_prevLowered (t : Stream) : (slide t).prevLowered = min (t.prevLowered + t.wSize) 65536 := rfl
@[simp] theorem slide_insH (t : Stream) : (slide t).insH = t.insH := rfl
@[simp] theorem slide_strstart (t : Stream) : (slide t).strstart = t.strstart - t.wSize := rfl
@[simp] theorem slide_lookahead (t : Stream) : (slide t).lookahead = t.lookahead := rfl
@[simp] theorem slide_blockStart (t : Stream) : (slide t).blockStart = t.blockStart - t.wSize := rfl
@[simp] theorem slide_matchLength (t : Stream) : (slide t).matchLength = t.matchLength := rfl
@[simp] theorem slide_prevLength (t : Stream) : (slide t).prevLength = t.prevLength := rfl
@[simp] theorem slide_matchStart (t : Stream) : (slide t).matchStart = t.matchStart - t.wSize := rfl
@[simp] theorem slide_prevMatch (t : Stream) : (slide t).prevMatch = t.prevMatch := rfl
@[simp] theorem slide_matchAvailable (t : Stream) : (slide t).matchAvailable = t.matchAvailable := rfl
@[simp] theorem slide_insert (t : Stream) : (slide t).insert = if t.insert > t.strstart - t.wSize then t.strstart - t.wSize else t.insert := rfl
@[simp] theorem slide_lfreq (t : Stream) : (slide t).lfreq = t.lfreq := rfl
@[simp] theorem slide_dfreq (t : Stream) : (slide t).dfreq = t.dfreq := rfl
@[simp] theorem slide_syms (t : Stream) : (slide t).syms = t.syms := rfl
@[simp] theorem slide_bitacc (t : Stream) : (slide t).bitacc = t.bitacc := rfl
@[simp] theorem slide_bitcount (t : Stream) : (slide t).bitcount = t.bitcount := rfl
@[simp] theorem slide_pending (t : Stream) : (slide t).pending = t.pending := rfl
@[simp] theorem slide_lastFlush (t : Stream) : (slide t).lastFlush = t.lastFlush := rfl
@[simp] theorem slide_trailerDone (t : Stream) : (slide t).trailerDone = t.trailerDone := rfl

@[simp] theorem passByte_level (t : Stream) : (passByte t).level = t.level := rfl
@[simp] theorem passByte_wrap (t : Stream) : (passByte t).wrap = t.wrap := rfl
@[simp] theorem passByte_reqWbits (t : Stream) : (passByte t).reqWbits = t.reqWbits := rfl
@[simp] theorem passByte_wBits (t : Stream) : (passByte t).wBits = t.wBits := rfl
@[simp] theorem passByte_goodMatch (t : Stream) : (passByte t).goodMatch = t.goodMatch := rfl
@[simp] theorem passByte_maxLazy (t : Stream) : (passByte t).maxLazy = t.maxLazy := rfl
@[simp] theorem passByte_niceMatch (t : Stream) : (passByte t).niceMatch = t.niceMatch := rfl
@[simp] theorem passByte_maxChain (t : Stream) : (passByte t).maxChain = t.maxChain := rfl
@[simp] theorem passByte_strategy (t : Stream) : (passByte t).strategy = t.strategy := rfl
@[simp] theorem passByte_window (t : Stream) : (passByte t).window = t.window := rfl
@[simp] theorem passByte_head (t : Stream) : (passByte t).head = t.head := rfl
@[simp] theorem passByte_prev (t : Stream) : (passByte t).prev = t.prev := rfl
@[simp] theorem passByte_prevEpoch (t : Stream) : (passByte t).prevEpoch = t.prevEpoch := rfl
@[simp] theorem passByte_prevLowered (t : Stream) : (passByte t).prevLowered = t.prevLowered := rfl
@[simp] theorem passByte_insH (t : Stream) : (passByte t).insH = t.insH := rfl
@[simp] theorem passByte_strstart (t : Stream) : (passByte t).strstart = t.strstart + 1 := rfl
@[simp] theorem passByte_lookahead (t : Stream) : (passByte t).lookahead = t.lookahead - 1 := rfl
@[simp] theorem passByte_blockStart (t : Stream) : (passByte t).blockStart = t.blockStart := rfl
@[simp] theorem passByte_matchLength (t : Stream) : (passByte t).matchLength = t.matchLength := rfl
@[simp] theorem passByte_prevLength (t : Stream) : (passByte t).prevLength = t.prevLength := rfl
@[simp] theorem passByte_matchStart (t : Stream) : (passByte t).matchStart = t.matchStart := rfl
@[simp] theorem passByte_prevMatch (t : Stream) : (passByte t).prevMatch = t.prevMatch := rfl
@[simp] theorem passByte_matchAvailable (t : Stream) : (passByte t).matchAvailable = t.matchAvailable := rfl
@[simp] theorem passByte_insert (t : Stream) : (passByte t).insert = t.insert := rfl
@[simp] theorem passByte_lfreq (t : Stream) : (passByte t).lfreq = t.lfreq := rfl
@[simp] theorem passByte_dfreq (t : Stream) : (passByte t).dfreq = t.dfreq := rfl
@[simp] theorem passByte_syms (t : Stream) : (passByte t).syms = t.syms := rfl
@[simp] theorem passByte_bitacc (t : Stream) : (passByte t).bitacc = t.bitacc := rfl
@[simp] theorem passByte_bitcount (t : Stream) : (passByte t).bitcount = t.bitcount := rfl
@[simp] theorem passByte_pending (t : Stream) : (passByte t).pending = t.pending := rfl
@[simp] theorem passByte_lastFlush (t : Stream) : (passByte t).lastFlush = t.lastFlush := rfl
@[simp] theorem passByte_trailerDone (t : Stream) : (passByte t).trailerDone = t.trailerDone := rfl

/-- The window size is a function of `S.w_bits`. -/
theorem wSize_congr {t u : Stream} (h : u.wBits = t.wBits) : u.wSize = t.wSize := by
  rw [Stream.wSize, Stream.wSize, h]

/-- So is the greatest distance. -/
theorem maxDist_congr {t u : Stream} (h : u.wBits = t.wBits) : u.maxDist = t.maxDist := by
  show u.wSize - 262 = t.wSize - 262
  rw [wSize_congr h]

end Sys2Proof.Machine
end

