-- ==== Sys2Proof/Laws/Table.lean ====
section
/-! SUPPORT. Reading and writing tables: a read after a write, and nothing else changes. -/

namespace Sys2Proof.Machine.Table

variable {α : Type}

@[simp] theorem halves_join (l r : Table α) : (join l r).halves = (l, r) := by
  cases l <;> cases r <;> rfl

@[simp] theorem halves_empty : (Table.empty : Table α).halves = (.empty, .empty) := rfl

@[simp] theorem halves_fork (l r : Table α) : (Table.fork l r).halves = (l, r) := rfl

@[simp] theorem halves_leaf (v : α) : (Table.leaf v).halves = (.empty, .empty) := rfl

@[simp] theorem readAt_empty (d i : Nat) : readAt d i (.empty : Table α) = none := by
  induction d generalizing i with
  | zero => rfl
  | succ d ih => simp [readAt, ih]

theorem readAt_writeAt_same (d i : Nat) (v : Option α) (t : Table α) :
    readAt d i (writeAt d i v t) = v := by
  induction d generalizing i t with
  | zero => cases v <;> rfl
  | succ d ih =>
    by_cases h : i % 2 = 0 <;> simp [readAt, writeAt, h, ih]

theorem readAt_writeAt_other (d i j : Nat) (v : Option α) (t : Table α)
    (hi : i < 2 ^ d) (hj : j < 2 ^ d) (hne : j ≠ i) :
    readAt d j (writeAt d i v t) = readAt d j t := by
  induction d generalizing i j t with
  | zero => omega
  | succ d ih =>
    have hi2 : i / 2 < 2 ^ d := by omega
    have hj2 : j / 2 < 2 ^ d := by omega
    by_cases h : i % 2 = 0 <;> by_cases h' : j % 2 = 0 <;> simp [readAt, writeAt, h, h']
    · exact ih _ _ _ hi2 hj2 (by omega)
    · exact ih _ _ _ hi2 hj2 (by omega)

theorem readAt_mapCells (f : α → Option α) (d i : Nat) (t : Table α) :
    readAt d i (mapCells f t) = (readAt d i t).bind f := by
  induction t generalizing d i with
  | empty => simp [mapCells]
  | leaf v =>
    cases d with
    | zero => cases h : f v <;> simp [mapCells, readAt, h]
    | succ d => cases h : f v <;> simp [mapCells, readAt, h]
  | fork l r ihl ihr =>
    cases d with
    | zero => cases hl : mapCells f l <;> cases hr : mapCells f r <;> simp [mapCells, readAt, join, hl, hr]
    | succ d => by_cases h : i % 2 = 0 <;> simp [mapCells, readAt, h, ihl, ihr]

@[simp] theorem get_empty (z : α) (i : Nat) : get z (.empty : Table α) i = z := by simp [get, read?]

@[simp] theorem get_set_same [DecidableEq α] (z v : α) (t : Table α) (i : Nat) : get z (set z t i v) i = v := by
  by_cases h : v = z <;> simp [get, read?, set, readAt_writeAt_same, h]

theorem get_set_other [DecidableEq α] (z v : α) (t : Table α) (i j : Nat)
    (hi : i < 2 ^ depth) (hj : j < 2 ^ depth) (hne : j ≠ i) : get z (set z t i v) j = get z t j := by
  simp only [get, read?, set]
  rw [readAt_writeAt_other _ _ _ _ _ hi hj hne]

@[simp] theorem read?_write_same (t : Table α) (i : Nat) (v : α) : (t.write i v).read? i = some v :=
  readAt_writeAt_same ..

theorem read?_write_other (t : Table α) (i j : Nat) (v : α)
    (hi : i < 2 ^ depth) (hj : j < 2 ^ depth) (hne : j ≠ i) : (t.write i v).read? j = t.read? j :=
  readAt_writeAt_other _ _ _ _ _ hi hj hne

theorem read?_mapCells (f : α → Option α) (t : Table α) (i : Nat) :
    (t.mapCells f).read? i = (t.read? i).bind f := readAt_mapCells ..

/-- An index counts by its low bits only. -/
theorem readAt_mod (d i : Nat) (t : Table α) : readAt d (i % 2 ^ d) t = readAt d i t := by
  induction d generalizing i t with
  | zero => cases t <;> rfl
  | succ d ih =>
    have h1 : i % 2 ^ (d + 1) % 2 = i % 2 := by
      rw [Nat.pow_succ, Nat.mul_comm, Nat.mod_mul_right_mod]
    have h2 : i % 2 ^ (d + 1) / 2 = i / 2 % 2 ^ d := by
      rw [Nat.pow_succ, Nat.mul_comm, Nat.mod_mul_right_div_self]
    simp [readAt, h1, h2, ih]

/-- A write counts by the low bits of its index only. -/
theorem writeAt_mod (d i : Nat) (v : Option α) (t : Table α) : writeAt d (i % 2 ^ d) v t = writeAt d i v t := by
  induction d generalizing i t with
  | zero => cases v <;> cases t <;> rfl
  | succ d ih =>
    have h1 : i % 2 ^ (d + 1) % 2 = i % 2 := by
      rw [Nat.pow_succ, Nat.mul_comm, Nat.mod_mul_right_mod]
    have h2 : i % 2 ^ (d + 1) / 2 = i / 2 % 2 ^ d := by
      rw [Nat.pow_succ, Nat.mul_comm, Nat.mod_mul_right_div_self]
    simp [writeAt, h1, h2, ih]

/-- What a write at `i` can change anywhere: it is `v` there or what it was. -/
theorem get_set_cases [DecidableEq α] (z v : α) (t : Table α) (i j : Nat) :
    get z (set z t i v) j = v ∨ get z (set z t i v) j = get z t j := by
  by_cases h : j % 2 ^ depth = i % 2 ^ depth
  · left
    have : get z (set z t i v) j = get z (set z t (i % 2 ^ depth) v) (i % 2 ^ depth) := by
      simp only [get, read?, set, writeAt_mod]
      rw [← readAt_mod depth j, h]
    rw [this, get_set_same]
  · right
    have h1 : get z (set z t i v) j = get z (set z t (i % 2 ^ depth) v) (j % 2 ^ depth) := by
      simp only [get, read?, set, writeAt_mod, readAt_mod]
    have h2 : get z t j = get z t (j % 2 ^ depth) := by simp only [get, read?, readAt_mod]
    rw [h1, h2]
    exact get_set_other _ _ _ _ _ (Nat.mod_lt _ (by decide)) (Nat.mod_lt _ (by decide)) h

end Sys2Proof.Machine.Table
end

