-- ==== Sys2Proof/Laws/Chain.lean ====
section
/-! SUPPORT. The hash chains: insertion and slide keep them sound, and a search follows them inside the window
(41_lz77.md R201, R202, R205, R209). -/

namespace Sys2Proof.Machine

/-- The chains are sound for inserted positions below `lim` whose three bytes lie below `fin`, the table being `bound`
positions long. -/
def ChainBelow (t : Stream) (bound lim fin : Nat) : Prop :=
  ∃ S, ChainSet t bound S ∧ ∀ p, S p → p < lim ∧ p + 3 ≤ fin

theorem chainOk_iff (t : Stream) :
    ChainOk t ↔ ChainBelow t t.strstart (t.strstart - t.insert) (t.strstart + t.lookahead) := by
  constructor
  · rintro ⟨S, h, k⟩
    exact ⟨S, h, fun p hp => by have := k p hp; omega⟩
  · rintro ⟨S, h, k⟩
    exact ⟨S, h, fun p hp => by have := k p hp; omega⟩

theorem ChainBelow.mono {t : Stream} {bound bound' lim lim' fin fin' : Nat} (h : ChainBelow t bound lim fin)
    (hb : bound ≤ bound') (hl : lim ≤ lim') (hf : fin ≤ fin') : ChainBelow t bound' lim' fin' := by
  obtain ⟨S, ⟨h1, h2⟩, h3⟩ := h
  refine ⟨S, ⟨h1, fun p hp => ?_⟩, fun p hp => ?_⟩
  · obtain ⟨a, b, c⟩ := h2 p hp
    exact ⟨a, by omega, fun d => c (by omega)⟩
  · have := h3 p hp
    omega

/-- A stronger limit that the inserted positions happen to meet. -/
theorem ChainBelow.restrict {t : Stream} {bound lim fin lim' : Nat} (h : ChainBelow t bound lim fin)
    (hl : fin - 3 < lim' ∨ lim ≤ lim') : ChainBelow t bound lim' fin := by
  obtain ⟨S, h1, h3⟩ := h
  exact ⟨S, h1, fun p hp => by have := h3 p hp; omega⟩

/-- A written cell of `S.prev` reads the same wherever the written cells are the same. -/
theorem prevAt_written {t u : Stream} {i : Nat} (hp : u.prev = t.prev) (h : (t.prev.read? i).isSome = true) :
    u.prevAt i = t.prevAt i := by
  obtain ⟨m, hm⟩ := Option.isSome_iff_exists.mp h
  simp only [Stream.prevAt, hp, hm, Option.getD_some]

theorem ChainSet.congr {t u : Stream} {bound : Nat} {S : Nat → Prop} (h : ChainSet t bound S) (hh : u.head = t.head)
    (hp : u.prev = t.prev) (hw : u.wBits = t.wBits) : ChainSet u bound S := by
  obtain ⟨h1, h2⟩ := h
  have hs := wSize_congr hw
  refine ⟨by simpa only [hh] using h1, fun p hp' => ?_⟩
  obtain ⟨a, b, c⟩ := h2 p hp'
  refine ⟨a, b, fun d => ?_⟩
  rw [hs] at d ⊢
  obtain ⟨c1, c2, c3⟩ := c d
  rw [prevAt_written hp c1]
  exact ⟨by rw [hp]; exact c1, c2, c3⟩

theorem ChainBelow.congr {t u : Stream} {bound lim fin : Nat} (h : ChainBelow t bound lim fin) (hh : u.head = t.head)
    (hp : u.prev = t.prev) (hw : u.wBits = t.wBits) : ChainBelow u bound lim fin := by
  obtain ⟨S, h1, h3⟩ := h
  exact ⟨S, h1.congr hh hp hw, h3⟩

theorem ChainBelow.empty {t : Stream} {bound lim fin : Nat} (hh : t.head = .empty) : ChainBelow t bound lim fin :=
  ⟨fun _ => False, ⟨fun h => by simp [hh], fun _ h => h.elim⟩, fun _ h => h.elim⟩

theorem wSize_pos (t : Stream) : 0 < t.wSize := by unfold Stream.wSize; positivity

theorem mod_ne_of_window {w p q : Nat} (hq : q < p) (hp : p < q + w) : q % w ≠ p % w := by
  intro h
  have h1 := Nat.div_add_mod p w
  have h2 := Nat.div_add_mod q w
  rcases Nat.lt_or_ge (q / w) (p / w) with h3 | h3
  · have := Nat.mul_le_mul_left w h3
    rw [Nat.mul_succ] at this
    omega
  · have := Nat.mul_le_mul_left w h3
    omega

/-- `InsertString(p)` puts `p` in front of its chain (41_lz77.md R201). -/
theorem insertString_chain {t : Stream} {bound lim fin p bound' fin' : Nat} (h : ChainBelow t bound lim fin)
    (hw : t.wBits ≤ 15) (hl : lim ≤ p) (hb : bound ≤ bound') (hp : p < bound') (hf : fin ≤ fin') (h3 : p + 3 ≤ fin')
    (h16 : p < 65536) : ChainBelow (insertString p t) bound' (p + 1) fin' := by
  obtain ⟨S, ⟨h1, h2⟩, hS⟩ := h
  have hwp := wSize_pos t
  have hw16 : t.wSize ≤ 32768 := by
    have : t.wSize ≤ 2 ^ 15 := Nat.pow_le_pow_right (by decide) hw
    simpa using this
  have hcell : ∀ i, i < t.wSize → i < 2 ^ Table.depth := fun i hi => by
    have : i < 65536 := by omega
    simpa using this
  have hws : (insertString p t).wSize = t.wSize := wSize_congr rfl
  have h16' : (BitVec.ofNat 16 p).toNat = p := by rw [BitVec.toNat_ofNat]; omega
  refine ⟨fun q => S q ∨ (q = p ∧ 1 ≤ p), ⟨?_, ?_⟩, ?_⟩
  · intro j hj
    rw [insertString_head] at hj ⊢
    rcases Table.get_set_cases 0 (BitVec.ofNat 16 p) t.head (updateHash t.insH (t.windowAt (p + 2))).toNat j with e | e
    · rw [e, h16'] at hj ⊢
      exact Or.inr ⟨rfl, by omega⟩
    · rw [e] at hj ⊢
      exact Or.inl (h1 j hj)
  · rintro q (hq | ⟨rfl, hq1⟩)
    · obtain ⟨a, b, c⟩ := h2 q hq
      have hlim := (hS q hq).1
      refine ⟨a, by omega, fun d => ?_⟩
      rw [hws] at d ⊢
      have hne := mod_ne_of_window (w := t.wSize) (p := p) (q := q) (by omega) (by omega)
      have hr : (insertString p t).prev.read? (q % t.wSize) = t.prev.read? (q % t.wSize) := by
        rw [insertString_prev]
        exact Table.read?_write_other _ _ _ _ (hcell _ (Nat.mod_lt _ hwp)) (hcell _ (Nat.mod_lt _ hwp)) hne
      have hpa : (insertString p t).prevAt (q % t.wSize) = t.prevAt (q % t.wSize) := by
        simp only [Stream.prevAt, hr, insertString_prevEpoch, insertString_prevLowered]
      rw [hr, hpa]
      obtain ⟨c1, c2, c3⟩ := c (by omega)
      exact ⟨c1, c2, fun e => Or.inl (c3 e)⟩
    · refine ⟨hq1, hp, fun _ => ?_⟩
      rw [hws]
      have hr : (insertString q t).prev.read? (q % t.wSize) =
          some (t.head.get 0 (updateHash t.insH (t.windowAt (q + 2))).toNat) := by
        rw [insertString_prev]
        exact Table.read?_write_same ..
      have hpa : (insertString q t).prevAt (q % t.wSize) =
          (t.head.get 0 (updateHash t.insH (t.windowAt (q + 2))).toNat).toNat := by
        simp only [Stream.prevAt, hr, Option.getD_some]
      rw [hr, hpa]
      generalize hold : t.head.get 0 (updateHash t.insH (t.windowAt (q + 2))).toNat = old
      have hh := h1 (updateHash t.insH (t.windowAt (q + 2))).toNat
      rw [hold] at hh
      refine ⟨rfl, ?_, fun e => Or.inl (hh e)⟩
      by_cases e : old.toNat = 0
      · omega
      · have := (hS _ (hh e)).1
        omega
  · rintro q (hq | ⟨rfl, -⟩)
    · have := hS q hq
      omega
    · omega

theorem slidePos_toNat (size : Nat) (m : BitVec 16) :
    (slidePos size m).toNat = if size ≤ m.toNat then m.toNat - size else 0 := by
  unfold slidePos
  split
  · rw [BitVec.toNat_ofNat]
    have := m.isLt
    omega
  · rfl

/-- Two slides lower an entry as one by their sum does. -/
theorem slidePos_slidePos (size total : Nat) (m : BitVec 16) :
    slidePos size (slidePos total m) = slidePos (min (total + size) 65536) m := by
  apply BitVec.eq_of_toNat_eq
  have := m.isLt
  simp only [slidePos_toNat]
  split <;> split <;> split <;> omega

/-- `Slide()` lowers every entry of `S.prev`, a cell that nothing has written too (41_lz77.md R205). -/
theorem slide_prevAt (t : Stream) (i : Nat) : (slide t).prevAt i = t.prevAt i - t.wSize := by
  have h : (slide t).prevAt i =
      (slidePos t.wSize ((t.prev.read? i).getD (slidePos t.prevLowered (Config.freePrev t.prevEpoch i)))).toNat := by
    simp only [Stream.prevAt, slide_prev, slide_prevEpoch, slide_prevLowered, Table.read?_mapCells]
    cases t.prev.read? i with
    | none => rw [Option.bind_none, Option.getD_none, Option.getD_none, slidePos_slidePos]
    | some m => rfl
  rw [h, slidePos_toNat, Stream.prevAt]
  split <;> omega

theorem slide_headAt (t : Stream) (j : Nat) :
    (slide t).head.get 0 j = slidePos t.wSize (t.head.get 0 j) := by
  simp only [slide_head, Table.get, Table.read?_mapCells]
  cases h : t.head.read? j with
  | none => simp [slidePos, Nat.ne_of_gt (wSize_pos t)]
  | some m =>
    simp only [Option.bind_some, Option.getD_some]
    split
    next e => simp [e]
    next => rfl

/-- `Slide()` keeps the chains of the upper half of the window (41_lz77.md R205). -/
theorem slide_chain {t : Stream} {bound lim fin : Nat} (h : ChainBelow t bound lim fin) :
    ChainBelow (slide t) (bound - t.wSize) (lim - t.wSize) (fin - t.wSize) := by
  obtain ⟨S, ⟨h1, h2⟩, hS⟩ := h
  have hwp := wSize_pos t
  have hws : (slide t).wSize = t.wSize := wSize_congr rfl
  refine ⟨fun q => S (q + t.wSize) ∧ 1 ≤ q, ⟨?_, ?_⟩, ?_⟩
  · intro j hj
    rw [slide_headAt, slidePos_toNat] at hj ⊢
    split at hj
    next hle =>
      rw [if_pos hle]
      rw [Nat.sub_add_cancel hle]
      exact ⟨h1 j (by omega), by omega⟩
    next => exact absurd rfl hj
  · rintro q ⟨hq, hq1⟩
    obtain ⟨a, b, c⟩ := h2 _ hq
    refine ⟨hq1, by omega, fun d => ?_⟩
    rw [hws] at d ⊢
    obtain ⟨c1, c2, c3⟩ := c (by omega)
    rw [Nat.add_mod_right] at c1 c2 c3
    rw [slide_prevAt]
    refine ⟨by rw [slide_prev, Table.read?_mapCells, Option.isSome_bind]; simp [c1], by omega, fun e => ?_⟩
    exact ⟨by rw [Nat.sub_add_cancel (by omega)]; exact c3 (by omega), by omega⟩
  · rintro q ⟨hq, -⟩
    have := hS _ hq
    omega

theorem matchRun_le (t : Stream) (cap a b : Nat) : matchRun t cap a b ≤ cap := by
  induction cap generalizing a b with
  | zero => exact Nat.le_refl 0
  | succ n ih =>
    rw [matchRun]
    split
    · have := ih (a + 1) (b + 1)
      omega
    · omega

/-- The bytes compared agree. -/
theorem matchRun_agree (t : Stream) (cap a b i : Nat) (h : i < matchRun t cap a b) :
    t.windowAt (a + i) = t.windowAt (b + i) := by
  induction cap generalizing a b i with
  | zero => exact absurd h (Nat.not_lt_zero _)
  | succ n ih =>
    rw [matchRun] at h
    split at h
    next e =>
      cases i with
      | zero => exact e
      | succ i =>
        have := ih (a + 1) (b + 1) i (by omega)
        rw [show a + (i + 1) = a + 1 + i by omega, show b + (i + 1) = b + 1 + i by omega]
        exact this
    next => exact absurd h (Nat.not_lt_zero _)

/-- Everything a search of a chain can answer (41_lz77.md R209): the length it started from, or a longer run of a
candidate no later than the first and within `MAX_DIST`. -/
theorem chainLoop_spec {t : Stream} {S : Nat → Prop} {bound : Nat} (hS : ChainSet t bound S)
    (hb : bound ≤ t.strstart + 1) (hd : t.maxDist < t.wSize) (chain cur best : Nat) (start : Int) (hcur : S cur)
    (hnear : t.strstart ≤ cur + t.maxDist) :
    chainLoop t chain cur best start = (best, start) ∨
      ∃ c, (S c ∧ c ≤ cur) ∧ t.strstart ≤ c + t.maxDist ∧ (chainLoop t chain cur best start).2 = (c : Int) ∧
        (chainLoop t chain cur best start).1 = matchRun t (matchCap t) c t.strstart ∧
        best < matchRun t (matchCap t) c t.strstart := by
  induction chain generalizing cur best start with
  | zero => exact Or.inl rfl
  | succ chain ih =>
    have hnext : chainLimit t < t.prevAt (cur % t.wSize) →
        S (t.prevAt (cur % t.wSize)) ∧ t.strstart ≤ t.prevAt (cur % t.wSize) + t.maxDist ∧
          t.prevAt (cur % t.wSize) < cur := by
      intro hlim
      obtain ⟨-, -, hc⟩ := hS.2 cur hcur
      refine ⟨(hc (by omega)).2.2 (by omega), ?_, (hc (by omega)).2.1⟩
      unfold chainLimit at hlim
      split at hlim <;> omega
    simp only [chainLoop]
    generalize hlen : matchRun t (matchCap t) cur t.strstart = len
    split
    next hbest =>
      have hhere : ∃ c, (S c ∧ c ≤ cur) ∧ t.strstart ≤ c + t.maxDist ∧ ((cur : Nat) : Int) = (c : Int) ∧
          len = matchRun t (matchCap t) c t.strstart ∧ best < matchRun t (matchCap t) c t.strstart :=
        ⟨cur, ⟨hcur, Nat.le_refl _⟩, hnear, rfl, hlen.symm, by omega⟩
      split
      · exact Or.inr hhere
      · split
        next hgo =>
          obtain ⟨hs', hn', hlt⟩ := hnext hgo.1
          rcases ih _ len (cur : Int) hs' hn' with e | ⟨c, c1, c2, c3, c4, c5⟩
          · rw [e]
            exact Or.inr hhere
          · exact Or.inr ⟨c, ⟨c1.1, by omega⟩, c2, c3, c4, by omega⟩
        next => exact Or.inr hhere
    next =>
      split
      next hgo =>
        obtain ⟨hs', hn', hlt⟩ := hnext hgo.1
        rcases ih _ best start hs' hn' with e | ⟨c, c1, c2⟩
        · exact Or.inl e
        · exact Or.inr ⟨c, ⟨c1.1, by omega⟩, c2⟩
      next => exact Or.inl rfl

/-- Everything `LongestMatch` can answer (41_lz77.md R209). -/
theorem longestMatch_spec {t : Stream} {S : Nat → Prop} {bound cur : Nat} (hS : ChainSet t bound S)
    (hb : bound ≤ t.strstart + 1) (hd : t.maxDist < t.wSize) (hcur : S cur) (hnear : t.strstart ≤ cur + t.maxDist) :
    ((longestMatch cur t).matchLength = min t.prevLength t.lookahead ∧
        (longestMatch cur t).matchStart = t.matchStart) ∨
      ∃ c, (S c ∧ c ≤ cur) ∧ t.strstart ≤ c + t.maxDist ∧ (longestMatch cur t).matchStart = (c : Int) ∧
        (longestMatch cur t).matchLength = matchRun t (matchCap t) c t.strstart ∧
        t.prevLength < matchRun t (matchCap t) c t.strstart := by
  simp only [longestMatch_matchLength, longestMatch_matchStart, searchChain]
  rcases chainLoop_spec hS hb hd (chainLength t) cur t.prevLength t.matchStart hcur hnear with e | ⟨c, c1, c2, c3, c4, c5⟩
  · left
    rw [e]
    exact ⟨rfl, rfl⟩
  · right
    refine ⟨c, c1, c2, c3, ?_, c5⟩
    rw [c4]
    have := matchRun_le t (matchCap t) c t.strstart
    have h2 : matchCap t ≤ t.lookahead := Nat.min_le_right ..
    omega

end Sys2Proof.Machine
end

