-- ==== Sys2Proof/Laws/State.lean ====
section
/-! SUPPORT. One lemma per field of `State` per update of it, so that no later proof unfolds a record update. -/

namespace Sys2Proof.Machine

@[simp] theorem endCommand_result (r : Result) (s : State) : (endCommand r s).result = r := rfl
@[simp] theorem endCommand_overrun (r : Result) (s : State) : (endCommand r s).overrun = s.overrun := rfl
@[simp] theorem endCommand_inPtr (r : Result) (s : State) : (endCommand r s).inPtr = s.inPtr := rfl
@[simp] theorem endCommand_inAvail (r : Result) (s : State) : (endCommand r s).inAvail = s.inAvail := rfl
@[simp] theorem endCommand_outPtr (r : Result) (s : State) : (endCommand r s).outPtr = s.outPtr := rfl
@[simp] theorem endCommand_outAvail (r : Result) (s : State) : (endCommand r s).outAvail = s.outAvail := rfl
@[simp] theorem endCommand_totalIn (r : Result) (s : State) : (endCommand r s).totalIn = s.totalIn := rfl
@[simp] theorem endCommand_totalOut (r : Result) (s : State) : (endCommand r s).totalOut = s.totalOut := rfl
@[simp] theorem endCommand_check (r : Result) (s : State) : (endCommand r s).check = s.check := rfl
@[simp] theorem endCommand_bound (r : Result) (s : State) : (endCommand r s).bound = s.bound := rfl
@[simp] theorem endCommand_config (r : Result) (s : State) : (endCommand r s).config = s.config := rfl
@[simp] theorem endCommand_phase (r : Result) (s : State) : (endCommand r s).phase = s.phase := rfl
@[simp] theorem endCommand_stream (r : Result) (s : State) : (endCommand r s).stream = s.stream := rfl
@[simp] theorem endCommand_memory (r : Result) (s : State) : (endCommand r s).memory = s.memory := rfl
@[simp] theorem endCommand_running (r : Result) (s : State) : (endCommand r s).running = none := rfl
@[simp] theorem endCommand_inputs (r : Result) (s : State) : (endCommand r s).inputs = s.inputs := rfl
@[simp] theorem endCommand_readData (r : Result) (s : State) : (endCommand r s).readData = s.readData := rfl
@[simp] theorem endCommand_draws (r : Result) (s : State) : (endCommand r s).draws = s.draws := rfl

@[simp] theorem raise_result (e : Result) (s : State) : (raise e s).result = e := rfl
@[simp] theorem raise_overrun (e : Result) (s : State) : (raise e s).overrun = s.overrun := rfl
@[simp] theorem raise_inPtr (e : Result) (s : State) : (raise e s).inPtr = s.inPtr := rfl
@[simp] theorem raise_inAvail (e : Result) (s : State) : (raise e s).inAvail = s.inAvail := rfl
@[simp] theorem raise_outPtr (e : Result) (s : State) : (raise e s).outPtr = s.outPtr := rfl
@[simp] theorem raise_outAvail (e : Result) (s : State) : (raise e s).outAvail = s.outAvail := rfl
@[simp] theorem raise_totalIn (e : Result) (s : State) : (raise e s).totalIn = s.totalIn := rfl
@[simp] theorem raise_totalOut (e : Result) (s : State) : (raise e s).totalOut = s.totalOut := rfl
@[simp] theorem raise_check (e : Result) (s : State) : (raise e s).check = s.check := rfl
@[simp] theorem raise_bound (e : Result) (s : State) : (raise e s).bound = s.bound := rfl
@[simp] theorem raise_config (e : Result) (s : State) : (raise e s).config = s.config := rfl
@[simp] theorem raise_phase (e : Result) (s : State) : (raise e s).phase = s.phase := rfl
@[simp] theorem raise_stream (e : Result) (s : State) : (raise e s).stream = s.stream := rfl
@[simp] theorem raise_memory (e : Result) (s : State) : (raise e s).memory = s.memory := rfl
@[simp] theorem raise_running (e : Result) (s : State) : (raise e s).running = none := rfl
@[simp] theorem raise_inputs (e : Result) (s : State) : (raise e s).inputs = s.inputs := rfl
@[simp] theorem raise_readData (e : Result) (s : State) : (raise e s).readData = s.readData := rfl
@[simp] theorem raise_draws (e : Result) (s : State) : (raise e s).draws = s.draws := rfl

@[simp] theorem onStream_result (f : Stream → Stream) (s : State) : (s.onStream f).result = s.result := rfl
@[simp] theorem onStream_overrun (f : Stream → Stream) (s : State) : (s.onStream f).overrun = s.overrun := rfl
@[simp] theorem onStream_inPtr (f : Stream → Stream) (s : State) : (s.onStream f).inPtr = s.inPtr := rfl
@[simp] theorem onStream_inAvail (f : Stream → Stream) (s : State) : (s.onStream f).inAvail = s.inAvail := rfl
@[simp] theorem onStream_outPtr (f : Stream → Stream) (s : State) : (s.onStream f).outPtr = s.outPtr := rfl
@[simp] theorem onStream_outAvail (f : Stream → Stream) (s : State) : (s.onStream f).outAvail = s.outAvail := rfl
@[simp] theorem onStream_totalIn (f : Stream → Stream) (s : State) : (s.onStream f).totalIn = s.totalIn := rfl
@[simp] theorem onStream_totalOut (f : Stream → Stream) (s : State) : (s.onStream f).totalOut = s.totalOut := rfl
@[simp] theorem onStream_check (f : Stream → Stream) (s : State) : (s.onStream f).check = s.check := rfl
@[simp] theorem onStream_bound (f : Stream → Stream) (s : State) : (s.onStream f).bound = s.bound := rfl
@[simp] theorem onStream_config (f : Stream → Stream) (s : State) : (s.onStream f).config = s.config := rfl
@[simp] theorem onStream_phase (f : Stream → Stream) (s : State) : (s.onStream f).phase = s.phase := rfl
@[simp] theorem onStream_stream (f : Stream → Stream) (s : State) : (s.onStream f).stream = f s.stream := rfl
@[simp] theorem onStream_memory (f : Stream → Stream) (s : State) : (s.onStream f).memory = s.memory := rfl
@[simp] theorem onStream_running (f : Stream → Stream) (s : State) : (s.onStream f).running = s.running := rfl
@[simp] theorem onStream_inputs (f : Stream → Stream) (s : State) : (s.onStream f).inputs = s.inputs := rfl
@[simp] theorem onStream_readData (f : Stream → Stream) (s : State) : (s.onStream f).readData = s.readData := rfl
@[simp] theorem onStream_draws (f : Stream → Stream) (s : State) : (s.onStream f).draws = s.draws := rfl

@[simp] theorem setPhase_result (p : Phase) (s : State) : (setPhase p s).result = s.result := rfl
@[simp] theorem setPhase_overrun (p : Phase) (s : State) : (setPhase p s).overrun = s.overrun := rfl
@[simp] theorem setPhase_inPtr (p : Phase) (s : State) : (setPhase p s).inPtr = s.inPtr := rfl
@[simp] theorem setPhase_inAvail (p : Phase) (s : State) : (setPhase p s).inAvail = s.inAvail := rfl
@[simp] theorem setPhase_outPtr (p : Phase) (s : State) : (setPhase p s).outPtr = s.outPtr := rfl
@[simp] theorem setPhase_outAvail (p : Phase) (s : State) : (setPhase p s).outAvail = s.outAvail := rfl
@[simp] theorem setPhase_totalIn (p : Phase) (s : State) : (setPhase p s).totalIn = s.totalIn := rfl
@[simp] theorem setPhase_totalOut (p : Phase) (s : State) : (setPhase p s).totalOut = s.totalOut := rfl
@[simp] theorem setPhase_check (p : Phase) (s : State) : (setPhase p s).check = s.check := rfl
@[simp] theorem setPhase_bound (p : Phase) (s : State) : (setPhase p s).bound = s.bound := rfl
@[simp] theorem setPhase_config (p : Phase) (s : State) : (setPhase p s).config = s.config := rfl
@[simp] theorem setPhase_phase (p : Phase) (s : State) : (setPhase p s).phase = p := rfl
@[simp] theorem setPhase_stream (p : Phase) (s : State) : (setPhase p s).stream = s.stream := rfl
@[simp] theorem setPhase_memory (p : Phase) (s : State) : (setPhase p s).memory = s.memory := rfl
@[simp] theorem setPhase_running (p : Phase) (s : State) : (setPhase p s).running = s.running := rfl
@[simp] theorem setPhase_inputs (p : Phase) (s : State) : (setPhase p s).inputs = s.inputs := rfl
@[simp] theorem setPhase_readData (p : Phase) (s : State) : (setPhase p s).readData = s.readData := rfl
@[simp] theorem setPhase_draws (p : Phase) (s : State) : (setPhase p s).draws = s.draws := rfl

@[simp] theorem setLastFlush_result (l : LastFlush) (s : State) : (setLastFlush l s).result = s.result := rfl
@[simp] theorem setLastFlush_overrun (l : LastFlush) (s : State) : (setLastFlush l s).overrun = s.overrun := rfl
@[simp] theorem setLastFlush_inPtr (l : LastFlush) (s : State) : (setLastFlush l s).inPtr = s.inPtr := rfl
@[simp] theorem setLastFlush_inAvail (l : LastFlush) (s : State) : (setLastFlush l s).inAvail = s.inAvail := rfl
@[simp] theorem setLastFlush_outPtr (l : LastFlush) (s : State) : (setLastFlush l s).outPtr = s.outPtr := rfl
@[simp] theorem setLastFlush_outAvail (l : LastFlush) (s : State) : (setLastFlush l s).outAvail = s.outAvail := rfl
@[simp] theorem setLastFlush_totalIn (l : LastFlush) (s : State) : (setLastFlush l s).totalIn = s.totalIn := rfl
@[simp] theorem setLastFlush_totalOut (l : LastFlush) (s : State) : (setLastFlush l s).totalOut = s.totalOut := rfl
@[simp] theorem setLastFlush_check (l : LastFlush) (s : State) : (setLastFlush l s).check = s.check := rfl
@[simp] theorem setLastFlush_bound (l : LastFlush) (s : State) : (setLastFlush l s).bound = s.bound := rfl
@[simp] theorem setLastFlush_config (l : LastFlush) (s : State) : (setLastFlush l s).config = s.config := rfl
@[simp] theorem setLastFlush_phase (l : LastFlush) (s : State) : (setLastFlush l s).phase = s.phase := rfl
@[simp] theorem setLastFlush_stream (l : LastFlush) (s : State) : (setLastFlush l s).stream = { s.stream with lastFlush := l } := rfl
@[simp] theorem setLastFlush_memory (l : LastFlush) (s : State) : (setLastFlush l s).memory = s.memory := rfl
@[simp] theorem setLastFlush_running (l : LastFlush) (s : State) : (setLastFlush l s).running = s.running := rfl
@[simp] theorem setLastFlush_inputs (l : LastFlush) (s : State) : (setLastFlush l s).inputs = s.inputs := rfl
@[simp] theorem setLastFlush_readData (l : LastFlush) (s : State) : (setLastFlush l s).readData = s.readData := rfl
@[simp] theorem setLastFlush_draws (l : LastFlush) (s : State) : (setLastFlush l s).draws = s.draws := rfl

@[simp] theorem markTrailer_result (s : State) : (markTrailer s).result = s.result := rfl
@[simp] theorem markTrailer_overrun (s : State) : (markTrailer s).overrun = s.overrun := rfl
@[simp] theorem markTrailer_inPtr (s : State) : (markTrailer s).inPtr = s.inPtr := rfl
@[simp] theorem markTrailer_inAvail (s : State) : (markTrailer s).inAvail = s.inAvail := rfl
@[simp] theorem markTrailer_outPtr (s : State) : (markTrailer s).outPtr = s.outPtr := rfl
@[simp] theorem markTrailer_outAvail (s : State) : (markTrailer s).outAvail = s.outAvail := rfl
@[simp] theorem markTrailer_totalIn (s : State) : (markTrailer s).totalIn = s.totalIn := rfl
@[simp] theorem markTrailer_totalOut (s : State) : (markTrailer s).totalOut = s.totalOut := rfl
@[simp] theorem markTrailer_check (s : State) : (markTrailer s).check = s.check := rfl
@[simp] theorem markTrailer_bound (s : State) : (markTrailer s).bound = s.bound := rfl
@[simp] theorem markTrailer_config (s : State) : (markTrailer s).config = s.config := rfl
@[simp] theorem markTrailer_phase (s : State) : (markTrailer s).phase = s.phase := rfl
@[simp] theorem markTrailer_stream (s : State) : (markTrailer s).stream = { s.stream with trailerDone := true } := rfl
@[simp] theorem markTrailer_memory (s : State) : (markTrailer s).memory = s.memory := rfl
@[simp] theorem markTrailer_running (s : State) : (markTrailer s).running = s.running := rfl
@[simp] theorem markTrailer_inputs (s : State) : (markTrailer s).inputs = s.inputs := rfl
@[simp] theorem markTrailer_readData (s : State) : (markTrailer s).readData = s.readData := rfl
@[simp] theorem markTrailer_draws (s : State) : (markTrailer s).draws = s.draws := rfl

@[simp] theorem emitTrailer_result (s : State) : (emitTrailer s).result = s.result := rfl
@[simp] theorem emitTrailer_overrun (s : State) : (emitTrailer s).overrun = s.overrun := rfl
@[simp] theorem emitTrailer_inPtr (s : State) : (emitTrailer s).inPtr = s.inPtr := rfl
@[simp] theorem emitTrailer_inAvail (s : State) : (emitTrailer s).inAvail = s.inAvail := rfl
@[simp] theorem emitTrailer_outPtr (s : State) : (emitTrailer s).outPtr = s.outPtr := rfl
@[simp] theorem emitTrailer_outAvail (s : State) : (emitTrailer s).outAvail = s.outAvail := rfl
@[simp] theorem emitTrailer_totalIn (s : State) : (emitTrailer s).totalIn = s.totalIn := rfl
@[simp] theorem emitTrailer_totalOut (s : State) : (emitTrailer s).totalOut = s.totalOut := rfl
@[simp] theorem emitTrailer_check (s : State) : (emitTrailer s).check = s.check := rfl
@[simp] theorem emitTrailer_bound (s : State) : (emitTrailer s).bound = s.bound := rfl
@[simp] theorem emitTrailer_config (s : State) : (emitTrailer s).config = s.config := rfl
@[simp] theorem emitTrailer_phase (s : State) : (emitTrailer s).phase = s.phase := rfl
@[simp] theorem emitTrailer_stream (s : State) : (emitTrailer s).stream = putBytes (trailerBytes s.stream.wrap s.check s.totalIn) s.stream := rfl
@[simp] theorem emitTrailer_memory (s : State) : (emitTrailer s).memory = s.memory := rfl
@[simp] theorem emitTrailer_running (s : State) : (emitTrailer s).running = s.running := rfl
@[simp] theorem emitTrailer_inputs (s : State) : (emitTrailer s).inputs = s.inputs := rfl
@[simp] theorem emitTrailer_readData (s : State) : (emitTrailer s).readData = s.readData := rfl
@[simp] theorem emitTrailer_draws (s : State) : (emitTrailer s).draws = s.draws := rfl

@[simp] theorem forgetStream_result (s : State) : (forgetStream s).result = s.result := rfl
@[simp] theorem forgetStream_overrun (s : State) : (forgetStream s).overrun = s.overrun := rfl
@[simp] theorem forgetStream_inPtr (s : State) : (forgetStream s).inPtr = s.inPtr := rfl
@[simp] theorem forgetStream_inAvail (s : State) : (forgetStream s).inAvail = s.inAvail := rfl
@[simp] theorem forgetStream_outPtr (s : State) : (forgetStream s).outPtr = s.outPtr := rfl
@[simp] theorem forgetStream_outAvail (s : State) : (forgetStream s).outAvail = s.outAvail := rfl
@[simp] theorem forgetStream_totalIn (s : State) : (forgetStream s).totalIn = s.totalIn := rfl
@[simp] theorem forgetStream_totalOut (s : State) : (forgetStream s).totalOut = s.totalOut := rfl
@[simp] theorem forgetStream_check (s : State) : (forgetStream s).check = s.check := rfl
@[simp] theorem forgetStream_bound (s : State) : (forgetStream s).bound = s.bound := rfl
@[simp] theorem forgetStream_config (s : State) : (forgetStream s).config = s.config := rfl
@[simp] theorem forgetStream_phase (s : State) : (forgetStream s).phase = s.phase := rfl
@[simp] theorem forgetStream_stream (s : State) : (forgetStream s).stream = Config.freeStream s.draws := rfl
@[simp] theorem forgetStream_memory (s : State) : (forgetStream s).memory = s.memory := rfl
@[simp] theorem forgetStream_running (s : State) : (forgetStream s).running = s.running := rfl
@[simp] theorem forgetStream_inputs (s : State) : (forgetStream s).inputs = s.inputs := rfl
@[simp] theorem forgetStream_readData (s : State) : (forgetStream s).readData = s.readData := rfl
@[simp] theorem forgetStream_draws (s : State) : (forgetStream s).draws = s.draws + 1 := rfl

@[simp] theorem latchCommand_result (w : Word) (s : State) : (latchCommand w s).result = s.result := rfl
@[simp] theorem latchCommand_overrun (w : Word) (s : State) : (latchCommand w s).overrun = s.overrun := rfl
@[simp] theorem latchCommand_inPtr (w : Word) (s : State) : (latchCommand w s).inPtr = s.inPtr := rfl
@[simp] theorem latchCommand_inAvail (w : Word) (s : State) : (latchCommand w s).inAvail = s.inAvail := rfl
@[simp] theorem latchCommand_outPtr (w : Word) (s : State) : (latchCommand w s).outPtr = s.outPtr := rfl
@[simp] theorem latchCommand_outAvail (w : Word) (s : State) : (latchCommand w s).outAvail = s.outAvail := rfl
@[simp] theorem latchCommand_totalIn (w : Word) (s : State) : (latchCommand w s).totalIn = s.totalIn := rfl
@[simp] theorem latchCommand_totalOut (w : Word) (s : State) : (latchCommand w s).totalOut = s.totalOut := rfl
@[simp] theorem latchCommand_check (w : Word) (s : State) : (latchCommand w s).check = s.check := rfl
@[simp] theorem latchCommand_bound (w : Word) (s : State) : (latchCommand w s).bound = s.bound := rfl
@[simp] theorem latchCommand_config (w : Word) (s : State) : (latchCommand w s).config = s.config := rfl
@[simp] theorem latchCommand_phase (w : Word) (s : State) : (latchCommand w s).phase = s.phase := rfl
@[simp] theorem latchCommand_stream (w : Word) (s : State) : (latchCommand w s).stream = s.stream := rfl
@[simp] theorem latchCommand_memory (w : Word) (s : State) : (latchCommand w s).memory = s.memory := rfl
@[simp] theorem latchCommand_running (w : Word) (s : State) : (latchCommand w s).running = some w := rfl
@[simp] theorem latchCommand_inputs (w : Word) (s : State) : (latchCommand w s).inputs = s.inputs := rfl
@[simp] theorem latchCommand_readData (w : Word) (s : State) : (latchCommand w s).readData = s.readData := rfl
@[simp] theorem latchCommand_draws (w : Word) (s : State) : (latchCommand w s).draws = s.draws := rfl

@[simp] theorem readByte_result (dst : Nat) (s : State) : (readByte dst s).result = s.result := rfl
@[simp] theorem readByte_overrun (dst : Nat) (s : State) : (readByte dst s).overrun = s.overrun := rfl
@[simp] theorem readByte_inPtr (dst : Nat) (s : State) : (readByte dst s).inPtr = s.inPtr + 1 := rfl
@[simp] theorem readByte_inAvail (dst : Nat) (s : State) : (readByte dst s).inAvail = s.inAvail - 1 := rfl
@[simp] theorem readByte_outPtr (dst : Nat) (s : State) : (readByte dst s).outPtr = s.outPtr := rfl
@[simp] theorem readByte_outAvail (dst : Nat) (s : State) : (readByte dst s).outAvail = s.outAvail := rfl
@[simp] theorem readByte_totalIn (dst : Nat) (s : State) : (readByte dst s).totalIn = s.totalIn + 1 := rfl
@[simp] theorem readByte_totalOut (dst : Nat) (s : State) : (readByte dst s).totalOut = s.totalOut := rfl
@[simp] theorem readByte_check (dst : Nat) (s : State) : (readByte dst s).check = s.check := rfl
@[simp] theorem readByte_bound (dst : Nat) (s : State) : (readByte dst s).bound = s.bound := rfl
@[simp] theorem readByte_config (dst : Nat) (s : State) : (readByte dst s).config = s.config := rfl
@[simp] theorem readByte_phase (dst : Nat) (s : State) : (readByte dst s).phase = s.phase := rfl
@[simp] theorem readByte_stream (dst : Nat) (s : State) : (readByte dst s).stream = { s.stream with window := s.stream.window.set 0 dst (s.memory.read s.inPtr.toNat) } := rfl
@[simp] theorem readByte_memory (dst : Nat) (s : State) : (readByte dst s).memory = s.memory := rfl
@[simp] theorem readByte_running (dst : Nat) (s : State) : (readByte dst s).running = s.running := rfl
@[simp] theorem readByte_inputs (dst : Nat) (s : State) : (readByte dst s).inputs = s.inputs := rfl
@[simp] theorem readByte_readData (dst : Nat) (s : State) : (readByte dst s).readData = s.readData := rfl
@[simp] theorem readByte_draws (dst : Nat) (s : State) : (readByte dst s).draws = s.draws := rfl

@[simp] theorem writeByte_result (b : Byte) (rest : List Byte) (s : State) : (writeByte b rest s).result = s.result := rfl
@[simp] theorem writeByte_overrun (b : Byte) (rest : List Byte) (s : State) : (writeByte b rest s).overrun = s.overrun := rfl
@[simp] theorem writeByte_inPtr (b : Byte) (rest : List Byte) (s : State) : (writeByte b rest s).inPtr = s.inPtr := rfl
@[simp] theorem writeByte_inAvail (b : Byte) (rest : List Byte) (s : State) : (writeByte b rest s).inAvail = s.inAvail := rfl
@[simp] theorem writeByte_outPtr (b : Byte) (rest : List Byte) (s : State) : (writeByte b rest s).outPtr = s.outPtr + 1 := rfl
@[simp] theorem writeByte_outAvail (b : Byte) (rest : List Byte) (s : State) : (writeByte b rest s).outAvail = s.outAvail - 1 := rfl
@[simp] theorem writeByte_totalIn (b : Byte) (rest : List Byte) (s : State) : (writeByte b rest s).totalIn = s.totalIn := rfl
@[simp] theorem writeByte_totalOut (b : Byte) (rest : List Byte) (s : State) : (writeByte b rest s).totalOut = s.totalOut + 1 := rfl
@[simp] theorem writeByte_check (b : Byte) (rest : List Byte) (s : State) : (writeByte b rest s).check = s.check := rfl
@[simp] theorem writeByte_bound (b : Byte) (rest : List Byte) (s : State) : (writeByte b rest s).bound = s.bound := rfl
@[simp] theorem writeByte_config (b : Byte) (rest : List Byte) (s : State) : (writeByte b rest s).config = s.config := rfl
@[simp] theorem writeByte_phase (b : Byte) (rest : List Byte) (s : State) : (writeByte b rest s).phase = s.phase := rfl
@[simp] theorem writeByte_stream (b : Byte) (rest : List Byte) (s : State) : (writeByte b rest s).stream = { s.stream with pending := rest } := rfl
@[simp] theorem writeByte_memory (b : Byte) (rest : List Byte) (s : State) : (writeByte b rest s).memory = s.memory.write s.outPtr.toNat b := rfl
@[simp] theorem writeByte_running (b : Byte) (rest : List Byte) (s : State) : (writeByte b rest s).running = s.running := rfl
@[simp] theorem writeByte_inputs (b : Byte) (rest : List Byte) (s : State) : (writeByte b rest s).inputs = s.inputs := rfl
@[simp] theorem writeByte_readData (b : Byte) (rest : List Byte) (s : State) : (writeByte b rest s).readData = s.readData := rfl
@[simp] theorem writeByte_draws (b : Byte) (rest : List Byte) (s : State) : (writeByte b rest s).draws = s.draws := rfl

@[simp] theorem hostStore_result (a : Nat) (v : Byte) (s : State) : (hostStore a v s).result = s.result := rfl
@[simp] theorem hostStore_overrun (a : Nat) (v : Byte) (s : State) : (hostStore a v s).overrun = s.overrun := rfl
@[simp] theorem hostStore_inPtr (a : Nat) (v : Byte) (s : State) : (hostStore a v s).inPtr = s.inPtr := rfl
@[simp] theorem hostStore_inAvail (a : Nat) (v : Byte) (s : State) : (hostStore a v s).inAvail = s.inAvail := rfl
@[simp] theorem hostStore_outPtr (a : Nat) (v : Byte) (s : State) : (hostStore a v s).outPtr = s.outPtr := rfl
@[simp] theorem hostStore_outAvail (a : Nat) (v : Byte) (s : State) : (hostStore a v s).outAvail = s.outAvail := rfl
@[simp] theorem hostStore_totalIn (a : Nat) (v : Byte) (s : State) : (hostStore a v s).totalIn = s.totalIn := rfl
@[simp] theorem hostStore_totalOut (a : Nat) (v : Byte) (s : State) : (hostStore a v s).totalOut = s.totalOut := rfl
@[simp] theorem hostStore_check (a : Nat) (v : Byte) (s : State) : (hostStore a v s).check = s.check := rfl
@[simp] theorem hostStore_bound (a : Nat) (v : Byte) (s : State) : (hostStore a v s).bound = s.bound := rfl
@[simp] theorem hostStore_config (a : Nat) (v : Byte) (s : State) : (hostStore a v s).config = s.config := rfl
@[simp] theorem hostStore_phase (a : Nat) (v : Byte) (s : State) : (hostStore a v s).phase = s.phase := rfl
@[simp] theorem hostStore_stream (a : Nat) (v : Byte) (s : State) : (hostStore a v s).stream = s.stream := rfl
@[simp] theorem hostStore_memory (a : Nat) (v : Byte) (s : State) : (hostStore a v s).memory = s.memory.write a v := rfl
@[simp] theorem hostStore_running (a : Nat) (v : Byte) (s : State) : (hostStore a v s).running = s.running := rfl
@[simp] theorem hostStore_inputs (a : Nat) (v : Byte) (s : State) : (hostStore a v s).inputs = s.inputs := rfl
@[simp] theorem hostStore_readData (a : Nat) (v : Byte) (s : State) : (hostStore a v s).readData = s.readData := rfl
@[simp] theorem hostStore_draws (a : Nat) (v : Byte) (s : State) : (hostStore a v s).draws = s.draws := rfl

@[simp] theorem hostLoad_result (a : Nat) (s : State) : (hostLoad a s).result = s.result := rfl
@[simp] theorem hostLoad_overrun (a : Nat) (s : State) : (hostLoad a s).overrun = s.overrun := rfl
@[simp] theorem hostLoad_inPtr (a : Nat) (s : State) : (hostLoad a s).inPtr = s.inPtr := rfl
@[simp] theorem hostLoad_inAvail (a : Nat) (s : State) : (hostLoad a s).inAvail = s.inAvail := rfl
@[simp] theorem hostLoad_outPtr (a : Nat) (s : State) : (hostLoad a s).outPtr = s.outPtr := rfl
@[simp] theorem hostLoad_outAvail (a : Nat) (s : State) : (hostLoad a s).outAvail = s.outAvail := rfl
@[simp] theorem hostLoad_totalIn (a : Nat) (s : State) : (hostLoad a s).totalIn = s.totalIn := rfl
@[simp] theorem hostLoad_totalOut (a : Nat) (s : State) : (hostLoad a s).totalOut = s.totalOut := rfl
@[simp] theorem hostLoad_check (a : Nat) (s : State) : (hostLoad a s).check = s.check := rfl
@[simp] theorem hostLoad_bound (a : Nat) (s : State) : (hostLoad a s).bound = s.bound := rfl
@[simp] theorem hostLoad_config (a : Nat) (s : State) : (hostLoad a s).config = s.config := rfl
@[simp] theorem hostLoad_phase (a : Nat) (s : State) : (hostLoad a s).phase = s.phase := rfl
@[simp] theorem hostLoad_stream (a : Nat) (s : State) : (hostLoad a s).stream = s.stream := rfl
@[simp] theorem hostLoad_memory (a : Nat) (s : State) : (hostLoad a s).memory = s.memory := rfl
@[simp] theorem hostLoad_running (a : Nat) (s : State) : (hostLoad a s).running = s.running := rfl
@[simp] theorem hostLoad_inputs (a : Nat) (s : State) : (hostLoad a s).inputs = s.inputs := rfl
@[simp] theorem hostLoad_readData (a : Nat) (s : State) : (hostLoad a s).readData = (s.memory.read a).setWidth 32 := rfl
@[simp] theorem hostLoad_draws (a : Nat) (s : State) : (hostLoad a s).draws = s.draws := rfl

end Sys2Proof.Machine
end

