-- ==== Sys2Proof/Laws/Checks.lean ====
section
/-! SUPPORT. The checks at the start of a DEFLATE say what their rules say (20_memory.md R86; 40_commands.md R155 lines 1 to 5,
R157). -/

namespace Sys2Proof.Machine

theorem word_eq_zero (w : Word) : w = 0 ↔ w.toNat = 0 := by simp [← BitVec.toNat_inj]

/-- `RangeFault()` (20_memory.md R86). -/
theorem rangeFault_iff (s : State) : rangeFault s = true ↔ BadRanges s := by
  have h1 := s.inPtr.isLt
  have h2 := s.outPtr.isLt
  have z : ∀ w : Word, (w != 0) = true ↔ w.toNat ≠ 0 := fun w => by simp [bne_iff_ne, ← BitVec.toNat_inj]
  unfold rangeFault BadRanges overlap wraps
  simp only [Bool.or_eq_true, Bool.and_eq_true, decide_eq_true_eq, z]
  constructor
  · rintro ((h | h) | ⟨a, b, c, d⟩)
    · exact Or.inl h
    · exact Or.inr (Or.inl h)
    · exact Or.inr (Or.inr ⟨max s.inPtr.toNat s.outPtr.toNat, by omega⟩)
  · rintro (h | h | ⟨a, b⟩)
    · exact Or.inl (Or.inl h)
    · exact Or.inl (Or.inr h)
    · exact Or.inr (by omega)

/-- `NullFault()` (40_commands.md R157). -/
theorem nullFault_iff (s : State) : nullFault s = true ↔ NullBuffers s := by
  simp [nullFault, NullBuffers, ← BitVec.toNat_inj]

/-- The causes of StreamError of a DEFLATE, as the check computes them. -/
theorem deflateStreamError_iff (f : Flush) (s : State) :
    DeflateStreamError f s ↔ s.phase = .uninit ∨ s.phase = .done ∨ nullFault s = true ∨ rangeFault s = true ∨
      (s.phase = .finishing ∧ f ≠ .finish) := by
  rw [nullFault_iff, rangeFault_iff]
  rfl

/-- What the checks of lines 1 to 5 answer. -/
theorem deflateCheck_error {f : Flush} {s : State} (h : DeflateStreamError f s) : deflateCheck f s = some .streamError := by
  rw [deflateStreamError_iff] at h
  unfold deflateCheck
  split
  · rfl
  next h1 =>
    split
    · rfl
    next h2 =>
      split
      · rfl
      next h3 =>
        rw [if_pos]
        rcases h with h | h | h | h | h
        · exact absurd (Or.inl h) h1
        · exact absurd (Or.inr h) h1
        · exact absurd h h2
        · exact absurd h h3
        · exact h

theorem deflateCheck_passed {f : Flush} {s : State} (h : ¬ DeflateStreamError f s) :
    deflateCheck f s = if s.outAvail = 0 then some .bufError else none := by
  rw [deflateStreamError_iff] at h
  simp only [not_or] at h
  obtain ⟨h1, h2, h3, h4, h5⟩ := h
  unfold deflateCheck
  rw [if_neg (by rintro (h | h); exact h1 h; exact h2 h), if_neg h3, if_neg h4, if_neg h5]

/-- The four DEFLATE commands run `deflate` with their flush mode. -/
theorem exec_deflate (f : Flush) (s : State) : exec (deflateInstr f) s = .next (deflate f s) := by cases f <;> rfl

end Sys2Proof.Machine
end

