-- ==== Sys2Proof/Laws/Encoding.lean ====
section
/-! SUPPORT. A command word and its fields as numbers (30_encoding.md R110). -/

namespace Sys2Proof

theorem shifted_or (a b k : Nat) (h : b < 2 ^ k) : a * 2 ^ k ||| b = a * 2 ^ k + b := by
  rw [Nat.mul_comm, Nat.two_pow_add_eq_or_of_lt h]

theorem commandWord_toNat (wbits : BitVec 8) (level flush op : BitVec 4) :
    (commandWord wbits level flush op).toNat =
      op.toNat + 16 * flush.toNat + 256 * level.toNat + 4096 * wbits.toNat := by
  have h1 := op.isLt
  have h2 := flush.isLt
  have h3 := level.isLt
  have h4 := wbits.isLt
  show BitVec.toNat ((0 : BitVec 12) ++ wbits ++ level ++ flush ++ op) = _
  simp only [BitVec.toNat_append, Nat.shiftLeft_eq]
  rw [show BitVec.toNat (0 : BitVec 12) = 0 from rfl, shifted_or _ _ _ h4, shifted_or _ _ _ h3, shifted_or _ _ _ h2,
    shifted_or _ _ _ h1]
  omega

theorem fieldOp_toNat (w : Word) : (fieldOp w).toNat = w.toNat % 16 := by
  simp [fieldOp, BitVec.extractLsb'_toNat]

theorem fieldFlush_toNat (w : Word) : (fieldFlush w).toNat = w.toNat / 16 % 16 := by
  simp [fieldFlush, BitVec.extractLsb'_toNat, Nat.shiftRight_eq_div_pow]

theorem fieldLevel_toNat (w : Word) : (fieldLevel w).toNat = w.toNat / 256 % 16 := by
  simp [fieldLevel, BitVec.extractLsb'_toNat, Nat.shiftRight_eq_div_pow]

theorem fieldWbits_toNat (w : Word) : (fieldWbits w).toNat = w.toNat / 4096 % 256 := by
  simp [fieldWbits, BitVec.extractLsb'_toNat, Nat.shiftRight_eq_div_pow]

theorem fieldRsvd_toNat (w : Word) : (fieldRsvd w).toNat = w.toNat / 1048576 := by
  have := w.isLt
  simp only [fieldRsvd, BitVec.extractLsb'_toNat, Nat.shiftRight_eq_div_pow]
  omega

end Sys2Proof
end

