-- ==== Sys2Proof/Laws/Memory.lean ====
section
/-! SUPPORT. Reading and writing host memory, and its canonical form. -/

namespace Sys2Proof.Machine.Memory

@[simp] theorem read_nil (a : Nat) : read [] a = unlisted := rfl

theorem read_of_above {a b : Nat} {m : Memory} (h : above a m = true) (hb : b ≤ a) : read m b = unlisted := by
  induction m with
  | nil => rfl
  | cons c rest ih =>
    obtain ⟨k, v⟩ := c
    simp only [above, List.all_cons, Bool.and_eq_true, decide_eq_true_eq] at h
    have : b ≠ k := by omega
    simp [read, this, ih (by simpa [above] using h.2)]

theorem above_mono {a b : Nat} {m : Memory} (h : above a m = true) (hb : b ≤ a) : above b m = true := by
  simp only [above, List.all_eq_true, decide_eq_true_eq] at *
  intro c hc
  have := h c hc
  omega

theorem wf_cons {k : Nat} {v : Byte} {rest : Memory} :
    wf ((k, v) :: rest) = true ↔ above k rest = true ∧ v ≠ unlisted ∧ k < size ∧ wf rest = true := by
  simp [wf]

theorem above_write {a b : Nat} {v : Byte} {m : Memory} (h : above a m = true) (hb : a < b) :
    above a (write m b v) = true := by
  induction m with
  | nil => by_cases hv : v = unlisted <;> simp [write, above, hv, hb]
  | cons c rest ih =>
    obtain ⟨k, u⟩ := c
    simp only [above, List.all_cons, Bool.and_eq_true, decide_eq_true_eq] at h
    have hr : above a rest = true := by simpa [above] using h.2
    simp only [write]
    split
    · split <;> simp [above, h.1, hb] <;> simpa [above] using hr
    · split
      · split
        · exact hr
        · simp [above, hb]; simpa [above] using hr
      · have := ih hr
        simp only [above, List.all_cons, Bool.and_eq_true, decide_eq_true_eq]
        exact ⟨h.1, by simpa [above] using this⟩

/-- Writing keeps the canonical form. -/
theorem wf_write {m : Memory} {a : Nat} {v : Byte} (h : wf m = true) (ha : a < size) : wf (write m a v) = true := by
  induction m with
  | nil =>
    by_cases hv : v = unlisted
    · simp [write, wf, hv]
    · simp only [write, hv, if_false]
      exact wf_cons.mpr ⟨rfl, hv, ha, rfl⟩
  | cons c rest ih =>
    obtain ⟨k, u⟩ := c
    obtain ⟨h1, h2, h3, h4⟩ := wf_cons.mp h
    simp only [write]
    split
    next hlt =>
      split
      · exact h
      next hv =>
        rw [wf_cons]
        refine ⟨?_, hv, ha, h⟩
        simp only [above, List.all_cons, Bool.and_eq_true, decide_eq_true_eq]
        exact ⟨hlt, by simpa [above] using above_mono h1 (Nat.le_of_lt hlt)⟩
    next hge =>
      split
      next heq =>
        subst heq
        split
        · exact h4
        next hv => exact wf_cons.mpr ⟨h1, hv, ha, h4⟩
      next hne => exact wf_cons.mpr ⟨above_write h1 (by omega), h2, h3, ih h4⟩

/-- A read after a write, in a canonical memory. -/
theorem read_write {m : Memory} (h : wf m = true) (a b : Nat) (v : Byte) :
    read (write m a v) b = if b = a then v else read m b := by
  induction m with
  | nil =>
    by_cases hv : v = unlisted <;> by_cases hb : b = a <;> simp [write, read, hv, hb]
  | cons c rest ih =>
    obtain ⟨k, u⟩ := c
    obtain ⟨h1, h2, h3, h4⟩ := wf_cons.mp h
    simp only [write]
    split
    next hlt =>
      have hk : a ≠ k := by omega
      have hr : read rest a = unlisted := read_of_above h1 (Nat.le_of_lt hlt)
      by_cases hv : v = unlisted <;> by_cases hb : b = a <;> simp [read, hv, hb, hk, hr]
    next hge =>
      split
      next heq =>
        subst heq
        have hr : read rest a = unlisted := read_of_above h1 (Nat.le_refl _)
        by_cases hv : v = unlisted <;> by_cases hb : b = a <;> simp [read, hv, hb, hr]
      next hne =>
        by_cases hb : b = k
        · subst hb
          have : b ≠ a := by omega
          simp [read, this]
        · simp [read, hb, ih h4]

theorem read_write_same {m : Memory} (h : wf m = true) (a : Nat) (v : Byte) : read (write m a v) a = v := by
  simp [read_write h]

/-- A write leaves every other address alone, in any memory. -/
theorem read_write_other (m : Memory) {a b : Nat} (v : Byte) (hb : b ≠ a) : read (write m a v) b = read m b := by
  induction m with
  | nil => by_cases hv : v = unlisted <;> simp [write, read, hv, hb]
  | cons c rest ih =>
    obtain ⟨k, u⟩ := c
    simp only [write]
    split
    · split <;> simp [read, hb]
    · split
      next heq =>
        subst heq
        split <;> simp [read, hb]
      next => simp [read, ih]

end Sys2Proof.Machine.Memory
end

