-- ==== Sys2Proof/Laws/Io.lean ====
section
/-! SUPPORT. The two memory primitives `ReadInput` and `FlushPending` (20_memory.md R87, R88): everything they do, in closed
form, and that memory keeps its canonical form. -/

namespace Sys2Proof.Machine

/-- Bytes stored one after the other from a pointer on. -/
def storeBytes : Word → List Byte → Memory → Memory
  | _, [], m => m
  | p, b :: rest, m => storeBytes (p + 1) rest (m.write p.toNat b)

/-- Bytes loaded into the window one after the other from an index on. -/
def loadBytes : Nat → List Byte → Table Byte → Table Byte
  | _, [], win => win
  | dst, b :: rest, win => loadBytes (dst + 1) rest (win.set 0 dst b)

@[simp] theorem inputBytes_length (s : State) (k : Nat) : (inputBytes s k).length = k := by simp [inputBytes]

theorem inputBytes_succ (s : State) (k : Nat) (dst : Nat) :
    inputBytes s (k + 1) = s.memory.read s.inPtr.toNat :: inputBytes (readByte dst s) k := by
  simp only [inputBytes, List.range_succ_eq_map, List.map_cons, List.map_map]
  congr 1
  · simp [inputByte]
  · apply List.map_congr_left
    intro i _
    simp only [Function.comp, inputByte, readByte_inPtr, readByte_memory]
    congr 2
    rw [BitVec.add_assoc]
    congr 1
    rw [Nat.succ_eq_add_one, Nat.add_comm, BitVec.ofNat_add]
    rfl

theorem succ_word (p : Word) (k : Nat) : p + 1 + BitVec.ofNat 32 k = p + BitVec.ofNat 32 (k + 1) := by
  rw [BitVec.add_assoc, Nat.add_comm k 1, BitVec.ofNat_add]
  rfl

theorem pred_word (p : Word) (k : Nat) : p - 1 - BitVec.ofNat 32 k = p - BitVec.ofNat 32 (k + 1) := by
  rw [BitVec.sub_sub, Nat.add_comm k 1, BitVec.ofNat_add]
  rfl

/-- The loop of `ReadInput` in closed form. -/
theorem readBytes_eq (k dst : Nat) (s : State) :
    readBytes k dst s = { s with
      stream := { s.stream with window := loadBytes dst (inputBytes s k) s.stream.window }
      inPtr := s.inPtr + BitVec.ofNat 32 k
      inAvail := s.inAvail - BitVec.ofNat 32 k
      totalIn := s.totalIn + BitVec.ofNat 32 k } := by
  induction k generalizing dst s with
  | zero => simp [readBytes, inputBytes, loadBytes]
  | succ k ih =>
    rw [readBytes, ih, inputBytes_succ s k dst]
    simp only [readByte_inPtr, readByte_inAvail, readByte_totalIn, readByte_stream, succ_word, pred_word]
    rfl

/-- `ReadInput` in closed form (20_memory.md R87). -/
theorem readInput_eq (n dst : Nat) (s : State) :
    readInput n dst s = { s with
      stream := { s.stream with window := loadBytes dst (inputBytes s (readCount n s)) s.stream.window }
      inPtr := s.inPtr + BitVec.ofNat 32 (readCount n s)
      inAvail := s.inAvail - BitVec.ofNat 32 (readCount n s)
      totalIn := s.totalIn + BitVec.ofNat 32 (readCount n s)
      check := updateCheck s.stream.wrap s.check (inputBytes s (readCount n s)) } := by
  simp only [readInput, readBytes_eq]
  rfl

theorem readCount_le (n : Nat) (s : State) : readCount n s ≤ s.inAvail.toNat := Nat.min_le_right ..

theorem toNat_sub_count (w : Word) (k : Nat) (h : k ≤ w.toNat) : (w - BitVec.ofNat 32 k).toNat = w.toNat - k := by
  have := w.isLt
  rw [BitVec.toNat_sub, BitVec.toNat_ofNat, Nat.mod_eq_of_lt (by omega : k < 2 ^ 32)]
  omega

theorem loadBytes_get (dst : Nat) (bs : List Byte) (win : Table Byte) (j : Nat) (hj : j < 65536)
    (hd : dst + bs.length ≤ 65536) :
    (loadBytes dst bs win).get 0 j =
      if h : dst ≤ j ∧ j < dst + bs.length then bs[j - dst]'(by omega) else win.get 0 j := by
  induction bs generalizing dst win with
  | nil => simp [loadBytes]
  | cons b bs ih =>
    simp only [List.length_cons] at hd
    rw [loadBytes, ih (dst + 1) _ (by omega)]
    by_cases h1 : j = dst
    · subst h1
      simp
    · have hset : Table.get 0 (win.set 0 dst b) j = win.get 0 j :=
        Table.get_set_other 0 b win dst j (by simpa using (by omega : dst < 65536)) (by simpa using hj) h1
      by_cases h2 : dst + 1 ≤ j ∧ j < dst + 1 + bs.length
      · have h3 : dst ≤ j ∧ j < dst + (b :: bs).length := by simp only [List.length_cons]; omega
        rw [dif_pos h2, dif_pos h3]
        have : j - dst = (j - (dst + 1)) + 1 := by omega
        simp [this]
      · have h3 : ¬ (dst ≤ j ∧ j < dst + (b :: bs).length) := by simp only [List.length_cons]; omega
        rw [dif_neg h2, dif_neg h3, hset]

/-- The loop of `FlushPending` in closed form. -/
theorem flushBytes_eq (bs : List Byte) (s : State) (h : s.stream.pending = bs) :
    flushBytes bs s = { s with
      stream := { s.stream with pending := bs.drop (min bs.length s.outAvail.toNat) }
      memory := storeBytes s.outPtr (bs.take (min bs.length s.outAvail.toNat)) s.memory
      outPtr := s.outPtr + BitVec.ofNat 32 (min bs.length s.outAvail.toNat)
      outAvail := s.outAvail - BitVec.ofNat 32 (min bs.length s.outAvail.toNat)
      totalOut := s.totalOut + BitVec.ofNat 32 (min bs.length s.outAvail.toNat) } := by
  induction bs generalizing s with
  | nil =>
    rw [flushBytes]
    simp only [List.drop_nil, List.take_nil, List.length_nil, Nat.zero_min, storeBytes, BitVec.add_zero,
      BitVec.sub_zero]
    rw [← h]
  | cons b rest ih =>
    rw [flushBytes]
    split
    next h0 =>
      have hz : min (b :: rest).length s.outAvail.toNat = 0 := by simp [h0]
      rw [hz]
      simp only [List.drop_zero, List.take_zero, storeBytes, BitVec.add_zero, BitVec.sub_zero]
      rw [← h]
    next h0 =>
      have hpos : 0 < s.outAvail.toNat := by
        rcases Nat.eq_zero_or_pos s.outAvail.toNat with h1 | h1
        · exact absurd (BitVec.eq_of_toNat_eq (by simpa using h1)) h0
        · exact h1
      have hsub : (s.outAvail - 1).toNat = s.outAvail.toNat - 1 := toNat_sub_count _ 1 hpos
      have hmin : min (b :: rest).length s.outAvail.toNat = min rest.length (s.outAvail.toNat - 1) + 1 := by
        simp only [List.length_cons]; omega
      rw [ih _ (by simp), hmin]
      simp only [writeByte_outPtr, writeByte_outAvail, writeByte_totalOut, writeByte_memory, writeByte_stream, hsub,
        succ_word, pred_word, List.drop_succ_cons, List.take_succ_cons, storeBytes]
      rfl

/-- How many bytes `FlushPending` moves. -/
def flushCount (s : State) : Nat := min s.stream.pending.length s.outAvail.toNat

/-- `FlushPending` in closed form (20_memory.md R88). -/
theorem flushPending_eq (s : State) :
    flushPending s = { s with
      stream := { s.stream with pending := s.stream.pending.drop (flushCount s) }
      memory := storeBytes s.outPtr (s.stream.pending.take (flushCount s)) s.memory
      outPtr := s.outPtr + BitVec.ofNat 32 (flushCount s)
      outAvail := s.outAvail - BitVec.ofNat 32 (flushCount s)
      totalOut := s.totalOut + BitVec.ofNat 32 (flushCount s) } := flushBytes_eq _ s rfl

theorem flushCount_le (s : State) : flushCount s ≤ s.outAvail.toNat := Nat.min_le_right ..

/-- After `FlushPending` with space left, nothing is queued. -/
theorem flushPending_empties (s : State) (h : (flushPending s).outAvail ≠ 0) : (flushPending s).stream.pending = [] := by
  rw [flushPending_eq] at h ⊢
  simp only [List.drop_eq_nil_iff]
  by_contra hlt
  apply h
  have hc : flushCount s = s.outAvail.toNat := by unfold flushCount at *; omega
  rw [hc]
  simp

theorem storeBytes_wf (p : Word) (bs : List Byte) (m : Memory) (h : m.wf = true) : (storeBytes p bs m).wf = true := by
  induction bs generalizing p m with
  | nil => exact h
  | cons b bs ih => exact ih _ _ (Memory.wf_write h (by simpa using p.isLt))

/-- Bytes outside the stored range keep their value, in any memory. -/
theorem storeBytes_other (p : Word) (bs : List Byte) (m : Memory) (a : Nat)
    (h : ∀ i, i < bs.length → a ≠ (p + BitVec.ofNat 32 i).toNat) : (storeBytes p bs m).read a = m.read a := by
  induction bs generalizing p m with
  | nil => rfl
  | cons b bs ih =>
    rw [storeBytes, ih]
    · apply Memory.read_write_other
      simpa using h 0 (by simp)
    · intro i hi
      rw [succ_word]
      exact h (i + 1) (by simpa using hi)

/-- The stored bytes read back, in a canonical memory, when the range does not wrap. -/
theorem storeBytes_same (p : Word) (bs : List Byte) (m : Memory) (hm : m.wf = true) (hp : p.toNat + bs.length ≤ 2 ^ 32)
    (i : Nat) (hi : i < bs.length) : (storeBytes p bs m).read (p.toNat + i) = bs[i] := by
  induction bs generalizing p m i with
  | nil => simp at hi
  | cons b bs ih =>
    simp only [List.length_cons] at hp hi
    have hwf := Memory.wf_write (v := b) hm (by simpa using p.isLt)
    rw [storeBytes]
    cases i with
    | zero =>
      rw [storeBytes_other]
      · simpa using Memory.read_write_same hm p.toNat b
      · intro j hj
        rw [succ_word, BitVec.toNat_add, BitVec.toNat_ofNat]
        omega
    | succ i =>
      have hi' : i < bs.length := by omega
      have hq : (p + 1).toNat = p.toNat + 1 := by
        have h1 : (1 : Word).toNat = 1 := rfl
        rw [BitVec.toNat_add, h1]
        omega
      have h2 := ih (p + 1) _ hwf (by omega) i hi'
      rw [hq] at h2
      simpa [Nat.add_assoc, Nat.add_comm 1 i] using h2

theorem flushPending_wf (s : State) (h : s.memory.wf = true) : (flushPending s).memory.wf = true := by
  rw [flushPending_eq]
  exact storeBytes_wf _ _ _ h

theorem hostStore_wf (a : Nat) (v : Byte) (s : State) (h : s.memory.wf = true) (ha : a < Memory.size) :
    (hostStore a v s).memory.wf = true := Memory.wf_write h ha

theorem scramble_wf (draw count a : Nat) (m : Memory) (h : m.wf = true) (ha : a + count ≤ Memory.size) :
    (scramble draw count a m).wf = true := by
  induction count generalizing a m with
  | zero => exact h
  | succ n ih => exact ih _ _ (Memory.wf_write h (by omega)) (by omega)

theorem scramble_other (draw count a : Nat) (m : Memory) (b : Nat) (hb : b < a ∨ a + count ≤ b) :
    (scramble draw count a m).read b = m.read b := by
  induction count generalizing a m with
  | zero => rfl
  | succ n ih =>
    rw [scramble, ih _ _ (by omega)]
    exact Memory.read_write_other m _ (by omega)

theorem reset_memory_wf : State.reset.memory.wf = true := rfl

end Sys2Proof.Machine
end

