-- ==== Sys2Proof/Laws/Writer.lean ====
section
/-! SUPPORT. The bit writer: what each of its functions leaves alone, its invariant (43_block_serializer.md R289), and the
bits it appends. -/

namespace Sys2Proof.Machine

/-- `u` is `t` but for the bit writer's three fields. -/
def WriterOnly (t u : Stream) : Prop := ∃ a c p, u = { t with bitacc := a, bitcount := c, pending := p }

/-- `u` comes from `t` by the bit writer: nothing but its fields changes, and its invariant is kept. -/
def Writes (t u : Stream) : Prop := WriterOnly t u ∧ (WriterOk t → WriterOk u)

theorem Writes.refl (t : Stream) : Writes t t := ⟨⟨_, _, _, rfl⟩, id⟩

theorem Writes.trans {t u v : Stream} (h : Writes t u) (k : Writes u v) : Writes t v := by
  obtain ⟨⟨_, _, _, rfl⟩, h2⟩ := h
  obtain ⟨⟨_, _, _, rfl⟩, k2⟩ := k
  exact ⟨⟨_, _, _, rfl⟩, fun w => k2 (h2 w)⟩

theorem Writes.foldl {α : Type} {g : Stream → α → Stream} (h : ∀ t x, Writes t (g t x)) (l : List α) (t : Stream) :
    Writes t (l.foldl g t) := by
  induction l generalizing t with
  | nil => exact Writes.refl t
  | cons x l ih => exact (h t x).trans (ih _)

theorem shiftedOr_lt {a v b n : Nat} (ha : a < 2 ^ b) : (a ||| v % 2 ^ n * 2 ^ b) < 2 ^ (b + n) := by
  apply Nat.or_lt_two_pow
  · exact lt_of_lt_of_le ha (Nat.pow_le_pow_right (by decide) (by omega))
  · rw [Nat.pow_add, Nat.mul_comm]
    exact Nat.mul_lt_mul_of_pos_left (Nat.mod_lt _ (by positivity)) (by positivity)

theorem sendBits_writerOk (v n : Nat) (t : Stream) (h : WriterOk t) : WriterOk (sendBits v n t) := by
  obtain ⟨-, h2⟩ := h
  refine ⟨by simp only [sendBits_bitcount]; omega, ?_⟩
  simp only [sendBits_bitcount, sendBits_bitacc]
  have hx := shiftedOr_lt (v := v) (n := n) h2
  rw [Nat.div_lt_iff_lt_mul (by positivity), show (256 : Nat) = 2 ^ 8 by rfl, ← pow_mul, ← pow_add]
  exact lt_of_lt_of_le hx (Nat.pow_le_pow_right (by decide) (by omega))

theorem sendBits_writes (v n : Nat) (t : Stream) : Writes t (sendBits v n t) := ⟨⟨_, _, _, rfl⟩, sendBits_writerOk v n t⟩

theorem alignByte_writerOk (t : Stream) : WriterOk (alignByte t) := by simp [WriterOk]

theorem alignByte_writes (t : Stream) : Writes t (alignByte t) := ⟨⟨_, _, _, rfl⟩, fun _ => alignByte_writerOk t⟩

theorem putBytes_writes (bs : List Byte) (t : Stream) : Writes t (putBytes bs t) := ⟨⟨_, _, _, rfl⟩, id⟩

theorem sendSym_writes (code len : Nat → Nat) (sym : Nat) (t : Stream) : Writes t (sendSym code len sym t) :=
  sendBits_writes ..

theorem sendExtra_writes (v n : Nat) (t : Stream) : Writes t (sendExtra v n t) := by
  unfold sendExtra
  split
  · exact sendBits_writes ..
  · exact Writes.refl t

theorem sendTree_writes (c bl : Code) (t : Stream) : Writes t (sendTree c bl t) :=
  Writes.foldl (g := fun t (op : RunOp) => sendExtra op.value op.bits (sendSym (bl.code.get 0) (bl.len.get 0) op.sym t))
    (fun t op => (sendSym_writes _ _ op.sym t).trans (sendExtra_writes ..)) _ _

theorem sendAllTrees_writes (lit dist bl : Code) (maxBl : Nat) (t : Stream) :
    Writes t (sendAllTrees lit dist bl maxBl t) :=
  ((((sendBits_writes _ _ t).trans (sendBits_writes ..)).trans (sendBits_writes ..)).trans
    (Writes.foldl (g := fun t sym => sendBits (bl.len.get 0 sym) 3 t) (fun _ _ => sendBits_writes ..) _ _)).trans ((sendTree_writes ..).trans (sendTree_writes ..))

theorem sendHeader_writes (btype : Nat) (last : Bool) (t : Stream) : Writes t (sendHeader btype last t) :=
  sendBits_writes ..

theorem sendStoredBlock_writes (buf : List Byte) (last : Bool) (t : Stream) :
    Writes t (sendStoredBlock buf last t) :=
  (((sendHeader_writes 0 last t).trans (alignByte_writes _)).trans (putBytes_writes ..)).trans (putBytes_writes ..)

theorem sendEntry_writes (lcode llen dcode dlen : Nat → Nat) (t : Stream) (e : Sym) :
    Writes t (sendEntry lcode llen dcode dlen t e) := by
  cases e with
  | lit b => exact sendSym_writes ..
  | copy d l =>
    exact (((sendSym_writes lcode llen _ t).trans (sendExtra_writes ..)).trans (sendSym_writes ..)).trans
      (sendExtra_writes ..)

theorem compressBlock_writes (lcode llen dcode dlen : Nat → Nat) (t : Stream) :
    Writes t (compressBlock lcode llen dcode dlen t) :=
  (Writes.foldl (fun u e => sendEntry_writes lcode llen dcode dlen u e) _ t).trans (sendSym_writes ..)

theorem sendBlock_writes (form : BlockForm) (bc : BlockCodes) (buf : List Byte) (last : Bool) (t : Stream) :
    Writes t (sendBlock form bc buf last t) := by
  cases form with
  | stored => exact sendStoredBlock_writes ..
  | fixed => exact (sendHeader_writes ..).trans (compressBlock_writes ..)
  | dynamic => exact ((sendHeader_writes ..).trans (sendAllTrees_writes ..)).trans (compressBlock_writes ..)

/-- The end of a block, whatever its bits are. -/
theorem closed_of_writes (last : Bool) (x : Int) {t u : Stream} (h : Writes t u) :
    ∃ a c p, { (if last then alignByte (initBlock u) else initBlock u) with blockStart := x } =
        { initBlock t with bitacc := a, bitcount := c, pending := p, blockStart := x } ∧
      (WriterOk t → c ≤ 7 ∧ a < 2 ^ c) ∧ (last = true → a = 0 ∧ c = 0) := by
  obtain ⟨⟨a, c, p, rfl⟩, h2⟩ := h
  cases last with
  | false => exact ⟨a, c, p, rfl, h2, by simp⟩
  | true => exact ⟨0, 0, _, rfl, fun _ => by decide, fun _ => ⟨rfl, rfl⟩⟩

/-- Everything `FlushBlockOnly` does to the stream before its `FlushPending` (41_lz77.md R211, 43_block_serializer.md R276,
R284): an empty block starts at `S.strstart`, and the writer's fields are sound; after a last block no bit waits. -/
theorem closeBlock_spec (last : Bool) (t : Stream) :
    ∃ a c p, closeBlock last t =
        { initBlock t with bitacc := a, bitcount := c, pending := p, blockStart := (t.strstart : Int) } ∧
      (WriterOk t → c ≤ 7 ∧ a < 2 ^ c) ∧ (last = true → a = 0 ∧ c = 0) :=
  closed_of_writes last t.strstart (sendBlock_writes ..)

theorem lowBits_length (v n : Nat) : (lowBits v n).length = n := by simp [lowBits]

theorem lowBits_getElem (v n i : Nat) (h : i < (lowBits v n).length) : (lowBits v n)[i] = v.testBit i := by
  simp [lowBits]

/-- The bits of a value, cut at `a`. -/
theorem lowBits_add (v a b : Nat) : lowBits v (a + b) = lowBits v a ++ lowBits (v / 2 ^ a) b := by
  simp only [lowBits, List.range_add, List.map_append, List.map_map]
  congr 1
  apply List.map_congr_left
  intro i _
  simp [Nat.testBit_div_two_pow, Nat.add_comm]

theorem lowBits_congr {v w n : Nat} (h : ∀ i, i < n → v.testBit i = w.testBit i) : lowBits v n = lowBits w n := by
  simp only [lowBits]
  apply List.map_congr_left
  intro i hi
  exact h i (List.mem_range.mp hi)

theorem byteBits_nil : byteBits [] = [] := rfl

theorem byteBits_append (x y : List Byte) : byteBits (x ++ y) = byteBits x ++ byteBits y := by
  simp [byteBits]

theorem byteBits_lowBytes (k v : Nat) : byteBits (lowBytes k v) = lowBits v (8 * k) := by
  induction k generalizing v with
  | zero => simp [lowBytes, byteBits, lowBits]
  | succ k ih =>
    have h8 : lowBits (BitVec.ofNat 8 v).toNat 8 = lowBits v 8 := by
      apply lowBits_congr
      intro i hi
      rw [BitVec.toNat_ofNat, Nat.testBit_mod_two_pow]
      simp [hi]
    rw [show 8 * (k + 1) = 8 + 8 * k by ring, lowBits_add, ← ih (v / 2 ^ 8)]
    simp only [lowBytes, byteBits, List.flatMap_cons, h8]
    rfl

/-- `SendBits(v, n)` appends the `n` low bits of `v`, least significant first (43_block_serializer.md R290). -/
theorem queuedBits_sendBits (v n : Nat) (t : Stream) (h : WriterOk t) :
    queuedBits (sendBits v n t) = queuedBits t ++ lowBits v n := by
  obtain ⟨-, h2⟩ := h
  generalize hx : t.bitacc ||| v % 2 ^ n * 2 ^ t.bitcount = x
  have hcut : lowBits x (t.bitcount + n) = lowBits t.bitacc t.bitcount ++ lowBits v n := by
    rw [lowBits_add]
    congr 1
    · apply lowBits_congr
      intro i hi
      rw [← hx, Nat.testBit_or, Nat.testBit_mul_two_pow]
      simp [Nat.not_le.mpr hi]
    · apply lowBits_congr
      intro i hi
      rw [Nat.testBit_div_two_pow, ← hx, Nat.testBit_or, Nat.testBit_mul_two_pow, Nat.testBit_mod_two_pow]
      have : t.bitacc.testBit (i + t.bitcount) = false :=
        Nat.testBit_lt_two_pow (lt_of_lt_of_le h2 (Nat.pow_le_pow_right (by decide) (by omega)))
      simp [this, hi]
  have hsplit : t.bitcount + n = 8 * ((t.bitcount + n) / 8) + (t.bitcount + n) % 8 := by omega
  simp only [queuedBits, sendBits_pending, sendBits_bitacc, sendBits_bitcount, hx, byteBits_append,
    byteBits_lowBytes, List.append_assoc]
  congr 1
  rw [← hcut]
  conv_rhs => rw [hsplit, lowBits_add]
  rw [pow_mul]
  rfl

/-- `PutByte`s at a byte boundary append whole bytes (43_block_serializer.md R287). -/
theorem queuedBits_putBytes (bs : List Byte) (t : Stream) (h : t.bitcount = 0) :
    queuedBits (putBytes bs t) = queuedBits t ++ byteBits bs := by
  simp [queuedBits, byteBits_append, h, lowBits]

end Sys2Proof.Machine
end

