-- ==== Sys2Proof/Laws/Strategy.lean ====
section
/-! SUPPORT. What every strategy keeps: the configuration of the stream, and every relation between two runs that is kept
by the few operations a strategy is made of (41_lz77.md R204, R211 to R216). -/

namespace Sys2Proof.Machine

theorem SameConfig.refl (t : Stream) : SameConfig t t := ⟨rfl, rfl, rfl, rfl, rfl, rfl, rfl, rfl, rfl, rfl⟩

theorem SameConfig.trans {t u v : Stream} (h : SameConfig t u) (k : SameConfig u v) : SameConfig t v := by
  obtain ⟨h1, h2, h3, h4, h5, h6, h7, h8, h9, h10⟩ := h
  obtain ⟨k1, k2, k3, k4, k5, k6, k7, k8, k9, k10⟩ := k
  exact ⟨k1.trans h1, k2.trans h2, k3.trans h3, k4.trans h4, k5.trans h5, k6.trans h6, k7.trans h7, k8.trans h8,
    k9.trans h9, k10.trans h10⟩

theorem Writes.same {t u : Stream} (h : Writes t u) : SameConfig t u := by
  obtain ⟨⟨_, _, _, rfl⟩, -⟩ := h
  exact SameConfig.refl t

theorem insertString_same (p : Nat) (t : Stream) : SameConfig t (insertString p t) := SameConfig.refl t

theorem slideIfFull_same (t : Stream) : SameConfig t (slideIfFull t) := by
  unfold slideIfFull
  split
  · exact SameConfig.refl t
  · exact SameConfig.refl t

theorem insertDeferred_same (n st : Nat) (t : Stream) : SameConfig t (insertDeferred n st t) := by
  induction n generalizing st t with
  | zero => exact SameConfig.refl t
  | succ n ih =>
    simp only [insertDeferred]
    split
    · exact SameConfig.refl t
    · exact SameConfig.trans (SameConfig.refl t) (ih (st + 1) { insertString st t with insert := n })

theorem afterRead_same (k : Nat) (t : Stream) : SameConfig t (afterRead k t) := by
  simp only [afterRead]
  split
  · exact SameConfig.trans (SameConfig.refl t)
      (insertDeferred_same _ _ (preloadHash (t.strstart - t.insert) { t with lookahead := t.lookahead + k }))
  · exact SameConfig.refl t

theorem longestMatch_same (c : Nat) (t : Stream) : SameConfig t (longestMatch c t) := SameConfig.refl t

theorem lookupInsert_same (t : Stream) : SameConfig t (lookupInsert t) := by
  unfold lookupInsert
  split
  · exact SameConfig.refl t
  · exact SameConfig.refl t

theorem fastSearch_same (t : Stream) : SameConfig t (fastSearch t) := by
  simp only [fastSearch]
  split
  · exact (lookupInsert_same t).trans (longestMatch_same ..)
  · exact lookupInsert_same t

theorem advanceInserting_same (n : Nat) (t : Stream) : SameConfig t (advanceInserting n t) := by
  induction n generalizing t with
  | zero => exact SameConfig.refl t
  | succ n ih =>
    exact SameConfig.trans (SameConfig.refl t) (ih (insertString (t.strstart + 1) { t with strstart := t.strstart + 1 }))

theorem fastMatch_same (t : Stream) : SameConfig t (fastMatch t) := by
  simp only [fastMatch]
  split
  · exact SameConfig.trans (SameConfig.refl t) (advanceInserting_same (t.matchLength - 1)
      { tallyDist (distanceFrom t.strstart t.matchStart) t.matchLength t with
        lookahead := (tallyDist (distanceFrom t.strstart t.matchStart) t.matchLength t).lookahead - t.matchLength })
  · exact SameConfig.refl t

theorem fastLiteral_same (t : Stream) : SameConfig t (fastLiteral t) := SameConfig.refl t

theorem fastStep_same (t : Stream) : SameConfig t (fastStep t) := by
  simp only [fastStep]
  split
  · exact (fastSearch_same t).trans (fastMatch_same _)
  · exact (fastSearch_same t).trans (fastLiteral_same _)

theorem slowSearch_same (t : Stream) : SameConfig t (slowSearch t) := by
  simp only [slowSearch]
  have h := lookupInsert_same t
  generalize lookupInsert t = u at h
  split
  · split
    · exact h
    · exact h
  · exact h

theorem advanceLazily_same (m n : Nat) (t : Stream) : SameConfig t (advanceLazily m n t) := by
  induction n generalizing t with
  | zero => exact SameConfig.refl t
  | succ n ih =>
    simp only [advanceLazily]
    split
    · exact SameConfig.trans (SameConfig.refl t)
        (ih (insertString (t.strstart + 1) { t with strstart := t.strstart + 1 }))
    · exact SameConfig.trans (SameConfig.refl t) (ih { t with strstart := t.strstart + 1 })

theorem slowMatch_same (t : Stream) : SameConfig t (slowMatch t) := by
  simp only [slowMatch]
  exact SameConfig.trans (SameConfig.refl t) (advanceLazily_same (t.strstart + t.lookahead - 3) (t.prevLength - 2)
    { tallyDist (distanceFrom ((t.strstart : Int) - 1) t.prevMatch) t.prevLength t with
      lookahead := t.lookahead - (t.prevLength - 1) })

theorem slowLiteral_same (t : Stream) : SameConfig t (slowLiteral t) := SameConfig.refl t

theorem passByte_same (t : Stream) : SameConfig t (passByte t) := SameConfig.refl t

theorem slowLast_same (t : Stream) : SameConfig t (slowLast t) := by
  unfold slowLast
  split
  · exact SameConfig.refl t
  · exact SameConfig.refl t

theorem storedTake_same (t : Stream) : SameConfig t (storedTake t) := by
  simp only [storedTake]
  split
  · exact SameConfig.refl t
  · exact SameConfig.refl t

theorem closeBlock_same (last : Bool) (t : Stream) : SameConfig t (closeBlock last t) := by
  obtain ⟨a, c, p, h, -⟩ := closeBlock_spec last t
  rw [h]
  exact SameConfig.refl t

theorem flushMarker_same (f : Flush) (t : Stream) : SameConfig t (flushMarker f t) := by
  have h := (sendStoredBlock_writes [] false t).same
  simp only [flushMarker]
  generalize sendStoredBlock [] false t = u at h
  split
  · unfold clearHistory
    split
    · exact h
    · exact h
  · exact h

/-- A relation between two runs that the operations of a strategy keep, and under which both runs take the same
branches. -/
structure Strategic (R : State → State → Prop) : Prop where
  same : ∀ {s s'}, R s s' → s'.stream = s.stream ∧ s'.inAvail = s.inAvail ∧ s'.outAvail = s.outAvail
  onStream : ∀ {s s'} (g : Stream → Stream), (∀ t, SameConfig t (g t)) → R s s' → R (s.onStream g) (s'.onStream g)
  read : ∀ {s s'} (n dst : Nat), R s s' → R (readInput n dst s) (readInput n dst s')
  flush : ∀ {s s'}, R s s' → R (flushPending s) (flushPending s')

namespace Strategic

variable {R : State → State → Prop} (hR : Strategic R) {s s' : State}

include hR

theorem readCount (h : R s s') (n : Nat) : readCount n s' = readCount n s := by
  simp only [Machine.readCount, (hR.same h).2.1]

theorem fillRead (h : R s s') (n : Nat) : R (fillRead n s) (fillRead n s') := by
  unfold Machine.fillRead
  rw [(hR.same h).1, hR.readCount h]
  exact hR.onStream _ (afterRead_same _) (hR.read _ _ h)

theorem fillLoop (n : Nat) (h : R s s') : R (fillLoop n s) (fillLoop n s') := by
  induction n generalizing s s' with
  | zero => exact h
  | succ n ih =>
    have h1 := hR.onStream slideIfFull slideIfFull_same h
    have hs := hR.same h1
    simp only [Machine.fillLoop, (hR.same h).1]
    generalize s.onStream slideIfFull = a at *
    generalize s'.onStream slideIfFull = b at *
    have h2 := hR.fillRead h1 (windowRoom s.stream)
    have hs2 := hR.same h2
    rw [hs.2.1]
    split
    · exact h1
    · rw [hs2.1, hs2.2.1]
      split
      · exact ih h2
      · exact h2

theorem fillWindow (h : R s s') : R (fillWindow s) (fillWindow s') := by
  unfold Machine.fillWindow
  rw [(hR.same h).2.1]
  exact hR.fillLoop _ h

theorem refill (h : R s s') : R (refill s) (refill s') := by
  unfold Machine.refill
  rw [(hR.same h).1]
  split
  · exact hR.fillWindow h
  · exact h

theorem flushBlockOnly (last : Bool) (h : R s s') : R (flushBlockOnly last s) (flushBlockOnly last s') :=
  hR.flush (hR.onStream _ (closeBlock_same last) h)

theorem flushIf (c : Prop) [Decidable c] (h : R s s') :
    R (if c then Machine.flushBlockOnly false s else s) (if c then Machine.flushBlockOnly false s' else s') := by
  split
  · exact hR.flushBlockOnly false h
  · exact h

theorem finalBlock (h : R s s') :
    (finalBlock s).1 = (finalBlock s').1 ∧ R (finalBlock s).2 (finalBlock s').2 := by
  have h1 := hR.flushBlockOnly true h
  simp only [Machine.finalBlock]
  rw [(hR.same h1).2.2]
  exact ⟨rfl, h1⟩

theorem flushPoint (h : R s s') :
    (flushPoint s).1 = (flushPoint s').1 ∧ R (flushPoint s).2 (flushPoint s').2 := by
  have h1 := hR.flushBlockOnly false h
  simp only [Machine.flushPoint]
  rw [(hR.same h1).2.2]
  exact ⟨rfl, h1⟩

theorem finishStrategy (f : Flush) (h : R s s') :
    (finishStrategy f s).1 = (finishStrategy f s').1 ∧ R (finishStrategy f s).2 (finishStrategy f s').2 := by
  have h1 := hR.onStream (fun t => { t with insert := min t.strstart 2 }) (fun t => SameConfig.refl t) h
  simp only [Machine.finishStrategy]
  rw [(hR.same h1).1]
  split
  · exact hR.finalBlock h1
  · split
    · exact hR.flushPoint h1
    · exact ⟨rfl, h1⟩

theorem fastLoop (f : Flush) (n : Nat) (h : R s s') :
    (fastLoop f n s).1 = (fastLoop f n s').1 ∧ R (fastLoop f n s).2 (fastLoop f n s').2 := by
  induction n generalizing s s' with
  | zero => exact ⟨rfl, h⟩
  | succ n ih =>
    have h1 := hR.refill h
    simp only [Machine.fastLoop]
    generalize Machine.refill s = a at *
    generalize Machine.refill s' = b at *
    rw [(hR.same h1).1]
    split
    · exact ⟨rfl, h1⟩
    · split
      · exact hR.finishStrategy f h1
      · have h2 := hR.onStream fastStep fastStep_same h1
        rw [(hR.same h2).1]
        split
        · have h3 := hR.flushBlockOnly false h2
          rw [(hR.same h3).2.2]
          split
          · exact ⟨rfl, h3⟩
          · exact ih h3
        · exact ih h2

theorem slowLoop (f : Flush) (n : Nat) (h : R s s') :
    (slowLoop f n s).1 = (slowLoop f n s').1 ∧ R (slowLoop f n s).2 (slowLoop f n s').2 := by
  induction n generalizing s s' with
  | zero => exact ⟨rfl, h⟩
  | succ n ih =>
    have h1 := hR.refill h
    simp only [Machine.slowLoop]
    generalize Machine.refill s = a at *
    generalize Machine.refill s' = b at *
    rw [(hR.same h1).1]
    split
    · exact ⟨rfl, h1⟩
    · split
      · exact hR.finishStrategy f (hR.onStream slowLast slowLast_same h1)
      · have h2 := hR.onStream slowSearch slowSearch_same h1
        generalize a.onStream slowSearch = a2 at *
        generalize b.onStream slowSearch = b2 at *
        rw [(hR.same h2).1]
        split
        · have h3 := hR.onStream slowMatch slowMatch_same h2
          rw [(hR.same h3).1]
          split
          · have h4 := hR.flushBlockOnly false h3
            rw [(hR.same h4).2.2]
            split
            · exact ⟨rfl, h4⟩
            · exact ih h4
          · exact ih h3
        · split
          · have h3 := hR.onStream slowLiteral slowLiteral_same h2
            generalize a2.onStream slowLiteral = a3 at *
            generalize b2.onStream slowLiteral = b3 at *
            rw [(hR.same h3).1]
            have h4 := hR.flushIf (symsFull a3.stream = true) h3
            generalize (if symsFull a3.stream = true then Machine.flushBlockOnly false a3 else a3) = a4 at *
            generalize (if symsFull a3.stream = true then Machine.flushBlockOnly false b3 else b3) = b4 at *
            have h5 := hR.onStream passByte passByte_same h4
            rw [(hR.same h5).2.2]
            split
            · exact ⟨rfl, h5⟩
            · exact ih h5
          · exact ih (hR.onStream _ (fun t => passByte_same { t with matchAvailable := true }) h2)

theorem storedEnd (f : Flush) (h : R s s') :
    (storedEnd f s).1 = (storedEnd f s').1 ∧ R (storedEnd f s).2 (storedEnd f s').2 := by
  have h1 := hR.onStream (fun t => { t with insert := 0 }) (fun t => SameConfig.refl t) h
  simp only [Machine.storedEnd]
  rw [(hR.same h1).1]
  split
  · exact hR.finalBlock h1
  · split
    · exact hR.flushPoint h1
    · exact ⟨rfl, h1⟩

theorem storedLoop (f : Flush) (n : Nat) (h : R s s') :
    (storedLoop f n s).1 = (storedLoop f n s').1 ∧ R (storedLoop f n s).2 (storedLoop f n s').2 := by
  induction n generalizing s s' with
  | zero => exact ⟨rfl, h⟩
  | succ n ih =>
    have h1 : R (if s.stream.lookahead ≤ 1 then Machine.fillWindow s else s)
        (if s.stream.lookahead ≤ 1 then Machine.fillWindow s' else s') := by
      split
      · exact hR.fillWindow h
      · exact h
    simp only [Machine.storedLoop, (hR.same h).1]
    generalize (if s.stream.lookahead ≤ 1 then Machine.fillWindow s else s) = a at *
    generalize (if s.stream.lookahead ≤ 1 then Machine.fillWindow s' else s') = b at *
    rw [(hR.same h1).1]
    split
    · split
      · exact ⟨rfl, h1⟩
      · exact hR.storedEnd f h1
    · generalize storedBlockFull (storedTake a.stream) = full
      have h2 := hR.flushIf (full = true) (hR.onStream storedTake storedTake_same h1)
      generalize (if full = true then Machine.flushBlockOnly false (a.onStream storedTake)
        else a.onStream storedTake) = a2 at *
      generalize (if full = true then Machine.flushBlockOnly false (b.onStream storedTake)
        else b.onStream storedTake) = b2 at *
      rw [(hR.same h2).2.2, (hR.same h2).1]
      split
      · exact ⟨rfl, h2⟩
      · generalize storedBlockLong a2.stream = long
        have h3 := hR.flushIf (long = true) h2
        generalize (if long = true then Machine.flushBlockOnly false a2 else a2) = a3 at *
        generalize (if long = true then Machine.flushBlockOnly false b2 else b2) = b3 at *
        rw [(hR.same h3).2.2]
        split
        · exact ⟨rfl, h3⟩
        · exact ih h3

/-- Two related runs of `RunStrategy` return the same and stay related (41_lz77.md R212). -/
theorem runStrategy (f : Flush) (h : R s s') :
    (runStrategy f s).1 = (runStrategy f s').1 ∧ R (runStrategy f s).2 (runStrategy f s').2 := by
  obtain ⟨e1, e2, e3⟩ := hR.same h
  simp only [Machine.runStrategy, e1]
  split
  · simp only [deflateStored, turnBound, e1, e2]
    exact hR.storedLoop f _ h
  · simp only [deflateFast, turnBound, e1, e2]
    exact hR.fastLoop f _ h
  · simp only [deflateSlow, turnBound, e1, e2]
    exact hR.slowLoop f _ h

end Strategic

end Sys2Proof.Machine
end

