-- ==== Sys2Proof/Laws/Window.lean ====
section
/-! SUPPORT. What one turn of a matching strategy does to the stream (41_lz77.md R204, R205, R211 to R214, R217): the
tallies, the window positions and the chains stay sound. -/

namespace Sys2Proof.Machine

theorem lenSym_lt (l : Nat) : lenSym l < 286 := by
  have h : ∀ r ∈ lenRows, r.sym < 286 := by decide
  unfold lenSym lenRow
  cases hf : lenRows.find? (fun r => r.first ≤ l && l ≤ r.last) with
  | none => decide
  | some r => exact h r (List.mem_of_find?_eq_some hf)

theorem distSym_le (d : Nat) : distSym d ≤ 30 := by
  unfold distSym
  cases hf : (List.range Config.dCodes).find? (fun c => d ≤ distLast c) with
  | none => decide
  | some c =>
    have := List.mem_range.mp (List.mem_of_find?_eq_some hf)
    simp only [Option.getD_some]
    simp only [Config.dCodes] at this
    omega

theorem bump_get (t : Table Nat) (i j : Nat) (hi : i < 65536) (hj : j < 65536) :
    (bump t i).get 0 j = t.get 0 j + if i = j then 1 else 0 := by
  unfold bump
  by_cases h : i = j
  · subst h
    simp
  · rw [Table.get_set_other 0 _ t i j (by simpa using hi) (by simpa using hj) (by omega)]
    simp [h]

theorem tallyLit_tallyOk {t : Stream} (b : Byte) (h : TallyOk t) : TallyOk (tallyLit b t) := by
  have hb := b.isLt
  refine ⟨fun i hi => ?_, fun i hi => ?_⟩
  · simp only [Config.lCodes] at hi
    rw [tallyLit_lfreq, tallyLit_syms, bump_get _ _ _ (by omega) (by omega), h.1 i hi, List.countP_cons]
    simp only [Sym.litLen, beq_iff_eq]
    omega
  · rw [tallyLit_dfreq, tallyLit_syms, h.2 i hi, List.countP_cons]
    simp [Sym.dist]

theorem tallyDist_tallyOk {t : Stream} (d l : Nat) (h : TallyOk t) : TallyOk (tallyDist d l t) := by
  have hl := lenSym_lt l
  have hd := distSym_le d
  refine ⟨fun i hi => ?_, fun i hi => ?_⟩
  · simp only [Config.lCodes] at hi
    rw [tallyDist_lfreq, tallyDist_syms, bump_get _ _ _ (by omega) (by omega), h.1 i hi, List.countP_cons]
    simp only [Sym.litLen, beq_iff_eq]
    omega
  · simp only [Config.dCodes] at hi
    rw [tallyDist_dfreq, tallyDist_syms, bump_get _ _ _ (by omega) (by omega), h.2 i hi, List.countP_cons]
    simp [Sym.dist]

theorem initBlock_tallyOk (t : Stream) : TallyOk (initBlock t) := by
  refine ⟨fun i hi => ?_, fun i _ => by simp⟩
  simp only [Config.lCodes] at hi
  simp only [initBlock_lfreq, initBlock_syms, List.countP_nil, Nat.zero_add]
  by_cases h : i = 256
  · subst h
    simp
  · rw [Table.get_set_other 0 _ _ 256 i (by decide) (by simpa using (by omega : i < 65536)) h]
    simp [h]

theorem ConfigOk.window {t : Stream} (h : ConfigOk t) :
    512 ≤ t.wSize ∧ t.wSize ≤ 32768 ∧ t.maxDist + 262 = t.wSize ∧ t.wBits ≤ 15 := by
  obtain ⟨-, h1, h2, h3, -⟩ := h
  have h9 : 9 ≤ t.wBits := by omega
  have h15 : t.wBits ≤ 15 := by omega
  have a : 2 ^ 9 ≤ t.wSize := Nat.pow_le_pow_right (by decide) h9
  have b : t.wSize ≤ 2 ^ 15 := Nat.pow_le_pow_right (by decide) h15
  have c : t.maxDist = t.wSize - 262 := rfl
  omega

/-- The invariants of a matching strategy on a stream whose last `held` bytes before `S.strstart` are in no symbol yet. -/
structure Matching (t : Stream) (held : Nat) : Prop where
  cfg : ConfigOk t
  room : t.strstart + t.lookahead ≤ 2 * t.wSize
  span : (t.strstart : Int) - t.blockStart = symsSpan t + held
  syms : SymsOk t
  chain : ChainOk t
  ins2 : t.insert ≤ 2
  insLe : t.insert ≤ t.strstart
  deferred : t.insert = 0 ∨ t.lookahead + t.insert < 3
  tally : TallyOk t

/-- Everything the deferred insertions do (41_lz77.md R204). -/
theorem insertDeferred_spec {t : Stream} (n : Nat) (hn : t.insert = n) (hle : n ≤ t.strstart) (hw : t.wBits ≤ 15)
    (hfin : t.strstart + t.lookahead ≤ 65536) (h3 : n = 0 ∨ 3 ≤ t.lookahead + n)
    (hc : ChainBelow t t.strstart (t.strstart - n) (t.strstart + t.lookahead)) :
    ∃ a b c d, insertDeferred n (t.strstart - n) t = { t with insH := a, prev := b, head := c, insert := d } ∧
      d ≤ n ∧ (d = 0 ∨ t.lookahead + d < 3) ∧
      ChainBelow (insertDeferred n (t.strstart - n) t) t.strstart (t.strstart - d) (t.strstart + t.lookahead) := by
  induction n generalizing t with
  | zero =>
    refine ⟨t.insH, t.prev, t.head, 0, ?_, Nat.le_refl 0, Or.inl rfl, hc⟩
    rw [insertDeferred]
    obtain ⟨⟩ := t
    simp only at hn
    subst hn
    rfl
  | succ n ih =>
    have hp := insertString_chain (p := t.strstart - (n + 1)) (bound' := t.strstart) (fin' := t.strstart + t.lookahead)
      hc hw (Nat.le_refl _) (Nat.le_refl _) (by omega) (Nat.le_refl _) (by omega) (by omega)
    have hp : ChainBelow { insertString (t.strstart - (n + 1)) t with insert := n } t.strstart (t.strstart - n)
        (t.strstart + t.lookahead) := by
      rw [show t.strstart - (n + 1) + 1 = t.strstart - n by omega] at hp
      exact hp.congr rfl rfl rfl
    simp only [insertDeferred]
    split
    next hlt =>
      exact ⟨_, _, _, n, rfl, by omega, Or.inr hlt, hp⟩
    next hge =>
      obtain ⟨a, b, c, d, e, e1, e2, e3⟩ :=
        ih (t := { insertString (t.strstart - (n + 1)) t with insert := n }) rfl (by simp only [insertString_strstart]; omega)
          hw hfin (Or.inr (Nat.not_lt.mp hge)) hp
      rw [show t.strstart - (n + 1) + 1 = t.strstart - n by omega]
      exact ⟨a, b, c, d, e, by omega, e2, e3⟩

/-- Everything `FillWindow` does to the stream after a read (41_lz77.md R204). -/
theorem afterRead_spec {t : Stream} {held : Nat} (k : Nat) (h : Matching t held) (hs : t.strategy ≠ .stored)
    (hk : t.strstart + t.lookahead + k ≤ 2 * t.wSize) :
    (∃ a b c d, afterRead k t =
      { t with lookahead := t.lookahead + k, insH := a, prev := b, head := c, insert := d }) ∧
      Matching (afterRead k t) held := by
  obtain ⟨w1, w2, w3, w4⟩ := h.cfg.window
  have hchain := (chainOk_iff t).mp h.chain
  have hchain' : ChainBelow { t with lookahead := t.lookahead + k } t.strstart (t.strstart - t.insert)
      (t.strstart + (t.lookahead + k)) :=
    (hchain.mono (Nat.le_refl _) (Nat.le_refl _) (by omega)).congr rfl rfl rfl
  have key : (∃ a b c d, afterRead k t =
      { t with lookahead := t.lookahead + k, insH := a, prev := b, head := c, insert := d } ∧ d ≤ t.insert ∧
        (d = 0 ∨ t.lookahead + k + d < 3) ∧
        ChainBelow (afterRead k t) t.strstart (t.strstart - d) (t.strstart + (t.lookahead + k))) := by
    simp only [afterRead]
    split
    next hc =>
      have h3 : t.insert = 0 ∨ 3 ≤ t.lookahead + k + t.insert := Or.inr hc.2
      obtain ⟨a, b, c, d, e, e1, e2, e3⟩ := insertDeferred_spec
        (t := preloadHash (t.strstart - t.insert) { t with lookahead := t.lookahead + k }) t.insert rfl h.insLe w4
        (by show t.strstart + (t.lookahead + k) ≤ 65536; omega) h3
        (hchain'.congr rfl rfl rfl)
      exact ⟨a, b, c, d, e, e1, e2, e3⟩
    next hc =>
      refine ⟨t.insH, t.prev, t.head, t.insert, rfl, Nat.le_refl _, ?_, hchain'⟩
      rcases h.deferred with h0 | h0
      · exact Or.inl h0
      · right
        by_contra hge
        exact hc ⟨hs, by show 3 ≤ t.lookahead + k + t.insert; omega⟩
  obtain ⟨a, b, c, d, e, e1, e2, e3⟩ := key
  refine ⟨⟨a, b, c, d, e⟩, ?_⟩
  rw [e] at e3 ⊢
  exact {
    cfg := h.cfg
    room := by
      have : t.strstart + (t.lookahead + k) ≤ 2 * t.wSize := by omega
      exact this
    span := h.span
    syms := h.syms
    chain := (chainOk_iff _).mpr e3
    ins2 := Nat.le_trans e1 h.ins2
    insLe := Nat.le_trans e1 h.insLe
    deferred := e2
    tally := h.tally }

/-- `Slide()` keeps the invariants (41_lz77.md R205, R217). -/
theorem slide_matching {t : Stream} {held : Nat} (h : Matching t held) (hf : t.wSize + t.maxDist ≤ t.strstart) :
    Matching (slide t) held := by
  obtain ⟨w1, w2, w3, -⟩ := h.cfg.window
  have hins : (slide t).insert = t.insert := by
    rw [slide_insert, if_neg]
    have := h.ins2
    omega
  have hroom := h.room
  exact {
    cfg := h.cfg
    room := by
      rw [slide_strstart, slide_lookahead, show (slide t).wSize = t.wSize from wSize_congr rfl]
      omega
    span := by
      have := h.span
      have e : symsSpan (slide t) = symsSpan t := rfl
      rw [slide_strstart, slide_blockStart, e]
      push_cast [show t.wSize ≤ t.strstart by omega]
      omega
    syms := h.syms
    chain := by
      refine (chainOk_iff _).mpr ?_
      have hc := slide_chain ((chainOk_iff t).mp h.chain)
      rw [hins, slide_strstart, slide_lookahead]
      exact hc.mono (Nat.le_refl _) (by omega) (by omega)
    ins2 := by rw [hins]; exact h.ins2
    insLe := by rw [hins, slide_strstart]; have := h.ins2; omega
    deferred := by rw [hins]; exact h.deferred
    tally := h.tally }

/-- `FlushBlockOnly` starts an empty block (41_lz77.md R211, 43_block_serializer.md R271). -/
theorem closeBlock_matching {t : Stream} {held : Nat} (last : Bool) (h : Matching t held) :
    Matching (closeBlock last t) 0 := by
  obtain ⟨a, c, p, e, -⟩ := closeBlock_spec last t
  rw [e]
  exact {
    cfg := h.cfg
    room := h.room
    span := by simp [symsSpan]
    syms := by intro d l hm; simp at hm
    chain := h.chain
    ins2 := h.ins2
    insLe := h.insLe
    deferred := h.deferred
    tally := initBlock_tallyOk t }

/-- A candidate that may be searched from (41_lz77.md R207). -/
theorem searchable_iff (t : Stream) (h : Nat) :
    searchable t h = true ↔ h ≠ 0 ∧ t.strstart ≤ h + t.maxDist := by
  unfold searchable
  generalize t.maxDist = m
  simp only [Bool.and_eq_true, bne_iff_ne, decide_eq_true_eq]
  constructor
  · rintro ⟨a, b⟩; exact ⟨a, by omega⟩
  · rintro ⟨a, b⟩; exact ⟨a, by omega⟩

/-- Everything the hash lookup does (41_lz77.md R207): the candidate, if it may be searched from, is an inserted position
within `MAX_DIST`. -/
theorem lookup_spec {t : Stream} {held : Nat} (h : Matching t held) :
    (∃ a b c, lookupInsert t = { t with insH := a, prev := b, head := c }) ∧
    ∃ S, ChainSet (lookupInsert t) (t.strstart + 1) S ∧
      (∀ p, S p → p + t.insert < t.strstart + 1 ∧ p + 3 ≤ t.strstart + t.lookahead) ∧
      (searchable (lookupInsert t) (lookupHead t) = true →
        S (lookupHead t) ∧ lookupHead t < t.strstart ∧ t.strstart ≤ lookupHead t + t.maxDist ∧ 3 ≤ t.lookahead ∧ t.insert = 0) := by
  obtain ⟨w1, w2, w3, w4⟩ := h.cfg.window
  have hroom := h.room
  have hchain := (chainOk_iff t).mp h.chain
  by_cases h3 : 3 ≤ t.lookahead
  · have hi : t.insert = 0 := by have := h.deferred; omega
    have e : lookupInsert t = insertString t.strstart t := by simp [lookupInsert, h3]
    have eh : lookupHead t = insertAnswer t.strstart t := by simp [lookupHead, h3]
    have hnew := insertString_chain (p := t.strstart) (bound' := t.strstart + 1) (fin' := t.strstart + t.lookahead)
      hchain w4 (by omega) (by omega) (by omega) (Nat.le_refl _) (by omega) (by omega)
    rw [e, eh]
    refine ⟨⟨_, _, _, rfl⟩, ?_⟩
    obtain ⟨S0, hS0, hb0⟩ := hchain
    obtain ⟨S, hS, hb⟩ := hnew
    refine ⟨fun p => S p ∨ S0 p ∧ S p, ⟨fun j hj => Or.inl (hS.1 j hj), fun p hp => ?_⟩, fun p hp => ?_, fun hsr => ?_⟩
    · have hp : S p := by rcases hp with hp | hp; exacts [hp, hp.2]
      obtain ⟨a, b, c⟩ := hS.2 p hp
      exact ⟨a, b, fun d => ⟨(c d).1, (c d).2.1, fun x => Or.inl ((c d).2.2 x)⟩⟩
    · have hp : S p := by rcases hp with hp | hp; exacts [hp, hp.2]
      have := hb p hp
      omega
    · have hsr := (searchable_iff _ _).mp hsr
      rw [insertString_strstart, show (insertString t.strstart t).maxDist = t.maxDist from maxDist_congr rfl] at hsr
      have hlt : insertAnswer t.strstart t < t.strstart := by
        have := (hb0 _ (hS0.1 _ hsr.1)).1
        exact Nat.lt_of_lt_of_le this (Nat.sub_le _ _)
      refine ⟨Or.inl ?_, hlt, by omega, h3, hi⟩
      -- the old head is the link of the new position
      have hp1 : 1 ≤ t.strstart := by
        have := (hS0.2 _ (hS0.1 _ hsr.1)).1
        have := (hb0 _ (hS0.1 _ hsr.1)).1
        omega
      have hlink : (insertString t.strstart t).prevAt (t.strstart % t.wSize) = insertAnswer t.strstart t := by
        simp only [Stream.prevAt, insertString_prev, Table.read?_write_same, Option.getD_some, insertAnswer]
      have hhead : ((insertString t.strstart t).head.get 0 (updateHash t.insH (t.windowAt (t.strstart + 2))).toNat).toNat
          = t.strstart := by
        rw [insertString_head, Table.get_set_same, BitVec.toNat_ofNat]
        omega
      have hsp : S t.strstart := by
        have := hS.1 (updateHash t.insH (t.windowAt (t.strstart + 2))).toNat
        rw [hhead] at this
        exact this (by omega)
      have hws : (insertString t.strstart t).wSize = t.wSize := wSize_congr rfl
      obtain ⟨-, -, c⟩ := hS.2 _ hsp
      rw [hws, hlink] at c
      exact (c (by omega)).2.2 hsr.1
  · have e : lookupInsert t = t := by simp [lookupInsert, h3]
    have eh : lookupHead t = 0 := by simp [lookupHead, h3]
    rw [e, eh]
    refine ⟨⟨_, _, _, rfl⟩, ?_⟩
    obtain ⟨S, hS, hb⟩ := hchain.mono (Nat.le_succ _) (Nat.le_refl _) (Nat.le_refl _)
    refine ⟨S, hS, fun p hp => ?_, fun hsr => ?_⟩
    · have := hb p hp
      have := h.insLe
      omega
    · exact absurd rfl ((searchable_iff _ _).mp hsr).1

end Sys2Proof.Machine
end

