-- ==== Sys2Proof/Laws/Steps.lean ====
section
/-! SUPPORT. One turn of `DeflateFast` and the three kinds of turn of `DeflateSlow`, each said once (41_lz77.md R213,
R214). -/

namespace Sys2Proof.Machine

/-- A match found at `S.strstart`: its length, its distance and the bytes it repeats (41_lz77.md R209). -/
def Found (t : Stream) : Prop :=
  t.matchLength ≤ 258 ∧ t.matchLength ≤ t.lookahead ∧
    ∃ c : Nat, t.matchStart = (c : Int) ∧ (1 ≤ c ∧ c < t.strstart) ∧ t.strstart ≤ c + t.maxDist ∧
      ∀ i, i < t.matchLength → t.windowAt (c + i) = t.windowAt (t.strstart + i)

/-- Between a lookup and the end of a turn the position at `S.strstart` is already on its chain. -/
structure Turning (t : Stream) (held : Nat) : Prop where
  cfg : ConfigOk t
  room : t.strstart + t.lookahead ≤ 2 * t.wSize
  span : (t.strstart : Int) - t.blockStart = symsSpan t + held
  syms : SymsOk t
  chain : ChainBelow t (t.strstart + 1) (t.strstart + 1 - t.insert) (t.strstart + t.lookahead)
  ins2 : t.insert ≤ 2
  insLe : t.insert ≤ t.strstart
  deferred : t.insert = 0 ∨ t.lookahead + t.insert < 3
  tally : TallyOk t

/-- A search answers no improvement or a found match. -/
theorem longestMatch_found {u : Stream} {S : Nat → Prop} {h : Nat} (hS : ChainSet u (u.strstart + 1) S)
    (hd : u.maxDist < u.wSize) (hcur : S h) (hlt : h < u.strstart) (hnear : u.strstart ≤ h + u.maxDist) :
    ((longestMatch h u).matchLength ≤ u.prevLength ∧ (longestMatch h u).matchStart = u.matchStart) ∨
      (u.prevLength < (longestMatch h u).matchLength ∧ Found (longestMatch h u)) := by
  rcases longestMatch_spec hS (Nat.le_refl _) hd hcur hnear with ⟨a, b⟩ | ⟨c, c1, c2, c3, c4, c5⟩
  · left
    exact ⟨by omega, b⟩
  · right
    have hle := matchRun_le u (matchCap u) c u.strstart
    have hcap : matchCap u ≤ 258 ∧ matchCap u ≤ u.lookahead := ⟨Nat.min_le_left .., Nat.min_le_right ..⟩
    refine ⟨by omega, ?_, ?_, c, c3, ⟨(hS.2 c c1.1).1, by show c < u.strstart; omega⟩, c2, fun i hi => ?_⟩
    · show (longestMatch h u).matchLength ≤ 258
      omega
    · show (longestMatch h u).matchLength ≤ u.lookahead
      omega
    · exact matchRun_agree u (matchCap u) c u.strstart i (by rw [← c4]; exact hi)

/-- The lookup of a turn, with nothing else changed. -/
theorem lookupInsert_turning {t : Stream} {held : Nat} (h : Matching t held) : Turning (lookupInsert t) held := by
  obtain ⟨⟨a, b, c, e⟩, S, hS, hb, -⟩ := lookup_spec h
  rw [e] at hS ⊢
  exact {
    cfg := h.cfg
    room := h.room
    span := h.span
    syms := h.syms
    chain := ⟨S, hS, fun p hp => by have := hb p hp; show p < t.strstart + 1 - t.insert ∧ p + 3 ≤ t.strstart + t.lookahead; omega⟩
    ins2 := h.ins2
    insLe := h.insLe
    deferred := h.deferred
    tally := h.tally }

/-- Changing only what `Turning` does not speak of. -/
theorem Turning.scalars {t : Stream} {held : Nat} (h : Turning t held) (pl ml : Nat) (pm ms : Int) :
    Turning { t with prevLength := pl, prevMatch := pm, matchLength := ml, matchStart := ms } held :=
  { h with chain := h.chain.congr rfl rfl rfl }

/-- Everything the search of `DeflateFast` does. -/
theorem fastSearch_spec {t : Stream} (h : Matching t 0) (hf : FastOk t) :
    (∃ a b c d e, fastSearch t = { t with insH := a, prev := b, head := c, matchLength := d, matchStart := e }) ∧
      Turning (fastSearch t) 0 ∧
      (3 ≤ (fastSearch t).matchLength → t.insert = 0 ∧ 3 ≤ t.lookahead ∧ Found (fastSearch t)) := by
  have hw := h.cfg.window
  have ht := lookupInsert_turning h
  obtain ⟨⟨a, b, c, e⟩, S, hS, -, hsr⟩ := lookup_spec h
  simp only [fastSearch]
  split
  next hc =>
    obtain ⟨h1, h2, h3, h4, h5⟩ := hsr hc
    refine ⟨⟨a, b, c, _, _, by rw [e]; rfl⟩, ht.scalars _ _ _ _, fun h3' => ⟨h5, h4, ?_⟩⟩
    have hfound := longestMatch_found (u := lookupInsert t) (h := lookupHead t)
      (by rw [e] at hS ⊢; exact hS) (by rw [maxDist_congr (lookupInsert_same t).2.2.2.1,
        wSize_congr (lookupInsert_same t).2.2.2.1]; omega) h1 (by rw [e]; exact h2)
      (by rw [maxDist_congr (lookupInsert_same t).2.2.2.1, e]; exact h3)
    have hp2 : (lookupInsert t).prevLength = 2 := by rw [e]; exact hf.2
    rcases hfound with ⟨x, -⟩ | ⟨-, x⟩
    · omega
    · exact x
  next hc =>
    refine ⟨⟨a, b, c, t.matchLength, t.matchStart, e⟩, ht, fun h3' => ?_⟩
    rw [e] at h3'
    have := hf.1
    simp only at h3'
    omega

/-- Everything the inner insertions of a match do at levels 1 to 3. -/
theorem advanceInserting_spec {t : Stream} (n fin : Nat) (hw : t.wBits ≤ 15) (hfin : fin ≤ 65536)
    (hn : t.strstart + n + 3 ≤ fin) (hc : ChainBelow t (t.strstart + 1) (t.strstart + 1) fin) :
    (∃ a b c, advanceInserting n t = { t with insH := a, prev := b, head := c, strstart := t.strstart + n }) ∧
      ChainBelow (advanceInserting n t) (t.strstart + n + 1) (t.strstart + n + 1) fin := by
  induction n generalizing t with
  | zero => exact ⟨⟨_, _, _, rfl⟩, hc⟩
  | succ n ih =>
    have hp := insertString_chain (t := { t with strstart := t.strstart + 1 }) (p := t.strstart + 1)
      (bound' := t.strstart + 1 + 1) (fin' := fin) (hc.congr rfl rfl rfl) hw (Nat.le_refl _) (by omega) (by omega)
      (Nat.le_refl _) (by omega) (by omega)
    obtain ⟨⟨a, b, c, e⟩, hcc⟩ := ih (t := insertString (t.strstart + 1) { t with strstart := t.strstart + 1 }) hw
      (by show t.strstart + 1 + n + 3 ≤ fin; omega) hp
    rw [show t.strstart + (n + 1) = t.strstart + 1 + n by omega]
    exact ⟨⟨a, b, c, e⟩, hcc⟩

theorem symsOk_lit {t u : Stream} (b : Byte) (h : SymsOk t) (hs : u.syms = .lit b :: t.syms) (hw : u.wBits = t.wBits) :
    SymsOk u := by
  intro d l hm
  rw [hs] at hm
  rw [maxDist_congr hw]
  rcases List.mem_cons.mp hm with e | e
  · exact absurd e (by simp)
  · exact h d l e

theorem symsOk_copy {t u : Stream} (dist len : Nat) (h : SymsOk t) (hs : u.syms = .copy dist len :: t.syms)
    (hw : u.wBits = t.wBits) (h1 : 3 ≤ len) (h2 : len ≤ 258) (h3 : 1 ≤ dist) (h4 : dist ≤ t.maxDist) : SymsOk u := by
  intro d l hm
  rw [hs] at hm
  rw [maxDist_congr hw]
  rcases List.mem_cons.mp hm with e | e
  · obtain ⟨rfl, rfl⟩ := Sym.copy.inj e
    exact ⟨h1, h2, h3, h4⟩
  · exact h d l e

theorem symsSpan_cons {t u : Stream} (e : Sym) (hs : u.syms = e :: t.syms) : symsSpan u = e.span + symsSpan t := by
  simp [symsSpan, hs]

/-- Emitting the byte at `S.strstart` keeps the invariants. -/
theorem fastLiteral_matching {t : Stream} (h : Turning t 0) (h0 : t.lookahead ≠ 0) : Matching (fastLiteral t) 0 where
  cfg := h.cfg
  room := by have := h.room; show t.strstart + 1 + (t.lookahead - 1) ≤ 2 * t.wSize; omega
  span := by
    have := h.span
    rw [symsSpan_cons (t := t) (.lit (t.windowAt t.strstart)) rfl]
    show ((t.strstart + 1 : Nat) : Int) - t.blockStart = ((Sym.span (.lit (t.windowAt t.strstart)) + symsSpan t : Nat) : Int) + (0 : Nat)
    simp only [Sym.span]
    push_cast at *
    omega
  syms := symsOk_lit (t.windowAt t.strstart) h.syms rfl rfl
  chain := by
    refine (chainOk_iff _).mpr ?_
    have := (h.chain.mono (Nat.le_refl _) (Nat.le_refl _)
      (show t.strstart + t.lookahead ≤ t.strstart + 1 + (t.lookahead - 1) by omega))
    exact this.congr rfl rfl rfl
  ins2 := h.ins2
  insLe := by have := h.insLe; show t.insert ≤ t.strstart + 1; omega
  deferred := by have := h.deferred; show t.insert = 0 ∨ t.lookahead - 1 + t.insert < 3; omega
  tally := by
    have := tallyLit_tallyOk (t.windowAt t.strstart) h.tally
    exact this

/-- Emitting a found match keeps the invariants. -/
theorem fastMatch_spec {t : Stream} (h : Turning t 0) (hi : t.insert = 0) (h3 : 3 ≤ t.matchLength) (hf : Found t) :
    Matching (fastMatch t) 0 ∧ ∃ a b c d, fastMatch t =
      { tallyDist (distanceFrom t.strstart t.matchStart) t.matchLength t with
        insH := a, prev := b, head := c, matchLength := d, lookahead := t.lookahead - t.matchLength
        strstart := t.strstart + t.matchLength } ∧ d = 0 := by
  obtain ⟨w1, w2, w3, w4⟩ := h.cfg.window
  obtain ⟨f1, f2, c, f3, f4, f5, -⟩ := hf
  have hroom := h.room
  have hdist : distanceFrom t.strstart t.matchStart = t.strstart - c := by
    unfold distanceFrom; rw [f3]; omega
  have key : ∃ a b c, fastMatch t =
      { tallyDist (distanceFrom t.strstart t.matchStart) t.matchLength t with
        insH := a, prev := b, head := c, matchLength := 0, lookahead := t.lookahead - t.matchLength
        strstart := t.strstart + t.matchLength } ∧
      ChainBelow (fastMatch t) (t.strstart + t.matchLength) (t.strstart + t.matchLength)
        (t.strstart + t.lookahead) := by
    have hchain := h.chain
    rw [hi] at hchain
    simp only [fastMatch]
    split
    next hc =>
      have hla : 3 ≤ t.lookahead - t.matchLength := hc.2
      obtain ⟨⟨a, b, c, e⟩, hcc⟩ := advanceInserting_spec
        (t := { tallyDist (distanceFrom t.strstart t.matchStart) t.matchLength t with
          lookahead := t.lookahead - t.matchLength }) (t.matchLength - 1) (t.strstart + t.lookahead) w4 (by omega)
        (by show t.strstart + (t.matchLength - 1) + 3 ≤ t.strstart + t.lookahead; omega)
        (hchain.congr rfl rfl rfl)
      refine ⟨a, b, c, ?_, ?_⟩
      · have e2 : t.strstart + (t.matchLength - 1) + 1 = t.strstart + t.matchLength := by omega
        simp only [tallyDist_lookahead]
        rw [e]
        simp only [tallyDist_strstart, e2]
      · have e2 : t.strstart + (t.matchLength - 1) + 1 = t.strstart + t.matchLength := by omega
        simp only [tallyDist_strstart, e2] at hcc
        exact hcc.congr rfl rfl rfl
    next hc =>
      exact ⟨_, _, _, rfl, (hchain.mono (by omega) (by omega) (Nat.le_refl _)).congr rfl rfl rfl⟩
  obtain ⟨a, b, c', e, hcc⟩ := key
  refine ⟨?_, a, b, c', 0, e, rfl⟩
  rw [e] at hcc ⊢
  exact {
    cfg := h.cfg
    room := by
      show t.strstart + t.matchLength + (t.lookahead - t.matchLength) ≤ 2 * t.wSize
      omega
    span := by
      have := h.span
      rw [symsSpan_cons (t := t) (.copy (distanceFrom t.strstart t.matchStart) t.matchLength) rfl]
      show ((t.strstart + t.matchLength : Nat) : Int) - t.blockStart = ((t.matchLength + symsSpan t : Nat) : Int) + (0 : Nat)
      push_cast at *
      omega
    syms := symsOk_copy _ _ h.syms rfl rfl h3 f1 (by rw [hdist]; omega) (by rw [hdist]; omega)
    chain := by
      refine (chainOk_iff _).mpr ?_
      show ChainBelow _ (t.strstart + t.matchLength) (t.strstart + t.matchLength - t.insert)
        (t.strstart + t.matchLength + (t.lookahead - t.matchLength))
      rw [hi]
      exact hcc.mono (Nat.le_refl _) (by omega) (by omega)
    ins2 := h.ins2
    insLe := by have := h.insLe; show t.insert ≤ t.strstart + t.matchLength; omega
    deferred := Or.inl hi
    tally := tallyDist_tallyOk _ _ h.tally }

/-- Everything one turn of `DeflateFast` does to the stream (41_lz77.md R213). -/
theorem fastStep_spec {t : Stream} (h : Matching t 0) (hf : FastOk t) (h0 : t.lookahead ≠ 0) :
    Matching (fastStep t) 0 ∧ FastOk (fastStep t) ∧ (fastStep t).lookahead < t.lookahead ∧
      (fastStep t).syms.length = t.syms.length + 1 ∧ (fastStep t).matchAvailable = t.matchAvailable ∧
      (fastStep t).bitacc = t.bitacc ∧ (fastStep t).bitcount = t.bitcount := by
  obtain ⟨⟨a, b, c, d, e, eq⟩, ht, hfound⟩ := fastSearch_spec h hf
  have la : (fastSearch t).lookahead = t.lookahead := by rw [eq]
  have sy : (fastSearch t).syms = t.syms := by rw [eq]
  have ma : (fastSearch t).matchAvailable = t.matchAvailable := by rw [eq]
  have ba : (fastSearch t).bitacc = t.bitacc := by rw [eq]
  have bc : (fastSearch t).bitcount = t.bitcount := by rw [eq]
  have pl : (fastSearch t).prevLength = 2 := by rw [eq]; exact hf.2
  have hin : (fastSearch t).insert = t.insert := by rw [eq]
  clear eq
  simp only [fastStep]
  generalize fastSearch t = u at *
  split
  next h3 =>
    obtain ⟨hi, hla, hfd⟩ := hfound h3
    obtain ⟨hm, a, b, c, d, e, rfl⟩ := fastMatch_spec ht (hin.trans hi) h3 hfd
    refine ⟨hm, ?_⟩
    rw [e]
    have := hfd.2.1
    refine ⟨⟨show 0 < 3 by decide, pl⟩, ?_, ?_, ma, ba, bc⟩
    · show u.lookahead - u.matchLength < t.lookahead
      omega
    · simp [sy]
  next h3 =>
    refine ⟨fastLiteral_matching ht (by omega), ⟨by show u.matchLength < 3; omega, pl⟩, ?_, ?_, ma, ba, bc⟩
    · show u.lookahead - 1 < t.lookahead
      omega
    · simp [fastLiteral, sy]

/-- What the search of `DeflateSlow` leaves: the deferred match moves to the `prev` scalars, and the new match length is a
found match's or no better than the deferred one's. -/
theorem slowSearch_spec {t : Stream} {held : Nat} (h : Matching t held) (hf : SlowOk t) :
    (∃ a b c d e, slowSearch t = { t with
      insH := a, prev := b, head := c, prevLength := t.matchLength, prevMatch := t.matchStart, matchLength := d
      matchStart := e }) ∧
      Turning (slowSearch t) held ∧
      (3 ≤ (slowSearch t).matchLength → t.matchLength < (slowSearch t).matchLength → Found (slowSearch t)) ∧
      (slowSearch t).matchLength ≤ 258 := by
  have hw := h.cfg.window
  have ht := lookupInsert_turning h
  obtain ⟨⟨a, b, c, e⟩, S, hS, -, hsr⟩ := lookup_spec h
  have hml := hf.1
  simp only [slowSearch]
  have ml : (lookupInsert t).matchLength = t.matchLength := by rw [e]
  have ms : (lookupInsert t).matchStart = t.matchStart := by rw [e]
  split
  next hc =>
    have hc1 : searchable (lookupInsert t) (lookupHead t) = true := by
      simp only [Bool.and_eq_true] at hc
      exact (searchable_iff _ _).mpr ((searchable_iff _ _).mp hc.1)
    obtain ⟨h1, h2, h3, h4, h5⟩ := hsr hc1
    have hfound := longestMatch_found (u := { lookupInsert t with
        prevLength := (lookupInsert t).matchLength, prevMatch := (lookupInsert t).matchStart, matchLength := 2 }) (h := lookupHead t) (S := S)
      (by rw [e] at hS ⊢; exact hS.congr rfl rfl rfl) (by
        show (lookupInsert t).maxDist < (lookupInsert t).wSize
        rw [maxDist_congr (lookupInsert_same t).2.2.2.1, wSize_congr (lookupInsert_same t).2.2.2.1]; omega) h1
      (by rw [e]; exact h2) (by
        show (lookupInsert t).strstart ≤ lookupHead t + (lookupInsert t).maxDist
        rw [maxDist_congr (lookupInsert_same t).2.2.2.1, e]; exact h3)
    have h258 : (longestMatch (lookupHead t) { lookupInsert t with
        prevLength := (lookupInsert t).matchLength, prevMatch := (lookupInsert t).matchStart, matchLength := 2 }).matchLength ≤ 258 := by
      rcases hfound with ⟨x, -⟩ | ⟨-, x⟩
      · exact Nat.le_trans x (by show (lookupInsert t).matchLength ≤ 258; omega)
      · exact x.1
    split
    next hfar =>
      refine ⟨⟨a, b, c, 2, _, by rw [e]; rfl⟩, ht.scalars _ _ _ _, fun h3' => absurd h3' (show ¬ 3 ≤ 2 by decide), show 2 ≤ 258 by decide⟩
    next hfar =>
      refine ⟨⟨a, b, c, _, _, by rw [e]; rfl⟩, ht.scalars _ _ _ _, fun h3' hlt => ?_, h258⟩
      rcases hfound with ⟨x, -⟩ | ⟨-, x⟩
      · exact absurd hlt (Nat.not_lt.mpr (by rw [← ml]; exact x))
      · exact x
  next hc =>
    refine ⟨⟨a, b, c, 2, t.matchStart, by rw [e]⟩, ?_, fun h3' => absurd h3' (show ¬ 3 ≤ 2 by decide),
      show 2 ≤ 258 by decide⟩
    exact ht.scalars _ _ _ (lookupInsert t).matchStart

/-- Everything the inner insertions of a match do at levels 4 to 9: `d` positions wait, and none is inserted while any
waits. -/
theorem advanceLazily_spec {t : Stream} (m n d fin : Nat) (hw : t.wBits ≤ 15) (hfin : fin ≤ 65536) (hm : m + 3 ≤ fin ∨ m ≤ t.strstart)
    (hd : d = 0 ∨ m ≤ t.strstart) (hc : ChainBelow t (t.strstart + 1) (t.strstart + 1 - d) fin) :
    (∃ a b c, advanceLazily m n t = { t with insH := a, prev := b, head := c, strstart := t.strstart + n }) ∧
      ChainBelow (advanceLazily m n t) (t.strstart + n + 1) (t.strstart + n + 1 - d) fin := by
  induction n generalizing t with
  | zero => exact ⟨⟨_, _, _, rfl⟩, hc⟩
  | succ n ih =>
    rw [show t.strstart + (n + 1) = t.strstart + 1 + n by omega]
    simp only [advanceLazily]
    split
    next hle =>
      have hle : t.strstart + 1 ≤ m := hle
      have hd0 : d = 0 := by omega
      subst hd0
      have hp := insertString_chain (t := { t with strstart := t.strstart + 1 }) (p := t.strstart + 1)
        (bound' := t.strstart + 1 + 1) (fin' := fin) (hc.congr rfl rfl rfl) hw (by omega) (by omega) (by omega)
        (Nat.le_refl _) (by omega) (by omega)
      exact ih (t := insertString (t.strstart + 1) { t with strstart := t.strstart + 1 }) hw
        (by show m + 3 ≤ fin ∨ m ≤ t.strstart + 1; omega) (Or.inl rfl) hp
    next hle =>
      have hle : ¬ t.strstart + 1 ≤ m := hle
      exact ih (t := { t with strstart := t.strstart + 1 }) hw
        (by show m + 3 ≤ fin ∨ m ≤ t.strstart + 1; omega) (by show d = 0 ∨ m ≤ t.strstart + 1; omega)
        ((hc.mono (bound' := t.strstart + 1 + 1) (lim' := t.strstart + 1 + 1 - d) (by omega) (by omega)
          (Nat.le_refl _)).congr rfl rfl rfl)

/-- Emitting the held match (41_lz77.md R214). -/
theorem slowMatch_spec {t : Stream} (h : Turning t 1) (h3 : 3 ≤ t.prevLength) (h258 : t.prevLength ≤ 258)
    (hla : t.prevLength ≤ t.lookahead + 1) (h1 : t.prevMatch + 1 < t.strstart)
    (h2 : (t.strstart : Int) - 1 - t.prevMatch ≤ t.maxDist) :
    Matching (slowMatch t) 0 ∧ ∃ a b c, slowMatch t =
      { tallyDist (distanceFrom ((t.strstart : Int) - 1) t.prevMatch) t.prevLength t with
        insH := a, prev := b, head := c, prevLength := 0, matchAvailable := false, matchLength := 2
        lookahead := t.lookahead - (t.prevLength - 1), strstart := t.strstart + (t.prevLength - 2) + 1 } := by
  obtain ⟨w1, w2, w3, w4⟩ := h.cfg.window
  have hroom := h.room
  have hdef := h.deferred
  have key : ∃ a b c, slowMatch t =
      { tallyDist (distanceFrom ((t.strstart : Int) - 1) t.prevMatch) t.prevLength t with
        insH := a, prev := b, head := c, prevLength := 0, matchAvailable := false, matchLength := 2
        lookahead := t.lookahead - (t.prevLength - 1), strstart := t.strstart + (t.prevLength - 2) + 1 } ∧
      ChainBelow (slowMatch t) (t.strstart + (t.prevLength - 2) + 1) (t.strstart + (t.prevLength - 2) + 1 - t.insert)
        (t.strstart + t.lookahead) := by
    obtain ⟨⟨a, b, c, e⟩, hcc⟩ := advanceLazily_spec
      (t := { tallyDist (distanceFrom ((t.strstart : Int) - 1) t.prevMatch) t.prevLength t with
        lookahead := t.lookahead - (t.prevLength - 1) }) (t.strstart + t.lookahead - 3) (t.prevLength - 2) t.insert
      (t.strstart + t.lookahead) w4 (by omega) (by show _ ∨ _ ≤ t.strstart; omega)
      (by show _ ∨ t.strstart + t.lookahead - 3 ≤ t.strstart; omega) (h.chain.congr rfl rfl rfl)
    refine ⟨a, b, c, ?_, ?_⟩
    · simp only [slowMatch, tallyDist_lookahead]
      rw [e]
      rfl
    · exact hcc.congr rfl rfl rfl
  obtain ⟨a, b, c, e, hcc⟩ := key
  refine ⟨?_, a, b, c, e⟩
  rw [e] at hcc ⊢
  have hdist : 1 ≤ distanceFrom ((t.strstart : Int) - 1) t.prevMatch ∧
      distanceFrom ((t.strstart : Int) - 1) t.prevMatch ≤ t.maxDist := by
    unfold distanceFrom
    omega
  exact {
    cfg := h.cfg
    room := by
      show t.strstart + (t.prevLength - 2) + 1 + (t.lookahead - (t.prevLength - 1)) ≤ 2 * t.wSize
      omega
    span := by
      have := h.span
      rw [symsSpan_cons (t := t) (.copy (distanceFrom ((t.strstart : Int) - 1) t.prevMatch) t.prevLength) rfl]
      show ((t.strstart + (t.prevLength - 2) + 1 : Nat) : Int) - t.blockStart
        = ((t.prevLength + symsSpan t : Nat) : Int) + (0 : Nat)
      push_cast [show 2 ≤ t.prevLength by omega] at *
      omega
    syms := symsOk_copy _ _ h.syms rfl rfl h3 h258 hdist.1 hdist.2
    chain := by
      refine (chainOk_iff _).mpr ?_
      exact hcc.mono (Nat.le_refl _) (Nat.le_refl _) (by
        show t.strstart + t.lookahead ≤ t.strstart + (t.prevLength - 2) + 1 + (t.lookahead - (t.prevLength - 1)); omega)
    ins2 := h.ins2
    insLe := by have := h.insLe; show t.insert ≤ t.strstart + (t.prevLength - 2) + 1; omega
    deferred := by show t.insert = 0 ∨ t.lookahead - (t.prevLength - 1) + t.insert < 3; omega
    tally := tallyDist_tallyOk _ _ h.tally }

/-- Emitting the held literal: its byte is then in a symbol (41_lz77.md R214). -/
theorem slowLiteral_turning {t : Stream} (h : Turning t 1) : Turning (slowLiteral t) 0 :=
  { h with
    span := by
      have := h.span
      rw [symsSpan_cons (t := t) (.lit (t.windowAt (t.strstart - 1))) rfl]
      show (t.strstart : Int) - t.blockStart = ((Sym.span (.lit (t.windowAt (t.strstart - 1))) + symsSpan t : Nat) : Int) + (0 : Nat)
      simp only [Sym.span]
      push_cast at *
      omega
    syms := symsOk_lit (t.windowAt (t.strstart - 1)) h.syms rfl rfl
    chain := h.chain.congr rfl rfl rfl
    tally := tallyLit_tallyOk _ h.tally }

/-- A block may end in the middle of a turn. -/
theorem closeBlock_turning {t : Stream} {held : Nat} (last : Bool) (h : Turning t held) :
    Turning (closeBlock last t) 0 := by
  obtain ⟨a, c, p, e, -⟩ := closeBlock_spec last t
  rw [e]
  exact {
    cfg := h.cfg
    room := h.room
    span := by simp [symsSpan]
    syms := by intro d l hm; simp at hm
    chain := h.chain.congr rfl rfl rfl
    ins2 := h.ins2
    insLe := h.insLe
    deferred := h.deferred
    tally := initBlock_tallyOk t }

/-- Passing a byte leaves it held. -/
theorem passByte_matching {t : Stream} (h : Turning t 0) (h0 : t.lookahead ≠ 0) : Matching (passByte t) 1 where
  cfg := h.cfg
  room := by have := h.room; show t.strstart + 1 + (t.lookahead - 1) ≤ 2 * t.wSize; omega
  span := by
    have := h.span
    show ((t.strstart + 1 : Nat) : Int) - t.blockStart = ((symsSpan t : Nat) : Int) + (1 : Nat)
    push_cast at *
    omega
  syms := h.syms
  chain := by
    refine (chainOk_iff _).mpr ?_
    have := (h.chain.mono (Nat.le_refl _) (Nat.le_refl _)
      (show t.strstart + t.lookahead ≤ t.strstart + 1 + (t.lookahead - 1) by omega))
    exact this.congr rfl rfl rfl
  ins2 := h.ins2
  insLe := by have := h.insLe; show t.insert ≤ t.strstart + 1; omega
  deferred := by have := h.deferred; show t.insert = 0 ∨ t.lookahead - 1 + t.insert < 3; omega
  tally := h.tally

/-- The match scalars after passing a byte: a found match is now the held one (41_lz77.md R214). -/
theorem passByte_slowOk {t : Stream} (ha : t.matchAvailable = true) (h258 : t.matchLength ≤ 258)
    (hf : 3 ≤ t.matchLength → Found t) : SlowOk (passByte t) := by
  refine ⟨h258, fun h3 => ⟨ha, ?_⟩⟩
  obtain ⟨-, f2, c, f3, f4, f5, -⟩ := hf h3
  show t.matchLength ≤ t.lookahead - 1 + 1 ∧ t.matchStart + 1 < ((t.strstart + 1 : Nat) : Int) ∧
    ((t.strstart + 1 : Nat) : Int) - 1 - t.matchStart ≤ t.maxDist
  rw [f3]
  push_cast
  omega

end Sys2Proof.Machine
end

