-- ==== Sys2Proof/Laws/Fill.lean ====
section
/-! SUPPORT. The window fill, said once for every strategy (41_lz77.md R204): what a slide and a read keep, a fill keeps, and
it ends with enough lookahead or without input. -/

namespace Sys2Proof.Machine

@[simp] theorem insertDeferred_lookahead (n st : Nat) (t : Stream) :
    (insertDeferred n st t).lookahead = t.lookahead := by
  induction n generalizing st t with
  | zero => rfl
  | succ n ih =>
    simp only [insertDeferred]
    split
    · rfl
    · exact ih (st + 1) { insertString st t with insert := n }

@[simp] theorem afterRead_lookahead (k : Nat) (t : Stream) : (afterRead k t).lookahead = t.lookahead + k := by
  simp only [afterRead]
  split
  · exact insertDeferred_lookahead ..
  · rfl

theorem word_ne_zero {w : Word} (h : ¬ w = 0) : 0 < w.toNat := by
  rcases Nat.eq_zero_or_pos w.toNat with h1 | h1
  · exact absurd (BitVec.eq_of_toNat_eq (by simpa using h1)) h
  · exact h1

/-- What `FillWindow` needs of an invariant to keep it. -/
structure FillKeeps (P : Stream → Prop) : Prop where
  cfg : ∀ {t}, P t → ConfigOk t
  room : ∀ {t}, P t → t.strstart + t.lookahead ≤ 2 * t.wSize
  window : ∀ {t} (w), P t → P { t with window := w }
  slide : ∀ {t}, P t → t.wSize + t.maxDist ≤ t.strstart → P (slide t)
  read : ∀ {t} (k), P t → t.strstart + t.lookahead + k ≤ 2 * t.wSize → P (afterRead k t)

/-- One read into a window that has slid, with room for it. -/
theorem fillRead_spec {P : Stream → Prop} (hP : FillKeeps P) (more : Nat) (s : State) (h : P s.stream)
    (hroom : s.stream.strstart + s.stream.lookahead + more ≤ 2 * s.stream.wSize) :
    P (fillRead more s).stream ∧ (fillRead more s).stream.lookahead = s.stream.lookahead + readCount more s ∧
      (fillRead more s).inAvail.toNat = s.inAvail.toNat - readCount more s ∧
      (fillRead more s).outAvail = s.outAvail := by
  have hk : readCount more s ≤ more := Nat.min_le_left ..
  have hw := hP.window (loadBytes (s.stream.strstart + s.stream.lookahead) (inputBytes s (readCount more s))
    s.stream.window) h
  unfold fillRead
  rw [readInput_eq]
  refine ⟨?_, ?_, toNat_sub_count _ _ (readCount_le more s), rfl⟩
  · exact hP.read _ hw (by
      show s.stream.strstart + s.stream.lookahead + readCount more s ≤ 2 * s.stream.wSize
      omega)
  · rw [onStream_stream, afterRead_lookahead]

/-- Everything `FillWindow` does (41_lz77.md R204). -/
theorem fillLoop_spec {P : Stream → Prop} (hP : FillKeeps P) (n : Nat) (s : State) (h : P s.stream)
    (hla : s.stream.lookahead < 262) (hn : s.inAvail.toNat < n) :
    P (fillLoop n s).stream ∧ (262 ≤ (fillLoop n s).stream.lookahead ∨ (fillLoop n s).inAvail = 0) ∧
      (fillLoop n s).stream.lookahead + (fillLoop n s).inAvail.toNat = s.stream.lookahead + s.inAvail.toNat ∧
      (fillLoop n s).outAvail = s.outAvail := by
  induction n generalizing s with
  | zero => omega
  | succ n ih =>
    have hcfg := (hP.cfg h).window
    have hroom := hP.room h
    have hslid : P (slideIfFull s.stream) ∧ (slideIfFull s.stream).lookahead = s.stream.lookahead ∧
        (slideIfFull s.stream).strstart + (slideIfFull s.stream).lookahead + windowRoom s.stream
          ≤ 2 * (slideIfFull s.stream).wSize ∧ 0 < windowRoom s.stream := by
      simp only [slideIfFull, windowRoom, Stream.windowBytes]
      split
      next hfull =>
        refine ⟨hP.slide h hfull, rfl, ?_, by omega⟩
        rw [slide_strstart, slide_lookahead, show (slide s.stream).wSize = s.stream.wSize from wSize_congr rfl]
        omega
      next hfull => exact ⟨h, rfl, by omega, by omega⟩
    obtain ⟨s1, s2, s3, s4⟩ := hslid
    simp only [fillLoop]
    generalize windowRoom s.stream = more at *
    have hin : (s.onStream slideIfFull).inAvail = s.inAvail := onStream_inAvail ..
    have hout : (s.onStream slideIfFull).outAvail = s.outAvail := onStream_outAvail ..
    have hst : (s.onStream slideIfFull).stream = slideIfFull s.stream := onStream_stream ..
    rw [← hst] at s1 s2 s3
    rw [hin]
    generalize s.onStream slideIfFull = a at *
    split
    next h0 => exact ⟨s1, Or.inr (hin.trans h0), by rw [s2, hin], hout⟩
    next h0 =>
      obtain ⟨r1, r2, r3, r4⟩ := fillRead_spec hP more a s1 s3
      have hk : 0 < readCount more a := by
        have := word_ne_zero h0
        unfold readCount
        rw [hin]
        omega
      have hk2 := readCount_le more a
      rw [hin] at hk2 r3
      split
      next hc =>
        obtain ⟨i1, i2, i3, i4⟩ := ih (fillRead more a) r1 hc.1 (by omega)
        exact ⟨i1, i2, by omega, i4.trans (r4.trans hout)⟩
      next hc =>
        refine ⟨r1, ?_, by omega, r4.trans hout⟩
        by_cases hz : (fillRead more a).inAvail = 0
        · exact Or.inr hz
        · left
          by_contra hlt
          exact hc ⟨Nat.not_le.mp hlt, hz⟩

theorem fillWindow_spec {P : Stream → Prop} (hP : FillKeeps P) (s : State) (h : P s.stream)
    (hla : s.stream.lookahead < 262) :
    P (fillWindow s).stream ∧ (262 ≤ (fillWindow s).stream.lookahead ∨ (fillWindow s).inAvail = 0) ∧
      (fillWindow s).stream.lookahead + (fillWindow s).inAvail.toNat = s.stream.lookahead + s.inAvail.toNat ∧
      (fillWindow s).outAvail = s.outAvail := fillLoop_spec hP _ s h hla (Nat.lt_succ_self _)

theorem refill_spec {P : Stream → Prop} (hP : FillKeeps P) (s : State) (h : P s.stream) :
    P (refill s).stream ∧ (262 ≤ (refill s).stream.lookahead ∨ (refill s).inAvail = 0) ∧
      (refill s).stream.lookahead + (refill s).inAvail.toNat = s.stream.lookahead + s.inAvail.toNat ∧
      (refill s).outAvail = s.outAvail := by
  unfold refill
  split
  next hla => exact fillWindow_spec hP s h hla
  next hla => exact ⟨h, Or.inl (Nat.not_lt.mp hla), rfl, rfl⟩

end Sys2Proof.Machine
end

