-- ==== Sys2Proof/Laws/Loops.lean ====
section
/-! SUPPORT. The three strategies, said once each: the stream stays sound, the bound on the turns is enough (log 12), and
each answer means what 41_lz77.md R212 says. -/

namespace Sys2Proof.Machine

theorem Matching.pending {t : Stream} {held : Nat} (p : List Byte) (h : Matching t held) :
    Matching { t with pending := p } held := { h with }

theorem Turning.pending {t : Stream} {held : Nat} (p : List Byte) (h : Turning t held) :
    Turning { t with pending := p } held := { h with chain := h.chain.congr rfl rfl rfl }

/-- Everything `FlushBlockOnly` does, with the queue and the output left open (41_lz77.md R211). -/
theorem flushBlockOnly_spec (last : Bool) (s : State) :
    (∃ p, (flushBlockOnly last s).stream = { closeBlock last s.stream with pending := p }) ∧
      (flushBlockOnly last s).inAvail = s.inAvail := by
  unfold flushBlockOnly
  rw [flushPending_eq]
  exact ⟨⟨_, rfl⟩, onStream_inAvail (closeBlock last) s⟩

/-- What closing a block leaves of the stream. -/
theorem flushBlockOnly_stream (last : Bool) (s : State) :
    ∃ a c p q, (flushBlockOnly last s).stream =
        { initBlock s.stream with bitacc := a, bitcount := c, pending := p, blockStart := q } ∧
      q = (s.stream.strstart : Int) ∧ (WriterOk s.stream → c ≤ 7 ∧ a < 2 ^ c) ∧ (last = true → c = 0) := by
  obtain ⟨⟨p, e⟩, -⟩ := flushBlockOnly_spec last s
  obtain ⟨a, c, p', e', h1, h2⟩ := closeBlock_spec last s.stream
  rw [e'] at e
  exact ⟨a, c, p, _, e, rfl, h1, fun h => (h2 h).2⟩

theorem flushBlockOnly_matching {s : State} {held : Nat} (last : Bool) (h : Matching s.stream held) :
    Matching (flushBlockOnly last s).stream 0 := by
  obtain ⟨⟨p, e⟩, -⟩ := flushBlockOnly_spec last s
  rw [e]
  exact (closeBlock_matching last h).pending p

theorem flushBlockOnly_turning {s : State} {held : Nat} (last : Bool) (h : Turning s.stream held) :
    Turning (flushBlockOnly last s).stream 0 := by
  obtain ⟨⟨p, e⟩, -⟩ := flushBlockOnly_spec last s
  rw [e]
  exact (closeBlock_turning last h).pending p

theorem symsFull_eq_true (t : Stream) : symsFull t = true ↔ t.syms.length = 16383 := by
  simp [symsFull]

/-- The end of a matching strategy keeps the invariants, and its answer means what it says (41_lz77.md R216). -/
theorem finishStrategy_spec (f : Flush) (s : State) (hf : f ≠ .noFlush) (h : Matching s.stream 0)
    (hw : WriterOk s.stream) (h0 : s.stream.lookahead = 0) (hin : s.inAvail = 0)
    (hma : s.stream.matchAvailable = false) :
    StrategyPost f (finishStrategy f s).1 (finishStrategy f s).2 ∧
      Matching (finishStrategy f s).2.stream 0 ∧ WriterOk (finishStrategy f s).2.stream ∧
      (finishStrategy f s).2.stream.syms = [] ∧
      (finishStrategy f s).2.stream.matchLength = s.stream.matchLength ∧
      (finishStrategy f s).2.stream.prevLength = s.stream.prevLength ∧
      (finishStrategy f s).2.stream.matchAvailable = false ∧
      (finishStrategy f s).2.stream.strategy = s.stream.strategy ∧
      (finishStrategy f s).2.inAvail = 0 := by
  have h1 : Matching (s.onStream (fun t => { t with insert := min t.strstart 2 })).stream 0 := {
    h with
    chain := by
      refine (chainOk_iff _).mpr ?_
      have hc := (chainOk_iff s.stream).mp h.chain
      show ChainBelow _ s.stream.strstart (s.stream.strstart - min s.stream.strstart 2)
        (s.stream.strstart + s.stream.lookahead)
      obtain ⟨S, hS, hb⟩ := hc
      refine ⟨S, hS.congr rfl rfl rfl, fun p hp => ?_⟩
      have := hb p hp
      have := (hS.2 p hp).1
      omega
    ins2 := Nat.min_le_right ..
    insLe := Nat.min_le_left ..
    deferred := by
      right
      show s.stream.lookahead + min s.stream.strstart 2 < 3
      omega }
  have hw1 : WriterOk (s.onStream (fun t => { t with insert := min t.strstart 2 })).stream := hw
  have e1 : (s.onStream (fun t => { t with insert := min t.strstart 2 })).stream.lookahead = 0 := h0
  have e2 : (s.onStream (fun t => { t with insert := min t.strstart 2 })).inAvail = 0 := by
    rw [onStream_inAvail]; exact hin
  have e3 : (s.onStream (fun t => { t with insert := min t.strstart 2 })).stream.matchAvailable = false := hma
  have e4 : (s.onStream (fun t => { t with insert := min t.strstart 2 })).stream.matchLength = s.stream.matchLength := rfl
  have e5 : (s.onStream (fun t => { t with insert := min t.strstart 2 })).stream.prevLength = s.stream.prevLength := rfl
  have e6 : (s.onStream (fun t => { t with insert := min t.strstart 2 })).stream.strategy = s.stream.strategy := rfl
  simp only [finishStrategy]
  generalize s.onStream (fun t => { t with insert := min t.strstart 2 }) = u at *
  have hclose : ∀ last, Matching (flushBlockOnly last u).stream 0 ∧ WriterOk (flushBlockOnly last u).stream ∧
      (flushBlockOnly last u).stream.syms = [] ∧
      (flushBlockOnly last u).stream.matchLength = s.stream.matchLength ∧
      (flushBlockOnly last u).stream.prevLength = s.stream.prevLength ∧
      (flushBlockOnly last u).stream.matchAvailable = false ∧
      (flushBlockOnly last u).stream.strategy = s.stream.strategy ∧
      (flushBlockOnly last u).inAvail = 0 ∧ (flushBlockOnly last u).stream.lookahead = 0 ∧
      (last = true → (flushBlockOnly last u).stream.bitcount = 0) ∧
      (flushBlockOnly last u).stream.blockStart = (flushBlockOnly last u).stream.strstart := by
    intro last
    refine ⟨flushBlockOnly_matching last h1, ?_⟩
    have hi := (flushBlockOnly_spec last u).2
    obtain ⟨a, c, p, q, e, hq, k1, k2⟩ := flushBlockOnly_stream last u
    rw [e]
    exact ⟨k1 hw1, rfl, e4, e5, e3, e6, hi.trans e2, e1, k2, hq⟩
  split
  next hfin =>
    obtain ⟨a1, a2, a3, a4, a5, a6, a7, a8, a9, a10, a11⟩ := hclose true
    simp only [finalBlock]
    refine ⟨?_, a1, a2, a3, a4, a5, a6, a7, a8⟩
    split
    next hz => exact ⟨hfin, ⟨a8, a9, a3, a6, a11⟩, a10 rfl, hz⟩
    next hz => exact ⟨hfin, ⟨a8, a9, a3, a6, a11⟩, a10 rfl, hz, flushPending_empties _ hz⟩
  next hfin =>
    have hsf : f = .syncFlush ∨ f = .fullFlush := by
      cases f with
      | noFlush => exact absurd rfl hf
      | syncFlush => exact Or.inl rfl
      | fullFlush => exact Or.inr rfl
      | finish => exact absurd rfl hfin
    split
    next hs =>
      obtain ⟨a1, a2, a3, a4, a5, a6, a7, a8, a9, a10, a11⟩ := hclose false
      simp only [flushPoint]
      refine ⟨?_, a1, a2, a3, a4, a5, a6, a7, a8⟩
      split
      next hz => exact Or.inl hz
      next hz => exact ⟨hsf, a8, a9, a3, a6, a11⟩
    next hs =>
      have hs : u.stream.syms = [] := by simpa using hs
      have hb : u.stream.blockStart = u.stream.strstart := by
        have := h1.span
        rw [symsSpan, hs] at this
        simp at this
        omega
      exact ⟨⟨hsf, e2, e1, hs, e3, hb⟩, h1, hw1, hs, e4, e5, e3, e6, e2⟩

/-- The invariant of the loop of `DeflateFast`. -/
def FastPoint (t : Stream) : Prop :=
  Matching t 0 ∧ FastOk t ∧ WriterOk t ∧ t.syms.length < 16383 ∧ t.strategy = .fast ∧ t.matchAvailable = false

theorem fillKeeps_fast : FillKeeps FastPoint where
  cfg h := h.1.cfg
  room h := h.1.room
  window w h := ⟨{ h.1 with }, h.2⟩
  slide h hf := ⟨slide_matching h.1 hf, h.2⟩
  read k h hk := by
    obtain ⟨h1, h2, h3, h4, h5, h6⟩ := h
    obtain ⟨⟨a, b, c, d, e⟩, hm⟩ := afterRead_spec k h1 (by rw [h5]; decide) hk
    refine ⟨hm, ?_⟩
    rw [e]
    exact ⟨h2, h3, h4, h5, h6⟩

theorem fastLoop_spec (f : Flush) (n : Nat) (s : State) (h : FastPoint s.stream)
    (hn : s.stream.lookahead + s.inAvail.toNat < n) :
    StrategyPost f (fastLoop f n s).1 (fastLoop f n s).2 ∧ FastPoint (fastLoop f n s).2.stream := by
  induction n generalizing s with
  | zero => omega
  | succ n ih =>
    obtain ⟨r1, r2, r3, -⟩ := refill_spec fillKeeps_fast s h
    simp only [fastLoop]
    generalize refill s = u at *
    split
    next hc =>
      refine ⟨Or.inr ⟨hc.2, ?_⟩, r1⟩
      rcases r2 with r2 | r2
      · have := hc.1
        simp only [Config.minLookahead] at this
        omega
      · exact r2
    next hc =>
      split
      next h0 =>
        have hf : f ≠ .noFlush := fun e => hc ⟨by rw [h0]; decide, e⟩
        have hin : u.inAvail = 0 := by
          rcases r2 with r2 | r2
          · omega
          · exact r2
        obtain ⟨m1, m2, m3, m4, m5, m6⟩ := r1
        obtain ⟨p, k1, k2, k3, k4, k5, k6, k7, -⟩ := finishStrategy_spec f u hf m1 m3 h0 hin m6
        refine ⟨p, k1, ⟨by rw [k4]; exact m2.1, by rw [k5]; exact m2.2⟩, k2, by rw [k3]; decide, k7.trans m5, k6⟩
      next h0 =>
        obtain ⟨m1, m2, m3, m4, m5, m6⟩ := r1
        obtain ⟨q1, q2, q3, q4, q5, q6, q7⟩ := fastStep_spec m1 m2 h0
        have q8 : (u.onStream fastStep).stream.strategy = .fast := (fastStep_same u.stream).2.2.2.2.2.2.2.2.1.trans m5
        have q9 : WriterOk (u.onStream fastStep).stream := by
          show (fastStep u.stream).bitcount ≤ 7 ∧ (fastStep u.stream).bitacc < 2 ^ (fastStep u.stream).bitcount
          rw [q6, q7]
          exact m3
        have q10 : (u.onStream fastStep).inAvail = u.inAvail := onStream_inAvail ..
        have q11 : Matching (u.onStream fastStep).stream 0 := q1
        have q12 : FastOk (u.onStream fastStep).stream := q2
        have q13 : (u.onStream fastStep).stream.lookahead < u.stream.lookahead := q3
        have q14 : (u.onStream fastStep).stream.syms.length = u.stream.syms.length + 1 := q4
        have q15 : (u.onStream fastStep).stream.matchAvailable = false := q5.trans m6
        generalize u.onStream fastStep = v at *
        split
        next hfull =>
          obtain ⟨a, c, p, q, e, -, k1, -⟩ := flushBlockOnly_stream false v
          have hp : FastPoint (flushBlockOnly false v).stream := by
            refine ⟨flushBlockOnly_matching false q11, ?_⟩
            rw [e]
            exact ⟨q12, k1 q9, by show 0 < 16383; decide, q8, q15⟩
          have hla : (flushBlockOnly false v).stream.lookahead = v.stream.lookahead := by rw [e]; rfl
          have hin := (flushBlockOnly_spec false v).2
          split
          next hz => exact ⟨Or.inl hz, hp⟩
          next hz => exact ih _ hp (by rw [hla, hin, q10]; omega)
        next hfull =>
          have : v.stream.syms.length ≠ 16383 := fun e => hfull ((symsFull_eq_true _).mpr e)
          exact ih _ ⟨q11, q12, q9, by omega, q8, q15⟩ (by rw [q10]; omega)

/-- The invariant of the loop of `DeflateSlow`. -/
def SlowPoint (t : Stream) : Prop :=
  Matching t (heldByte t) ∧ SlowOk t ∧ WriterOk t ∧ t.syms.length < 16383 ∧ t.strategy = .slow

theorem slide_slowOk {t : Stream} (h : SlowOk t) (hw : t.wSize ≤ t.strstart) : SlowOk (slide t) := by
  refine ⟨h.1, fun h3 => ?_⟩
  obtain ⟨a, b, c, d⟩ := h.2 h3
  refine ⟨a, b, ?_, ?_⟩
  · show t.matchStart - t.wSize + 1 < ((t.strstart - t.wSize : Nat) : Int)
    omega
  · rw [show (slide t).maxDist = t.maxDist from maxDist_congr rfl]
    show ((t.strstart - t.wSize : Nat) : Int) - 1 - (t.matchStart - t.wSize) ≤ t.maxDist
    omega

theorem fillKeeps_slow : FillKeeps SlowPoint where
  cfg h := h.1.cfg
  room h := h.1.room
  window w h := ⟨{ h.1 with }, h.2⟩
  slide {t} h hf := ⟨slide_matching h.1 hf, slide_slowOk h.2.1 (by omega), h.2.2⟩
  read k h hk := by
    obtain ⟨h1, h2, h3, h4, h5⟩ := h
    obtain ⟨⟨a, b, c, d, e⟩, hm⟩ := afterRead_spec k h1 (by rw [h5]; decide) hk
    rw [e] at hm ⊢
    refine ⟨hm, ⟨h2.1, fun h3' => ?_⟩, h3, h4, h5⟩
    obtain ⟨a1, a2, a3, a4⟩ := h2.2 h3'
    exact ⟨a1, Nat.le_trans a2 (by show _ ≤ _ + k + 1; omega), a3, a4⟩

/-- The held literal at the end of the input. -/
theorem slowLast_spec {t : Stream} (h : Matching t (heldByte t)) :
    Matching (slowLast t) 0 ∧ (slowLast t).matchAvailable = false ∧ (slowLast t).bitacc = t.bitacc ∧
      (slowLast t).bitcount = t.bitcount ∧ (slowLast t).lookahead = t.lookahead ∧
      (slowLast t).matchLength = t.matchLength := by
  unfold slowLast
  split
  next ha =>
    refine ⟨?_, rfl, rfl, rfl, rfl, rfl⟩
    have hh : heldByte t = 1 := by simp [heldByte, ha]
    rw [hh] at h
    exact {
      h with
      span := by
        have := h.span
        rw [symsSpan_cons (t := t) (.lit (t.windowAt (t.strstart - 1))) rfl]
        show (t.strstart : Int) - t.blockStart
          = ((Sym.span (.lit (t.windowAt (t.strstart - 1))) + symsSpan t : Nat) : Int) + (0 : Nat)
        simp only [Sym.span]
        push_cast at *
        omega
      syms := symsOk_lit (t.windowAt (t.strstart - 1)) h.syms rfl rfl
      tally := tallyLit_tallyOk (t.windowAt (t.strstart - 1)) h.tally }
  next ha =>
    have hh : heldByte t = 0 := by simp [heldByte, ha]
    rw [hh] at h
    exact ⟨h, by simpa using ha, rfl, rfl, rfl, rfl⟩

/-- A turn of `DeflateSlow` that passes a byte, whatever block end came before. -/
theorem slowPass_spec {v : Stream} (hv : Turning v 0) (hla : v.lookahead ≠ 0) (ha : v.matchAvailable = true)
    (h258 : v.matchLength ≤ 258) (hf : 3 ≤ v.matchLength → Found v) (hw : WriterOk v) (hs : v.syms.length < 16383)
    (hst : v.strategy = .slow) : SlowPoint (passByte v) := by
  have hh : heldByte (passByte v) = 1 := by simp [heldByte, ha]
  exact ⟨by rw [hh]; exact passByte_matching hv hla, passByte_slowOk ha h258 hf, hw, hs, hst⟩

theorem slowLoop_spec (f : Flush) (n : Nat) (s : State) (h : SlowPoint s.stream)
    (hn : s.stream.lookahead + s.inAvail.toNat < n) :
    StrategyPost f (slowLoop f n s).1 (slowLoop f n s).2 ∧ SlowPoint (slowLoop f n s).2.stream := by
  induction n generalizing s with
  | zero => omega
  | succ n ih =>
    obtain ⟨r1, r2, r3, -⟩ := refill_spec fillKeeps_slow s h
    simp only [slowLoop]
    generalize refill s = u at *
    obtain ⟨m1, m2, m3, m4, m5⟩ := r1
    split
    next hc =>
      refine ⟨Or.inr ⟨hc.2, ?_⟩, m1, m2, m3, m4, m5⟩
      rcases r2 with r2 | r2
      · have := hc.1
        simp only [Config.minLookahead] at this
        omega
      · exact r2
    next hc =>
      split
      next h0 =>
        have hf : f ≠ .noFlush := fun e => hc ⟨by rw [h0]; decide, e⟩
        have hin : (u.onStream slowLast).inAvail = 0 := by
          rw [onStream_inAvail]
          rcases r2 with r2 | r2
          · omega
          · exact r2
        obtain ⟨l1, l2, l3, l4, l5, l6⟩ := slowLast_spec m1
        have hwl : WriterOk (u.onStream slowLast).stream := by
          show (slowLast u.stream).bitcount ≤ 7 ∧ (slowLast u.stream).bitacc < 2 ^ (slowLast u.stream).bitcount
          rw [l3, l4]
          exact m3
        obtain ⟨p, k1, k2, k3, k4, k5, k6, k7, -⟩ :=
          finishStrategy_spec f (u.onStream slowLast) hf l1 hwl (l5.trans h0) hin l2
        have hml : (finishStrategy f (u.onStream slowLast)).2.stream.matchLength = u.stream.matchLength := k4.trans l6
        refine ⟨p, ?_, ⟨by rw [hml]; exact m2.1, fun h3 => ?_⟩, k2, by rw [k3]; decide, ?_⟩
        · have : heldByte (finishStrategy f (u.onStream slowLast)).2.stream = 0 := by simp [heldByte, k6]
          rw [this]
          exact k1
        · rw [hml] at h3
          have := (m2.2 h3).2.1
          omega
        · exact k7.trans ((slowLast_same u.stream).2.2.2.2.2.2.2.2.1.trans m5)
      next h0 =>
        obtain ⟨⟨a, b, c, d, e, eq⟩, ht, hfound, h258⟩ := slowSearch_spec m1 m2
        have la : (slowSearch u.stream).lookahead = u.stream.lookahead := by rw [eq]
        have ss : (slowSearch u.stream).strstart = u.stream.strstart := by rw [eq]
        have sy : (slowSearch u.stream).syms = u.stream.syms := by rw [eq]
        have ma : (slowSearch u.stream).matchAvailable = u.stream.matchAvailable := by rw [eq]
        have ba : (slowSearch u.stream).bitacc = u.stream.bitacc := by rw [eq]
        have bc : (slowSearch u.stream).bitcount = u.stream.bitcount := by rw [eq]
        have pl : (slowSearch u.stream).prevLength = u.stream.matchLength := by rw [eq]
        have pm : (slowSearch u.stream).prevMatch = u.stream.matchStart := by rw [eq]
        have md : (slowSearch u.stream).maxDist = u.stream.maxDist := by rw [eq]; exact maxDist_congr rfl
        have st : (slowSearch u.stream).strategy = .slow := by rw [eq]; exact m5
        have hia : (u.onStream slowSearch).inAvail = u.inAvail := onStream_inAvail ..
        have hst : (u.onStream slowSearch).stream = slowSearch u.stream := onStream_stream ..
        rw [← hst] at la ss sy ma ba bc pl pm md st ht hfound h258
        clear eq hst
        have hwv : WriterOk (u.onStream slowSearch).stream := by
          unfold WriterOk
          rw [ba, bc]
          exact m3
        generalize u.onStream slowSearch = v at *
        split
        next hm =>
          have h3 : 3 ≤ u.stream.matchLength := by rw [← pl]; exact hm.1
          obtain ⟨s1, s2, s3, s4⟩ := m2.2 h3
          have hh : heldByte u.stream = 1 := by simp [heldByte, s1]
          rw [hh] at ht
          obtain ⟨hmm, a, b, c, e⟩ := slowMatch_spec ht hm.1 (by rw [pl]; exact m2.1) (by rw [pl, la]; exact s2)
            (by rw [pm, ss]; exact s3) (by rw [pm, ss, md]; exact s4)
          have x1 : (v.onStream slowMatch).inAvail = u.inAvail := (onStream_inAvail ..).trans hia
          have x2 : Matching (v.onStream slowMatch).stream 0 := hmm
          have x3 : (v.onStream slowMatch).stream.lookahead < u.stream.lookahead := by
            rw [onStream_stream, e]
            show v.stream.lookahead - (v.stream.prevLength - 1) < u.stream.lookahead
            have := hm.1
            omega
          have x4 : (v.onStream slowMatch).stream.syms.length = u.stream.syms.length + 1 := by
            rw [onStream_stream, e]; simp [sy]
          have x5 : (v.onStream slowMatch).stream.matchAvailable = false := by rw [onStream_stream, e]
          have x6 : (v.onStream slowMatch).stream.matchLength = 2 := by rw [onStream_stream, e]
          have x7 : WriterOk (v.onStream slowMatch).stream := by rw [onStream_stream, e]; exact hwv
          have x8 : (v.onStream slowMatch).stream.strategy = .slow := by rw [onStream_stream, e]; exact st
          clear e
          generalize v.onStream slowMatch = w at *
          have hslow : ∀ t : Stream, t.matchLength = 2 → SlowOk t := fun t e => ⟨by omega, fun h => by omega⟩
          split
          next hfull =>
            obtain ⟨a, c, p, q, e, -, k1, -⟩ := flushBlockOnly_stream false w
            have y1 : (flushBlockOnly false w).stream.matchAvailable = false := by rw [e]; exact x5
            have y2 : (flushBlockOnly false w).stream.matchLength = 2 := by rw [e]; exact x6
            have y3 : WriterOk (flushBlockOnly false w).stream := by rw [e]; exact k1 x7
            have y4 : (flushBlockOnly false w).stream.syms.length = 0 := by rw [e]; rfl
            have y5 : (flushBlockOnly false w).stream.strategy = .slow := by rw [e]; exact x8
            have y6 : (flushBlockOnly false w).stream.lookahead = w.stream.lookahead := by rw [e]; rfl
            have hp : SlowPoint (flushBlockOnly false w).stream := by
              refine ⟨?_, hslow _ y2, y3, by omega, y5⟩
              rw [show heldByte (flushBlockOnly false w).stream = 0 by simp [heldByte, y1]]
              exact flushBlockOnly_matching false x2
            split
            next hz => exact ⟨Or.inl hz, hp⟩
            next hz => exact ih _ hp (by rw [y6, (flushBlockOnly_spec false w).2, x1]; omega)
          next hfull =>
            have : w.stream.syms.length ≠ 16383 := fun e => hfull ((symsFull_eq_true _).mpr e)
            refine ih _ ⟨?_, hslow _ x6, x7, by omega, x8⟩ (by rw [x1]; omega)
            rw [show heldByte w.stream = 0 by simp [heldByte, x5]]
            exact x2
        next hm =>
          have hfd : 3 ≤ v.stream.matchLength → Found v.stream := by
            intro h3
            refine hfound h3 ?_
            by_contra hle
            exact hm ⟨by omega, by omega⟩
          split
          next hav =>
            have hav' : u.stream.matchAvailable = true := by rw [← ma]; exact hav
            have hh : heldByte u.stream = 1 := by simp [heldByte, hav']
            rw [hh] at ht
            have hlit : Turning (v.onStream slowLiteral).stream 0 := slowLiteral_turning ht
            have z1 : (v.onStream slowLiteral).stream.lookahead = u.stream.lookahead := la
            have z2 : (v.onStream slowLiteral).stream.matchAvailable = true := hav
            have z3 : (v.onStream slowLiteral).stream.matchLength ≤ 258 := h258
            have z4 : 3 ≤ (v.onStream slowLiteral).stream.matchLength → Found (v.onStream slowLiteral).stream := hfd
            have z5 : WriterOk (v.onStream slowLiteral).stream := hwv
            have z6 : (v.onStream slowLiteral).stream.syms.length = u.stream.syms.length + 1 := by
              rw [onStream_stream]; simp [slowLiteral, sy]
            have z7 : (v.onStream slowLiteral).stream.strategy = .slow := st
            have z8 : (v.onStream slowLiteral).inAvail = u.inAvail := (onStream_inAvail ..).trans hia
            generalize v.onStream slowLiteral = w at *
            have hclosed : ∀ x : State, x = (if symsFull w.stream = true then flushBlockOnly false w else w) →
                SlowPoint (passByte x.stream) ∧ x.stream.lookahead = u.stream.lookahead ∧ x.inAvail = u.inAvail := by
              intro x hx
              subst hx
              split
              next hfull =>
                obtain ⟨a, c, p, q, e, -, k1, -⟩ := flushBlockOnly_stream false w
                have y0 := flushBlockOnly_turning false hlit
                refine ⟨slowPass_spec y0 ?_ ?_ ?_ ?_ ?_ ?_ ?_, ?_, (flushBlockOnly_spec false w).2.trans z8⟩
                · rw [e]; show w.stream.lookahead ≠ 0; omega
                · rw [e]; exact z2
                · rw [e]; exact z3
                · rw [e]; exact z4
                · rw [e]; exact k1 z5
                · rw [e]; show 0 < 16383; decide
                · rw [e]; exact z7
                · rw [e]; exact z1
              next hfull =>
                have : w.stream.syms.length ≠ 16383 := fun e => hfull ((symsFull_eq_true _).mpr e)
                exact ⟨slowPass_spec hlit (by omega) z2 z3 z4 z5 (by omega) z7, z1, z8⟩
            generalize hx : (if symsFull w.stream = true then flushBlockOnly false w else w) = x
            obtain ⟨c1, c2, c3⟩ := hclosed x hx.symm
            split
            next hz => exact ⟨Or.inl hz, c1⟩
            next hz =>
              refine ih _ c1 ?_
              rw [onStream_inAvail, c3]
              show x.stream.lookahead - 1 + u.inAvail.toNat < n
              omega
          next hav =>
            have hav' : u.stream.matchAvailable = false := by rw [← ma]; simpa using hav
            have hh : heldByte u.stream = 0 := by simp [heldByte, hav']
            rw [hh] at ht
            have ht' : Turning { v.stream with matchAvailable := true } 0 :=
              { ht with chain := ht.chain.congr rfl rfl rfl }
            have hp := slowPass_spec ht' (by show v.stream.lookahead ≠ 0; omega) rfl h258 hfd hwv
              (by show v.stream.syms.length < 16383; rw [sy]; exact m4) st
            refine ih _ hp ?_
            rw [onStream_inAvail, hia]
            show v.stream.lookahead - 1 + u.inAvail.toNat < n
            omega

/-- The invariant of the loop of `DeflateStored`. -/
def StoredPoint (t : Stream) : Prop :=
  ConfigOk t ∧ t.strstart + t.lookahead ≤ 2 * t.wSize ∧ StoredOk t ∧ t.blockStart ≤ t.strstart ∧ TallyOk t ∧
    WriterOk t ∧ t.strategy = .stored ∧ t.matchAvailable = false

theorem fillKeeps_stored : FillKeeps StoredPoint where
  cfg h := h.1
  room h := h.2.1
  window w h := h
  slide {t} h hf := by
    obtain ⟨h1, h2, ⟨a, b, c, d⟩, h4, h5, h6, h7, h8⟩ := h
    obtain ⟨w1, w2, w3, -⟩ := h1.window
    have hws : (slide t).wSize = t.wSize := wSize_congr rfl
    refine ⟨h1, ?_, ⟨a, ?_, ?_, ?_⟩, ?_, h5, h6, h7, h8⟩
    · rw [hws]
      show t.strstart - t.wSize + t.lookahead ≤ 2 * t.wSize
      omega
    · rw [slide_insert, b]
      simp
    · show (0 : Int) ≤ t.blockStart - t.wSize
      omega
    · rw [show (slide t).maxDist = t.maxDist from maxDist_congr rfl]
      show ((t.strstart - t.wSize : Nat) : Int) - (t.blockStart - t.wSize) < t.maxDist
      omega
    · show t.blockStart - t.wSize ≤ ((t.strstart - t.wSize : Nat) : Int)
      omega
  read {t} k h hk := by
    obtain ⟨h1, h2, h3, h4, h5, h6, h7, h8⟩ := h
    have e : afterRead k t = { t with lookahead := t.lookahead + k } := by
      simp [afterRead, h7]
    rw [e]
    exact ⟨h1, by show t.strstart + (t.lookahead + k) ≤ 2 * t.wSize; omega, h3, h4, h5, h6, h7, h8⟩

/-- A stored block, ended. -/
theorem storedClose_spec (last : Bool) (s : State) (hc : ConfigOk s.stream)
    (hr : s.stream.strstart + s.stream.lookahead ≤ 2 * s.stream.wSize) (hi : s.stream.insert = 0)
    (hw : WriterOk s.stream) (hs : s.stream.strategy = .stored) (ha : s.stream.matchAvailable = false) :
    StoredPoint (flushBlockOnly last s).stream ∧
      (flushBlockOnly last s).stream.lookahead = s.stream.lookahead ∧
      (flushBlockOnly last s).inAvail = s.inAvail ∧
      (last = true → (flushBlockOnly last s).stream.bitcount = 0) ∧
      (flushBlockOnly last s).stream.blockStart = (flushBlockOnly last s).stream.strstart := by
  obtain ⟨w1, w2, w3, -⟩ := hc.window
  have hia := (flushBlockOnly_spec last s).2
  obtain ⟨a, c, p, q, e, rfl, k1, k2⟩ := flushBlockOnly_stream last s
  rw [e]
  refine ⟨⟨hc, hr, ⟨rfl, hi, ?_, ?_⟩, Int.le_refl _, initBlock_tallyOk s.stream, k1 hw, hs, ha⟩, rfl, hia, k2, rfl⟩
  · show (0 : Int) ≤ (s.stream.strstart : Int)
    omega
  · show (s.stream.strstart : Int) - (s.stream.strstart : Int) < s.stream.maxDist
    omega

/-- The end of `DeflateStored`. -/
theorem storedEnd_spec (f : Flush) (s : State) (hf : f ≠ .noFlush) (h : StoredPoint s.stream)
    (h0 : s.stream.lookahead = 0) (hin : s.inAvail = 0) :
    StrategyPost f (storedEnd f s).1 (storedEnd f s).2 ∧ StoredPoint (storedEnd f s).2.stream := by
  obtain ⟨h1, h2, ⟨a, b, c, d⟩, h4, h5, h6, h7, h8⟩ := h
  have e0 : StoredPoint (s.onStream (fun t => { t with insert := 0 })).stream := ⟨h1, h2, ⟨a, rfl, c, d⟩, h4, h5, h6, h7, h8⟩
  have e1 : (s.onStream (fun t => { t with insert := 0 })).stream.lookahead = 0 := h0
  have e2 : (s.onStream (fun t => { t with insert := 0 })).inAvail = 0 := by rw [onStream_inAvail]; exact hin
  simp only [storedEnd]
  generalize s.onStream (fun t => { t with insert := 0 }) = u at *
  obtain ⟨g1, g2, ⟨ga, gb, gc, gd⟩, g4, g5, g6, g7, g8⟩ := e0
  have hclose := fun last => storedClose_spec last u g1 g2 gb g6 g7 g8
  split
  next hfin =>
    obtain ⟨k1, k2, k3, k4, k5⟩ := hclose true
    simp only [finalBlock]
    refine ⟨?_, k1⟩
    split
    next hz => exact ⟨hfin, ⟨k3.trans e2, k2.trans e1, k1.2.2.1.1, k1.2.2.2.2.2.2.2, k5⟩, k4 rfl, hz⟩
    next hz => exact ⟨hfin, ⟨k3.trans e2, k2.trans e1, k1.2.2.1.1, k1.2.2.2.2.2.2.2, k5⟩, k4 rfl, hz, flushPending_empties _ hz⟩
  next hfin =>
    have hsf : f = .syncFlush ∨ f = .fullFlush := by
      cases f with
      | noFlush => exact absurd rfl hf
      | syncFlush => exact Or.inl rfl
      | fullFlush => exact Or.inr rfl
      | finish => exact absurd rfl hfin
    split
    next hs =>
      obtain ⟨k1, k2, k3, k4, k5⟩ := hclose false
      simp only [flushPoint]
      refine ⟨?_, k1⟩
      split
      next hz => exact Or.inl hz
      next hz => exact ⟨hsf, k3.trans e2, k2.trans e1, k1.2.2.1.1, k1.2.2.2.2.2.2.2, k5⟩
    next hs =>
      have hb : u.stream.blockStart = u.stream.strstart := Int.le_antisymm g4 (Int.not_lt.mp hs)
      exact ⟨⟨hsf, e2, e1, ga, g8, hb⟩, g1, g2, ⟨ga, gb, gc, gd⟩, g4, g5, g6, g7, g8⟩

/-- Taking the lookahead into the block (41_lz77.md R215). -/
theorem storedTake_spec {t : Stream} (h : StoredPoint t) (h0 : t.lookahead ≠ 0) :
    (storedTake t).lookahead < t.lookahead ∧ (storedTake t).strstart + (storedTake t).lookahead = t.strstart + t.lookahead ∧
      t.strstart ≤ (storedTake t).strstart ∧
      (∃ a b, storedTake t = { t with lookahead := a, strstart := b }) := by
  obtain ⟨h1, h2, ⟨a, b, c, d⟩, h4, -⟩ := h
  obtain ⟨w1, w2, w3, -⟩ := h1.window
  have hm : maxStart t = t.blockStart + 65531 := rfl
  simp only [storedTake]
  split
  next hc =>
    rw [hm] at hc ⊢
    refine ⟨?_, ?_, ?_, _, _, rfl⟩
    · show ((t.strstart + t.lookahead : Nat) - (t.blockStart + 65531)).toNat < t.lookahead
      omega
    · show (t.blockStart + 65531).toNat + (((t.strstart + t.lookahead : Nat) : Int) - (t.blockStart + 65531)).toNat
        = t.strstart + t.lookahead
      omega
    · show t.strstart ≤ (t.blockStart + 65531).toNat
      omega
  next hc =>
    refine ⟨?_, rfl, ?_, _, _, rfl⟩
    · show 0 < t.lookahead
      omega
    · show t.strstart ≤ t.strstart + t.lookahead
      omega

theorem storedLoop_spec (f : Flush) (n : Nat) (s : State) (h : StoredPoint s.stream)
    (hn : s.stream.lookahead + s.inAvail.toNat < n) :
    StrategyPost f (storedLoop f n s).1 (storedLoop f n s).2 ∧ StoredPoint (storedLoop f n s).2.stream := by
  induction n generalizing s with
  | zero => omega
  | succ n ih =>
    have hfill : ∀ u, u = (if s.stream.lookahead ≤ 1 then fillWindow s else s) →
        StoredPoint u.stream ∧ (u.stream.lookahead = 0 → u.inAvail = 0) ∧
        u.stream.lookahead + u.inAvail.toNat = s.stream.lookahead + s.inAvail.toNat := by
      rintro u rfl
      split
      next hle =>
        obtain ⟨p1, p2, p3, -⟩ := fillWindow_spec fillKeeps_stored s h (by omega)
        refine ⟨p1, fun h0 => ?_, p3⟩
        rcases p2 with p2 | p2
        · omega
        · exact p2
      next hle => exact ⟨h, fun h0 => by omega, rfl⟩
    simp only [storedLoop]
    generalize hu : (if s.stream.lookahead ≤ 1 then fillWindow s else s) = u
    obtain ⟨p1, p2, p3⟩ := hfill u hu.symm
    clear hfill hu
    split
    next h0 =>
      split
      next hf => exact ⟨Or.inr ⟨hf, p2 h0⟩, p1⟩
      next hf => exact storedEnd_spec f u hf p1 h0 (p2 h0)
    next h0 =>
      obtain ⟨t1, t2, t3, a, b, t4⟩ := storedTake_spec p1 h0
      obtain ⟨g1, g2, ⟨ga, gb, gc, gd⟩, g4, g5, g6, g7, g8⟩ := p1
      have v1 : ConfigOk (u.onStream storedTake).stream := by rw [onStream_stream, t4]; exact g1
      have v2 : (u.onStream storedTake).stream.strstart + (u.onStream storedTake).stream.lookahead
          ≤ 2 * (u.onStream storedTake).stream.wSize := by
        rw [onStream_stream, t2, show (storedTake u.stream).wSize = u.stream.wSize by rw [t4]; exact wSize_congr rfl]
        exact g2
      have v3 : (u.onStream storedTake).stream.insert = 0 := by rw [onStream_stream, t4]; exact gb
      have v4 : WriterOk (u.onStream storedTake).stream := by rw [onStream_stream, t4]; exact g6
      have v5 : (u.onStream storedTake).stream.strategy = .stored := by rw [onStream_stream, t4]; exact g7
      have v6 : (u.onStream storedTake).stream.matchAvailable = false := by rw [onStream_stream, t4]; exact g8
      have v7 : (u.onStream storedTake).inAvail = u.inAvail := onStream_inAvail ..
      have v8 : (u.onStream storedTake).stream.lookahead < u.stream.lookahead := t1
      have v9 : (u.onStream storedTake).stream.syms = [] := by rw [onStream_stream, t4]; exact ga
      have v10 : (0 : Int) ≤ (u.onStream storedTake).stream.blockStart := by rw [onStream_stream, t4]; exact gc
      have v11 : (u.onStream storedTake).stream.blockStart ≤ (u.onStream storedTake).stream.strstart := by
        rw [onStream_stream, show (storedTake u.stream).blockStart = u.stream.blockStart by rw [t4]]
        omega
      have v12 : TallyOk (u.onStream storedTake).stream := by rw [onStream_stream, t4]; exact g5
      clear t1 t2 t3 t4
      generalize storedBlockFull (storedTake u.stream) = full
      generalize u.onStream storedTake = v at *
      have hx : ∀ x, x = (if full = true then flushBlockOnly false v else v) →
          (full = true → StoredPoint x.stream) ∧ ConfigOk x.stream ∧
          x.stream.strstart + x.stream.lookahead ≤ 2 * x.stream.wSize ∧ x.stream.insert = 0 ∧ WriterOk x.stream ∧
          x.stream.strategy = .stored ∧ x.stream.matchAvailable = false ∧ x.inAvail = u.inAvail ∧
          x.stream.lookahead < u.stream.lookahead ∧ x.stream.syms = [] ∧ (0 : Int) ≤ x.stream.blockStart ∧
          x.stream.blockStart ≤ x.stream.strstart ∧ TallyOk x.stream := by
        rintro x rfl
        split
        next hfull =>
          obtain ⟨k1, k2, k3, -⟩ := storedClose_spec false v v1 v2 v3 v4 v5 v6
          obtain ⟨q1, q2, ⟨qa, qb, qc, qd⟩, q4, q5, q6, q7, q8⟩ := k1
          exact ⟨fun _ => ⟨q1, q2, ⟨qa, qb, qc, qd⟩, q4, q5, q6, q7, q8⟩, q1, q2, qb, q6, q7, q8, k3.trans v7, by omega, qa,
            qc, q4, q5⟩
        next hfull =>
          exact ⟨fun e => absurd e hfull, v1, v2, v3, v4, v5, v6, v7, v8, v9, v10, v11, v12⟩
      generalize hxe : (if full = true then flushBlockOnly false v else v) = x
      obtain ⟨x0, x1, x2, x3, x4, x5, x6, x7, x8, x9, x10, x11, x12⟩ := hx x hxe.symm
      clear hx hxe
      split
      next hz =>
        simp only [Bool.and_eq_true, beq_iff_eq] at hz
        exact ⟨Or.inl hz.2, x0 hz.1⟩
      next hz =>
        have hy : ∀ y, y = (if storedBlockLong x.stream = true then flushBlockOnly false x else x) →
            StoredPoint y.stream ∧ y.inAvail = u.inAvail ∧ y.stream.lookahead < u.stream.lookahead := by
          rintro y rfl
          split
          next hl =>
            obtain ⟨k1, k2, k3, -⟩ := storedClose_spec false x x1 x2 x3 x4 x5 x6
            exact ⟨k1, k3.trans x7, by omega⟩
          next hl =>
            refine ⟨⟨x1, x2, ⟨x9, x3, x10, ?_⟩, x11, x12, x4, x5, x6⟩, x7, x8⟩
            by_contra hge
            exact hl (decide_eq_true (Int.not_lt.mp hge))
        generalize hye : (if storedBlockLong x.stream = true then flushBlockOnly false x else x) = y
        obtain ⟨y1, y2, y3⟩ := hy y hye.symm
        split
        next hz2 =>
          simp only [Bool.and_eq_true, beq_iff_eq] at hz2
          exact ⟨Or.inl hz2.2, y1⟩
        next hz2 => exact ih y y1 (by rw [y2]; omega)

end Sys2Proof.Machine
end

