-- ==== Sys2Proof/Laws/Moves.lean ====
section
/-! SUPPORT. What one DEFLATE may change, said once: `k` bytes of input consumed, `m` bytes of output written, and nothing
else outside the stream (10_state.md R37 to R39, 20_memory.md R87, R88). -/

namespace Sys2Proof.Machine

theorem adlerStep_lt (p : Nat × Nat) (b : Byte) : (adlerStep p b).1 < 65536 ∧ (adlerStep p b).2 < 65536 := by
  simp only [adlerStep]; omega

theorem adler_foldl_lt (bs : List Byte) (p : Nat × Nat) (h : p.1 < 65536 ∧ p.2 < 65536) :
    (bs.foldl adlerStep p).1 < 65536 ∧ (bs.foldl adlerStep p).2 < 65536 := by
  induction bs generalizing p with
  | nil => exact h
  | cons b bs ih => exact ih _ (adlerStep_lt p b)

/-- Checksums are combinable (44_checksum.md R313, R314). -/
theorem updateCheck_append (wrap : Wrap) (c : Word) (x y : List Byte) :
    updateCheck wrap (updateCheck wrap c x) y = updateCheck wrap c (x ++ y) := by
  cases wrap with
  | raw => rfl
  | zlib =>
    simp only [updateCheck, adler32, List.foldl_append]
    have h := adler_foldl_lt x (c.toNat % 65536, c.toNat / 65536) ⟨by simp only; omega, by have := c.isLt; simp only; omega⟩
    generalize x.foldl adlerStep _ = p at h
    have e : (BitVec.ofNat 32 (p.2 * 65536 + p.1)).toNat = p.2 * 65536 + p.1 := by
      rw [BitVec.toNat_ofNat]; omega
    rw [e, show (p.2 * 65536 + p.1) % 65536 = p.1 by omega, show (p.2 * 65536 + p.1) / 65536 = p.2 by omega]
  | gzip =>
    simp only [updateCheck, crc32, List.foldl_append, BitVec.xor_assoc, BitVec.xor_self, BitVec.xor_zero]

theorem updateCheck_nil (wrap : Wrap) (c : Word) : updateCheck wrap c [] = c := by
  cases wrap with
  | raw => rfl
  | zlib =>
    simp only [updateCheck, adler32, List.foldl_nil]
    apply BitVec.eq_of_toNat_eq
    have := c.isLt
    rw [BitVec.toNat_ofNat]
    omega
  | gzip => simp only [updateCheck, crc32, List.foldl_nil, BitVec.xor_assoc, BitVec.xor_self, BitVec.xor_zero]

/-- The buffers lie in the address space and apart (20_memory.md R86). -/
def Apart (s : State) : Prop := ¬ BadRanges s

/-- `k` input bytes have been consumed and `m` output bytes written between `s` and `s'`; RESULT, BUSY and `S.state` are
not spoken of. -/
structure Moves (k m : Nat) (s s' : State) : Prop where
  kLe : k ≤ s.inAvail.toNat
  mLe : m ≤ s.outAvail.toNat
  inPtr : s'.inPtr = s.inPtr + BitVec.ofNat 32 k
  inAvail : s'.inAvail = s.inAvail - BitVec.ofNat 32 k
  totalIn : s'.totalIn = s.totalIn + BitVec.ofNat 32 k
  outPtr : s'.outPtr = s.outPtr + BitVec.ofNat 32 m
  outAvail : s'.outAvail = s.outAvail - BitVec.ofNat 32 m
  totalOut : s'.totalOut = s.totalOut + BitVec.ofNat 32 m
  config : s'.config = s.config
  bound : s'.bound = s.bound
  overrun : s'.overrun = s.overrun
  inputs : s'.inputs = s.inputs
  readData : s'.readData = s.readData
  draws : s'.draws = s.draws
  same : SameConfig s.stream s'.stream
  memory : ∀ a, (∀ i, i < m → a ≠ (s.outPtr + BitVec.ofNat 32 i).toNat) → s'.memory.read a = s.memory.read a
  wf : s.memory.wf = true → s'.memory.wf = true
  check : Apart s → s'.check = updateCheck s.stream.wrap s.check (inputBytes s k)

theorem inputBytes_add (s : State) (k j : Nat) :
    inputBytes s (k + j) = inputBytes s k ++ (List.range j).map (fun i => inputByte s (k + i)) := by
  simp only [inputBytes, List.range_add, List.map_append, List.map_map]
  rfl

namespace Moves

theorem refl (s : State) : Moves 0 0 s s where
  kLe := by omega
  mLe := by omega
  inPtr := by simp
  inAvail := by simp
  totalIn := by simp
  outPtr := by simp
  outAvail := by simp
  totalOut := by simp
  config := rfl
  bound := rfl
  overrun := rfl
  inputs := rfl
  readData := rfl
  draws := rfl
  same := SameConfig.refl _
  memory := fun _ _ => rfl
  wf := id
  check := fun _ => by simp [inputBytes, updateCheck_nil]

theorem toNat_inAvail {k m : Nat} {s s' : State} (h : Moves k m s s') : s'.inAvail.toNat = s.inAvail.toNat - k := by
  rw [h.inAvail, toNat_sub_count _ _ h.kLe]

theorem toNat_outAvail {k m : Nat} {s s' : State} (h : Moves k m s s') :
    s'.outAvail.toNat = s.outAvail.toNat - m := by
  rw [h.outAvail, toNat_sub_count _ _ h.mLe]

theorem toNat_inPtr {k m : Nat} {s s' : State} (h : Moves k m s s') (hlt : s.inPtr.toNat + k < 2 ^ 32) :
    s'.inPtr.toNat = s.inPtr.toNat + k := by
  rw [h.inPtr, BitVec.toNat_add, BitVec.toNat_ofNat]; omega

theorem toNat_outPtr {k m : Nat} {s s' : State} (h : Moves k m s s') (hlt : s.outPtr.toNat + m < 2 ^ 32) :
    s'.outPtr.toNat = s.outPtr.toNat + m := by
  rw [h.outPtr, BitVec.toNat_add, BitVec.toNat_ofNat]; omega

/-- What is left of two buffers that are apart is apart. -/
theorem apart {k m : Nat} {s s' : State} (h : Moves k m s s') (ha : Apart s) : Apart s' := by
  simp only [Apart, BadRanges, not_or, not_exists, not_and] at *
  obtain ⟨a1, a2, a3⟩ := ha
  have hk := h.kLe
  have hm := h.mLe
  have e1 := h.toNat_inAvail
  have e2 := h.toNat_outAvail
  have p1 : s'.inPtr.toNat = (s.inPtr.toNat + k) % 2 ^ 32 := by
    rw [h.inPtr, BitVec.toNat_add, BitVec.toNat_ofNat]; omega
  have p2 : s'.outPtr.toNat = (s.outPtr.toNat + m) % 2 ^ 32 := by
    rw [h.outPtr, BitVec.toNat_add, BitVec.toNat_ofNat]; omega
  refine ⟨by omega, by omega, fun a b1 b2 b3 => ?_⟩
  have := a3 a
  omega

theorem trans {k m k' m' : Nat} {s s' s'' : State} (h : Moves k m s s') (h' : Moves k' m' s' s'') :
    Moves (k + k') (m + m') s s'' where
  kLe := by have := h'.kLe; rw [h.toNat_inAvail] at this; have := h.kLe; omega
  mLe := by have := h'.mLe; rw [h.toNat_outAvail] at this; have := h.mLe; omega
  inPtr := by rw [h'.inPtr, h.inPtr, BitVec.ofNat_add, BitVec.add_assoc]
  inAvail := by rw [h'.inAvail, h.inAvail, BitVec.ofNat_add, BitVec.sub_sub]
  totalIn := by rw [h'.totalIn, h.totalIn, BitVec.ofNat_add, BitVec.add_assoc]
  outPtr := by rw [h'.outPtr, h.outPtr, BitVec.ofNat_add, BitVec.add_assoc]
  outAvail := by rw [h'.outAvail, h.outAvail, BitVec.ofNat_add, BitVec.sub_sub]
  totalOut := by rw [h'.totalOut, h.totalOut, BitVec.ofNat_add, BitVec.add_assoc]
  config := h'.config.trans h.config
  bound := h'.bound.trans h.bound
  overrun := h'.overrun.trans h.overrun
  inputs := h'.inputs.trans h.inputs
  readData := h'.readData.trans h.readData
  draws := h'.draws.trans h.draws
  same := h.same.trans h'.same
  memory := by
    intro a ha
    rw [h'.memory a, h.memory a]
    · intro i hi
      exact ha i (by omega)
    · intro i hi
      rw [h.outPtr, BitVec.add_assoc, ← BitVec.ofNat_add]
      exact ha (m + i) (by omega)
  wf := fun w => h'.wf (h.wf w)
  check := by
    intro ha
    rw [h'.check (h.apart ha), h.same.2.1, h.check ha, updateCheck_append, inputBytes_add]
    congr 2
    apply List.map_congr_left
    intro i hi
    have hi := List.mem_range.mp hi
    have hk' := h'.kLe
    rw [h.toNat_inAvail] at hk'
    simp only [inputByte, h.inPtr]
    rw [BitVec.add_assoc, ← BitVec.ofNat_add]
    apply h.memory
    intro j hj heq
    have hm := h.mLe
    simp only [Apart, BadRanges, not_or, not_exists, not_and] at ha
    obtain ⟨a1, a2, a3⟩ := ha
    have q1 : (s.inPtr + BitVec.ofNat 32 (k + i)).toNat = s.inPtr.toNat + (k + i) := by
      rw [BitVec.toNat_add, BitVec.toNat_ofNat]; omega
    have q2 : (s.outPtr + BitVec.ofNat 32 j).toNat = s.outPtr.toNat + j := by
      rw [BitVec.toNat_add, BitVec.toNat_ofNat]; omega
    rw [q1, q2] at heq
    exact a3 (s.inPtr.toNat + (k + i)) (by omega) (by omega) (by omega) (by omega)

/-- Changes of the stream that keep its configuration, of RESULT, BUSY and `S.state`, move nothing. -/
theorem onStream (g : Stream → Stream) (hg : ∀ t, SameConfig t (g t)) (s : State) : Moves 0 0 s (s.onStream g) :=
  { refl s with same := hg _ }

theorem setPhase (p : Phase) (s : State) : Moves 0 0 s (setPhase p s) := { refl s with }

theorem endCommand (r : Result) (s : State) : Moves 0 0 s (endCommand r s) := { refl s with }

theorem setLastFlush (l : LastFlush) (s : State) : Moves 0 0 s (setLastFlush l s) := { refl s with }

theorem read (n dst : Nat) (s : State) : Moves (readCount n s) 0 s (readInput n dst s) := by
  rw [readInput_eq]
  exact {
    kLe := readCount_le n s
    mLe := by omega
    inPtr := rfl
    inAvail := rfl
    totalIn := rfl
    outPtr := by simp
    outAvail := by simp
    totalOut := by simp
    config := rfl
    bound := rfl
    overrun := rfl
    inputs := rfl
    readData := rfl
    draws := rfl
    same := SameConfig.refl _
    memory := fun _ _ => rfl
    wf := id
    check := fun _ => rfl }

theorem flush (s : State) : Moves 0 (flushCount s) s (flushPending s) := by
  rw [flushPending_eq]
  exact {
    kLe := by omega
    mLe := flushCount_le s
    inPtr := by simp
    inAvail := by simp
    totalIn := by simp
    outPtr := rfl
    outAvail := rfl
    totalOut := rfl
    config := rfl
    bound := rfl
    overrun := rfl
    inputs := rfl
    readData := rfl
    draws := rfl
    same := SameConfig.refl _
    memory := by
      intro a ha
      apply storeBytes_other
      intro i hi
      apply ha
      simp only [List.length_take] at hi
      omega
    wf := storeBytes_wf _ _ _
    check := fun _ => by simp [inputBytes, updateCheck_nil] }

end Moves

/-- `Moves` by some amounts. -/
def Moved (s s' : State) : Prop := ∃ k m, Moves k m s s'

theorem Moved.refl (s : State) : Moved s s := ⟨0, 0, Moves.refl s⟩

theorem Moved.trans {s s' s'' : State} (h : Moved s s') (h' : Moved s' s'') : Moved s s'' := by
  obtain ⟨k, m, h⟩ := h
  obtain ⟨k', m', h'⟩ := h'
  exact ⟨_, _, h.trans h'⟩

theorem Moves.moved {k m : Nat} {s s' : State} (h : Moves k m s s') : Moved s s' := ⟨k, m, h⟩

theorem strategic_moved (s0 : State) : Strategic (fun a b => b = a ∧ Moved s0 a) where
  same := by rintro s s' ⟨rfl, -⟩; exact ⟨rfl, rfl, rfl⟩
  onStream := by
    rintro s s' g hg ⟨rfl, h⟩
    exact ⟨rfl, h.trans (Moves.onStream g hg _).moved⟩
  read := by
    rintro s s' n dst ⟨rfl, h⟩
    exact ⟨rfl, h.trans (Moves.read n dst _).moved⟩
  flush := by
    rintro s s' ⟨rfl, h⟩
    exact ⟨rfl, h.trans (Moves.flush _).moved⟩

theorem runStrategy_moved (f : Flush) (s : State) : Moved s (runStrategy f s).2 :=
  ((strategic_moved s).runStrategy f ⟨rfl, Moved.refl s⟩).2.2

theorem strategic_kept (r : Result) (p : Phase) (w : Option Word) :
    Strategic (fun a b => b = a ∧ a.result = r ∧ a.phase = p ∧ a.running = w) where
  same := by rintro s s' ⟨rfl, -⟩; exact ⟨rfl, rfl, rfl⟩
  onStream := by rintro s s' g hg ⟨rfl, h⟩; exact ⟨rfl, h⟩
  read := by rintro s s' n dst ⟨rfl, h⟩; rw [readInput_eq]; exact ⟨rfl, h⟩
  flush := by rintro s s' ⟨rfl, h⟩; rw [flushPending_eq]; exact ⟨rfl, h⟩

theorem runStrategy_kept (f : Flush) (s : State) :
    (runStrategy f s).2.result = s.result ∧ (runStrategy f s).2.phase = s.phase ∧
      (runStrategy f s).2.running = s.running :=
  ((strategic_kept s.result s.phase s.running).runStrategy f ⟨rfl, rfl, rfl, rfl⟩).2.2

theorem emitHeader_same (t : Stream) : SameConfig t (emitHeader t) := SameConfig.refl t

theorem emitTrailer_moved (s : State) : Moved s (emitTrailer s) :=
  ⟨0, 0, { Moves.refl s with }⟩

theorem markTrailer_moved (s : State) : Moved s (markTrailer s) :=
  ⟨0, 0, { Moves.refl s with }⟩

theorem returnOutFull_moved (s : State) : Moved s (returnOutFull s) :=
  (Moves.setLastFlush _ s).moved.trans (Moves.endCommand _ _).moved

theorem deflateTail_moved (f : Flush) (s : State) : Moved s (deflateTail f s) := by
  simp only [deflateTail]
  split
  · exact (Moves.endCommand _ s).moved
  · split
    · exact (Moves.setPhase _ s).moved.trans (Moves.endCommand _ _).moved
    · have h : Moved s (flushPending (markTrailer (emitTrailer s))) :=
        ((emitTrailer_moved s).trans (markTrailer_moved _)).trans (Moves.flush _).moved
      generalize flushPending (markTrailer (emitTrailer s)) = u at *
      split
      · exact h.trans (Moves.endCommand _ u).moved
      · exact (h.trans (Moves.setPhase _ u).moved).trans (Moves.endCommand _ _).moved

theorem enterFinishing_moved (b : BlockState) (s : State) : Moved s (enterFinishing b s) := by
  unfold enterFinishing
  split
  · exact (Moves.setPhase _ s).moved
  · exact Moved.refl s

theorem afterStrategy_moved (f : Flush) (b : BlockState) (s : State) : Moved s (afterStrategy f b s) := by
  simp only [afterStrategy]
  have h := enterFinishing_moved b s
  generalize enterFinishing b s = u at *
  split
  · split
    · exact h.trans (returnOutFull_moved u)
    · exact h.trans (Moves.endCommand _ u).moved
  · split
    · have h2 : Moved s (flushPending (u.onStream (flushMarker f))) :=
        (h.trans (Moves.onStream _ (flushMarker_same f) u).moved).trans (Moves.flush _).moved
      generalize flushPending (u.onStream (flushMarker f)) = v at *
      split
      · exact h2.trans (returnOutFull_moved v)
      · exact h2.trans (deflateTail_moved f v)
    · exact h.trans (deflateTail_moved f u)

theorem deflateRun_moved (f : Flush) (s : State) : Moved s (deflateRun f s) := by
  simp only [deflateRun]
  split
  · exact (runStrategy_moved f s).trans (afterStrategy_moved f _ _)
  · exact deflateTail_moved f s

theorem deflateHeader_moved (f : Flush) (s : State) : Moved s (deflateHeader f s) := by
  simp only [deflateHeader]
  split
  · have h : Moved s (setPhase .active (s.onStream emitHeader)) :=
      (Moves.onStream _ emitHeader_same s).moved.trans (Moves.setPhase _ _).moved
    generalize setPhase .active (s.onStream emitHeader) = u at *
    split
    · have h2 := h.trans (Moves.flush u).moved
      generalize flushPending u = v at *
      split
      · exact h2.trans (returnOutFull_moved v)
      · exact h2.trans (deflateRun_moved f v)
    · exact h.trans (deflateRun_moved f u)
  · exact deflateRun_moved f s

theorem deflateFinishing_moved (f : Flush) (s : State) : Moved s (deflateFinishing f s) := by
  simp only [deflateFinishing]
  split
  · exact (Moves.endCommand _ s).moved
  · exact deflateHeader_moved f s

theorem deflateBody_moved (f : Flush) (s : State) : Moved s (deflateBody f s) := by
  simp only [deflateBody]
  have h := (Moves.setLastFlush (.mode f) s).moved
  generalize setLastFlush (.mode f) s = u at *
  split
  · have h2 := h.trans (Moves.flush u).moved
    generalize flushPending u = v at *
    split
    · exact h2.trans (returnOutFull_moved v)
    · exact h2.trans (deflateFinishing_moved f v)
  · split
    · exact h.trans (Moves.endCommand _ u).moved
    · exact h.trans (deflateFinishing_moved f u)

end Sys2Proof.Machine
end

