-- ==== Sys2Proof/Laws/PerInstr.lean ====
section
/-! SUPPORT. Statements made for every command, one lemma per constructor. -/

namespace Sys2Proof.Laws.TableRow

/-- The mask and the match of the command's row (30_encoding.md R116). -/
def row : Instr → Word × Word
  | .init _ _ => (0xFFF000FF, 0x00000001)
  | .reset => (0xFFFFFFFF, 0x00000002)
  | .deflateNoFlush => (0xFFFFFFFF, 0x00000003)
  | .deflateSyncFlush => (0xFFFFFFFF, 0x00000023)
  | .deflateFullFlush => (0xFFFFFFFF, 0x00000033)
  | .deflateFinish => (0xFFFFFFFF, 0x00000043)
  | .endStream => (0xFFFFFFFF, 0x00000004)
  | .bound => (0xFFFFFFFF, 0x00000005)

/-- The word of a command matches its row of the opcode table. -/
def Statement (i : Instr) : Prop := encode i &&& (row i).1 = (row i).2

theorem init (level : BitVec 4) (wbits : BitVec 8) : Statement (.init level wbits) := by
  revert level wbits
  show ∀ (level : BitVec 4) (wbits : BitVec 8), commandWord wbits level 0 1 &&& 0xFFF000FF = 0x00000001
  decide +kernel

theorem reset : Statement .reset := rfl

theorem deflateNoFlush : Statement .deflateNoFlush := rfl

theorem deflateSyncFlush : Statement .deflateSyncFlush := rfl

theorem deflateFullFlush : Statement .deflateFullFlush := rfl

theorem deflateFinish : Statement .deflateFinish := rfl

theorem endStream : Statement .endStream := rfl

theorem bound : Statement .bound := rfl

end Sys2Proof.Laws.TableRow
end

