-- ==== Sys2Proof/Laws/Started.lean ====
section
/-! SUPPORT. A started stream is at the loop point of its own strategy, and a stream right after INIT or RESET is a started
one (40_commands.md R152, R154; 41_lz77.md R217). -/

namespace Sys2Proof.Machine

theorem Matching.windowOk {t : Stream} (h : Matching t (heldByte t)) (ha : t.matchAvailable = true → t.strategy = .slow)
    (hs : t.strategy ≠ .stored) (hf : t.strategy = .fast → FastOk t) (hl : t.strategy = .slow → SlowOk t) : WindowOk t :=
  ⟨h.room, by have := h.span; omega, h.ins2, h.insLe, h.tally, ha, fun e => absurd e hs,
    fun _ => ⟨h.span, h.syms, h.chain, h.deferred⟩, hf, hl⟩

theorem WindowOk.matching {t : Stream} (hc : ConfigOk t) (h : WindowOk t) (hs : t.strategy ≠ .stored) :
    Matching t (heldByte t) := by
  obtain ⟨a, b, c, d, e, f, g, k, l, m⟩ := h
  obtain ⟨k1, k2, k3, k4⟩ := k hs
  exact ⟨hc, a, k1, k2, k3, c, d, k4, e⟩

/-- A started stream of strategy FAST is at the loop point of `DeflateFast`, and conversely. -/
theorem streamOk_fast (t : Stream) (hs : t.strategy = .fast) : StreamOk t ↔ FastPoint t := by
  constructor
  · rintro ⟨h1, h2, h3, h4⟩
    have hm := h3.matching h1 (by rw [hs]; decide)
    obtain ⟨a, b, c, d, e, f, g, k, l, m⟩ := h3
    have ha : t.matchAvailable = false := by
      cases hx : t.matchAvailable with
      | false => rfl
      | true => have := f hx; rw [hs] at this; cases this
    rw [show heldByte t = 0 by simp [heldByte, ha]] at hm
    exact ⟨hm, l hs, h2, h4, hs, ha⟩
  · rintro ⟨h1, h2, h3, h4, -, h6⟩
    rw [show (0 : Nat) = heldByte t by simp [heldByte, h6]] at h1
    exact ⟨h1.cfg, h3, h1.windowOk (by rw [h6]; intro h; cases h) (by rw [hs]; decide) (fun _ => h2)
      (by rw [hs]; intro h; cases h), h4⟩

/-- A started stream of strategy SLOW is at the loop point of `DeflateSlow`, and conversely. -/
theorem streamOk_slow (t : Stream) (hs : t.strategy = .slow) : StreamOk t ↔ SlowPoint t := by
  constructor
  · rintro ⟨h1, h2, h3, h4⟩
    have hm := h3.matching h1 (by rw [hs]; decide)
    obtain ⟨a, b, c, d, e, f, g, k, l, m⟩ := h3
    exact ⟨hm, m hs, h2, h4, hs⟩
  · rintro ⟨h1, h2, h3, h4, -⟩
    exact ⟨h1.cfg, h3, h1.windowOk (fun _ => hs) (by rw [hs]; decide) (by rw [hs]; intro h; cases h) (fun _ => h2), h4⟩

/-- A started stream of strategy STORED is at the loop point of `DeflateStored`, and conversely. -/
theorem streamOk_stored (t : Stream) (hs : t.strategy = .stored) : StreamOk t ↔ StoredPoint t := by
  constructor
  · rintro ⟨h1, h2, h3, h4⟩
    obtain ⟨a, b, c, d, e, f, g, k, l, m⟩ := h3
    refine ⟨h1, a, g hs, b, e, h2, hs, ?_⟩
    cases hx : t.matchAvailable with
    | false => rfl
    | true => have := f hx; rw [hs] at this; cases this
  · rintro ⟨h1, h2, h3, h4, h5, h6, -, h8⟩
    have hi : t.insert = 0 := h3.2.1
    have e1 : t.matchAvailable = true → t.strategy = .slow := by rw [h8]; intro h; cases h
    have e2 : t.strategy = .fast → FastOk t := by rw [hs]; intro h; cases h
    have e3 : t.strategy = .slow → SlowOk t := by rw [hs]; intro h; cases h
    have e4 : t.syms.length < 16383 := by rw [h3.1]; decide
    exact ⟨h1, h6, ⟨h2, h4, by omega, by omega, h5, e1, fun _ => h3, fun h => absurd hs h, e2, e3⟩, e4⟩

/-- After `ResetStream` the stream is a started one: every loop point holds with nothing read, whatever the configuration
(40_commands.md R154). -/
theorem resetFields_streamOk (t : Stream) (h : ConfigOk t) : StreamOk (resetFields t) := by
  have hw := h.window
  have hc : ConfigOk (resetFields t) := h
  have hm : Matching (resetFields t) 0 := {
    cfg := hc
    room := Nat.zero_le _
    span := rfl
    syms := fun d l hd => by cases hd
    chain := (chainOk_iff _).2 (ChainBelow.empty rfl)
    ins2 := Nat.zero_le _
    insLe := Nat.le_refl _
    deferred := Or.inl rfl
    tally := initBlock_tallyOk _ }
  have hwr : WriterOk (resetFields t) := ⟨Nat.zero_le _, Nat.one_pos⟩
  have hl : (resetFields t).syms.length < 16383 := by
    rw [show (resetFields t).syms = [] from rfl]
    decide
  have hst : (resetFields t).strategy = t.strategy := rfl
  have ha : (resetFields t).matchAvailable = false := rfl
  have hml : (resetFields t).matchLength = 2 := rfl
  have hb : (resetFields t).blockStart = 0 := rfl
  have hp : (resetFields t).strstart = 0 := rfl
  have hd : (resetFields t).maxDist = t.maxDist := maxDist_congr rfl
  have hpl : (resetFields t).prevLength = 2 := rfl
  have hi : (resetFields t).insert = 0 := rfl
  have hy : (resetFields t).syms = [] := rfl
  generalize resetFields t = u at *
  cases hs : u.strategy with
  | stored =>
    have hso : StoredOk u := ⟨hy, hi, by rw [hb], by rw [hb, hp, hd]; omega⟩
    exact (streamOk_stored _ hs).2 ⟨hc, hm.room, hso, by rw [hb, hp]; exact Int.le_refl _, hm.tally, hwr, hs, ha⟩
  | fast => exact (streamOk_fast _ hs).2 ⟨hm, ⟨by omega, hpl⟩, hwr, hl, hs, ha⟩
  | slow =>
    have hh : heldByte u = 0 := by simp [heldByte, ha]
    exact (streamOk_slow _ hs).2 ⟨by rw [hh]; exact hm, ⟨by omega, fun h3 => by omega⟩, hwr, hl, hs⟩

/-- What an accepted INIT writes is a legal configuration (40_commands.md R152). -/
theorem configureStream_configOk (level : Nat) (wrap : Wrap) (wb draw : Nat) (t : Stream) (hl : level ≤ 9) (h8 : 8 ≤ wb)
    (h15 : wb ≤ 15) : ConfigOk (configureStream level wrap wb draw t) :=
  ⟨hl, h8, h15, rfl, rfl, rfl, rfl, rfl, rfl⟩

/-- What `FlushPending` leaves alone. -/
theorem flushPending_kept (s : State) : (flushPending s).phase = s.phase ∧ (flushPending s).inAvail = s.inAvail ∧
    ∃ p, (flushPending s).stream = { s.stream with pending := p } := by
  rw [flushPending_eq]
  exact ⟨rfl, rfl, _, rfl⟩

/-- `FlushPending` touches no invariant of the stream. -/
theorem flushPending_streamOk (s : State) (h : StreamOk s.stream) : StreamOk (flushPending s).stream := by
  rw [flushPending_eq]
  exact h

/-- Forgetting the history keeps the invariants, once nothing waits to be encoded (40_commands.md R164). -/
theorem clearHistory_streamOk {t : Stream} (h : StreamOk t)
    (hs : t.lookahead = 0 → t.syms = [] ∧ t.matchAvailable = false) :
    StreamOk (clearHistory t) := by
  unfold clearHistory
  split
  next h0 =>
    obtain ⟨e1, e2⟩ := hs h0
    obtain ⟨h1, h2, ⟨a, b, c, d, e, f, g, k, l, m⟩, h4⟩ := h
    have hw := h1.window
    have hsp : symsSpan t = 0 := by simp [symsSpan, e1]
    have hh : heldByte t = 0 := by simp [heldByte, e2]
    refine ⟨h1, h2, ⟨(by show 0 + t.lookahead ≤ 2 * t.wSize; omega), Int.le_refl _, Nat.zero_le _, Nat.le_refl _, e, f,
      fun hs => ?_, fun hs => ?_, l, fun hs => ?_⟩, h4⟩
    · refine ⟨e1, rfl, Int.le_refl _, ?_⟩
      show (0 : Int) - 0 < _
      have hmd := maxDist_congr (t := t) (u := { t with head := .empty, strstart := 0, blockStart := 0, insert := 0 }) rfl
      rw [hmd]
      omega
    · obtain ⟨k1, k2, k3, k4⟩ := k hs
      refine ⟨?_, k2, (chainOk_iff _).2 (ChainBelow.empty rfl), Or.inl rfl⟩
      show (0 : Int) - 0 = (symsSpan t : Int) + (heldByte t : Int)
      omega
    · obtain ⟨m1, m2⟩ := m hs
      refine ⟨m1, fun h3 => ?_⟩
      have := (m2 h3).1
      rw [e2] at this
      cases this
  next h0 =>
    obtain ⟨h1, h2, ⟨a, b, c, d, e, f, g, k, l, m⟩, h4⟩ := h
    refine ⟨h1, h2, ⟨a, b, c, d, e, f, g, fun hs => ?_, l, m⟩, h4⟩
    obtain ⟨k1, k2, k3, k4⟩ := k hs
    exact ⟨k1, k2, (chainOk_iff _).2 (ChainBelow.empty rfl), k4⟩

/-- Writing bits keeps the invariants. -/
theorem Writes.streamOk {t u : Stream} (h : Writes t u) (ht : StreamOk t) : StreamOk u := by
  obtain ⟨⟨a, c, p, rfl⟩, hw⟩ := h
  obtain ⟨h1, h2, h3, h4⟩ := ht
  exact ⟨h1, hw h2, h3, h4⟩

/-- The flush marker keeps the invariants (40_commands.md R164). -/
theorem flushMarker_streamOk (f : Flush) {t : Stream} (h : StreamOk t)
    (hs : t.lookahead = 0 → t.syms = [] ∧ t.matchAvailable = false) :
    StreamOk (flushMarker f t) := by
  unfold flushMarker
  have hw := sendStoredBlock_writes [] false t
  have h' := hw.streamOk h
  obtain ⟨⟨a, c, p, e⟩, -⟩ := hw
  simp only
  split
  · refine clearHistory_streamOk h' ?_
    rw [e]
    exact hs
  · exact h'

end Sys2Proof.Machine
end

