-- ==== Sys2Proof/Laws/Trees.lean ====
section
/-! SUPPORT. The tree builder: what its heap keeps, and that every leaf in it gets a length
(42_huffman_builder.md R243 to R250). -/

namespace Sys2Proof.Machine

/-- Node `n` stands in the heap. -/
def InHeap (w : Work) (n : Nat) : Prop := ∃ i, 1 ≤ i ∧ i ≤ w.heapLen ∧ w.heap.get 0 i = n

/-- Node `n` has been removed from the heap. -/
def OnShelf (w : Work) (n : Nat) : Prop := ∃ i, w.heapMax ≤ i ∧ i < 573 ∧ w.heap.get 0 i = n

theorem heap_set (t : Table Nat) (i j v : Nat) (hi : i < 65536) (hj : j < 65536) :
    (t.set 0 i v).get 0 j = if j = i then v else t.get 0 j := by
  split
  next h => rw [h, Table.get_set_same]
  next h => exact Table.get_set_other _ _ _ _ _ hi hj h

/-- What `DownHeap` does with `v` in hand at place `k`: no other node of the heap is lost, and nothing above the heap moves
(42_huffman_builder.md R243). -/
theorem siftLoop_spec (v turns k : Nat) (w : Work) (hk : 1 ≤ k ∧ k ≤ w.heapLen) (hl : w.heapLen < 573) :
    (siftLoop v turns k w).heapLen = w.heapLen ∧ (siftLoop v turns k w).heapMax = w.heapMax ∧
    (siftLoop v turns k w).maxCode = w.maxCode ∧ (siftLoop v turns k w).freq = w.freq ∧
    (∀ i, i < 573 → w.heapLen < i → (siftLoop v turns k w).heap.get 0 i = w.heap.get 0 i) ∧
    ∀ n, n = v ∨ (∃ i, 1 ≤ i ∧ i ≤ w.heapLen ∧ i ≠ k ∧ w.heap.get 0 i = n) → InHeap (siftLoop v turns k w) n := by
  have base : ∀ w : Work, 1 ≤ k ∧ k ≤ w.heapLen → w.heapLen < 573 →
      (∀ i, i < 573 → w.heapLen < i → (w.heap.set 0 k v).get 0 i = w.heap.get 0 i) ∧
      ∀ n, n = v ∨ (∃ i, 1 ≤ i ∧ i ≤ w.heapLen ∧ i ≠ k ∧ w.heap.get 0 i = n) →
        InHeap { w with heap := w.heap.set 0 k v } n := by
    intro w hk hl
    refine ⟨fun i h1 h2 => by rw [heap_set _ _ _ _ (by omega) (by omega), if_neg (by omega)], ?_⟩
    rintro n (rfl | ⟨i, h1, h2, h3, h4⟩)
    · exact ⟨k, hk.1, hk.2, Table.get_set_same ..⟩
    · refine ⟨i, h1, h2, ?_⟩
      show (w.heap.set 0 k v).get 0 i = n
      rw [heap_set _ _ _ _ (by omega) (by omega), if_neg h3, h4]
  induction turns generalizing k w with
  | zero =>
    obtain ⟨b1, b2⟩ := base w hk hl
    exact ⟨rfl, rfl, rfl, rfl, b1, b2⟩
  | succ turns ih =>
    obtain ⟨b1, b2⟩ := base w hk hl
    simp only [siftLoop]
    split
    next h2 =>
      split
      next => exact ⟨rfl, rfl, rfl, rfl, b1, b2⟩
      next =>
        have hj : 2 * k ≤ siftChild w (2 * k) ∧ siftChild w (2 * k) ≤ w.heapLen := by
          unfold siftChild
          split
          next h => simp at h; omega
          next => omega
        generalize siftChild w (2 * k) = j at *
        obtain ⟨c1, c2, c3, c4, c5, c6⟩ :=
          ih j { w with heap := w.heap.set 0 k (w.heap.get 0 j) } ⟨by omega, hj.2⟩ hl (by
          intro w hk hl
          refine ⟨fun i h1 h2 => by rw [heap_set _ _ _ _ (by omega) (by omega), if_neg (by omega)], ?_⟩
          rintro n (rfl | ⟨i, h1, h2, h3, h4⟩)
          · exact ⟨j, hk.1, hk.2, Table.get_set_same ..⟩
          · refine ⟨i, h1, h2, ?_⟩
            show (w.heap.set 0 j v).get 0 i = n
            rw [heap_set _ _ _ _ (by omega) (by omega), if_neg h3, h4])
        refine ⟨c1, c2, c3, c4, fun i h1 h2 => ?_, ?_⟩
        · rw [c5 i h1 h2]
          show (w.heap.set 0 k _).get 0 i = _
          rw [heap_set _ _ _ _ (by omega) (by omega), if_neg (by omega)]
        · rintro n (rfl | ⟨i, h1, h2, h3, h4⟩)
          · exact c6 _ (Or.inl rfl)
          · apply c6
            right
            by_cases hij : i = j
            · subst hij
              refine ⟨k, hk.1, hk.2, by omega, ?_⟩
              show (w.heap.set 0 k _).get 0 k = _
              rw [Table.get_set_same, h4]
            · refine ⟨i, h1, h2, hij, ?_⟩
              show (w.heap.set 0 k _).get 0 i = _
              rw [heap_set _ _ _ _ (by omega) (by omega), if_neg h3, h4]
    next => exact ⟨rfl, rfl, rfl, rfl, b1, b2⟩

/-- Everything `DownHeap` may change (42_huffman_builder.md R243). -/
theorem downHeap_spec (k : Nat) (w : Work) (hk : 1 ≤ k ∧ k ≤ w.heapLen) (hl : w.heapLen < 573) :
    (downHeap k w).heapLen = w.heapLen ∧ (downHeap k w).heapMax = w.heapMax ∧ (downHeap k w).maxCode = w.maxCode ∧
    (downHeap k w).freq = w.freq ∧
    (∀ i, i < 573 → w.heapLen < i → (downHeap k w).heap.get 0 i = w.heap.get 0 i) ∧
    ∀ n, InHeap w n → InHeap (downHeap k w) n := by
  obtain ⟨a, b, c, d, e, f⟩ := siftLoop_spec (w.heap.get 0 k) w.heapLen k w hk hl
  refine ⟨a, b, c, d, e, ?_⟩
  rintro n ⟨i, h1, h2, h3⟩
  apply f
  by_cases h : i = k
  · left; rw [← h3, h]
  · exact Or.inr ⟨i, h1, h2, h, h3⟩

/-- Every leaf of `S` stands in the heap or on the shelf, and the two do not meet. -/
def Kept (S : Nat → Prop) (w : Work) : Prop :=
  w.heapLen + 1 ≤ w.heapMax ∧ w.heapMax ≤ 573 ∧ ∀ n, S n → InHeap w n ∨ OnShelf w n

theorem downHeap_kept {S : Nat → Prop} (k : Nat) (w : Work) (hk : 1 ≤ k ∧ k ≤ w.heapLen) (h : Kept S w) :
    Kept S (downHeap k w) ∧ (downHeap k w).heapLen = w.heapLen ∧ (downHeap k w).heapMax = w.heapMax := by
  obtain ⟨h1, h2, h3⟩ := h
  obtain ⟨a, b, c, d, e, f⟩ := downHeap_spec k w hk (by omega)
  refine ⟨⟨by rw [a, b]; exact h1, by rw [b]; exact h2, fun n hn => ?_⟩, a, b⟩
  rcases h3 n hn with h | ⟨i, i1, i2, i3⟩
  · exact Or.inl (f n h)
  · exact Or.inr ⟨i, by rw [b]; exact i1, i2, by rw [e i i2 (by omega)]; exact i3⟩

/-- The first ordering of the heap loses no node (42_huffman_builder.md R245). -/
theorem heapify_kept {S : Nat → Prop} (m : Nat) (w : Work) (hm : m ≤ w.heapLen) (h : Kept S w) :
    Kept S (heapify m w) ∧ (heapify m w).heapLen = w.heapLen ∧ (heapify m w).heapMax = w.heapMax := by
  induction m generalizing w with
  | zero => exact ⟨h, rfl, rfl⟩
  | succ m ih =>
    obtain ⟨a, b, c⟩ := downHeap_kept (m + 1) w ⟨by omega, hm⟩ h
    obtain ⟨d, e, f⟩ := ih (downHeap (m + 1) w) (by rw [b]; omega) a
    exact ⟨d, e.trans b, f.trans c⟩

/-- One merge loses no node, and the last one leaves the new node alone in the heap (42_huffman_builder.md R245). -/
theorem mergeStep_kept {S : Nat → Prop} (node : Nat) (w : Work) (hl : 2 ≤ w.heapLen) (hx : w.heapLen + 2 ≤ w.heapMax)
    (h : Kept S w) :
    Kept S (mergeStep node w) ∧ (mergeStep node w).heapLen = w.heapLen - 1 ∧ (mergeStep node w).heapMax = w.heapMax - 2 ∧
      (w.heapLen = 2 → (mergeStep node w).heap.get 0 1 = node) := by
  obtain ⟨h1, h2, h3⟩ := h
  -- the pop
  have pop : ∃ u, u = (popLeast w).2 ∧ u.heapLen = w.heapLen - 1 ∧ u.heapMax = w.heapMax ∧
      (∀ n, InHeap w n → n = w.heap.get 0 1 ∨ InHeap u n) ∧ (∀ n, OnShelf w n → OnShelf u n) := by
    refine ⟨_, rfl, ?_⟩
    simp only [popLeast]
    obtain ⟨a, b, c, d, e, f⟩ := downHeap_spec 1
      { w with heap := w.heap.set 0 1 (w.heap.get 0 w.heapLen), heapLen := w.heapLen - 1 }
      ⟨Nat.le_refl 1, by show 1 ≤ w.heapLen - 1; omega⟩ (by show w.heapLen - 1 < 573; omega)
    refine ⟨a, b, ?_, ?_⟩
    · rintro n ⟨i, i1, i2, i3⟩
      by_cases hi : i = 1
      · left; rw [← i3, hi]
      · right
        apply f
        by_cases hj : i = w.heapLen
        · refine ⟨1, Nat.le_refl 1, by show 1 ≤ w.heapLen - 1; omega, ?_⟩
          show (w.heap.set 0 1 _).get 0 1 = _
          rw [Table.get_set_same, ← i3, hj]
        · refine ⟨i, i1, by show i ≤ w.heapLen - 1; omega, ?_⟩
          show (w.heap.set 0 1 _).get 0 i = _
          rw [heap_set _ _ _ _ (by omega) (by omega), if_neg hi, i3]
    · rintro n ⟨i, i1, i2, i3⟩
      refine ⟨i, by rw [b]; exact i1, i2, ?_⟩
      rw [e i i2 (by show w.heapLen - 1 < i; omega)]
      show (w.heap.set 0 1 _).get 0 i = _
      rw [heap_set _ _ _ _ (by omega) (by omega), if_neg (by omega), i3]
  obtain ⟨u, hu, u1, u2, u3, u4⟩ := pop
  simp only [mergeStep]
  rw [← hu, show (popLeast w).1 = w.heap.get 0 1 from rfl]
  generalize w.heap.get 0 1 = a at *
  clear hu
  have key : ∀ x : Work, x.heapLen = u.heapLen → x.heapMax = u.heapMax - 2 →
      x.heap = (((u.heap.set 0 (u.heapMax - 1) a).set 0 (u.heapMax - 1 - 1) (u.heap.get 0 1)).set 0 1 node) →
      Kept S x ∧ x.heap.get 0 1 = node := by
    intro x x1 x2 x3
    have hg : ∀ i, i < 573 → x.heap.get 0 i =
        if i = 1 then node else if i = u.heapMax - 2 then u.heap.get 0 1
        else if i = u.heapMax - 1 then a else u.heap.get 0 i := by
      intro i hi
      rw [x3, heap_set _ _ _ _ (by omega) (by omega), heap_set _ _ _ _ (by omega) (by omega),
        heap_set _ _ _ _ (by omega) (by omega)]
      rfl
    refine ⟨⟨by omega, by omega, fun n hn => ?_⟩, by rw [hg 1 (by omega)]; rfl⟩
    have hshelf : OnShelf u n → OnShelf x n := by
      rintro ⟨i, i1, i2, i3⟩
      refine ⟨i, by omega, i2, ?_⟩
      rw [hg i i2, if_neg (by omega), if_neg (by omega), if_neg (by omega), i3]
    rcases h3 n hn with h | h
    · rcases u3 n h with rfl | ⟨i, i1, i2, i3⟩
      · right
        refine ⟨u.heapMax - 1, by omega, by omega, ?_⟩
        rw [hg _ (by omega), if_neg (by omega), if_neg (by omega), if_pos rfl]
      · by_cases hi : i = 1
        · right
          refine ⟨u.heapMax - 2, by omega, by omega, ?_⟩
          rw [hg _ (by omega), if_neg (by omega), if_pos rfl, ← i3, hi]
        · left
          refine ⟨i, i1, by omega, ?_⟩
          rw [hg i (by omega), if_neg hi, if_neg (by omega), if_neg (by omega), i3]
    · exact Or.inr (hshelf (u4 n h))
  have key2 : ∀ x : Work, x.heapLen = u.heapLen → x.heapMax = u.heapMax - 2 →
      x.heap = (((u.heap.set 0 (u.heapMax - 1) a).set 0 (u.heapMax - 1 - 1) (u.heap.get 0 1)).set 0 1 node) →
      Kept S (downHeap 1 x) ∧ (downHeap 1 x).heapLen = w.heapLen - 1 ∧ (downHeap 1 x).heapMax = w.heapMax - 2 ∧
        (w.heapLen = 2 → (downHeap 1 x).heap.get 0 1 = node) := by
    intro x x1 x2 x3
    obtain ⟨k1, k2⟩ := key x x1 x2 x3
    obtain ⟨d1, d2, d3⟩ := downHeap_kept 1 x ⟨Nat.le_refl 1, by omega⟩ k1
    refine ⟨d1, by omega, by omega, fun h2 => ?_⟩
    have hl1 : x.heapLen = 1 := by omega
    show (siftLoop _ x.heapLen 1 x).heap.get 0 1 = node
    rw [hl1]
    simp only [siftLoop]
    rw [if_neg (by omega)]
    show (x.heap.set 0 1 (x.heap.get 0 1)).get 0 1 = _
    rw [Table.get_set_same, k2]
  exact key2 _ rfl (by show u.heapMax - 1 - 1 = _; omega) rfl

/-- The merges end with one internal node in the heap, every leaf removed (42_huffman_builder.md R245). -/
theorem mergeLoop_kept {S : Nat → Prop} (turns node : Nat) (w : Work) (hl : 2 ≤ w.heapLen) (ht : w.heapLen ≤ turns + 1)
    (hx : w.heapLen * 2 ≤ w.heapMax) (h : Kept S w) :
    Kept S (mergeLoop turns node w) ∧ (mergeLoop turns node w).heapLen = 1 ∧
      node ≤ (mergeLoop turns node w).heap.get 0 1 ∧ 2 ≤ (mergeLoop turns node w).heapMax := by
  induction turns generalizing node w with
  | zero => omega
  | succ turns ih =>
    obtain ⟨a, b, c, d⟩ := mergeStep_kept node w hl (by omega) h
    simp only [mergeLoop]
    split
    next h2 => exact ⟨a, by omega, by rw [d (by omega)], by omega⟩
    next h2 =>
      obtain ⟨e1, e2, e3, e4⟩ := ih (node + 1) (mergeStep node w) (by omega) (by omega) (by omega) a
      exact ⟨e1, e2, by omega, e4⟩

/-- Entering the leaves: every used symbol is in the heap (42_huffman_builder.md R244). -/
theorem addLeaves_spec (freq : Table Nat) (cost : Cost) (m : Nat) (hm : m ≤ 286) :
    ∃ w, w = (List.range m).foldl addLeaf (Work.start freq cost) ∧ w.freq = freq ∧ w.heapMax = 573 ∧ w.heapLen ≤ m ∧
      (∀ n, n < m → freq.get 0 n ≠ 0 → InHeap w n) ∧ w.maxCode < m ∧ (-1 ≤ w.maxCode) ∧
      (w.heapLen = 0 → w.maxCode = -1) ∧ (w.heapLen = 1 → 0 ≤ w.maxCode ∧ w.heap.get 0 1 = w.maxCode.toNat) ∧
      (2 ≤ w.heapLen → ∃ a b, a < b ∧ b < m ∧ InHeap w a ∧ InHeap w b) := by
  induction m with
  | zero =>
    exact ⟨_, rfl, rfl, rfl, Nat.le_refl 0, by omega, (by decide : (-1 : Int) < 0),
      (by decide : (-1 : Int) ≤ -1), fun _ => rfl, fun h => absurd h (by show ¬ 0 = 1; decide), fun h => absurd h (by show ¬ 2 ≤ 0; decide)⟩
  | succ m ih =>
    obtain ⟨w, hw, h1, h2, h3, h4, h5, h5', h6, h7, h8⟩ := ih (by omega)
    refine ⟨_, rfl, ?_⟩
    rw [List.range_succ, List.foldl_append, ← hw]
    simp only [List.foldl_cons, List.foldl_nil, addLeaf]
    split
    next hf =>
      have hset : ∀ i, i < 573 →
          (w.heap.set 0 (w.heapLen + 1) m).get 0 i = if i = w.heapLen + 1 then m else w.heap.get 0 i :=
        fun i hi => heap_set _ _ _ _ (by omega) (by omega)
      have hkeep : ∀ n, InHeap w n →
          ∃ i, 1 ≤ i ∧ i ≤ w.heapLen + 1 ∧ (w.heap.set 0 (w.heapLen + 1) m).get 0 i = n := by
        rintro n ⟨i, i1, i2, i3⟩
        exact ⟨i, i1, by omega, by rw [hset i (by omega), if_neg (by omega), i3]⟩
      have hnew : ∃ i, 1 ≤ i ∧ i ≤ w.heapLen + 1 ∧ (w.heap.set 0 (w.heapLen + 1) m).get 0 i = m :=
        ⟨w.heapLen + 1, by omega, Nat.le_refl _, Table.get_set_same ..⟩
      refine ⟨h1, h2, by show w.heapLen + 1 ≤ m + 1; omega, ?_, by show (m : Int) < ((m + 1 : Nat) : Int); omega,
        by show (-1 : Int) ≤ m; omega, fun h => absurd h (Nat.succ_ne_zero _), ?_, ?_⟩
      · intro n hn hfn
        by_cases hnm : n = m
        · rw [hnm]; exact hnew
        · exact hkeep n (h4 n (by omega) hfn)
      · intro h
        have h0 : w.heapLen = 0 := by have : w.heapLen + 1 = 1 := h; omega
        refine ⟨by show (0 : Int) ≤ m; omega, ?_⟩
        show (w.heap.set 0 (w.heapLen + 1) m).get 0 1 = m
        rw [hset 1 (by omega), if_pos (by omega)]
      · intro h
        have hh : 2 ≤ w.heapLen + 1 := h
        by_cases h1' : w.heapLen = 1
        · obtain ⟨x1, x2⟩ := h7 h1'
          exact ⟨w.maxCode.toNat, m, by omega, by omega, hkeep _ ⟨1, Nat.le_refl 1, by omega, x2⟩, hnew⟩
        · obtain ⟨a, b, ab, bm, ia, ib⟩ := h8 (by omega)
          exact ⟨a, b, ab, by omega, hkeep a ia, hkeep b ib⟩
    next hf =>
      refine ⟨h1, h2, by show w.heapLen ≤ m + 1; omega, ?_,
        by show w.maxCode < ((m + 1 : Nat) : Int); omega, h5', h6, h7, ?_⟩
      · intro n hn hfn
        have : n ≠ m := by rintro rfl; exact hf (by rw [h1]; exact hfn)
        exact h4 n (by omega) hfn
      · intro h
        obtain ⟨a, b, ab, bm, ia, ib⟩ := h8 h
        exact ⟨a, b, ab, by omega, ia, ib⟩

/-- At least two leaves are in the heap after the forcing (42_huffman_builder.md R244). -/
theorem forced_spec (kind : TreeKind) (w : Work) (h2 : w.heapMax = 573) (hl : w.heapLen ≤ kind.elems)
    (he : 3 ≤ kind.elems ∧ kind.elems ≤ 286)
    (hm : w.maxCode < kind.elems) (h6 : w.heapLen = 0 → w.maxCode = -1)
    (h7 : w.heapLen = 1 → 0 ≤ w.maxCode ∧ w.heap.get 0 1 = w.maxCode.toNat)
    (h8 : 2 ≤ w.heapLen → ∃ a b, a < b ∧ b < kind.elems ∧ InHeap w a ∧ InHeap w b) :
    ∃ u, u = forceLeaves kind 2 w ∧ u.heapMax = 573 ∧ 2 ≤ u.heapLen ∧ u.heapLen ≤ 286 ∧ (∀ n, InHeap w n → InHeap u n) ∧
      ∃ a b, a < b ∧ b < kind.elems ∧ InHeap u a ∧ InHeap u b := by
  have one : ∀ w : Work, w.heapLen ≤ 286 →
      (∀ n, InHeap w n → InHeap (forceLeaf kind w) n) ∧ InHeap (forceLeaf kind w) (forcedNode w) := by
    intro w hw
    constructor
    · rintro n ⟨i, i1, i2, i3⟩
      refine ⟨i, i1, by show i ≤ w.heapLen + 1; omega, ?_⟩
      show (w.heap.set 0 (w.heapLen + 1) _).get 0 i = n
      rw [heap_set _ _ _ _ (by omega) (by omega), if_neg (by omega), i3]
    · exact ⟨w.heapLen + 1, by omega, Nat.le_refl _, Table.get_set_same ..⟩
  refine ⟨_, rfl, ?_⟩
  rcases Nat.lt_or_ge w.heapLen 2 with hlt | hge
  · rcases Nat.lt_or_ge w.heapLen 1 with h0 | h1
    · have h0 : w.heapLen = 0 := by omega
      have hmc := h6 h0
      obtain ⟨o1, o2⟩ := one w (by omega)
      have hl1 : (forceLeaf kind w).heapLen = 1 := by show w.heapLen + 1 = 1; omega
      obtain ⟨p1, p2⟩ := one (forceLeaf kind w) (by omega)
      have hf : forceLeaves kind 2 w = forceLeaf kind (forceLeaf kind w) := by
        simp only [forceLeaves]
        rw [if_pos hlt, if_pos (by omega)]
      rw [hf]
      have e1 : forcedNode w = 0 := by simp [forcedNode, hmc]
      have e2 : forcedNode (forceLeaf kind w) = 1 := by simp [forcedNode, forceLeaf, hmc]
      rw [e1] at o2
      rw [e2] at p2
      refine ⟨h2, by show 2 ≤ (forceLeaf kind w).heapLen + 1; omega, by show (forceLeaf kind w).heapLen + 1 ≤ 286; omega,
        fun n hn => p1 n (o1 n hn), 0, 1, by omega, by omega, p1 _ o2, p2⟩
    · have h1 : w.heapLen = 1 := by omega
      obtain ⟨x1, x2⟩ := h7 h1
      obtain ⟨o1, o2⟩ := one w (by omega)
      have hl2 : (forceLeaf kind w).heapLen = 2 := by show w.heapLen + 1 = 2; omega
      have hf : forceLeaves kind 2 w = forceLeaf kind w := by
        simp only [forceLeaves]
        rw [if_pos hlt, if_neg (by omega)]
      rw [hf]
      have hin : InHeap w w.maxCode.toNat := ⟨1, Nat.le_refl 1, by omega, x2⟩
      refine ⟨h2, by omega, by omega, o1, ?_⟩
      unfold forcedNode at o2
      split at o2
      next hc => exact ⟨w.maxCode.toNat, (w.maxCode + 1).toNat, by omega, by omega, o1 _ hin, o2⟩
      next hc => exact ⟨0, w.maxCode.toNat, by omega, by omega, o2, o1 _ hin⟩
  · have hf : forceLeaves kind 2 w = w := by
      simp only [forceLeaves]
      rw [if_neg (by omega)]
    rw [hf]
    exact ⟨h2, hge, by omega, fun n hn => hn, h8 hge⟩

theorem set_pos (t : Table Nat) (i v n : Nat) (hv : 1 ≤ v) (h : 1 ≤ t.get 0 n ∨ i = n) :
    1 ≤ (t.set 0 i v).get 0 n := by
  rcases h with h | rfl
  · rcases Table.get_set_cases 0 v t i n with e | e <;> omega
  · rw [Table.get_set_same]; exact hv

/-- The first pass gives every node behind the root a length of at least 1 (42_huffman_builder.md R246). -/
theorem bitLens_pos (kind : TreeKind) (hm : 1 ≤ kind.maxLength) (l : List Nat) (w : Work) (n : Nat)
    (h : 1 ≤ w.len.get 0 n ∨ ∃ i ∈ l, w.heap.get 0 i = n) : 1 ≤ (l.foldl (bitLenStep kind) w).len.get 0 n := by
  induction l generalizing w with
  | nil =>
    rcases h with h | ⟨i, hi, -⟩
    · exact h
    · cases hi
  | cons x l ih =>
    have hheap : (bitLenStep kind w x).heap = w.heap := by
      simp only [bitLenStep]; split <;> rfl
    have hlen : ∃ v, 1 ≤ v ∧ (bitLenStep kind w x).len = w.len.set 0 (w.heap.get 0 x) v := by
      refine ⟨if kind.maxLength < w.len.get 0 (w.dad.get 0 (w.heap.get 0 x)) + 1 then kind.maxLength
        else w.len.get 0 (w.dad.get 0 (w.heap.get 0 x)) + 1, by split <;> omega, ?_⟩
      simp only [bitLenStep]; split <;> rfl
    obtain ⟨v, hv, e⟩ := hlen
    simp only [List.foldl_cons]
    apply ih
    rw [hheap, e]
    rcases h with h | ⟨i, hi, h⟩
    · exact Or.inl (set_pos _ _ _ _ hv (Or.inl h))
    · rcases List.mem_cons.1 hi with rfl | hi
      · exact Or.inl (set_pos _ _ _ _ hv (Or.inr h))
      · exact Or.inr ⟨i, hi, h⟩

/-- The reassignment takes no length away (42_huffman_builder.md R250). -/
theorem assignLevel_pos (bits : Nat) (hb : 1 ≤ bits) (h k : Nat) (w : Work) (n : Nat) (hn : 1 ≤ w.len.get 0 n) :
    1 ≤ (assignLevel bits h k w).2.len.get 0 n := by
  induction h generalizing k w with
  | zero => cases k <;> exact hn
  | succ h ih =>
    cases k with
    | zero => exact hn
    | succ k =>
      simp only [assignLevel]
      split
      · exact ih _ _ hn
      · split
        · exact ih _ _ (set_pos _ _ _ _ hb (Or.inl hn))
        · exact ih _ _ hn

theorem assignLevels_pos (m : Nat) (hw : Nat × Work) (n : Nat) (hn : 1 ≤ hw.2.len.get 0 n) :
    1 ≤ (assignLevels m hw).2.len.get 0 n := by
  induction m generalizing hw with
  | zero => exact hn
  | succ m ih => exact ih _ (assignLevel_pos (m + 1) (by omega) _ _ _ n hn)

theorem repairLoop_len (m t : Nat) (w : Work) : (repairLoop m t w).len = w.len := by
  induction t generalizing w with
  | zero => rfl
  | succ t ih =>
    simp only [repairLoop]
    split
    · rfl
    · exact (ih _).trans rfl

/-- Every leaf of a heap of at least two gets a code (42_huffman_builder.md R245 to R251). -/
theorem growTree_pos (kind : TreeKind) (hm : 1 ≤ kind.maxLength) (S : Nat → Prop) (w : Work)
    (hl : 2 ≤ w.heapLen) (hl' : w.heapLen ≤ 286) (hx : w.heapMax = 573)
    (hS : ∀ n, S n → n < kind.elems ∧ InHeap w n) (n : Nat) (hn : S n) :
    1 ≤ (growTree kind w).len.get 0 n := by
  have hk : Kept S w := ⟨by omega, by omega, fun n hn => Or.inl (hS n hn).2⟩
  obtain ⟨⟨a1, a2, a3⟩, b, c, d⟩ := mergeLoop_kept w.heapLen kind.elems w hl (by omega) (by omega) hk
  have hne := (hS n hn).1
  have hshelf : OnShelf (mergeLoop w.heapLen kind.elems w) n := by
    rcases a3 n hn with ⟨i, i1, i2, i3⟩ | h
    · rw [b] at i2
      have : i = 1 := by omega
      subst this
      omega
    · exact h
  simp only [growTree]
  generalize mergeLoop w.heapLen kind.elems w = u at *
  have hlen : 1 ≤ (genBitLen kind (shelve (u.heap.get 0 1) u)).len.get 0 n := by
    simp only [genBitLen]
    apply bitLens_pos kind hm
    right
    obtain ⟨i, i1, i2, i3⟩ := hshelf
    refine ⟨i, ?_, ?_⟩
    · rw [List.mem_range'_1]
      show u.heapMax - 1 + 1 ≤ i ∧ i < u.heapMax - 1 + 1 + (573 - 1 - (u.heapMax - 1))
      omega
    · show (u.heap.set 0 (u.heapMax - 1) _).get 0 i = n
      rw [heap_set _ _ _ _ (by omega) (by omega), if_neg (by omega), i3]
  generalize genBitLen kind (shelve (u.heap.get 0 1) u) = v at *
  unfold limitLengths
  split
  · exact hlen
  · refine assignLevels_pos _ _ _ ?_
    show 1 ≤ (repairLoop _ _ v).len.get 0 n
    rw [repairLoop_len]
    exact hlen

end Sys2Proof.Machine
end

