-- ==== Sys2Proof/Tests/Slice0.lean ====
section
/-! SUPPORT. The model's own tests: ill-formed commands refused, words decoded, one step of every command against the vectors
of 95_test_vectors.md, and a witness for the hypotheses of every obligation that has some. -/

namespace Sys2Proof.Machine.Tests

set_option maxRecDepth 100000
set_option Elab.async false

/-! The parameters: the relations 00_scope.md R7 gives between them. -/

theorem test_parameters :
    Config.hashBits = Config.memLevel + 7 ∧ Config.hashSize = 2 ^ Config.hashBits ∧
      Config.hashShift = (Config.hashBits + Config.minMatch - 1) / Config.minMatch ∧
      Config.litBufsize = 2 ^ (Config.memLevel + 6) ∧ Config.pendingCap = 4 * Config.litBufsize ∧
      Config.minLookahead = Config.maxMatch + Config.minMatch + 1 ∧ Memory.size = 2 ^ Config.addrW := by decide

/-! Well-formedness: an ill-formed term for each check (30_encoding.md R114, R115). -/

theorem test_wf_legal : (Instr.init 15 15).wf = true ∧ (Instr.init 9 0xF1).wf = true ∧ (Instr.init 0 31).wf = true := by
  decide

theorem test_wf_refuses_level : (Instr.init 10 15).wf = false ∧ (Instr.init 14 15).wf = false := by decide

theorem test_wf_refuses_wbits :
    (Instr.init 6 16).wf = false ∧ (Instr.init 6 23).wf = false ∧ (Instr.init 6 32).wf = false ∧
      (Instr.init 6 7).wf = false ∧ (Instr.init 6 0xF0).wf = false ∧ (Instr.init 6 0xF9).wf = false := by decide

/-! Decoding: words of 95_test_vectors.md section 2, E1 to E15. -/

theorem test_decode_init :
    (decode 0x0000FF01).toOption = some (.init 15 15) ∧ (decode 0x000F6F01).toOption = some (.init 15 0xF6) ∧
      (decode 0x0001F901).toOption = some (.init 9 31) := by decide

theorem test_decode_deflate :
    (decode 0x00000003).toOption = some .deflateNoFlush ∧ (decode 0x00000023).toOption = some .deflateSyncFlush ∧
      (decode 0x00000033).toOption = some .deflateFullFlush ∧ (decode 0x00000043).toOption = some .deflateFinish := by
  decide

theorem test_decode_others :
    (decode 0x00000002).toOption = some .reset ∧ (decode 0x00000004).toOption = some .endStream ∧
      (decode 0x00000005).toOption = some .bound := by decide

theorem test_decode_reserved :
    (decode 0x00000013).toOption = none ∧ (decode 0x00000000).toOption = none ∧ (decode 0x0000000F).toOption = none ∧
      (decode 0x00100003).toOption = none ∧ (decode 0x00000103).toOption = none ∧
      (decode 0x00000042).toOption = none := by decide

theorem test_decode_table_word :
    decodeTableWord 32 0x0000FF01 = some (.init 15 15) ∧ decodeTableWord 32 0x43 = some .deflateFinish := by decide

/-! One step of every command. -/

/-- The state after a step. -/
def after (o : Host.Outcome State Fault Refusal) : State :=
  match o with
  | .next s => s
  | .fault _ => State.reset
  | .refused _ => State.reset

/-- The state after an accepted INIT from reset. -/
def started (level : BitVec 4) (wbits : BitVec 8) : State := after (exec (.init level wbits) State.reset)

/-- The state with the input bytes at 0x1000 and `room` bytes of output space at 0x2000. -/
def feed (input : List Byte) (room : Word) (s : State) : State :=
  { s with
    inPtr := 0x1000
    inAvail := BitVec.ofNat 32 input.length
    outPtr := 0x2000
    outAvail := room
    memory := (input.zipIdx 0x1000).foldl (fun m p => m.write p.2 p.1) s.memory }

/-- `n` bytes of host memory from address 0x2000. -/
def written (n : Nat) (s : State) : List Byte := (List.range' 0x2000 n).map s.memory.read

/-- The word's execution on a state, by one step. -/
def run (w : Nat) (s : State) : State := after (step (s.withFetchWord 32 w))

def abc : List Byte := [0x61, 0x62, 0x63]

/-- E1, E3, E5 and E6: CONFIG and STATUS after INIT. -/
theorem test_init_config :
    [0x0000FF01, 0x000F6F01, 0x0001F901, 0x00008601].map
        (fun w => ((run w State.reset).config.toNat, (statusWord (run w State.reset)).toNat)) =
      [(0x000010F6, 0x10), (0x00000F66, 0x10), (0x000021F9, 0x10), (0x00001086, 0x10)] := by decide +kernel

/-- E9 and E10: reserved operands. -/
theorem test_init_reserved :
    statusWord (run 0x0000FA01 State.reset) = 0x0E ∧ statusWord (run 0x00010601 State.reset) = 0x0E := by
  decide +kernel

/-- PR3 steps 6 and 11. -/
theorem test_reset :
    statusWord (run 2 (started 6 0xF1)) = 0x10 ∧ statusWord (run 2 State.reset) = 0x0E := by decide +kernel

/-- The END example of 40_commands.md R168. -/
theorem test_end :
    statusWord (run 4 (started 15 0xF6)) = 0x00 ∧ (run 4 (started 15 0xF6)).config = 0 ∧
      statusWord (run 4 State.reset) = 0x0E := by decide +kernel

/-- B1 to B6. -/
theorem test_bound :
    [0, 3, 100000, 0xFFEC0103, 0xFFEC0104, 0xFFFFFFFF].map
        (fun n => (run 5 { State.reset with inAvail := BitVec.ofNat 32 n }).bound.toNat) =
      [13, 16, 100043, 0xFFFFFFFF, 0, 0x00140089] := by decide +kernel

/-- F3 command 1: NO_FLUSH writes the header and keeps the byte. -/
theorem test_no_flush :
    (run 3 (feed [0x61] 100 (started 15 15))).outPtr = 0x2002 ∧
      written 2 (run 3 (feed [0x61] 100 (started 15 15))) = [0x78, 0x9C] ∧
      (run 3 (feed [0x61] 100 (started 15 15))).check = 0x00620062 := by decide +kernel

/-- F5 command 1. -/
theorem test_sync_flush :
    written 11 (run 0x23 (feed abc 100 (started 15 15))) =
      [0x78, 0x9C, 0x4A, 0x4C, 0x4A, 0x06, 0x00, 0x00, 0x00, 0xFF, 0xFF] := by decide +kernel

/-- F5 command 3, on a stream with nothing to flush. -/
theorem test_full_flush :
    written 7 (run 0x33 (feed [] 100 (started 15 15))) = [0x78, 0x9C, 0x00, 0x00, 0x00, 0xFF, 0xFF] := by
  decide +kernel

/-- D2. -/
theorem test_finish :
    written 11 (run 0x43 (feed abc 64 (started 15 15))) =
      [0x78, 0x9C, 0x4B, 0x4C, 0x4A, 0x06, 0x00, 0x02, 0x4D, 0x01, 0x27] := by decide +kernel

/-- D5, and STATUS after it. -/
theorem test_finish_stored :
    written 14 (run 0x43 (feed abc 64 (started 0 15))) =
        [0x78, 0x01, 0x01, 0x03, 0x00, 0xFC, 0xFF, 0x61, 0x62, 0x63, 0x02, 0x4D, 0x01, 0x27] ∧
      statusWord (run 0x43 (feed abc 64 (started 0 15))) = 0x41 := by decide +kernel

/-! The parts, against the vectors of 95_test_vectors.md sections 3 and 5. -/

/-- K3, K4 and K8. -/
theorem test_checksums :
    adler32 1 abc = 0x024D0127 ∧ crc32 0 abc = 0x352441C2 ∧
      adler32 1 [0x31, 0x32, 0x33, 0x34, 0x35, 0x36, 0x37, 0x38, 0x39] = 0x091E01DE ∧
      crc32 0 [0x31, 0x32, 0x33, 0x34, 0x35, 0x36, 0x37, 0x38, 0x39] = 0xCBF43926 := by decide +kernel

/-- The sample entries of 44_checksum.md R312. -/
theorem test_crc_table :
    crcTable 0 = 0 ∧ crcTable 1 = 0x77073096 ∧ crcTable 2 = 0xEE0E612C ∧ crcTable 128 = 0xEDB88320 ∧
      crcTable 255 = 0x2D02EF8D := by decide +kernel

/-- H2, H5, H6, H8 and H9. -/
theorem test_headers :
    headerBytes .zlib 5 15 = [0x78, 0x5E] ∧ headerBytes .zlib 6 8 = [0x08, 0x99] ∧
      headerBytes .zlib 6 10 = [0x28, 0x91] ∧
      headerBytes .gzip 9 15 = [0x1F, 0x8B, 0x08, 0, 0, 0, 0, 0, 2, 3] ∧
      headerBytes .gzip 1 15 = [0x1F, 0x8B, 0x08, 0, 0, 0, 0, 0, 4, 3] := by decide +kernel

/-- A table with the values at the given indices. -/
def tableOf (cells : List (Nat × Nat)) : Table Nat := cells.foldl (fun t c => t.set 0 c.1 c.2) .empty

/-- T1: lengths, codes and costs. -/
theorem test_tree_abc :
    (let b := buildTree litKind (tableOf [(97, 1), (98, 1), (99, 1), (256, 1)]) ⟨0, 0⟩
     ([97, 98, 99, 256].map (b.1.len.get 0), [97, 98, 99, 256].map (b.1.code.get 0), b.1.maxCode, b.2)) =
      ([2, 2, 2, 2], [0, 2, 1, 3], 256, ⟨8, 31⟩) := by decide +kernel

/-- T3 and T4. -/
theorem test_tree_forced_and_limited :
    (let b := buildTree distKind (tableOf [(5, 1)]) ⟨0, 0⟩
     ([0, 5].map (b.1.len.get 0), [0, 5].map (b.1.code.get 0), b.1.maxCode, b.2)) = ([1, 1], [0, 1], 5, ⟨2, 6⟩) ∧
    (let b := buildTree blKind (tableOf [(0, 1), (1, 1), (2, 2), (3, 3), (4, 5), (5, 8), (6, 13), (7, 21), (8, 34)]) ⟨0, 0⟩
     ((List.range 9).map (b.1.len.get 0), b.1.maxCode)) = ([7, 7, 7, 7, 5, 4, 3, 2, 1], 8) := by decide +kernel

/-- W1 and W2. -/
theorem test_send_bits :
    (let t := sendBits 0x49 8 (sendBits 0x89 8 (sendBits 3 3 Stream.reset))
     (t.pending, t.bitacc, t.bitcount)) = ([0x4B, 0x4C], 0b010, 3) := by decide +kernel

/-! Witnesses: for every obligation with hypotheses, concrete values that meet them together, for each of its clauses. -/

/-- A state with a command in progress or not, and moves of the host to come. -/
def moving (running : Option Word) (moves : List HostMove) (s : State) : State :=
  { s with running := running, inputs := moves }

/-- Three input bytes and 64 bytes of output space on a new stream. -/
def ready (level : BitVec 4) (wbits : BitVec 8) : State := feed abc 64 (started level wbits)

theorem test_witness_DecodeEncodeInverse : decode 0x0001F901 = .ok (.init 9 31) := rfl

theorem test_witness_OpcodeMap_init :
    (0x0001F901 : Word) &&& 0xFFF000FF = 0x00000001 ∧ LegalInitWord 0x0001F901 ∧
      (0x00010601 : Word) &&& 0xFFF000FF = 0x00000001 ∧ ¬ LegalInitWord 0x00010601 ∧
      (0x0000FA01 : Word) &&& 0xFFF000FF = 0x00000001 ∧ ¬ LegalInitWord 0x0000FA01 := by
  unfold LegalInitWord
  decide

theorem test_witness_OpcodeMap_unmatched :
    ∀ w ∈ [(0x00000000 : Word), 0x00000006, 0x0000000F, 0x00000013, 0x00000053, 0x00000042, 0x00000103, 0x00100003,
        0x00000011, 0x00100001, 0xFFFFFFFF],
      w &&& 0xFFF000FF ≠ 0x00000001 ∧ w ≠ 0x00000002 ∧ w ≠ 0x00000003 ∧ w ≠ 0x00000023 ∧ w ≠ 0x00000033 ∧
        w ≠ 0x00000043 ∧ w ≠ 0x00000004 ∧ w ≠ 0x00000005 := by
  intro w hw
  simp only [List.mem_cons, List.not_mem_nil, or_false] at hw
  rcases hw with rfl | rfl | rfl | rfl | rfl | rfl | rfl | rfl | rfl | rfl | rfl <;> decide

theorem test_witness_StepRunsTheDecodedCommand :
    decode 0x43 = .ok .deflateFinish ∧ (moving (some 0x43) [] State.reset).running = some 0x43 ∧
      (moving (some 0x43) [] State.reset).inputs = [] ∧
      (moving (some 0x43) [.cmdDone, .hardReset] State.reset).inputs = .cmdDone :: [.hardReset] ∧
      decode 0x13 = .error .reservedFlush ∧ (moving (some 0x13) [] State.reset).running = some 0x13 :=
  ⟨rfl, rfl, rfl, rfl, rfl, rfl⟩

theorem test_witness_CommandCycle :
    ∀ s : State, (moving none [.regWrite 0x04 0x43, .cmdDone] s).running = none ∧
      (moving none [.regWrite 0x04 0x43, .cmdDone] s).inputs = .regWrite 0x04 0x43 :: .cmdDone :: [] :=
  fun _ => ⟨rfl, rfl⟩

theorem test_witness_IdleRegisterAccess :
    (moving none [.regRead 0xFC] State.reset).running = none ∧ WordOffset 0x00 ∧ WordOffset 0x0C ∧ WordOffset 0xFC ∧
      (moving none [.regRead 0xFC] State.reset).inputs = .regRead 0xFC :: [] ∧
      (moving none [.regWrite 0x0C 7] State.reset).inputs = .regWrite 0x0C 7 :: [] ∧
      ¬ WordOffset 0x02 ∧ ¬ WordOffset 0x100 ∧ (moving none [.regRead 2] State.reset).inputs = .regRead 2 :: [] ∧
      (moving none [.regWrite 0x100 7] State.reset).inputs = .regWrite 0x100 7 :: [] := by
  unfold WordOffset
  decide

theorem test_witness_ResetRegisters : WordOffset 0x00 ∧ WordOffset 0xFC := by
  unfold WordOffset
  decide

theorem test_witness_HostMemoryAccess :
    (moving none [.memRead 0xFFFFFFFF] State.reset).running = none ∧
      (moving none [.memRead 0xFFFFFFFF] State.reset).memory.wf = true ∧ 0xFFFFFFFF < 2 ^ 32 ∧
      (moving none [.memRead 0xFFFFFFFF] State.reset).inputs = .memRead 0xFFFFFFFF :: [] ∧
      (moving none [.memWrite 0 5] State.reset).inputs = .memWrite 0 5 :: [] ∧ 2 ^ 32 ≤ 0x100000000 ∧
      (moving none [.memRead 0x100000000] State.reset).inputs = .memRead 0x100000000 :: [] ∧
      (moving none [.memWrite 0x100000000 5] State.reset).inputs = .memWrite 0x100000000 5 :: [] := by decide

/-- A command in progress and a second CMD write. -/
def overrunning : State := moving (some 5) [.regWrite 0x04 2] State.reset

theorem test_witness_BusyCommandWriteOverruns :
    (overrunning.running = some 5 ∧ overrunning.inputs = .regWrite 0x04 2 :: []) ∧
      (∃ t, step overrunning = .next t ∧ overrunning.overrun = false ∧ t.overrun = true) ∧
      ∃ t, step { overrunning with overrun := true } = .next t ∧ overrunning.inputs.head? ≠ some .hardReset :=
  ⟨⟨rfl, rfl⟩, ⟨_, rfl, rfl, rfl⟩, ⟨_, rfl, by decide⟩⟩

theorem test_witness_BusyAccess :
    (moving (some 0x43) [.regRead 0x08] (ready 0 15)).running = some 0x43 ∧
      (moving (some 0x43) [.regRead 0x08] (ready 0 15)).inputs = .regRead 0x08 :: [] ∧ WordOffset 0x1C ∧
      WordOffset 0x0C ∧ (0x203F < 2 ^ 32 ∧ InOutput (ready 0 15) 0x2000 ∧ InOutput (ready 0 15) 0x203F) ∧
      (InInput (ready 0 15) 0x1000 ∧ InInput (ready 0 15) 0x1002) ∧
      (¬ InOutput (ready 0 15) 0x1000 ∧ ¬ InOutput (ready 0 15) 0x1FFF ∧ ¬ InOutput (ready 0 15) 0x2040 ∧
        ¬ InInput (ready 0 15) 0x0FFF ∧ ¬ InInput (ready 0 15) 0x1003) ∧ (ready 0 15).memory.wf = true ∧
      ¬ WordOffset 0x02 ∧ ¬ WordOffset 0x100 ∧ 0xFFFFFFFF < 2 ^ 32 ∧ 2 ^ 32 ≤ 0x100000000 := by
  unfold WordOffset InOutput InInput
  decide +kernel

theorem test_witness_HardwareResetEffect :
    (moving (some 0x43) [.hardReset] (ready 0 15)).inputs = .hardReset :: [] ∧
      (moving none [.hardReset] (ready 0 15)).running = none ∧ ¬ InOutput (ready 0 15) 0x1FFF := by
  unfold InOutput
  decide +kernel

theorem test_witness_InitStartsStream :
    (LevelStands 0 0 ∧ LevelStands 9 9 ∧ LevelStands 15 6) ∧
      (WbitsStands 0xF1 .raw 15 ∧ WbitsStands 0xF8 .raw 8) ∧ (WbitsStands 8 .zlib 8 ∧ WbitsStands 15 .zlib 15) ∧
      (WbitsStands 24 .gzip 8 ∧ WbitsStands 31 .gzip 15) ∧
      ∀ row ∈ [(0, 0, 0, 0, 0, Strategy.stored), (9, 32, 258, 258, 4096, .slow)], row ∈
      [(0, 0, 0, 0, 0, Strategy.stored), (1, 4, 4, 8, 4, .fast), (2, 4, 5, 16, 8, .fast), (3, 4, 6, 32, 32, .fast),
        (4, 4, 4, 16, 16, .slow), (5, 8, 16, 32, 32, .slow), (6, 8, 16, 128, 128, .slow), (7, 8, 32, 128, 256, .slow),
        (8, 32, 128, 258, 1024, .slow), (9, 32, 258, 258, 4096, .slow)] := by
  simp only [LevelStands, WbitsStands]
  decide

theorem test_witness_InitOperands_level :
    ((0x0000FA01 : Word) &&& 0xFFF000FF = 1 ∧ 10 ≤ levelNumber 0x0000FA01 ∧ levelNumber 0x0000FA01 ≤ 14) ∧
      (0x0000FE01 : Word) &&& 0xFFF000FF = 1 ∧ 10 ≤ levelNumber 0x0000FE01 ∧ levelNumber 0x0000FE01 ≤ 14 := by decide

/-- WBITS 7, 16, 23, 32, -7 and -16. -/
theorem test_witness_InitOperands_wbits :
    [(0x00007601 : Word), 0x00010601, 0x00017601, 0x00020601, 0x000F9601, 0x000F0601].all (fun w =>
      decide (w &&& 0xFFF000FF = 1 ∧ ¬ (-15 ≤ signedWbits w ∧ signedWbits w ≤ -8) ∧
        ¬ (8 ≤ signedWbits w ∧ signedWbits w ≤ 15) ∧ ¬ (24 ≤ signedWbits w ∧ signedWbits w ≤ 31))) = true := by decide

/-- WBITS -15, -8, 8, 15, 24 and 31. -/
theorem test_witness_InitOperands_legal :
    ∀ w ∈ [(0x000F1001 : Word), 0x000F8901, 0x00008F01, 0x0000FF01, 0x00018F01, 0x0001FF01],
      w &&& 0xFFF000FF = 1 ∧ LegalInitWord w := by
  intro w hw
  unfold LegalInitWord
  simp only [List.mem_cons, List.not_mem_nil, or_false] at hw
  rcases hw with rfl | rfl | rfl | rfl | rfl | rfl <;> decide

theorem test_witness_ResetRestartsStream : State.reset.phase = .uninit ∧ (started 6 15).phase ≠ .uninit := by
  decide +kernel

theorem test_witness_EndReleasesStream : State.reset.phase = .uninit ∧ (started 6 0xF1).phase ≠ .uninit := by
  decide +kernel

theorem test_witness_BoundFormula :
    (0xFFEC0103 = { State.reset with inAvail := 0xFFEC0103 }.inAvail.toNat ∧ 0xFFEC0103 < 0xFFEC0104) ∧
      0xFFEC0104 = { State.reset with inAvail := 0xFFEC0104 }.inAvail.toNat ∧ 0xFFEC0104 ≤ 0xFFEC0104 := by decide

/-- The causes of StreamError that the word alone shows: 1 to 5 of 60_exceptions.md R323 and the reserved operands. -/
theorem test_witness_StreamErrorHasTenCauses_word (s : State) :
    StreamErrorCause 0x00 s ∧ StreamErrorCause 0x06 s ∧ StreamErrorCause 0x0000FF11 s ∧ StreamErrorCause 0x0010FF01 s ∧
      StreamErrorCause 0x12 s ∧ StreamErrorCause 0x104 s ∧ StreamErrorCause 0x103 s ∧ StreamErrorCause 0x13 s ∧
      StreamErrorCause 0x53 s ∧ StreamErrorCause 0x0000FA01 s ∧ StreamErrorCause 0x0000FE01 s ∧
      StreamErrorCause 0x00010601 s ∧ StreamErrorCause 0x000F0601 s := by
  refine ⟨.inl (by decide), .inl (by decide), .inr (.inl (by decide)), .inr (.inl (by decide)),
    .inr (.inr (.inl (by decide))), .inr (.inr (.inl (by decide))), .inr (.inr (.inr (.inl (by decide)))),
    .inr (.inr (.inr (.inr (.inl (by decide))))), .inr (.inr (.inr (.inr (.inl (by decide))))),
    .inr (.inr (.inr (.inr (.inr (.inl (by decide)))))), .inr (.inr (.inr (.inr (.inr (.inl (by decide)))))),
    .inr (.inr (.inr (.inr (.inr (.inr (.inl (by decide))))))),
    .inr (.inr (.inr (.inr (.inr (.inr (.inl (by decide)))))))⟩

/-- The causes that the state shows: no stream, DONE, null buffers, bad ranges, another mode in FINISHING. -/
theorem test_witness_DeflateStreamError :
    DeflateStreamError .finish State.reset ∧ DeflateStreamError .finish { ready 0 15 with phase := .done } ∧
      DeflateStreamError .noFlush { ready 0 15 with outPtr := 0 } ∧
      DeflateStreamError .noFlush { ready 0 15 with inPtr := 0 } ∧
      DeflateStreamError .noFlush { ready 0 15 with outPtr := 0xFFFFFFFF, outAvail := 2 } ∧
      DeflateStreamError .noFlush { ready 0 15 with outPtr := 0x1002 } ∧
      DeflateStreamError .syncFlush { ready 0 15 with phase := .finishing } := by
  simp only [deflateStreamError_iff]
  decide +kernel

theorem test_witness_StreamErrorHasTenCauses_state :
    StreamErrorCause 2 State.reset ∧ StreamErrorCause 4 State.reset ∧ StreamErrorCause 0x43 State.reset :=
  ⟨.inr (.inr (.inr (.inr (.inr (.inr (.inr (.inl (by decide)))))))),
    .inr (.inr (.inr (.inr (.inr (.inr (.inr (.inl (by decide)))))))),
    .inr (.inr (.inr (.inr (.inr (.inr (.inr (.inr ⟨.finish, by decide, .inl rfl⟩)))))))⟩

theorem test_witness_StreamErrorHasTenCauses_none (s : State) : ¬ StreamErrorCause 5 s := by
  have h : ∀ f, (5 : Word) ≠ encode (deflateInstr f) := by intro f; cases f <;> decide
  rintro (c | c | c | c | c | c | c | c | ⟨f, e, -⟩)
  on_goal 9 => exact absurd e (h f)
  all_goals first | exact absurd c.1 (by decide) | exact absurd c (by decide)

theorem test_witness_BufErrorHasThreeCauses_raised :
    ∃ t, execute 3 { ready 0 15 with outAvail := 0 } = .next t ∧ t.result = .bufError :=
  ⟨_, rfl, by decide +kernel⟩

theorem test_witness_BufErrorHasThreeCauses_cases :
    (¬ DeflateStreamError .noFlush { ready 0 15 with outAvail := 0 } ∧ { ready 0 15 with outAvail := 0 }.outAvail = 0) ∧
    (let s := setLastFlush (.mode .syncFlush) { ready 0 15 with inAvail := 0 }
     ¬ DeflateStreamError .noFlush s ∧ s.outAvail ≠ 0 ∧ s.stream.pending = [] ∧ s.inAvail = 0 ∧
       Flush.noFlush ≠ .finish ∧ Flush.noFlush.rank ≤ s.stream.lastFlush.rank ∧
       Flush.syncFlush.rank ≤ s.stream.lastFlush.rank) ∧
    (let s := { ready 0 15 with phase := .finishing }
     ¬ DeflateStreamError .finish s ∧ s.outAvail ≠ 0 ∧ s.phase = .finishing ∧ s.inAvail ≠ 0 ∧
       s.stream.pending.length < s.outAvail.toNat) ∧
    (let s := ready 0 15
     ¬ DeflateStreamError .noFlush s ∧ s.outAvail ≠ 0 ∧
       ¬ (s.stream.pending = [] ∧ s.inAvail = 0 ∧ Flush.noFlush ≠ .finish ∧
         Flush.noFlush.rank ≤ s.stream.lastFlush.rank) ∧
       ¬ (s.phase = .finishing ∧ s.inAvail ≠ 0 ∧ s.stream.pending.length < s.outAvail.toNat)) := by
  simp only [deflateStreamError_iff]
  decide +kernel

/-- A new stream is a started one. -/
theorem started_streamOk (level : BitVec 4) (wbits : BitVec 8) (lv wb : Nat) (wrap : Wrap)
    (h : levelOperand level = some lv ∧ wbitsOperand wbits = some (wrap, wb) ∧ lv ≤ 9 ∧ 8 ≤ wb ∧ wb ≤ 15) :
    StreamOk (started level wbits).stream ∧ (started level wbits).phase = .init ∧
      (started level wbits).memory = [] := by
  obtain ⟨h1, h2, h3, h4, h5⟩ := h
  have h6 : ¬ Config.implMaxWbits < wb := by simp only [Config.implMaxWbits]; omega
  have e : started level wbits = endCommand .ok (startStream lv wbits wrap wb State.reset) := by
    simp only [started, after, exec, execInit, initCommand, h1, h2, if_neg h6]
  rw [e]
  exact ⟨resetFields_streamOk _ (configureStream_configOk lv wrap wb _ _ h3 h4 h5), rfl, rfl⟩

/-- A new stream with buffers meets the invariant. -/
theorem ready_inv (level : BitVec 4) (wbits : BitVec 8) (lv wb : Nat) (wrap : Wrap)
    (h : levelOperand level = some lv ∧ wbitsOperand wbits = some (wrap, wb) ∧ lv ≤ 9 ∧ 8 ≤ wb ∧ wb ≤ 15) :
    Inv (ready level wbits) := by
  obtain ⟨h1, h2, h3⟩ := started_streamOk level wbits lv wb wrap h
  have hp : (ready level wbits).phase = .init := h2
  refine ⟨?_, fun _ => h1, ?_⟩
  · simp only [ready, feed, h3]
    decide
  · intro hf
    rw [hp] at hf
    rcases hf with hf | hf <;> cases hf

theorem test_witness_StreamEndMeansComplete :
    Inv (ready 0 15) ∧ ∃ t, execute 0x43 (ready 0 15) = .next t ∧ t.result = .streamEnd :=
  ⟨ready_inv 0 15 0 15 .zlib (by decide), _, rfl, by decide +kernel⟩

theorem test_witness_ResultCodesWritten :
    ∃ t, step (moving (some 0x43) [] (ready 0 15)) = .next t ∧ (ready 0 15).result ≠ .dataError ∧
      (ready 0 15).result ≠ .needDict ∧ (ready 0 15).result ≠ .versionError ∧ (ready 0 15).result ≠ .memError :=
  ⟨_, rfl, by decide +kernel⟩

theorem test_witness_DeflateCompletes (f : Flush) : DeflateAccepted f (ready 15 31) := by
  refine ⟨?_, ?_, ?_, ?_⟩
  · rw [deflateStreamError_iff]
    cases f <;> decide +kernel
  · decide +kernel
  · decide +kernel
  · cases f <;> decide +kernel

theorem test_witness_DeflateCompletes_finishing :
    DeflateAccepted .finish { ready 15 31 with phase := .finishing, inAvail := 0 } := by
  refine ⟨?_, ?_, ?_, ?_⟩
  · rw [deflateStreamError_iff]
    decide +kernel
  · decide +kernel
  · decide +kernel
  · decide +kernel

theorem test_witness_DeflateFrame (f : Flush) : ∃ t, exec (deflateInstr f) (ready 0 15) = .next t := by
  cases f <;> exact ⟨_, rfl⟩

theorem test_witness_OtherCommandsFrame :
    ∀ i ∈ [Instr.init 0 31, .reset, .endStream, .bound],
      (∀ f, i ≠ deflateInstr f) ∧ ∃ t, exec i (ready 0 15) = .next t := by
  intro i hi
  simp only [List.mem_cons, List.not_mem_nil, or_false] at hi
  rcases hi with rfl | rfl | rfl | rfl <;>
    exact ⟨by intro f; cases f <;> decide, _, rfl⟩

theorem test_witness_ProgressProperty :
    Inv (ready 15 15) ∧ ∃ t, exec (deflateInstr .noFlush) (ready 15 15) = .next t ∧ t.result = .ok :=
  ⟨ready_inv 15 15 6 15 .zlib (by decide), _, rfl, by decide +kernel⟩

theorem test_witness_StrategyAnswers :
    (StreamOk (ready 0 15).stream ∧ (ready 0 15).stream.strategy = .stored) ∧
      (StreamOk (ready 1 31).stream ∧ (ready 1 31).stream.strategy = .fast) ∧
      StreamOk (ready 9 0xF8).stream ∧ (ready 9 0xF8).stream.strategy = .slow :=
  ⟨⟨(started_streamOk 0 15 0 15 .zlib (by decide)).1, rfl⟩, ⟨(started_streamOk 1 31 1 15 .gzip (by decide)).1, rfl⟩,
    (started_streamOk 9 0xF8 9 8 .raw (by decide)).1, rfl⟩

theorem test_witness_FlushPointInMemory :
    Inv (ready 0 15) ∧
      (∃ t, exec (deflateInstr .syncFlush) (ready 0 15) = .next t ∧ t.result = .ok ∧ t.outAvail ≠ 0) ∧
      ∃ t, exec (deflateInstr .fullFlush) (ready 0 15) = .next t ∧ t.result = .ok ∧ t.outAvail ≠ 0 :=
  ⟨ready_inv 0 15 0 15 .zlib (by decide), ⟨_, rfl, by decide +kernel⟩, _, rfl, by decide +kernel⟩

/-- The same above level 0: level 6. -/
theorem test_witness_FlushPointInMemory_slow :
    Inv (ready 15 15) ∧ (ready 15 15).stream.strategy = .slow ∧
      (∃ t, exec (deflateInstr .syncFlush) (ready 15 15) = .next t ∧ t.result = .ok ∧ t.outAvail ≠ 0) ∧
      ∃ t, exec (deflateInstr .fullFlush) (ready 15 15) = .next t ∧ t.result = .ok ∧ t.outAvail ≠ 0 :=
  ⟨ready_inv 15 15 6 15 .zlib (by decide), rfl, ⟨_, rfl, by decide +kernel⟩, _, rfl, by decide +kernel⟩

/-- The last symbol of each of the three trees, used. -/
theorem test_witness_CodeLengthCeiling :
    (285 < litKind.elems ∧ (tableOf [(285, 1)]).get 0 285 ≠ 0) ∧
      (29 < distKind.elems ∧ (tableOf [(29, 1)]).get 0 29 ≠ 0) ∧
      18 < blKind.elems ∧ (tableOf [(18, 1)]).get 0 18 ≠ 0 := by decide +kernel

theorem test_witness_HeaderComesFirst :
    (ready 15 31).memory.wf = true ∧ (ready 15 31).phase = .init ∧ (ready 15 31).stream.pending = [] ∧
      0 < (ready 15 31).outAvail.toNat ∧
      9 < (headerBytes (ready 15 31).stream.wrap (ready 15 31).stream.level (ready 15 31).stream.reqWbits).length ∧
      DeflateAccepted .noFlush (ready 15 31) :=
  ⟨by decide +kernel, by decide +kernel, by decide +kernel, by decide +kernel, by decide +kernel,
    test_witness_DeflateCompletes .noFlush⟩

theorem test_witness_WrapperBytes : (0 ≤ 9 ∧ 8 ≤ 8 ∧ 8 ≤ 15) ∧ 9 ≤ 9 ∧ 8 ≤ 15 ∧ 15 ≤ 15 := by decide

/-- The configuration of level 9, window 15, zlib; and of level 0, window 8, raw. -/
def best : Stream := configureStream 9 .zlib 15 0 Stream.reset
def store : Stream := configureStream 0 .raw 8 0 Stream.reset

/-- A new stream of a configuration, with `n` input bytes and 64 bytes of output space. -/
def fresh (t : Stream) (n : Word) : State :=
  { State.reset with
    phase := .init
    stream := resetFields t
    inPtr := 0x1000
    inAvail := n
    outPtr := 0x2000
    outAvail := 64 }

theorem test_witness_EmptyStreamBytes :
    ConfigOk best ∧ best.level ≠ 0 ∧ (fresh best 0).stream = resetFields best ∧ (fresh best 0).phase = .init ∧
      (fresh best 0).memory.wf = true ∧ ¬ DeflateStreamError .finish (fresh best 0) ∧ (fresh best 0).inAvail = 0 ∧
      (headerBytes best.wrap best.level best.reqWbits ++ [0x03, 0x00] ++
        trailerBytes best.wrap (fresh best 0).check (fresh best 0).totalIn).length < (fresh best 0).outAvail.toNat := by
  refine ⟨configureStream_configOk 9 .zlib 15 0 _ (by decide) (by decide) (by decide), by decide, rfl, rfl, rfl, ?_, rfl, by decide⟩
  rw [deflateStreamError_iff]
  decide

theorem test_witness_StoredOneShotBytes :
    ConfigOk store ∧ store.level = 0 ∧ (fresh store 3).stream = resetFields store ∧ (fresh store 3).phase = .init ∧
      (fresh store 3).memory.wf = true ∧ ¬ DeflateStreamError .finish (fresh store 3) ∧
      3 = (fresh store 3).inAvail.toNat ∧ 3 < store.maxDist ∧ 5 + 3 < (fresh store 3).outAvail.toNat := by
  refine ⟨configureStream_configOk 0 .raw 8 0 _ (by decide) (by decide) (by decide), rfl, rfl, rfl, rfl, ?_, rfl,
    by decide, by decide⟩
  rw [deflateStreamError_iff]
  decide

/-- A bit writer with `n` bits of ones waiting. -/
def waiting (n : Nat) : Stream := { Stream.reset with bitcount := n, bitacc := 2 ^ n - 1 }

/-- The hypothesis of the statements about the bit writer and the serializer, at both ends of its range. -/
theorem test_witness_WriterOk : WriterOk (waiting 0) ∧ WriterOk (waiting 5) ∧ WriterOk (waiting 6) ∧
    WriterOk (waiting 7) := by
  unfold WriterOk
  decide

theorem test_witness_SendBitsAppendsLowBits : WriterOk (waiting 7) ∧ 16 ≤ 16 ∧ 65535 < 2 ^ 16 :=
  ⟨test_witness_WriterOk.2.2.2, by decide, by decide⟩

theorem test_witness_AlignAndPutByte : WriterOk (waiting 7) ∧ WriterOk (waiting 0) ∧ (waiting 0).bitcount = 0 :=
  ⟨test_witness_WriterOk.2.2.2, test_witness_WriterOk.1, rfl⟩

theorem test_witness_StoredBlockBits : WriterOk (waiting 6) ∧ (List.replicate 65535 (0 : Byte)).length ≤ 65535 :=
  ⟨test_witness_WriterOk.2.2.1, by rw [List.length_replicate]⟩

theorem test_witness_FlushMarkerBytes :
    WriterOk (waiting 5) ∧ WriterOk (waiting 6) ∧ (waiting 5).lookahead = 0 ∧
      WriterOk { waiting 6 with lookahead := 1 } ∧ { waiting 6 with lookahead := 1 }.lookahead ≠ 0 :=
  ⟨test_witness_WriterOk.2.1, test_witness_WriterOk.2.2.1, rfl, test_witness_WriterOk.2.2.1, by decide⟩

theorem test_witness_BlockHeaderBits : WriterOk (waiting 7) := test_witness_WriterOk.2.2.2

theorem test_witness_BlockBodyBits : WriterOk (tallyDist 1 258 (tallyLit 0 (waiting 7))) := test_witness_WriterOk.2.2.2

theorem test_witness_TreeDescriptionBits : WriterOk (waiting 0) := test_witness_WriterOk.1

/-- `optB` and `staticB` are the byte counts of a cost. -/
abbrev Rounded (cost : Cost) (optB staticB : Int) : Prop :=
  optB * 8 - 8 < cost.optLen + 3 ∧ cost.optLen + 3 ≤ optB * 8 ∧ staticB * 8 - 8 < cost.staticLen + 3 ∧
    cost.staticLen + 3 ≤ staticB * 8

/-- Each clause where its inequality turns: a stored block that just pays, one that just does not, fixed and dynamic
equal and one byte apart. -/
theorem test_witness_BlockChoice :
    (Rounded ⟨61, 61⟩ 8 8 ∧ 9 ≠ 0 ∧ (4 : Int) + 4 ≤ min 8 8) ∧
      (Rounded ⟨61, 61⟩ 8 8 ∧ min (8 : Int) 8 < 5 + 4 ∧ (8 : Int) ≤ 8) ∧
      (Rounded ⟨53, 54⟩ 7 8 ∧ min (7 : Int) 8 < 4 + 4 ∧ (7 : Int) < 8) ∧ Rounded ⟨0, 0⟩ 1 1 := by decide

theorem test_witness_CanonicalCodes :
    285 < 65536 ∧ 285 ≤ 285 ∧ ∀ m, m ≤ 285 → (tableOf [(0, 1), (256, 15), (285, 15)]).get 0 m ≤ 15 := by
  refine ⟨by decide, by decide, fun m h => ?_⟩
  have : ∀ m ∈ List.range 286, (tableOf [(0, 1), (256, 15), (285, 15)]).get 0 m ≤ 15 := by decide +kernel
  exact this m (List.mem_range.2 (by omega))

theorem test_witness_BitReversedCodes : 0x7FFF < 2 ^ 15 ∧ 0 < 15 ∧ 14 < 15 ∧ WriterOk (waiting 7) :=
  ⟨by decide, by decide, by decide, test_witness_WriterOk.2.2.2⟩

theorem test_witness_RunOpsReproduceLengths : ∀ l ∈ [0, 0, 0, 15, 15, 15, 15, 15, 1], l ≤ 15 := by decide

theorem test_witness_LengthSymbols :
    (265, 1, 11, 12) ∈
      [(257, 0, 3, 3), (258, 0, 4, 4), (259, 0, 5, 5), (260, 0, 6, 6), (261, 0, 7, 7), (262, 0, 8, 8), (263, 0, 9, 9),
        (264, 0, 10, 10), (265, 1, 11, 12), (266, 1, 13, 14), (267, 1, 15, 16), (268, 1, 17, 18), (269, 2, 19, 22),
        (270, 2, 23, 26), (271, 2, 27, 30), (272, 2, 31, 34), (273, 3, 35, 42), (274, 3, 43, 50), (275, 3, 51, 58),
        (276, 3, 59, 66), (277, 4, 67, 82), (278, 4, 83, 98), (279, 4, 99, 114), (280, 4, 115, 130), (281, 5, 131, 162),
        (282, 5, 163, 194), (283, 5, 195, 226), (284, 5, 227, 257), (285, 0, 258, 258)] ∧ (11 ≤ 12 ∧ 12 ≤ 12) ∧ (3 ≤ 3 ∧ 3 ≤ 258) ∧ 3 ≤ 258 ∧
      258 ≤ 258 := by decide

theorem test_witness_DistanceSymbols : (1 ≤ 1 ∧ 1 ≤ 32768) ∧ (1 ≤ 32768 ∧ 32768 ≤ 32768) ∧ 0 < 30 ∧ 29 < 30 := by
  decide

theorem test_witness_InsertStringLinks :
    65535 < 65536 ∧ best.wBits ≤ 15 ∧ 0 = (updateHash best.insH (best.windowAt (65535 + 2))).toNat ∧ 32767 < 32768 ∧
      32767 ≠ 0 ∧ 0 < best.wSize ∧ 0 ≠ 65535 % best.wSize := by decide

/-- A new stream with `n` bytes of lookahead, all zero. -/
def looking (t : Stream) (n : Nat) : Stream := { resetFields t with lookahead := n }

theorem looking_streamOk (t : Stream) (h : ConfigOk t) (n : Nat) (hn : n ≤ 512) : StreamOk (looking t n) := by
  obtain ⟨h1, h2, ⟨a, b, c, d, e, f, g, k, l, m⟩, h4⟩ := resetFields_streamOk t h
  have hw : 512 ≤ t.wSize := h.window.1
  refine ⟨h1, h2, ⟨?_, b, c, d, e, f, g, ?_, l, ?_⟩, h4⟩
  · show 0 + n ≤ 2 * t.wSize
    omega
  · intro hs
    obtain ⟨k1, k2, ⟨S, k3, k4⟩, k5⟩ := k hs
    refine ⟨k1, k2, ⟨S, k3, fun p hp => ⟨(k4 p hp).1, ?_⟩⟩, .inl rfl⟩
    have := (k4 p hp).2
    show p + 3 ≤ 0 + n
    have : p + 3 ≤ 0 + 0 := this
    omega
  · intro hs
    obtain ⟨m1, m2⟩ := m hs
    exact ⟨m1, fun h3 => absurd h3 (by show ¬ 3 ≤ 2; decide)⟩

/-- The configuration of level 1, window 9, gzip. -/
def fastest : Stream := configureStream 1 .gzip 9 0 Stream.reset

theorem test_witness_FastTurnIsSound :
    StreamOk (looking fastest 300) ∧ (looking fastest 300).strategy = .fast ∧ (looking fastest 300).lookahead ≠ 0 :=
  ⟨looking_streamOk _ (configureStream_configOk 1 .gzip 9 0 _ (by decide) (by decide) (by decide)) 300 (by decide),
    rfl, by decide⟩

/-- A stream that holds a match of three bytes from window position `start`, after two bytes of its block. -/
def hold (start : Int) (t : Stream) : Stream :=
  { t with strstart := 3, lookahead := 3, matchLength := 3, matchStart := start, matchAvailable := true }

/-- A new stream of level 9 that has recorded two literals 0, holding a match. -/
def holding (start : Int) : Stream := hold start (tallyLit 0 (tallyLit 0 (resetFields best)))

theorem hold_tallyOk (start : Int) {t : Stream} (h : TallyOk t) : TallyOk (hold start t) := h

theorem chainOk_of_empty {t : Stream} (h : t.head = .empty) : ChainOk t :=
  ⟨fun _ => False, ⟨fun i hi => by rw [h] at hi; simp at hi, fun _ hp => hp.elim⟩, fun _ hp => hp.elim⟩

theorem holding_streamOk (start : Int) (h1 : start + 1 < 3) (h2 : 3 - 1 - start ≤ 32506) : StreamOk (holding start) := by
  have ht : TallyOk (holding start) := hold_tallyOk start (tallyLit_tallyOk 0 (tallyLit_tallyOk 0 (initBlock_tallyOk _)))
  have hc : ConfigOk (holding start) :=
    configureStream_configOk 9 .zlib 15 0 Stream.reset (by decide) (by decide) (by decide)
  refine ⟨hc, ⟨Nat.zero_le 7, Nat.one_pos⟩, ⟨?_, ?_, ?_, ?_, ht, fun _ => rfl, ?_,
    fun _ => ⟨rfl, ?_, chainOk_of_empty rfl, .inl rfl⟩, ?_, fun _ => ⟨?_, fun _ => ⟨rfl, ?_, h1, h2⟩⟩⟩, ?_⟩
  · show 3 + 3 ≤ 2 * 2 ^ 15
    decide
  · show (0 : Int) ≤ 3
    decide
  · exact Nat.zero_le 2
  · exact Nat.zero_le 3
  · intro h
    have h' : Strategy.slow = .stored := h
    cases h'
  · intro d l hd
    have hy : (holding start).syms = [.lit 0, .lit 0] := rfl
    rw [hy] at hd
    simp at hd
  · intro h
    have h' : Strategy.slow = .fast := h
    cases h'
  · show 3 ≤ 258
    decide
  · show 3 ≤ 3 + 1
    decide
  · show 2 < 16384 - 1
    decide

theorem windowAt_empty {t : Stream} (h : t.window = .empty) (i : Nat) : t.windowAt i = 0 := by
  unfold Stream.windowAt
  rw [h, Table.get_empty]

theorem holding_agrees (start : Int) (h : -1 ≤ start) : HeldAgrees (holding start) :=
  fun _ => ⟨h, fun i _ _ => by rw [windowAt_empty rfl, windowAt_empty rfl]⟩

/-- A held match inside the window, one that starts just before it, and no held byte. -/
theorem test_witness_SlowTurnIsSound :
    (∀ start ∈ [(1 : Int), -1], StreamOk (holding start) ∧ (holding start).strategy = .slow ∧
      (holding start).lookahead ≠ 0 ∧ HeldAgrees (holding start) ∧ 3 ≤ (holding start).matchLength) ∧
      StreamOk (looking best 3) ∧ (looking best 3).strategy = .slow ∧ (looking best 3).lookahead ≠ 0 ∧
      HeldAgrees (looking best 3) ∧ (looking best 3).matchAvailable = false := by
  refine ⟨?_,
    looking_streamOk _ (configureStream_configOk 9 .zlib 15 0 _ (by decide) (by decide) (by decide)) 3 (by decide), rfl,
    by decide, fun h => absurd h (by decide), rfl⟩
  intro start hs
  have h : -1 ≤ start ∧ start ≤ 1 := by
    simp only [List.mem_cons, List.not_mem_nil, or_false] at hs
    omega
  exact ⟨holding_streamOk start (by omega) (by omega), rfl, Nat.succ_ne_zero 2, holding_agrees start h.1, Nat.le_refl 3⟩

theorem test_witness_FillWindowContent :
    StreamOk (fresh best 5).stream ∧ (fresh best 5).stream.lookahead < 262 ∧ StreamOk (looking best 261) ∧
      (looking best 261).lookahead < 262 ∧ (StreamOk (holding 1) ∧ (holding 1).lookahead < 262 ∧
      1 ≤ (holding 1).maxDist ∧ 1 ≤ (holding 1).strstart ∧ (holding 1).strategy = .slow ∧ HeldAgrees (holding 1)) :=
  ⟨resetFields_streamOk _ (configureStream_configOk 9 .zlib 15 0 _ (by decide) (by decide) (by decide)), by decide,
    looking_streamOk _ (configureStream_configOk 9 .zlib 15 0 _ (by decide) (by decide) (by decide)) 261 (by decide),
    by decide, holding_streamOk 1 (by decide) (by decide), by decide, by decide, by decide, rfl,
    holding_agrees 1 (by decide)⟩

/-- A stream of window 9 or 15 whose window is full, with two deferred insertions and one cell of `S.prev` written. -/
def full (wb strstart : Nat) : Stream :=
  { resetFields (configureStream 6 .raw wb 0 Stream.reset) with
    strstart := strstart
    insert := 2
    prev := Table.empty.write 7 700 }

/-- Two slides take every entry of `S.prev` of a 32 KiB window to 0, one that nothing has written too (41_lz77.md R205). -/
theorem test_two_slides_clear_prev (t : Stream) (i : Nat) (h : t.wSize = 32768) :
    (slide (slide t)).prevAt i = 0 := by
  have hm : t.prevAt i < 65536 := BitVec.isLt _
  rw [slide_prevAt, slide_prevAt, wSize_congr (slide_wBits t), h]
  omega

theorem test_witness_SlideKeepsUpperHalf :
    (9 ≤ (full 9 762).wBits ∧ (full 9 762).wBits ≤ 15 ∧
      (full 9 762).wSize + (full 9 762).maxDist ≤ (full 9 762).strstart ∧ (full 9 762).insert ≤ 2 ∧
      (full 9 762).prev.read? 7 = some 700) ∧
      9 ≤ (full 15 65536).wBits ∧ (full 15 65536).wBits ≤ 15 ∧
      (full 15 65536).wSize + (full 15 65536).maxDist ≤ (full 15 65536).strstart ∧ (full 15 65536).insert ≤ 2 := by
  decide +kernel

theorem test_witness_ReadInputEffect :
    (3 = min 7 (ready 0 15).inAvail.toNat ∧ 65533 + 3 ≤ 65536) ∧ 0 = min 0 (ready 0 15).inAvail.toNat ∧
      65536 + 0 ≤ 65536 := by decide +kernel

/-- A stream with three bytes queued and two bytes of output space at the end of the address space. -/
def queued : State :=
  (fresh best 0).onStream (putBytes [1, 0, 3])

theorem test_witness_FlushPendingEffect :
    ({ queued with outPtr := 0xFFFFFFFE, outAvail := 2 }.memory.wf = true ∧
      { queued with outPtr := 0xFFFFFFFE, outAvail := 2 }.outPtr.toNat +
        { queued with outPtr := 0xFFFFFFFE, outAvail := 2 }.outAvail.toNat ≤ 2 ^ 32 ∧
      2 = min { queued with outPtr := 0xFFFFFFFE, outAvail := 2 }.stream.pending.length
        { queued with outPtr := 0xFFFFFFFE, outAvail := 2 }.outAvail.toNat) ∧
      queued.memory.wf = true ∧ queued.outPtr.toNat + queued.outAvail.toNat ≤ 2 ^ 32 ∧
      3 = min queued.stream.pending.length queued.outAvail.toNat := by decide

theorem test_witness_StepKeepsInv :
    Inv (moving (some 0x43) [] (ready 15 15)) ∧ (∃ t, step (moving (some 0x43) [] (ready 15 15)) = .next t) ∧
      (ready 15 15).phase ≠ .uninit :=
  ⟨ready_inv 15 15 6 15 .zlib (by decide), ⟨_, rfl⟩, by decide⟩

/-- Another host memory with the same input bytes. -/
theorem test_witness_CommandDependsOnInputOnly :
    (ready 0 15).memory.wf = true ∧ ((ready 0 15).memory.write 0x5000 9).wf = true ∧
      SameInput ((ready 0 15).memory.write 0x5000 9) (ready 0 15) ∧
      (ready 0 15).memory.write 0x5000 9 ≠ (ready 0 15).memory := by
  refine ⟨by decide +kernel, by decide +kernel, ?_, by decide +kernel⟩
  intro a ha
  obtain ⟨h1, h2⟩ := ha
  have h3 : 4096 ≤ a := h1
  have h4 : a < 4096 + 3 := h2
  have h5 : a = 4096 ∨ a = 4097 ∨ a = 4098 := by omega
  rcases h5 with rfl | rfl | rfl <;> decide +kernel

end Sys2Proof.Machine.Tests
end

section
/-! The registers as the host sees them, and what every command leaves unchanged (10_state.md). -/

namespace Sys2Proof.Machine

/-! STATUS. -/

/-- STATUS bit by bit: RESULT, STATE, the reserved bit 7, BUSY and OVERRUN from the low end up (10_state.md R35). -/
theorem statusWord_getLsbD (s : State) (i : Nat) : (statusWord s).getLsbD i =
    if i < 4 then s.result.code.getLsbD i
    else if i < 7 then s.phase.code.getLsbD (i - 4)
    else if i < 8 then false
    else if i < 9 then s.running.isSome
    else if i < 10 then s.overrun
    else false := by
  change BitVec.getLsbD (w := 22 + 1 + 1 + 1 + 3 + 4) (statusWord s) i = _
  unfold statusWord
  rw [BitVec.getLsbD_append, BitVec.getLsbD_append, BitVec.getLsbD_append, BitVec.getLsbD_append,
    BitVec.getLsbD_append]
  simp only [BitVec.getLsbD_ofBool, State.busy]
  grind

theorem statusWord_result (s : State) : (statusWord s).extractLsb' 0 4 = s.result.code := by
  ext i hi
  simp [statusWord_getLsbD, hi]

theorem statusWord_phase (s : State) : (statusWord s).extractLsb' 4 3 = s.phase.code := by
  ext i hi
  have h7 : 4 + i < 7 := by omega
  simp [statusWord_getLsbD, hi, h7]

theorem statusWord_reserved (s : State) : (statusWord s).extractLsb' 10 22 = 0 := by
  ext i hi
  have hb : (statusWord s).getLsbD (10 + i) = false := by
    rw [statusWord_getLsbD, if_neg, if_neg, if_neg, if_neg, if_neg] <;> omega
  simp [hb]

/-! Registers while BUSY = 0. -/

theorem registerOffset_iff (offset : Nat) : registerOffset offset = true ↔ WordOffset offset := by
  simp [registerOffset, WordOffset]

/-- The register file read by `readReg` is the table of 10_state.md R33. -/
theorem readReg_eq_registerRead (offset : Nat) (s : State) : readReg offset s = registerRead s offset := by
  unfold readReg registerRead
  split <;> simp_all

theorem statusWord_reset : statusWord State.reset = 0 := by decide

theorem registerRead_reset (offset : Nat) :
    registerRead State.reset offset = if offset = 0 then Config.implId else 0 := by
  unfold registerRead
  rw [statusWord_reset]
  split
  · rfl
  · simp [State.reset]

/-- `writeReg` changes the four RW registers of 10_state.md R33, each at its own offset. -/
theorem writeReg_eq (offset : Nat) (v : Word) (s : State) :
    writeReg offset v s = { s with
      inPtr := if offset = 0x0C then v else s.inPtr
      inAvail := if offset = 0x10 then v else s.inAvail
      outPtr := if offset = 0x14 then v else s.outPtr
      outAvail := if offset = 0x18 then v else s.outAvail } := by
  unfold writeReg
  split <;> simp_all

/-- A step while BUSY = 0 takes the next host move. -/
theorem step_idle {s : State} {m : HostMove} {rest : List HostMove} (hr : s.running = none)
    (hi : s.inputs = m :: rest) : step s = idleMove m { s with inputs := rest } := by
  simp only [step, nextMove, hr, hi]

theorem idleMove_regRead {offset : Nat} (ho : WordOffset offset) (s : State) :
    idleMove (.regRead offset) s = .next { s with readData := registerRead s offset } := by
  rw [idleMove, if_pos ((registerOffset_iff offset).mpr ho), readReg_eq_registerRead]

theorem idleMove_regWrite {offset : Nat} (ho : WordOffset offset) (hc : offset ≠ 0x04) (v : Word) (s : State) :
    idleMove (.regWrite offset v) s = .next (writeReg offset v s) := by
  rw [idleMove, if_pos ((registerOffset_iff offset).mpr ho), if_neg (show ¬ offset = cmdOffset from hc)]

theorem idleMove_regRead_refused {offset : Nat} (ho : ¬ WordOffset offset) (s : State) :
    idleMove (.regRead offset) s = .refused .registerAccessWithoutMeaning := by
  rw [idleMove, if_neg (mt (registerOffset_iff offset).mp ho)]

theorem idleMove_regWrite_refused {offset : Nat} (ho : ¬ WordOffset offset) (v : Word) (s : State) :
    idleMove (.regWrite offset v) s = .refused .registerAccessWithoutMeaning := by
  rw [idleMove, if_neg (mt (registerOffset_iff offset).mp ho)]

/-! DEFLATE: `Moved` says what the buffers, the registers and memory do; here the command also ends. -/

theorem exec_deflateInstr (f : Flush) (s : State) : exec (deflateInstr f) s = .next (deflate f s) := by
  cases f <;> rfl

theorem deflate_moved (f : Flush) (s : State) : Moved s (deflate f s) := by
  unfold deflate
  split
  · exact (Moves.endCommand _ s).moved
  · exact deflateBody_moved f s

@[simp] theorem returnOutFull_running (s : State) : (returnOutFull s).running = none := rfl

@[simp] theorem deflateTail_running (f : Flush) (s : State) : (deflateTail f s).running = none := by
  simp only [deflateTail]
  split
  · rfl
  · split
    · rfl
    · split
      · rfl
      · rfl

@[simp] theorem afterStrategy_running (f : Flush) (b : BlockState) (s : State) :
    (afterStrategy f b s).running = none := by
  simp only [afterStrategy]
  split
  · split
    · rfl
    · rfl
  · split
    · split
      · rfl
      · exact deflateTail_running f _
    · exact deflateTail_running f _

@[simp] theorem deflateRun_running (f : Flush) (s : State) : (deflateRun f s).running = none := by
  simp only [deflateRun]
  split
  · exact afterStrategy_running f _ _
  · exact deflateTail_running f s

@[simp] theorem deflateHeader_running (f : Flush) (s : State) : (deflateHeader f s).running = none := by
  simp only [deflateHeader]
  split
  · split
    · split
      · rfl
      · exact deflateRun_running f _
    · exact deflateRun_running f _
  · exact deflateRun_running f s

@[simp] theorem deflateFinishing_running (f : Flush) (s : State) : (deflateFinishing f s).running = none := by
  simp only [deflateFinishing]
  split
  · rfl
  · exact deflateHeader_running f s

@[simp] theorem deflateBody_running (f : Flush) (s : State) : (deflateBody f s).running = none := by
  simp only [deflateBody]
  split
  · split
    · rfl
    · exact deflateFinishing_running f _
  · split
    · rfl
    · exact deflateFinishing_running f _

@[simp] theorem deflate_running (f : Flush) (s : State) : (deflate f s).running = none := by
  unfold deflate
  split
  · rfl
  · exact deflateBody_running f s

/-- `storedCount`, the fall of OUT_AVAIL, is the number of bytes written. -/
theorem Moves.storedCount_eq {k m : Nat} {s t : State} (h : Moves k m s t) : storedCount s t = m := by
  have hm := h.mLe
  have hlt := s.outAvail.isLt
  rw [storedCount, BitVec.toNat_sub, h.toNat_outAvail]
  omega

/-! The other commands. -/

/-- What every command but DEFLATE does to the registers and memory that it has no part in: host memory, the cursors,
OVERRUN, the host's moves and its last read stay, and the command ends. -/
structure EndsQuietly (s t : State) : Prop where
  memory : t.memory = s.memory
  inPtr : t.inPtr = s.inPtr
  inAvail : t.inAvail = s.inAvail
  outPtr : t.outPtr = s.outPtr
  outAvail : t.outAvail = s.outAvail
  overrun : t.overrun = s.overrun
  inputs : t.inputs = s.inputs
  readData : t.readData = s.readData
  running : t.running = none

/-- The clauses of `EndsQuietly` as `Obligations.OtherCommandsFrame` lists them, in front of those of one command. -/
theorem EndsQuietly.and {s t : State} {P : Prop} (h : EndsQuietly s t) (hP : P) :
    (∀ a, t.memory.read a = s.memory.read a) ∧ t.inPtr = s.inPtr ∧ t.inAvail = s.inAvail ∧ t.outPtr = s.outPtr ∧
      t.outAvail = s.outAvail ∧ t.overrun = s.overrun ∧ t.inputs = s.inputs ∧ t.readData = s.readData ∧
      t.running = none ∧ P :=
  ⟨fun a => by rw [h.memory], h.inPtr, h.inAvail, h.outPtr, h.outAvail, h.overrun, h.inputs, h.readData, h.running, hP⟩

theorem raise_endsQuietly (e : Result) (s : State) : EndsQuietly s (raise e s) :=
  ⟨rfl, rfl, rfl, rfl, rfl, rfl, rfl, rfl, rfl⟩

/-- INIT raises a code, or starts a stream with the accepted operands (40_commands.md R152). -/
theorem initCommand_cases (level : BitVec 4) (wbits : BitVec 8) (s : State) :
    (∃ e, initCommand level wbits s = raise e s) ∨
      ∃ lv wrap wb, initCommand level wbits s = endCommand .ok (startStream lv wbits wrap wb s) := by
  unfold initCommand
  split
  · exact .inl ⟨_, rfl⟩
  · split
    · exact .inl ⟨_, rfl⟩
    · split
      · exact .inl ⟨_, rfl⟩
      · exact .inr ⟨_, _, _, rfl⟩

theorem execInit_frame {level : BitVec 4} {wbits : BitVec 8} {s t : State} (h : execInit level wbits s = .next t) :
    EndsQuietly s t ∧ t.bound = s.bound := by
  cases h
  obtain ⟨e, h⟩ | ⟨lv, wrap, wb, h⟩ := initCommand_cases level wbits s
  · rw [h]
    exact ⟨raise_endsQuietly e s, rfl⟩
  · rw [h]
    exact ⟨⟨rfl, rfl, rfl, rfl, rfl, rfl, rfl, rfl, rfl⟩, rfl⟩

theorem resetFields_prevAt (t : Stream) (i : Nat) : (resetFields t).prevAt i = t.prevAt i := rfl

theorem execReset_frame {s t : State} (h : execReset s = .next t) :
    EndsQuietly s t ∧ t.bound = s.bound ∧ t.config = s.config ∧ SameConfig s.stream t.stream ∧
      t.stream.window = s.stream.window ∧ (∀ i, t.stream.prevAt i = s.stream.prevAt i) ∧
      t.stream.prev = s.stream.prev ∧ t.draws = s.draws := by
  cases h
  split
  · exact ⟨raise_endsQuietly _ s, rfl, rfl, SameConfig.refl _, rfl, fun _ => rfl, rfl, rfl⟩
  · exact ⟨⟨rfl, rfl, rfl, rfl, rfl, rfl, rfl, rfl, rfl⟩, rfl, rfl, SameConfig.refl _, rfl,
      resetFields_prevAt _, rfl, rfl⟩

theorem execEndStream_frame {s t : State} (h : execEndStream s = .next t) :
    EndsQuietly s t ∧ t.bound = s.bound ∧ t.totalIn = s.totalIn ∧ t.totalOut = s.totalOut ∧ t.check = s.check := by
  cases h
  split
  · exact ⟨raise_endsQuietly _ s, rfl, rfl, rfl, rfl⟩
  · exact ⟨⟨rfl, rfl, rfl, rfl, rfl, rfl, rfl, rfl, rfl⟩, rfl, rfl, rfl, rfl⟩

theorem execBound_frame {s t : State} (h : execBound s = .next t) :
    EndsQuietly s t ∧ (t.totalIn = s.totalIn ∧ t.totalOut = s.totalOut ∧ t.check = s.check) ∧
      (t.config = s.config ∧ t.phase = s.phase ∧ t.stream = s.stream ∧ t.draws = s.draws) := by
  cases h
  exact ⟨⟨rfl, rfl, rfl, rfl, rfl, rfl, rfl, rfl, rfl⟩, ⟨rfl, rfl, rfl⟩, rfl, rfl, rfl, rfl⟩

/-! The obligations. -/

/-- Settles O8: a register move while BUSY = 0 is `idleMove`, which reads by the register table and writes by
`writeReg_eq`. -/
theorem idleRegisterAccess : Obligations.IdleRegisterAccess := by
  intro s offset v rest hr
  refine ⟨fun ho hi => ?_, fun ho hc hi => ?_, fun ho hi => ?_⟩
  · rw [step_idle hr hi, idleMove_regRead ho]
    rfl
  · rw [step_idle hr hi, idleMove_regWrite ho hc, writeReg_eq]
  · obtain hi | hi := hi
    · rw [step_idle hr hi, idleMove_regRead_refused ho]
    · rw [step_idle hr hi, idleMove_regWrite_refused ho]

/-- Settles O23: every outcome of DEFLATE is `Moves` by some amounts, the output amount being the fall of OUT_AVAIL. -/
theorem deflateFrame : Obligations.DeflateFrame := by
  intro f s t h
  rw [exec_deflateInstr] at h
  cases h
  obtain ⟨k, m, hm⟩ := deflate_moved f s
  refine ⟨hm.config, hm.bound, hm.overrun, hm.inputs, hm.readData, hm.draws, hm.same, deflate_running f s, ?_⟩
  rw [hm.storedCount_eq]
  exact hm.memory

/-- Settles O24: each command ends quietly, and its own lemma says what else it keeps. -/
theorem otherCommandsFrame : Obligations.OtherCommandsFrame := by
  intro i s t hi h
  cases i with
  | init level wbits =>
    obtain ⟨hq, hb⟩ := execInit_frame h
    exact hq.and ⟨fun _ => hb, by simp, by simp, by simp⟩
  | reset =>
    obtain ⟨hq, hb, hs⟩ := execReset_frame h
    exact hq.and ⟨fun _ => hb, by simp, fun _ => hs, by simp⟩
  | deflateNoFlush => exact absurd rfl (hi .noFlush)
  | deflateSyncFlush => exact absurd rfl (hi .syncFlush)
  | deflateFullFlush => exact absurd rfl (hi .fullFlush)
  | deflateFinish => exact absurd rfl (hi .finish)
  | endStream =>
    obtain ⟨hq, hb, hc⟩ := execEndStream_frame h
    exact hq.and ⟨fun _ => hb, fun _ => hc, by simp, by simp⟩
  | bound =>
    obtain ⟨hq, hc, hs⟩ := execBound_frame h
    exact hq.and ⟨fun hne => absurd rfl hne, fun _ => hc, by simp, fun _ => hs⟩

/-- Settles O6: the fields of STATUS by the lemma of each, the code numbers by evaluation. -/
theorem statusWordLayout : Obligations.StatusWordLayout :=
  ⟨fun s => ⟨statusWord_result s, statusWord_phase s, statusWord_getLsbD s 7, statusWord_getLsbD s 8,
    statusWord_getLsbD s 9, statusWord_reserved s⟩, rfl, rfl⟩

/-- Settles O7: every row of the register table at `State.reset`. -/
theorem resetRegisters : Obligations.ResetRegisters :=
  ⟨fun offset _ => by rw [readReg_eq_registerRead, registerRead_reset], statusWord_reset, rfl, rfl⟩

end Sys2Proof.Machine
end

section
/-! Host memory between commands, and the two primitives that move bytes between it and the stream (20_memory.md). -/

namespace Sys2Proof.Machine

/-! Memory accesses while BUSY = 0. -/

theorem idleMove_memRead {a : Nat} (ha : a < Memory.size) (s : State) :
    idleMove (.memRead a) s = .next { s with readData := (s.memory.read a).setWidth 32 } := by
  rw [idleMove, if_pos ha, hostLoad]

theorem idleMove_memWrite {a : Nat} (ha : a < Memory.size) (v : Byte) (s : State) :
    idleMove (.memWrite a v) s = .next { s with memory := s.memory.write a v } := by
  rw [idleMove, if_pos ha, hostStore]

theorem idleMove_memRead_outside {a : Nat} (ha : Memory.size ≤ a) (s : State) :
    idleMove (.memRead a) s = .fault .addressOutsideHostMemory := by
  rw [idleMove, if_neg (Nat.not_lt.mpr ha)]

theorem idleMove_memWrite_outside {a : Nat} (ha : Memory.size ≤ a) (v : Byte) (s : State) :
    idleMove (.memWrite a v) s = .fault .addressOutsideHostMemory := by
  rw [idleMove, if_neg (Nat.not_lt.mpr ha)]

/-! What the bytes of one call of `ReadInput` and of `FlushPending` leave where they land. -/

theorem inputBytes_getElem (s : State) {i k : Nat} (h : i < (inputBytes s k).length) :
    (inputBytes s k)[i] = s.memory.read (s.inPtr + BitVec.ofNat 32 i).toNat := by
  simp [inputBytes, inputByte]

theorem loadBytes_get_inside (dst : Nat) (bs : List Byte) (win : Table Byte) (hd : dst + bs.length ≤ 65536)
    {i : Nat} (hi : i < bs.length) : (loadBytes dst bs win).get 0 (dst + i) = bs[i] := by
  rw [loadBytes_get dst bs win (dst + i) (by omega) hd, dif_pos (by omega)]
  simp

theorem loadBytes_get_outside (dst : Nat) (bs : List Byte) (win : Table Byte) (hd : dst + bs.length ≤ 65536)
    {j : Nat} (hj : j < 65536) (ho : j < dst ∨ dst + bs.length ≤ j) :
    (loadBytes dst bs win).get 0 j = win.get 0 j := by
  rw [loadBytes_get dst bs win j hj hd, dif_neg (by omega)]

/-- Where the stored range does not wrap, every address outside it keeps its byte. -/
theorem storeBytes_outside (p : Word) (bs : List Byte) (m : Memory) (hp : p.toNat + bs.length ≤ 2 ^ 32) {a : Nat}
    (ha : a < p.toNat ∨ p.toNat + bs.length ≤ a) : (storeBytes p bs m).read a = m.read a := by
  apply storeBytes_other
  intro i hi
  rw [BitVec.toNat_add, BitVec.toNat_ofNat]
  omega

/-! The obligations. -/

/-- Settles O9: a memory move while BUSY = 0 is `idleMove`, and `Memory.read_write` and `Memory.wf_write` say what the
written byte does. -/
theorem hostMemoryAccess : Obligations.HostMemoryAccess := by
  intro s a v rest hr hm
  refine ⟨fun ha hi => ?_, fun ha hi => ?_, fun ha hi => ?_⟩
  · rw [step_idle hr hi, idleMove_memRead ha]
  · refine ⟨s.memory.write a v, ?_, Memory.wf_write hm ha, fun b => Memory.read_write hm a b v⟩
    rw [step_idle hr hi, idleMove_memWrite ha]
  · obtain hi | hi := hi
    · rw [step_idle hr hi, idleMove_memRead_outside ha]
    · rw [step_idle hr hi, idleMove_memWrite_outside ha]

/-- Settles O53: the closed form `readInput_eq` loads `inputBytes` into the window from `dst` on. -/
theorem readInputEffect : Obligations.ReadInputEffect := by
  intro n dst k s hk hd
  obtain rfl : k = readCount n s := hk
  have hd' : dst + (inputBytes s (readCount n s)).length ≤ 65536 := by rwa [inputBytes_length]
  refine ⟨loadBytes dst (inputBytes s (readCount n s)) s.stream.window, readInput_eq n dst s, fun i hi => ?_,
    fun j hj ho => ?_⟩
  · rw [loadBytes_get_inside dst _ _ hd' (by rwa [inputBytes_length]), inputBytes_getElem]
  · exact loadBytes_get_outside dst _ _ hd' hj (by rwa [inputBytes_length])

/-- Settles O54: the closed form `flushPending_eq` stores the first `flushCount` queued bytes from OUT_PTR on. -/
theorem flushPendingEffect : Obligations.FlushPendingEffect := by
  intro s k hm hp hk
  obtain rfl : k = flushCount s := hk
  have hlen : (s.stream.pending.take (flushCount s)).length = flushCount s :=
    List.length_take_of_le (Nat.min_le_left ..)
  have hp' : s.outPtr.toNat + (s.stream.pending.take (flushCount s)).length ≤ 2 ^ 32 := by
    have := flushCount_le s
    omega
  refine ⟨storeBytes s.outPtr (s.stream.pending.take (flushCount s)) s.memory, flushPending_eq s,
    storeBytes_wf _ _ _ hm, fun i hi => ?_, fun a ha => ?_⟩
  · have hi' : i < (s.stream.pending.take (flushCount s)).length := by rwa [hlen]
    rw [storeBytes_same _ _ _ hm hp' i hi', ← List.getElem?_eq_getElem hi', List.getElem?_take_of_lt hi]
  · exact storeBytes_outside _ _ _ hp' (by rwa [hlen])

end Sys2Proof.Machine
end

section
/-! Command words: decoding inverts encoding, and what the fields of a word say about its effect (30_encoding.md R110 to
R117). -/

namespace Sys2Proof

/-! The fields of a word. -/

@[simp] theorem fieldOp_commandWord (wbits : BitVec 8) (level flush op : BitVec 4) :
    fieldOp (commandWord wbits level flush op) = op := by
  apply BitVec.eq_of_toNat_eq
  rw [fieldOp_toNat, commandWord_toNat]
  omega

@[simp] theorem fieldFlush_commandWord (wbits : BitVec 8) (level flush op : BitVec 4) :
    fieldFlush (commandWord wbits level flush op) = flush := by
  apply BitVec.eq_of_toNat_eq
  rw [fieldFlush_toNat, commandWord_toNat]
  omega

@[simp] theorem fieldLevel_commandWord (wbits : BitVec 8) (level flush op : BitVec 4) :
    fieldLevel (commandWord wbits level flush op) = level := by
  apply BitVec.eq_of_toNat_eq
  rw [fieldLevel_toNat, commandWord_toNat]
  omega

@[simp] theorem fieldWbits_commandWord (wbits : BitVec 8) (level flush op : BitVec 4) :
    fieldWbits (commandWord wbits level flush op) = wbits := by
  apply BitVec.eq_of_toNat_eq
  rw [fieldWbits_toNat, commandWord_toNat]
  omega

@[simp] theorem fieldRsvd_commandWord (wbits : BitVec 8) (level flush op : BitVec 4) :
    fieldRsvd (commandWord wbits level flush op) = 0 := by
  apply BitVec.eq_of_toNat_eq
  rw [fieldRsvd_toNat, commandWord_toNat, show BitVec.toNat (0 : BitVec 12) = 0 from rfl]
  omega

/-- The five fields make up the whole word. -/
theorem commandWord_fields {w : Word} (hr : fieldRsvd w = 0) :
    commandWord (fieldWbits w) (fieldLevel w) (fieldFlush w) (fieldOp w) = w := by
  have hr' : w.toNat / 1048576 = 0 := by rw [← fieldRsvd_toNat, hr]; rfl
  apply BitVec.eq_of_toNat_eq
  rw [commandWord_toNat, fieldOp_toNat, fieldFlush_toNat, fieldLevel_toNat, fieldWbits_toNat]
  omega

theorem initFieldsZero_iff (w : Word) :
    initFieldsZero w = true ↔ fieldLevel w = 0 ∧ fieldWbits w = 0 ∧ fieldRsvd w = 0 := by
  simp [initFieldsZero, and_assoc]

theorem onlyOp_iff (w : Word) : onlyOp w = true ↔ fieldFlush w = 0 ∧ initFieldsZero w = true := by
  simp [onlyOp]

/-- With LEVEL, WBITS and RSVD zero, a word is its FLUSH and OP. -/
theorem commandWord_of_initFieldsZero {w : Word} (h : initFieldsZero w = true) :
    commandWord 0 0 (fieldFlush w) (fieldOp w) = w := by
  obtain ⟨hl, hw, hr⟩ := (initFieldsZero_iff w).mp h
  conv_rhs => rw [← commandWord_fields hr, hl, hw]

/-- With every other field zero, a word is its OP. -/
theorem commandWord_of_onlyOp {w : Word} (h : onlyOp w = true) : commandWord 0 0 0 (fieldOp w) = w := by
  obtain ⟨hf, hz⟩ := (onlyOp_iff w).mp h
  conv_rhs => rw [← commandWord_of_initFieldsZero hz, hf]

/-! Decoding inverts encoding. -/

theorem decode_encode (i : Instr) : decode (encode i) = .ok i := by
  cases i with
  | init level wbits => simp [decode, encode]
  | reset => rfl
  | deflateNoFlush => rfl
  | deflateSyncFlush => rfl
  | deflateFullFlush => rfl
  | deflateFinish => rfl
  | endStream => rfl
  | bound => rfl

/-- A DEFLATE word is given by its flush field. -/
theorem encode_of_decodeFlush {flush : BitVec 4} {i : Instr} (h : decodeFlush flush = .ok i) :
    encode i = commandWord 0 0 flush 3 := by
  unfold decodeFlush at h
  split at h
  next hf => cases h; rw [hf]; rfl
  split at h
  next hf => cases h; rw [hf]; rfl
  split at h
  next hf => cases h; rw [hf]; rfl
  split at h
  next hf => cases h; rw [hf]; rfl
  cases h

/-- A word that decodes is the word of its command: each branch of `decode` fixes every field. -/
theorem encode_of_decode {w : Word} {i : Instr} (h : decode w = .ok i) : encode i = w := by
  unfold decode at h
  split at h
  next hop =>
    split at h
    next hz =>
      cases h
      conv_rhs => rw [← commandWord_fields hz.2, hz.1, hop]
      rfl
    next => cases h
  split at h
  next hop =>
    split at h
    next hz => cases h; rw [← commandWord_of_onlyOp hz, hop]; rfl
    next => cases h
  split at h
  next hop =>
    split at h
    next hz => rw [encode_of_decodeFlush h, ← hop, commandWord_of_initFieldsZero hz]
    next => cases h
  split at h
  next hop =>
    split at h
    next hz => cases h; rw [← commandWord_of_onlyOp hz, hop]; rfl
    next => cases h
  split at h
  next hop =>
    split at h
    next hz => cases h; rw [← commandWord_of_onlyOp hz, hop]; rfl
    next => cases h
  cases h

theorem decode_eq_ok_iff {w : Word} {i : Instr} : decode w = .ok i ↔ encode i = w :=
  ⟨encode_of_decode, fun h => h ▸ decode_encode i⟩

/-! INIT words. -/

/-- INIT's row of the opcode table fixes OP, FLUSH and RSVD. -/
theorem initMask_fields {w : Word} (h : w &&& 0xFFF000FF = 0x00000001) :
    fieldOp w = 1 ∧ fieldFlush w = 0 ∧ fieldRsvd w = 0 := by
  have ho : fieldOp (w &&& 0xFFF000FF) = fieldOp w := by
    rw [fieldOp, BitVec.extractLsb'_and]
    exact BitVec.and_allOnes
  have hf : fieldFlush (w &&& 0xFFF000FF) = fieldFlush w := by
    rw [fieldFlush, BitVec.extractLsb'_and]
    exact BitVec.and_allOnes
  have hr : fieldRsvd (w &&& 0xFFF000FF) = fieldRsvd w := by
    rw [fieldRsvd, BitVec.extractLsb'_and]
    exact BitVec.and_allOnes
  rw [← ho, ← hf, ← hr, h]
  decide

theorem decode_of_initMask {w : Word} (h : w &&& 0xFFF000FF = 0x00000001) :
    decode w = .ok (.init (fieldLevel w) (fieldWbits w)) := by
  obtain ⟨ho, hf, hr⟩ := initMask_fields h
  rw [decode_eq_ok_iff]
  conv_rhs => rw [← commandWord_fields hr, ho, hf]
  rfl

end Sys2Proof

namespace Sys2Proof.Machine

theorem levelNumber_eq (w : Word) : levelNumber w = (fieldLevel w).toNat := (fieldLevel_toNat w).symm

theorem signedWbits_eq (w : Word) : signedWbits w = (fieldWbits w).toInt := by
  rw [signedWbits, BitVec.toInt_eq_toNat_cond, fieldWbits_toNat]
  split <;> omega

theorem fieldLevel_eq_ofNat (w : Word) : fieldLevel w = BitVec.ofNat 4 (levelNumber w) := by
  rw [levelNumber_eq, BitVec.ofNat_toNat, BitVec.setWidth_eq]

theorem fieldWbits_eq_ofNat (w : Word) : fieldWbits w = BitVec.ofNat 8 (w.toNat / 2 ^ 12) := by
  apply BitVec.eq_of_toNat_eq
  exact fieldWbits_toNat w

/-! INIT's operands (30_encoding.md R114, R115). -/

theorem levelOperand_reserved {level : BitVec 4} (h : 10 ≤ level.toNat ∧ level.toNat ≤ 14) :
    levelOperand level = none := by
  rw [levelOperand, if_neg, if_neg]
  · omega
  · rintro rfl
    simp at h

theorem levelOperand_legal {level : BitVec 4} (h : level.toNat ≤ 9 ∨ level.toNat = 15) :
    levelOperand level = some (if level.toNat = 15 then 6 else level.toNat) := by
  have h15 : level = 15 ↔ level.toNat = 15 := by simp [← BitVec.toNat_inj]
  unfold levelOperand
  simp only [h15]
  split
  · rfl
  · rw [if_pos (h.resolve_right ‹_›)]

theorem wbitsOperand_raw {wbits : BitVec 8} (h : -15 ≤ wbits.toInt ∧ wbits.toInt ≤ -8) :
    wbitsOperand wbits = some (.raw, (-wbits.toInt).toNat) := if_pos h

theorem wbitsOperand_zlib {wbits : BitVec 8} (h : 8 ≤ wbits.toInt ∧ wbits.toInt ≤ 15) :
    wbitsOperand wbits = some (.zlib, wbits.toInt.toNat) := by
  rw [wbitsOperand, if_neg (by omega), if_pos h]

theorem wbitsOperand_gzip {wbits : BitVec 8} (h : 24 ≤ wbits.toInt ∧ wbits.toInt ≤ 31) :
    wbitsOperand wbits = some (.gzip, (wbits.toInt - 16).toNat) := by
  rw [wbitsOperand, if_neg (by omega), if_neg (by omega), if_pos h]

theorem wbitsOperand_reserved {wbits : BitVec 8} (hr : ¬ (-15 ≤ wbits.toInt ∧ wbits.toInt ≤ -8))
    (hz : ¬ (8 ≤ wbits.toInt ∧ wbits.toInt ≤ 15)) (hg : ¬ (24 ≤ wbits.toInt ∧ wbits.toInt ≤ 31)) :
    wbitsOperand wbits = none := by
  rw [wbitsOperand, if_neg hr, if_neg hz, if_neg hg]

/-- A legal WBITS field stands for a wrapper and a window of 8 to 15 (30_encoding.md R115). -/
theorem wbitsOperand_legal {wbits : BitVec 8}
    (h : (-15 ≤ wbits.toInt ∧ wbits.toInt ≤ -8) ∨ (8 ≤ wbits.toInt ∧ wbits.toInt ≤ 15) ∨
      (24 ≤ wbits.toInt ∧ wbits.toInt ≤ 31)) :
    ∃ wrap wb, wbitsOperand wbits = some (wrap, wb) ∧ WbitsStands wbits wrap wb := by
  obtain h | h | h := h
  · exact ⟨_, _, wbitsOperand_raw h, by omega, by omega, by simp only; omega⟩
  · exact ⟨_, _, wbitsOperand_zlib h, by omega, by omega, by simp only; omega⟩
  · exact ⟨_, _, wbitsOperand_gzip h, by omega, by omega, by simp only; omega⟩

/-- The ranges of the signed WBITS, and what each selects. -/
theorem WbitsStands.selects {wbits : BitVec 8} {wrap : Wrap} {wb : Nat} (h : WbitsStands wbits wrap wb) :
    (-15 ≤ wbits.toInt ∧ wbits.toInt ≤ -8 → wrap = .raw ∧ (wb : Int) = -wbits.toInt) ∧
      (8 ≤ wbits.toInt ∧ wbits.toInt ≤ 15 → wrap = .zlib ∧ (wb : Int) = wbits.toInt) ∧
      (24 ≤ wbits.toInt ∧ wbits.toInt ≤ 31 → wrap = .gzip ∧ (wb : Int) = wbits.toInt - 16) := by
  obtain ⟨h8, h15, hs⟩ := h
  cases wrap with
  | raw =>
    simp only at hs
    exact ⟨fun _ => ⟨rfl, by omega⟩, fun hz => absurd hz (by omega), fun hg => absurd hg (by omega)⟩
  | zlib =>
    simp only at hs
    exact ⟨fun hr => absurd hr (by omega), fun _ => ⟨rfl, hs.symm⟩, fun hg => absurd hg (by omega)⟩
  | gzip =>
    simp only at hs
    exact ⟨fun hr => absurd hr (by omega), fun hz => absurd hz (by omega), fun _ => ⟨rfl, by omega⟩⟩

theorem initCommand_level_reserved {level : BitVec 4} (h : levelOperand level = none) (wbits : BitVec 8) (s : State) :
    initCommand level wbits s = onlyResult .streamError s := by
  simp only [initCommand, h]
  rfl

theorem initCommand_wbits_reserved {wbits : BitVec 8} (h : wbitsOperand wbits = none) (level : BitVec 4) (s : State) :
    initCommand level wbits s = onlyResult .streamError s := by
  unfold initCommand
  split
  · rfl
  · simp only [h]
    rfl

/-- INIT with legal operands starts the stream they select. -/
theorem initCommand_legal {level : BitVec 4} {wbits : BitVec 8} {lv wb : Nat} {wrap : Wrap}
    (hl : levelOperand level = some lv) (hw : wbitsOperand wbits = some (wrap, wb)) (hb : wb ≤ Config.implMaxWbits)
    (s : State) : initCommand level wbits s = endCommand .ok (startStream lv wbits wrap wb s) := by
  simp only [initCommand, hl, hw, if_neg (Nat.not_lt.mpr hb)]

/-! What a command word does. -/

theorem execute_of_ok {w : Word} {i : Instr} (h : decode w = .ok i) (s : State) : execute w s = exec i s := by
  simp only [execute, h]

theorem execute_of_error {w : Word} {e : DecodeError} (h : decode w = .error e) (s : State) :
    execute w s = .next (onlyResult .streamError s) := by
  simp only [execute, h]
  rfl

/-- The effect of every word of INIT's row. -/
theorem execute_of_initMask {w : Word} (h : w &&& 0xFFF000FF = 0x00000001) (s : State) :
    execute w s = .next (initCommand (fieldLevel w) (fieldWbits w) s) :=
  execute_of_ok (decode_of_initMask h) s

/-- A legal INIT word selects a level, a wrapper and a window, and its effect is the stream started with them. -/
theorem execute_legalInit {w : Word} (h : w &&& 0xFFF000FF = 0x00000001) (hl : LegalInitWord w) (s : State) :
    ∃ wrap wb, WbitsStands (fieldWbits w) wrap wb ∧
      execute w s = .next (endCommand .ok
        (startStream (if levelNumber w = 15 then 6 else levelNumber w) (fieldWbits w) wrap wb s)) := by
  obtain ⟨hlevel, hwbits⟩ := hl
  rw [signedWbits_eq] at hwbits
  rw [levelNumber_eq] at hlevel ⊢
  obtain ⟨wrap, wb, hw, hs⟩ := wbitsOperand_legal hwbits
  refine ⟨wrap, wb, hs, ?_⟩
  rw [execute_of_initMask h, initCommand_legal (levelOperand_legal hlevel) hw hs.2.1]

theorem execute_level_reserved {w : Word} (h : w &&& 0xFFF000FF = 0x00000001)
    (hl : 10 ≤ levelNumber w ∧ levelNumber w ≤ 14) (s : State) :
    execute w s = .next (onlyResult .streamError s) := by
  rw [levelNumber_eq] at hl
  rw [execute_of_initMask h, initCommand_level_reserved (levelOperand_reserved hl)]

theorem execute_wbits_reserved {w : Word} (h : w &&& 0xFFF000FF = 0x00000001)
    (hr : ¬ (-15 ≤ signedWbits w ∧ signedWbits w ≤ -8)) (hz : ¬ (8 ≤ signedWbits w ∧ signedWbits w ≤ 15))
    (hg : ¬ (24 ≤ signedWbits w ∧ signedWbits w ≤ 31)) (s : State) :
    execute w s = .next (onlyResult .streamError s) := by
  rw [signedWbits_eq] at hr hz hg
  rw [execute_of_initMask h, initCommand_wbits_reserved (wbitsOperand_reserved hr hz hg)]

/-- An INIT word that is not legal has a reserved LEVEL or a reserved WBITS. -/
theorem execute_illegalInit {w : Word} (h : w &&& 0xFFF000FF = 0x00000001) (hn : ¬ LegalInitWord w) (s : State) :
    execute w s = .next (onlyResult .streamError s) := by
  have h16 : levelNumber w < 16 := Nat.mod_lt _ (by decide)
  by_cases hl : 10 ≤ levelNumber w ∧ levelNumber w ≤ 14
  · exact execute_level_reserved h hl s
  · have hw := not_and.mp hn (by omega)
    simp only [not_or] at hw
    obtain ⟨hr, hz, hg⟩ := hw
    exact execute_wbits_reserved h hr hz hg s

/-- The word of a command matches a row of the opcode table: INIT's by its mask, every other one's as a whole. -/
theorem encode_matches_row (i : Instr) : encode i &&& 0xFFF000FF = 0x00000001 ∨
    encode i ∈ [0x00000002, 0x00000003, 0x00000023, 0x00000033, 0x00000043, 0x00000004, 0x00000005] := by
  cases i with
  | init level wbits => exact .inl (Laws.TableRow.init level wbits)
  | reset => exact .inr (by decide)
  | deflateNoFlush => exact .inr (by decide)
  | deflateSyncFlush => exact .inr (by decide)
  | deflateFullFlush => exact .inr (by decide)
  | deflateFinish => exact .inr (by decide)
  | endStream => exact .inr (by decide)
  | bound => exact .inr (by decide)

/-- A word that matches no row is no command. -/
theorem execute_unmatched {w : Word} (hi : w &&& 0xFFF000FF ≠ 0x00000001)
    (hn : w ∉ [0x00000002, 0x00000003, 0x00000023, 0x00000033, 0x00000043, 0x00000004, 0x00000005]) (s : State) :
    execute w s = .next (onlyResult .streamError s) := by
  cases hd : decode w with
  | error e => exact execute_of_error hd s
  | ok i =>
    obtain rfl := encode_of_decode hd
    exact absurd (encode_matches_row i) (not_or.mpr ⟨hi, hn⟩)

/-- A row whose mask covers the whole word holds one word, which decodes to the row's command. -/
theorem decode_of_fullMask {w : Word} {i : Instr} (h : w &&& 0xFFFFFFFF = encode i) : decode w = .ok i := by
  rw [decode_eq_ok_iff, ← h]
  exact BitVec.and_allOnes

/-! The machine's step. -/

/-- With a command in progress and no move before its end, the command executes. -/
theorem step_running {s : State} {w : Word} (hr : s.running = some w) (hi : s.inputs = []) : step s = execute w s := by
  simp only [step, nextMove, hr, hi]

theorem step_cmdDone {s : State} {w : Word} {rest : List HostMove} (hr : s.running = some w)
    (hi : s.inputs = .cmdDone :: rest) : step s = execute w { s with inputs := rest } := by
  simp only [step, nextMove, hr, hi]

theorem tableWord_toNat (w : Word) : tableWord 32 w.toNat = w := by
  rw [tableWord, Nat.mod_eq_of_lt w.isLt, BitVec.ofNat_toNat, BitVec.setWidth_eq]

theorem step_withFetchWord (s : State) (w : Word) :
    step (s.withFetchWord 32 w.toNat) = execute w { s with running := some w } := by
  rw [State.withFetchWord, tableWord_toNat]
  exact step_cmdDone rfl rfl

/-! The obligations. -/

/-- Settles O1: `decode_encode` and `encode_of_decode`. -/
theorem decodeEncodeInverse : Obligations.DecodeEncodeInverse :=
  ⟨decode_encode, fun _ _ => encode_of_decode⟩

/-- Settles O3: each word is the encoding of its command. -/
theorem writtenOutWords : Obligations.WrittenOutWords :=
  ⟨decode_encode (.init 0b1111 0b00001111), decode_encode (.init 0b0001 0b11110110), decode_encode .reset,
    decode_encode .deflateSyncFlush, decode_encode .deflateFinish, decode_encode .endStream, decode_encode .bound⟩

/-- Settles O2: INIT's row by its fields and operands, every other row by its one word, and the other words because every
command's word matches a row. -/
theorem opcodeMap : Obligations.OpcodeMap := by
  intro w s
  refine ⟨fun h => ⟨?_, fun hl => ?_, fun hn => execute_illegalInit h hn s⟩, decode_of_fullMask (i := .reset),
    decode_of_fullMask (i := .deflateNoFlush), decode_of_fullMask (i := .deflateSyncFlush),
    decode_of_fullMask (i := .deflateFullFlush), decode_of_fullMask (i := .deflateFinish),
    decode_of_fullMask (i := .endStream), decode_of_fullMask (i := .bound), ?_⟩
  · rw [decode_of_initMask h, fieldLevel_eq_ofNat, fieldWbits_eq_ofNat]
  · obtain ⟨wrap, wb, -, he⟩ := execute_legalInit h hl s
    exact ⟨_, he, rfl⟩
  · intro hi h2 h3 h23 h33 h43 h4 h5
    exact execute_unmatched hi (by simpa using ⟨h2, h3, h23, h33, h43, h4, h5⟩) s

/-- Settles O14: a reserved operand is refused by its own check, and a legal word starts the stream its operands stand
for. -/
theorem initOperands : Obligations.InitOperands := by
  intro w s h
  refine ⟨fun hl => execute_level_reserved h hl s, fun ⟨hr, hz, hg⟩ => execute_wbits_reserved h hr hz hg s,
    fun hl => ?_⟩
  obtain ⟨wrap, wb, hs, he⟩ := execute_legalInit h hl s
  obtain ⟨hraw, hzlib, hgzip⟩ := hs.selects
  rw [signedWbits_eq]
  exact ⟨_, he, rfl, rfl, hraw, hzlib, hgzip, rfl, hs.2.1⟩

/-- Settles O4: `step` is `execute` of the latched word, and `execute` is `exec` of what it decodes to. -/
theorem stepRunsTheDecodedCommand : Obligations.StepRunsTheDecodedCommand := by
  intro s w
  refine ⟨fun i hd => ⟨fun hr hi => ?_, fun rest hr hi => ?_, ?_⟩, fun e hd hr hi => ?_⟩
  · rw [step_running hr hi, execute_of_ok hd]
  · rw [step_cmdDone hr hi, execute_of_ok hd]
  · rw [step_withFetchWord, execute_of_ok hd]
  · rw [step_running hr hi, execute_of_error hd]

end Sys2Proof.Machine
end

section
/-! The bits of a block: what each function of the block serializer appends to the stream (30_encoding.md R123, R124, R131;
43_block_serializer.md). -/

namespace Sys2Proof.Machine

/-- `u` is `t` with `bits` appended to its bit stream, for a bit writer that satisfies its invariant. -/
structure Appends (bits : List Bool) (t u : Stream) : Prop where
  keepsWriterOk : WriterOk t → WriterOk u
  queued : WriterOk t → queuedBits u = queuedBits t ++ bits

theorem Appends.refl (t : Stream) : Appends [] t t := ⟨id, fun _ => (List.append_nil _).symm⟩

theorem Appends.trans {a b : List Bool} {t u v : Stream} (h : Appends a t u) (k : Appends b u v) :
    Appends (a ++ b) t v :=
  ⟨fun ht => k.keepsWriterOk (h.keepsWriterOk ht),
    fun ht => by rw [k.queued (h.keepsWriterOk ht), h.queued ht, List.append_assoc]⟩

theorem Appends.exists_rest {a b : List Bool} {t u : Stream} (h : Appends (a ++ b) t u) (ht : WriterOk t) :
    ∃ rest, queuedBits u = queuedBits t ++ a ++ rest :=
  ⟨b, by rw [h.queued ht, List.append_assoc]⟩

theorem Appends.foldl {α : Type} {g : Stream → α → Stream} {bits : α → List Bool}
    (h : ∀ t x, Appends (bits x) t (g t x)) (l : List α) (t : Stream) :
    Appends (l.flatMap bits) t (l.foldl g t) := by
  induction l generalizing t with
  | nil => exact Appends.refl t
  | cons x l ih => exact (h t x).trans (ih _)

/-! The bits of values and of bit-reversed codes. -/

@[simp] theorem lowBits_zero (v : Nat) : lowBits v 0 = [] := rfl

theorem lowBits_of_zero (n : Nat) : lowBits 0 n = List.replicate n false := by
  simp [lowBits, List.eq_replicate_iff]

/-- The least significant bit goes first. -/
theorem lowBits_succ (v n : Nat) : lowBits v (n + 1) = v.testBit 0 :: lowBits (v / 2) n := by
  rw [Nat.add_comm, lowBits_add]
  rfl

theorem msbBits_succ (v n : Nat) : msbBits v (n + 1) = msbBits (v / 2) n ++ [v.testBit 0] := by
  rw [msbBits, lowBits_succ, List.reverse_cons, msbBits]

theorem bitReverse_lt (v k : Nat) : bitReverse v k < 2 ^ k := by
  induction k generalizing v with
  | zero => exact Nat.one_pos
  | succ k ih =>
    have hlow := ih (v / 2)
    have htop : v % 2 * 2 ^ k ≤ 1 * 2 ^ k := Nat.mul_le_mul_right _ (by omega)
    rw [bitReverse, Nat.pow_succ]
    omega

/-- The `k` low bits of `b`, below a multiple of `2 ^ k`. -/
theorem lowBits_mul_two_pow_add (a k : Nat) {b : Nat} (hb : b < 2 ^ k) :
    lowBits (a * 2 ^ k + b) (k + 1) = lowBits b k ++ [a.testBit 0] := by
  rw [lowBits_add]
  congr 1
  · apply lowBits_congr
    intro i hi
    rw [Nat.mul_comm, Nat.testBit_two_pow_mul_add a hb, if_pos hi]
  · rw [Nat.mul_comm, Nat.mul_add_div (by positivity), Nat.div_eq_of_lt hb, Nat.add_zero, lowBits_succ, lowBits_zero]

/-- Sent least significant bit first, a bit-reversed code puts the code's most significant bit first on the wire
(42_huffman_builder.md R253). -/
theorem lowBits_bitReverse (v k : Nat) : lowBits (bitReverse v k) k = msbBits v k := by
  induction k generalizing v with
  | zero => rfl
  | succ k ih =>
    rw [bitReverse, lowBits_mul_two_pow_add _ _ (bitReverse_lt _ _), ih, msbBits_succ, Nat.testBit_zero,
      Nat.testBit_zero, Nat.mod_mod]

theorem msbBits_bitReverse (v k : Nat) : msbBits (bitReverse v k) k = lowBits v k := by
  rw [msbBits, lowBits_bitReverse, msbBits, List.reverse_reverse]

/-! The bit writer. -/

theorem sendBits_appends (v n : Nat) (t : Stream) : Appends (lowBits v n) t (sendBits v n t) :=
  ⟨sendBits_writerOk v n t, queuedBits_sendBits v n t⟩

theorem putBytes_appends (bs : List Byte) {t : Stream} (h : t.bitcount = 0) :
    Appends (byteBits bs) t (putBytes bs t) :=
  ⟨(putBytes_writes bs t).2, fun _ => queuedBits_putBytes bs t h⟩

/-- A byte that holds `n` bits below `2 ^ n` shows them, then zeros. -/
theorem byteBits_partial {acc n : Nat} (hn : n ≤ 8) (hacc : acc < 2 ^ n) :
    byteBits [BitVec.ofNat 8 acc] = lowBits acc n ++ List.replicate (8 - n) false := by
  have h8 : acc < 2 ^ 8 := lt_of_lt_of_le hacc (Nat.pow_le_pow_right (by decide) hn)
  calc byteBits [BitVec.ofNat 8 acc]
      = lowBits acc 8 := by rw [byteBits, List.flatMap_singleton, BitVec.toNat_ofNat, Nat.mod_eq_of_lt h8]
    _ = lowBits acc (n + (8 - n)) := by rw [Nat.add_sub_cancel' hn]
    _ = lowBits acc n ++ List.replicate (8 - n) false := by rw [lowBits_add, Nat.div_eq_of_lt hacc, lowBits_of_zero]

/-- `AlignByte` pads with zero bits to the next byte boundary (43_block_serializer.md R287). -/
theorem alignByte_appends (t : Stream) :
    Appends (List.replicate ((8 - t.bitcount) % 8) false) t (alignByte t) := by
  refine ⟨fun _ => alignByte_writerOk t, fun ⟨hcount, hacc⟩ => ?_⟩
  by_cases h0 : t.bitcount = 0
  · simp [queuedBits, alignByte, h0]
  · have hmod : (8 - t.bitcount) % 8 = 8 - t.bitcount := by omega
    have hpos : t.bitcount > 0 := Nat.pos_of_ne_zero h0
    simp only [queuedBits, alignByte, hpos, if_true, byteBits_append, byteBits_partial (by omega) hacc, hmod,
      lowBits_zero, List.append_nil, List.append_assoc]

/-! Symbols and trees. -/

theorem sendSym_appends (code len : Nat → Nat) (sym : Nat) (t : Stream) :
    Appends (lowBits (code sym) (len sym)) t (sendSym code len sym t) := sendBits_appends ..

/-- Extra bits go out only when there are any, which makes no difference on the wire. -/
theorem sendExtra_appends (v n : Nat) (t : Stream) : Appends (lowBits v n) t (sendExtra v n t) := by
  unfold sendExtra
  split
  · exact sendBits_appends ..
  · obtain rfl : n = 0 := by omega
    exact Appends.refl t

theorem sendTree_appends (c bl : Code) (t : Stream) :
    Appends ((runOps c).flatMap (runOpBits bl)) t (sendTree c bl t) :=
  Appends.foldl (fun t op => (sendSym_appends _ _ op.sym t).trans (sendExtra_appends op.value op.bits _)) _ t

/-- The tree description of a dynamic block (43_block_serializer.md R280). -/
theorem sendAllTrees_appends (lit dist bl : Code) (maxBl : Nat) (t : Stream) :
    Appends (lowBits (lit.maxCode + 1 - 257) 5 ++ (lowBits (dist.maxCode + 1 - 1) 5 ++ (lowBits (maxBl + 1 - 4) 4 ++
        ((blOrder.take (maxBl + 1)).flatMap (fun sym => lowBits (bl.len.get 0 sym) 3) ++
          ((runOps lit).flatMap (runOpBits bl) ++ (runOps dist).flatMap (runOpBits bl))))))
      t (sendAllTrees lit dist bl maxBl t) :=
  (sendBits_appends _ 5 t).trans <| (sendBits_appends _ 5 _).trans <| (sendBits_appends _ 4 _).trans <|
    (Appends.foldl (fun u sym => sendBits_appends (bl.len.get 0 sym) 3 u) _ _).trans <|
      (sendTree_appends lit bl _).trans (sendTree_appends dist bl _)

section

variable {lcode llen dcode dlen lmsb dmsb : Nat → Nat}
  (hl : ∀ i, lowBits (lcode i) (llen i) = msbBits (lmsb i) (llen i))
  (hd : ∀ i, lowBits (dcode i) (dlen i) = msbBits (dmsb i) (dlen i))

include hl hd

/-- One entry of the symbol buffer, `lmsb` and `dmsb` being the codes most significant bit first (43_block_serializer.md
R283). -/
theorem sendEntry_appends (t : Stream) (e : Sym) :
    Appends (entryBits lmsb llen dmsb dlen e) t (sendEntry lcode llen dcode dlen t e) := by
  cases e with
  | lit b =>
    rw [entryBits, ← hl]
    exact sendSym_appends ..
  | copy dist len =>
    rw [entryBits, ← hl, ← hd]
    exact ((sendSym_appends lcode llen _ t).trans (sendExtra_appends _ _ _)).trans
      ((sendSym_appends dcode dlen _ _).trans (sendExtra_appends _ _ _))

/-- The entries of the block in order, then its end-of-block code (30_encoding.md R131). -/
theorem compressBlock_appends (t : Stream) :
    Appends (t.syms.reverse.flatMap (entryBits lmsb llen dmsb dlen) ++ msbBits (lmsb 256) (llen 256)) t
      (compressBlock lcode llen dcode dlen t) := by
  rw [← hl 256]
  exact (Appends.foldl (sendEntry_appends hl hd) _ t).trans (sendSym_appends ..)

end

/-! Block headers. -/

/-- BFINAL, then the two bits of BTYPE (30_encoding.md R123). -/
theorem sendHeader_appends (btype : Nat) (last : Bool) (t : Stream) :
    Appends (last :: lowBits btype 2) t (sendHeader btype last t) := by
  have hbit : (btype * 2 + finalBit last).testBit 0 = last := by
    cases last <;> simp [finalBit, Nat.testBit_zero]
  have hrest : (btype * 2 + finalBit last) / 2 = btype := by
    cases last with
    | false => exact Nat.mul_div_cancel btype Nat.two_pos
    | true => rw [finalBit, if_pos rfl]; omega
  have hbits : lowBits (btype * 2 + finalBit last) 3 = last :: lowBits btype 2 := by rw [lowBits_succ, hbit, hrest]
  rw [← hbits]
  exact sendBits_appends ..

/-- LEN and its complement, low byte first. -/
theorem storedLengths_eq {n : Nat} (h : n ≤ 65535) : storedLengths n =
    [BitVec.ofNat 8 (n % 256), BitVec.ofNat 8 (n / 256), BitVec.ofNat 8 (255 - n % 256),
      BitVec.ofNat 8 (255 - n / 256)] := by
  have hn : n % 65536 = n := Nat.mod_eq_of_lt (by omega)
  simp only [storedLengths, List.cons.injEq, and_true, ← BitVec.toNat_inj, BitVec.extractLsb'_toNat, BitVec.toNat_not,
    BitVec.toNat_ofNat, Nat.shiftRight_eq_div_pow]
  omega

/-- A stored block of at most 65535 bytes (43_block_serializer.md R282). -/
theorem sendStoredBlock_appends (buf : List Byte) (last : Bool) (t : Stream) :
    Appends (((last :: lowBits 0 2) ++ List.replicate ((8 - (t.bitcount + 3) % 8) % 8) false) ++
      byteBits (storedLengths buf.length) ++ byteBits buf) t (sendStoredBlock buf last t) :=
  (((sendHeader_appends 0 last t).trans (alignByte_appends _)).trans
    (putBytes_appends _ rfl)).trans (putBytes_appends _ rfl)

/-! The obligations. -/

/-- Settles O34: the bits `sendStoredBlock_appends` gives, with LEN and NLEN in numbers. -/
theorem storedBlockBits : Obligations.StoredBlockBits := by
  intro buf last t ht hlen
  refine ⟨?_, rfl⟩
  rw [(sendStoredBlock_appends buf last t).queued ht, storedLengths_eq hlen]
  simp only [List.append_assoc]
  rfl

/-- Settles O36: each form sends its header first, and everything after it only appends. -/
theorem blockHeaderBits : Obligations.BlockHeaderBits := by
  intro form bc buf last t ht
  have hcode : ∀ code len : Nat → Nat, ∀ i, lowBits (code i) (len i) = msbBits (bitReverse (code i) (len i)) (len i) :=
    fun _ _ _ => (msbBits_bitReverse _ _).symm
  cases form with
  | stored =>
    have h := sendStoredBlock_appends buf last t
    simp only [List.append_assoc] at h
    exact h.exists_rest ht
  | fixed => exact ((sendHeader_appends 1 last t).trans
      (compressBlock_appends (hcode _ _) (hcode _ _) _)).exists_rest ht
  | dynamic => exact ((sendHeader_appends 2 last t).trans
      ((sendAllTrees_appends ..).trans (compressBlock_appends (hcode _ _) (hcode _ _) _))).exists_rest ht

/-- Settles O37: `compressBlock_appends` for codes held bit-reversed. -/
theorem blockBodyBits : Obligations.BlockBodyBits := by
  intro lcode llen dcode dlen t ht
  rw [(compressBlock_appends (fun _ => lowBits_bitReverse _ _) (fun _ => lowBits_bitReverse _ _) t).queued ht,
    List.append_assoc]

end Sys2Proof.Machine
end

section
/-! The wrapper's bytes, the length and distance alphabets and the fixed codes (30_encoding.md R121, R122, R126 to R128). -/

namespace Sys2Proof.Machine

/-! The wrapper (30_encoding.md R121, R122; 40_commands.md R165). -/

theorem levelHint_le (level : Nat) : levelHint level ≤ 3 := by
  unfold levelHint
  split
  · decide
  split
  · decide
  split
  · decide
  · decide

/-- The check bits complete the header to a multiple of 31. -/
theorem zlibHeader_eq (level req : Nat) :
    ∃ k, k ≤ 31 ∧ zlibHeader level req = 2048 + 4096 * (req - 8) + 64 * levelHint level + k ∧
      zlibHeader level req % 31 = 0 := by
  refine ⟨31 - zlibHeaderBase level req % 31, Nat.sub_le .., ?_, ?_⟩
  · rw [zlibHeader, zlibHeaderBase]
    omega
  · rw [zlibHeader]
    omega

/-- The fields of the zlib header: its check bits stay below FDICT. -/
theorem zlibHeader_fields {level req : Nat} (h15 : req ≤ 15) :
    zlibHeader level req < 65536 ∧ zlibHeader level req / 4096 = req - 8 ∧ zlibHeader level req / 256 % 16 = 8 ∧
      zlibHeader level req / 64 % 4 = levelHint level ∧ zlibHeader level req / 32 % 2 = 0 ∧
      zlibHeader level req % 31 = 0 := by
  have hhint := levelHint_le level
  obtain ⟨k, hk, heq, hmod⟩ := zlibHeader_eq level req
  refine ⟨?_, ?_, ?_, ?_, ?_, hmod⟩ <;> clear hmod <;> omega

/-- The high byte of a 16-bit header, then its low byte. -/
theorem headerBytes_zlib (level req : Nat) : headerBytes .zlib level req =
    [BitVec.ofNat 8 (zlibHeader level req / 256), BitVec.ofNat 8 (zlibHeader level req % 256)] := by
  have hlow : BitVec.ofNat 8 (zlibHeader level req % 256) = BitVec.ofNat 8 (zlibHeader level req) := by
    simp [← BitVec.toNat_inj]
  rw [hlow, headerBytes]

theorem bytesBE_toNat (w : Word) : (bytesBE w).map BitVec.toNat =
    [w.toNat / 2 ^ 24, w.toNat / 2 ^ 16 % 256, w.toNat / 2 ^ 8 % 256, w.toNat % 256] := by
  have htop : w.toNat / 2 ^ 24 % 256 = w.toNat / 2 ^ 24 := Nat.mod_eq_of_lt (by omega)
  simpa [bytesBE, BitVec.extractLsb'_toNat, Nat.shiftRight_eq_div_pow] using htop

theorem bytesLE_eq (w : Word) : bytesLE w = (bytesBE w).reverse := rfl

theorem bytesLE_toNat (w : Word) : (bytesLE w).map BitVec.toNat =
    [w.toNat % 256, w.toNat / 2 ^ 8 % 256, w.toNat / 2 ^ 16 % 256, w.toNat / 2 ^ 24] := by
  rw [bytesLE_eq, List.map_reverse, bytesBE_toNat]
  rfl

/-! The length alphabet (30_encoding.md R126). -/

/-- A row is found by its symbol. -/
theorem lenRowOfSym_of_mem {r : LenRow} (h : r ∈ lenRows) : lenRowOfSym r.sym = r := by
  revert r
  decide

/-- The rows do not meet: a row is found by each length it covers. -/
theorem lenRow_of_mem {r : LenRow} (h : r ∈ lenRows) {len : Nat} (h1 : r.first ≤ len) (h2 : len ≤ r.last) :
    lenRow len = r := by
  have hall : ∀ r ∈ lenRows, ∀ len, len ≤ r.last → r.first ≤ len → lenRow len = r := by decide +kernel
  exact hall r h len h2 h1

/-- The extra bits of a row number the lengths it covers. -/
theorem lenRow_width {r : LenRow} (h : r ∈ lenRows) : r.last - r.first < 2 ^ r.extra := by
  revert r
  decide

/-- Every length of 3 to 258 is covered. -/
theorem exists_lenRow {len : Nat} (h3 : 3 ≤ len) (h258 : len ≤ 258) :
    ∃ r ∈ lenRows, r.first ≤ len ∧ len ≤ r.last := by
  have hall : ∀ len, len ≤ 258 → 3 ≤ len → ∃ r ∈ lenRows, r.first ≤ len ∧ len ≤ r.last := by decide +kernel
  exact hall len h258 h3

/-! The distance alphabet (30_encoding.md R127). -/

/-- The codes cover the distances without a gap. -/
theorem distBase_succ {c : Nat} (h : c < 29) : distBase (c + 1) = distLast c + 1 := by
  revert c
  decide

/-- The codes cover the distances in order. -/
theorem distLast_lt_distBase {c e : Nat} (he : e < 30) (h : c < e) : distLast c < distBase e := by
  have hall : ∀ e, e < 30 → ∀ c, c < e → distLast c < distBase e := by decide
  exact hall e he c h

/-- `DistSym(d)` is the first code whose last distance reaches `d`. -/
theorem distSym_first {d : Nat} (h : d ≤ 32768) :
    distSym d < 30 ∧ d ≤ distLast (distSym d) ∧ ∀ c, c < distSym d → distLast c < d := by
  have hlast : d ≤ distLast 29 := h
  unfold distSym
  cases hf : (List.range Config.dCodes).find? (fun c => d ≤ distLast c) with
  | none =>
    have := List.find?_eq_none.mp hf 29 (by decide)
    simp [hlast] at this
  | some c =>
    obtain ⟨hc, hmem, hfirst⟩ := List.find?_range_eq_some.mp hf
    exact ⟨List.mem_range.mp hmem, by simpa using hc, fun e he => by simpa using hfirst e he⟩

/-- `DistSym(d)` covers `d`. -/
theorem distSym_covers {d : Nat} (h1 : 1 ≤ d) (h2 : d ≤ 32768) :
    distBase (distSym d) ≤ d ∧ d ≤ distLast (distSym d) := by
  obtain ⟨hlt, hle, hfirst⟩ := distSym_first h2
  refine ⟨?_, hle⟩
  cases hc : distSym d with
  | zero => exact h1
  | succ c =>
    rw [distBase_succ (by omega)]
    exact hfirst c (by omega)

/-- No other code covers `d`. -/
theorem eq_distSym_of_covers {c d : Nat} (h1 : 1 ≤ d) (h2 : d ≤ 32768) (hc : c < 30) (hb : distBase c ≤ d)
    (hl : d ≤ distLast c) : c = distSym d := by
  obtain ⟨hbase, hlast⟩ := distSym_covers h1 h2
  obtain hlt | heq | hgt := Nat.lt_trichotomy c (distSym d)
  · exact absurd (distLast_lt_distBase (distSym_first h2).1 hlt) (by omega)
  · exact heq
  · exact absurd (distLast_lt_distBase hc hgt) (by omega)

/-! Canonical codes (42_huffman_builder.md R252). -/

/-- An array filled at the indices of a list reads the filled value there. -/
theorem get_foldl_set (f : Nat → Nat) {is : List Nat} (his : ∀ i ∈ is, i < 65536) (t : Table Nat) {j : Nat}
    (hj : j < 65536) :
    (is.foldl (fun t i => t.set 0 i (f i)) t).get 0 j = if j ∈ is then f j else t.get 0 j := by
  induction is generalizing t with
  | nil => rfl
  | cons i is ih =>
    obtain ⟨hi, his⟩ := List.forall_mem_cons.mp his
    rw [List.foldl_cons, ih his]
    by_cases hmem : j ∈ is
    · simp [hmem]
    · by_cases heq : j = i
      · simp [heq]
      · rw [Table.get_set_other _ _ _ _ _ hi hj heq]
        simp [hmem, heq]

theorem nextCodes_get (blCount : Table Nat) {l : Nat} (h1 : 1 ≤ l) (h15 : l ≤ 15) :
    (nextCodes blCount).get 0 l = nextCode blCount l := by
  have hidx : ∀ i ∈ List.range' 1 Config.maxBits, i < 65536 := by decide
  have hmem : l ∈ List.range' 1 Config.maxBits := List.mem_range'_1.mpr ⟨h1, Nat.lt_succ_of_le h15⟩
  rw [nextCodes, get_foldl_set (nextCode blCount) hidx _ (by omega), if_pos hmem]

theorem genCodeStep_uncoded {len : Table Nat} {n : Nat} (h : len.get 0 n = 0) (acc : Table Nat × Table Nat) :
    genCodeStep len acc n = acc := if_pos h

theorem genCodeStep_coded {len : Table Nat} {n : Nat} (h : len.get 0 n ≠ 0) (acc : Table Nat × Table Nat) :
    genCodeStep len acc n = (acc.1.set 0 n (bitReverse (acc.2.get 0 (len.get 0 n)) (len.get 0 n)),
      acc.2.set 0 (len.get 0 n) (acc.2.get 0 (len.get 0 n) + 1)) := if_neg h

section

variable {len : Table Nat} {k : Nat} (hlen : ∀ m, m < k → len.get 0 m ≤ 15) (acc : Table Nat × Table Nat)

include hlen

/-- The next code of a length moves on by one at each symbol of that length. -/
theorem genCodeSteps_next {l : Nat} (h1 : 1 ≤ l) (h15 : l ≤ 15) :
    ((List.range k).foldl (genCodeStep len) acc).2.get 0 l =
      acc.2.get 0 l + (List.range k).countP (fun m => len.get 0 m == l) := by
  induction k with
  | zero => rfl
  | succ k ih =>
    specialize ih fun m hm => hlen m (by omega)
    have hk := hlen k (Nat.lt_succ_self k)
    rw [List.range_succ, List.foldl_append, List.foldl_cons, List.foldl_nil, List.countP_append,
      List.countP_singleton]
    by_cases h0 : len.get 0 k = 0
    · have hne : ¬ 0 = l := by omega
      simp [genCodeStep_uncoded h0, ih, h0, hne]
    · rw [genCodeStep_coded h0]
      by_cases heq : len.get 0 k = l
      · simp [heq, ih, Nat.add_assoc]
      · have hk' : len.get 0 k < 65536 := by omega
        have hl' : l < 65536 := by omega
        rw [Table.get_set_other _ _ _ _ _ hk' hl' (Ne.symm heq), ih]
        simp [heq]

/-- A symbol's code is set at its own turn, to the next code of its length. -/
theorem genCodeSteps_code (hk : k ≤ 65536) {n : Nat} (hn : n < k) (h0 : len.get 0 n ≠ 0) :
    ((List.range k).foldl (genCodeStep len) acc).1.get 0 n =
      bitReverse (acc.2.get 0 (len.get 0 n) + (List.range n).countP (fun m => len.get 0 m == len.get 0 n))
        (len.get 0 n) := by
  induction k with
  | zero => omega
  | succ k ih =>
    specialize ih (fun m hm => hlen m (by omega)) (by omega)
    rw [List.range_succ, List.foldl_append, List.foldl_cons, List.foldl_nil]
    by_cases heq : n = k
    · subst heq
      rw [genCodeStep_coded h0, Table.get_set_same,
        genCodeSteps_next (fun m hm => hlen m (by omega)) acc (by omega) (hlen n (by omega))]
    · specialize ih (by omega)
      by_cases hk0 : len.get 0 k = 0
      · rw [genCodeStep_uncoded hk0, ih]
      · have hk' : k < 65536 := hk
        have hn' : n < 65536 := by omega
        rw [genCodeStep_coded hk0, Table.get_set_other _ _ _ _ _ hk' hn' heq, ih]

end

/-- The canonical assignment: the first code of the length plus the number of earlier symbols of that length. -/
theorem genCodes_get {len : Table Nat} (blCount : Table Nat) {maxCode n : Nat} (hmax : maxCode < 65536)
    (hlen : ∀ m, m ≤ maxCode → len.get 0 m ≤ 15) (hn : n ≤ maxCode) (h0 : len.get 0 n ≠ 0) :
    (genCodes len maxCode blCount).get 0 n = bitReverse (nextCode blCount (len.get 0 n) +
      (List.range n).countP (fun m => len.get 0 m == len.get 0 n)) (len.get 0 n) := by
  rw [genCodes, genCodeSteps_code (fun m hm => hlen m (by omega)) _ (by omega) (by omega) h0,
    nextCodes_get blCount (by omega) (hlen n hn)]

/-! The fixed codes (30_encoding.md R128). -/

/-- The fixed literal/length code lengths as an array. -/
def fixedLens : Table Nat := (List.range 288).foldl (fun t n => t.set 0 n (fixedLitLen n)) .empty

/-- How many symbols the fixed literal/length code has of each length. -/
def fixedCounts : Table Nat := (List.range 288).foldl (fun t n => bump t (fixedLitLen n)) .empty

theorem fixedLens_get {n : Nat} (h : n < 288) : fixedLens.get 0 n = fixedLitLen n := by
  have hidx : ∀ i ∈ List.range 288, i < 65536 := fun i hi => by
    rw [List.mem_range] at hi
    omega
  rw [fixedLens, get_foldl_set fixedLitLen hidx _ (by omega), if_pos (List.mem_range.mpr h)]

/-- The rows of 30_encoding.md R128: the symbols of a row, the length of their codes, and the codes. -/
theorem fixedLit_rows (n : Nat) :
    (n ≤ 143 ∧ fixedLitLen n = 8 ∧ fixedLitCodeMsb n = 0x30 + n) ∨
      ((144 ≤ n ∧ n ≤ 255) ∧ fixedLitLen n = 9 ∧ fixedLitCodeMsb n = 0x190 + (n - 144)) ∨
      ((256 ≤ n ∧ n ≤ 279) ∧ fixedLitLen n = 7 ∧ fixedLitCodeMsb n = n - 256) ∨
      (280 ≤ n ∧ fixedLitLen n = 8 ∧ fixedLitCodeMsb n = 0xC0 + (n - 280)) := by
  unfold fixedLitLen fixedLitCodeMsb
  split_ifs with h1 h2 h3
  · exact .inl ⟨h1, rfl, rfl⟩
  · exact .inr (.inl ⟨⟨by omega, h2⟩, rfl, rfl⟩)
  · exact .inr (.inr (.inl ⟨⟨by omega, h3⟩, rfl, rfl⟩))
  · exact .inr (.inr (.inr ⟨by omega, rfl, rfl⟩))

theorem fixedLitLen_range (n : Nat) : 7 ≤ fixedLitLen n ∧ fixedLitLen n ≤ 9 := by
  have := fixedLit_rows n
  omega

/-- The first codes of the three lengths: 24 codes have 7 bits and 152 have 8. -/
theorem nextCode_fixedCounts :
    nextCode fixedCounts 7 = 0 ∧ nextCode fixedCounts 8 = 0x30 ∧ nextCode fixedCounts 9 = 0x190 := by decide +kernel

/-- How many of the first `n` symbols have each length. -/
theorem fixedLitLen_countP {n : Nat} (h : n ≤ 288) :
    (List.range n).countP (fun m => fixedLitLen m == 7) = min n 280 - 256 ∧
      (List.range n).countP (fun m => fixedLitLen m == 8) = min n 144 + (n - 280) ∧
      (List.range n).countP (fun m => fixedLitLen m == 9) = min n 256 - 144 := by
  induction n with
  | zero => exact ⟨rfl, rfl, rfl⟩
  | succ n ih =>
    obtain ⟨ih7, ih8, ih9⟩ := ih (by omega)
    rw [List.range_succ]
    simp only [List.countP_append, List.countP_singleton, ih7, ih8, ih9, beq_iff_eq]
    obtain ⟨hn, hl, -⟩ | ⟨hn, hl, -⟩ | ⟨hn, hl, -⟩ | ⟨hn, hl, -⟩ := fixedLit_rows n
    all_goals
      simp only [hl, Nat.reduceEqDiff, reduceIte]
      omega

/-- The codes the rule lists by ranges count up from the first code of each length. -/
theorem fixedLitCodeMsb_eq {n : Nat} (h : n < 288) : fixedLitCodeMsb n =
    nextCode fixedCounts (fixedLitLen n) + (List.range n).countP (fun m => fixedLitLen m == fixedLitLen n) := by
  obtain ⟨first7, first8, first9⟩ := nextCode_fixedCounts
  obtain ⟨count7, count8, count9⟩ := fixedLitLen_countP (Nat.le_of_lt h)
  obtain ⟨hn, hl, hc⟩ | ⟨hn, hl, hc⟩ | ⟨hn, hl, hc⟩ | ⟨hn, hl, hc⟩ := fixedLit_rows n
  · rw [hl, hc, first8, count8]
    omega
  · rw [hl, hc, first9, count9]
    omega
  · rw [hl, hc, first7, count7]
    omega
  · rw [hl, hc, first8, count8]
    omega

/-- Each fixed code is the canonical one. -/
theorem fixedLitCode_eq_genCodes {n : Nat} (h : n < 288) :
    fixedLitCode n = (genCodes fixedLens 287 fixedCounts).get 0 n := by
  have hlen : ∀ m, m ≤ 287 → fixedLens.get 0 m ≤ 15 := fun m hm => by
    rw [fixedLens_get (by omega)]
    have := fixedLitLen_range m
    omega
  have hcount : (List.range n).countP (fun m => fixedLens.get 0 m == fixedLitLen n) =
      (List.range n).countP (fun m => fixedLitLen m == fixedLitLen n) :=
    List.countP_congr fun m hm => by rw [fixedLens_get (by rw [List.mem_range] at hm; omega)]
  have hne : fixedLens.get 0 n ≠ 0 := by
    rw [fixedLens_get h]
    have := fixedLitLen_range n
    omega
  rw [genCodes_get fixedCounts (by decide) hlen (by omega) hne, fixedLens_get h, hcount, fixedLitCode,
    fixedLitCodeMsb_eq h]

/-! The obligations. -/

/-- Settles O29: the header fields by `zlibHeader_fields`, the trailers byte by byte, the rest by evaluation. -/
theorem wrapperBytes : Obligations.WrapperBytes := by
  refine ⟨fun level req _ _ h15 => ⟨zlibHeader level req, headerBytes_zlib level req, zlibHeader_fields h15⟩,
    by decide, by decide, by decide, fun _ _ => rfl, fun _ _ => rfl, fun check totalIn => ⟨rfl, bytesBE_toNat check, ?_⟩⟩
  rw [trailerBytes, List.map_append, bytesLE_toNat, bytesLE_toNat]
  rfl

/-- Settles O42: symbol by symbol; the distance codes are so by definition. -/
theorem fixedCodes : Obligations.FixedCodes :=
  ⟨List.map_congr_left fun _ hn => fixedLitCode_eq_genCodes (List.mem_range.mp hn), rfl⟩

/-- Settles O45: the rows are `lenRows`, and each is found by its symbol and by each length it covers. -/
theorem lengthSymbols : Obligations.LengthSymbols := by
  intro rows hrows
  have hmap : rows = lenRows.map (fun r => (r.sym, r.extra, r.first, r.last)) := hrows
  subst hmap
  refine ⟨fun sym extra first last hmem => ?_, fun len h3 h258 => ?_⟩
  · obtain ⟨r, hr, heq⟩ := List.mem_map.mp hmem
    cases heq
    rw [lenExtra, lenBase, lenRowOfSym_of_mem hr]
    refine ⟨rfl, rfl, fun len h1 h2 => ⟨by rw [lenSym, lenRow_of_mem hr h1 h2], ?_⟩⟩
    have := lenRow_width hr
    omega
  · obtain ⟨r, hr, h1, h2⟩ := exists_lenRow h3 h258
    exact ⟨_, List.mem_map_of_mem hr, by rw [lenSym, lenRow_of_mem hr h1 h2], h1, h2⟩

/-- Settles O46: the formulas in shifts and masks, and `DistSym(d)` as the one code that covers `d`. -/
theorem distanceSymbols : Obligations.DistanceSymbols := by
  refine ⟨fun c => ⟨?_, ?_⟩, fun d h1 h2 => ⟨(distSym_first h2).1, fun c hc => ⟨fun ⟨hb, hl⟩ => ?_, fun heq => ?_⟩⟩⟩
  · rw [distExtra, Nat.shiftRight_eq_div_pow, Nat.pow_one]
  · rw [distBase, Nat.shiftLeft_eq, Nat.and_one_is_mod]
  · exact eq_distSym_of_covers h1 h2 hc hb hl
  · rw [heq]
    exact distSym_covers h1 h2

end Sys2Proof.Machine
end

section
/-! INIT, RESET, END and BOUND, each as the whole next state, and the cycle of one command (40_commands.md). -/

namespace Sys2Proof.Machine

/-! INIT (40_commands.md R152). -/

theorem levelOperand_of_stands {level : BitVec 4} {lv : Nat} (h : LevelStands level lv) :
    levelOperand level = some lv := by
  obtain ⟨h9, rfl⟩ := h
  apply levelOperand_legal
  split at h9
  · exact .inr ‹_›
  · exact .inl h9

theorem wbitsOperand_of_stands {wbits : BitVec 8} {wrap : Wrap} {wb : Nat} (h : WbitsStands wbits wrap wb) :
    wbitsOperand wbits = some (wrap, wb) := by
  obtain ⟨h8, h15, hs⟩ := h
  cases wrap with
  | raw =>
    simp only at hs
    rw [wbitsOperand_raw (by omega), hs]
    simp
  | zlib =>
    simp only at hs
    rw [wbitsOperand_zlib (by omega), hs]
    simp
  | gzip =>
    simp only at hs
    rw [wbitsOperand_gzip (by omega), hs]
    simp

/-- CONFIG as a number: LEVEL from bit 0, WBITS from bit 4, WRAP from bit 12 (10_state.md R36). -/
theorem configWord_eq {level : Nat} (h : level ≤ 9) (wbits : BitVec 8) (wrap : Wrap) :
    configWord level wbits wrap = BitVec.ofNat 32
      (level + 16 * wbits.toNat + 4096 * (match wrap with | .raw => 0 | .zlib => 1 | .gzip => 2)) := by
  apply BitVec.eq_of_toNat_eq
  have hw := wbits.isLt
  have hl : (BitVec.ofNat 4 level).toNat = level := by rw [BitVec.toNat_ofNat]; omega
  change BitVec.toNat ((0 : BitVec 18) ++ wrap.code ++ wbits ++ BitVec.ofNat 4 level) = _
  simp only [BitVec.toNat_append, Nat.shiftLeft_eq]
  rw [shifted_or _ _ _ (BitVec.isLt _), shifted_or _ _ _ hw, hl, BitVec.toNat_ofNat]
  cases wrap with
  | raw => simp [Wrap.code]; omega
  | zlib => simp [Wrap.code]; omega
  | gzip => simp [Wrap.code]; omega

/-- The rows of 00_scope.md R8: level, good, lazy, nice, chain and strategy. -/
def levelRows : List (Nat × Nat × Nat × Nat × Nat × Strategy) :=
  [(0, 0, 0, 0, 0, .stored), (1, 4, 4, 8, 4, .fast), (2, 4, 5, 16, 8, .fast), (3, 4, 6, 32, 32, .fast),
    (4, 4, 4, 16, 16, .slow), (5, 8, 16, 32, 32, .slow), (6, 8, 16, 128, 128, .slow), (7, 8, 32, 128, 256, .slow),
    (8, 32, 128, 258, 1024, .slow), (9, 32, 258, 258, 4096, .slow)]

theorem configTable_of_mem {lv good lazy nice chain : Nat} {strategy : Strategy}
    (h : (lv, good, lazy, nice, chain, strategy) ∈ levelRows) :
    configTable lv = ⟨good, lazy, nice, chain, strategy⟩ := by
  have hall : ∀ r ∈ levelRows, match r with
      | (lv, good, lazy, nice, chain, strategy) => configTable lv = ⟨good, lazy, nice, chain, strategy⟩ := by decide
  exact hall _ h

theorem max_nine_eq {wb : Nat} (h : 8 ≤ wb) : max wb 9 = if wb = 8 then 9 else wb := by
  split <;> omega

theorem initialCheck_eq (wrap : Wrap) : initialCheck wrap = if wrap = .gzip then 0 else 1 := by
  cases wrap <;> rfl

/-- Settles O13: the operands are accepted, and `startStream` writes the fields the statement lists. -/
theorem initStartsStream : Obligations.InitStartsStream := by
  intro level wbits s lv wb good lazy nice chain strategy wrap hl hw hrow
  have h := initCommand_legal (levelOperand_of_stands hl) (wbitsOperand_of_stands hw) hw.2.1 s
  change Host.Outcome.next (initCommand level wbits s) = _
  rw [h, startStream, configureStream, configTable_of_mem hrow, configWord_eq hl.1, max_nine_eq hw.1, ← initialCheck_eq]
  rfl

/-! RESET and END (40_commands.md R153, R168). -/

theorem execReset_uninit {s : State} (h : s.phase = .uninit) : execReset s = .next (onlyResult .streamError s) :=
  congrArg Host.Outcome.next (if_pos h)

theorem execReset_started {s : State} (h : s.phase ≠ .uninit) : execReset s = .next (endCommand .ok (resetStream s)) :=
  congrArg Host.Outcome.next (if_neg h)

theorem execEndStream_uninit {s : State} (h : s.phase = .uninit) :
    execEndStream s = .next (onlyResult .streamError s) := congrArg Host.Outcome.next (if_pos h)

theorem execEndStream_started {s : State} (h : s.phase ≠ .uninit) : execEndStream s =
    .next (endCommand .ok { forgetStream s with phase := .uninit, config := 0 }) :=
  congrArg Host.Outcome.next (if_neg h)

/-- Settles O15: both branches of RESET, the second with CHECK's initial value by the wrapper. -/
theorem resetRestartsStream : Obligations.ResetRestartsStream := by
  refine fun s => ⟨execReset_uninit, fun h => ?_⟩
  rw [← initialCheck_eq]
  exact execReset_started h

/-- Settles O16: both branches of END, the free value drawn at the current draw. -/
theorem endReleasesStream : Obligations.EndReleasesStream :=
  fun s => ⟨execEndStream_uninit, fun h => ⟨s.draws, execEndStream_started h⟩⟩

/-! BOUND (40_commands.md R170). -/

theorem boundOf_eq (n : Word) : boundOf n = BitVec.ofNat 32
    (n.toNat + n.toNat / 2 ^ 12 + n.toNat / 2 ^ 14 + n.toNat / 2 ^ 25 + 13) := by
  apply BitVec.eq_of_toNat_eq
  simp [boundOf, BitVec.toNat_add, BitVec.toNat_ushiftRight, Nat.shiftRight_eq_div_pow]

/-- Settles O17: `boundOf_eq`, and the point where the sum reaches `2 ^ 32`. -/
theorem boundFormula : Obligations.BoundFormula := by
  rintro s n rfl
  have hlt := s.inAvail.isLt
  refine ⟨?_, fun h => by omega, fun h => ?_⟩
  · rw [← boundOf_eq]
    rfl
  · rw [Nat.mod_eq_sub_mod (by omega), Nat.mod_eq_of_lt (by omega)]
    omega

/-! The cycle of one command (40_commands.md R150). -/

/-- Every command ends in a next state, with BUSY down. -/
theorem exec_ends (i : Instr) (s : State) : ∃ t, exec i s = .next t ∧ t.running = none := by
  cases i with
  | init level wbits => exact ⟨_, rfl, (execInit_frame rfl).1.running⟩
  | reset => exact ⟨_, rfl, (execReset_frame rfl).1.running⟩
  | deflateNoFlush => exact ⟨_, rfl, deflate_running .noFlush s⟩
  | deflateSyncFlush => exact ⟨_, rfl, deflate_running .syncFlush s⟩
  | deflateFullFlush => exact ⟨_, rfl, deflate_running .fullFlush s⟩
  | deflateFinish => exact ⟨_, rfl, deflate_running .finish s⟩
  | endStream => exact ⟨_, rfl, (execEndStream_frame rfl).1.running⟩
  | bound => exact ⟨_, rfl, (execBound_frame rfl).1.running⟩

theorem execute_ends (w : Word) (s : State) : ∃ t, execute w s = .next t ∧ t.running = none := by
  cases h : decode w with
  | ok i =>
    rw [execute_of_ok h]
    exact exec_ends i s
  | error e => exact ⟨_, execute_of_error h s, rfl⟩

theorem statusWord_busy (s : State) : (statusWord s).getLsbD 8 = s.running.isSome := statusWord_getLsbD s 8

/-- RESULT and STATE do not depend on the command in progress, nor on the host's moves. -/
theorem statusWord_result_phase (s : State) (w : Option Word) (moves : List HostMove) :
    (statusWord { s with inputs := moves, running := w }).extractLsb' 0 7 = (statusWord s).extractLsb' 0 7 := by
  ext i hi
  simp [statusWord_getLsbD, hi]

theorem idleMove_command (v : Word) (s : State) :
    idleMove (.regWrite 0x04 v) s = .next { s with running := some v } := rfl

/-- Settles O5: the CMD write latches the word, and `execute_ends` is the rest of the cycle. -/
theorem commandCycle : Obligations.CommandCycle := by
  intro s v rest hr hi
  obtain ⟨t, ht, hend⟩ := execute_ends v { s with inputs := rest, running := some v }
  refine ⟨_, t, (step_idle hr hi).trans (idleMove_command v _), rfl, statusWord_busy _, statusWord_result_phase s _ _,
    (step_cmdDone rfl rfl).trans ht, ht, hend, ?_, statusWord_result t, statusWord_phase t⟩
  rw [statusWord_busy, hend]
  rfl

end Sys2Proof.Machine
end

section
/-! The flush marker (40_commands.md R164, 30_encoding.md R132). -/

namespace Sys2Proof.Machine

/-- The three zero bits of a stored block's header and the padding after them complete the partial byte; when the header
does not fit into it, a zero byte follows. -/
theorem alignByte_sendHeader_pending {t : Stream} (h : WriterOk t) : (alignByte (sendHeader 0 false t)).pending =
    t.pending ++ if t.bitcount ≤ 5 then [BitVec.ofNat 8 t.bitacc] else [BitVec.ofNat 8 t.bitacc, 0x00] := by
  obtain ⟨hcount, hacc⟩ := h
  have hbyte : t.bitacc < 256 := lt_of_lt_of_le hacc (Nat.pow_le_pow_right (by decide) (by omega : t.bitcount ≤ 8))
  by_cases h5 : t.bitcount < 5
  · have hk : (t.bitcount + 3) / 8 = 0 := by omega
    have hr : (t.bitcount + 3) % 8 > 0 := by omega
    have hle : t.bitcount ≤ 5 := by omega
    simp [sendHeader, finalBit, alignByte, hk, hr, hle, lowBytes]
  · have hk : (t.bitcount + 3) / 8 = 1 := by omega
    have hr : (t.bitcount + 3) % 8 > 0 ↔ ¬ t.bitcount ≤ 5 := by omega
    have hz : t.bitacc / 256 = 0 := Nat.div_eq_of_lt hbyte
    by_cases hle : t.bitcount ≤ 5
    · simp [sendHeader, finalBit, alignByte, hk, hr, hle, lowBytes]
    · simp [sendHeader, finalBit, alignByte, hk, hr, hle, lowBytes, hz]

/-- What an empty stored block queues: the completed byte, then LEN = 0 and its complement. -/
def markerBytes (t : Stream) : List Byte :=
  (if t.bitcount ≤ 5 then [BitVec.ofNat 8 t.bitacc] else [BitVec.ofNat 8 t.bitacc, 0x00]) ++ [0x00, 0x00, 0xFF, 0xFF]

theorem storedLengths_zero : storedLengths 0 = [0x00, 0x00, 0xFF, 0xFF] := by decide

/-- The whole effect of an empty stored block. -/
theorem emptyStoredBlock_eq {t : Stream} (h : WriterOk t) : sendStoredBlock [] false t =
    { t with bitacc := 0, bitcount := 0, pending := t.pending ++ markerBytes t } := by
  rw [markerBytes, ← List.append_assoc, ← alignByte_sendHeader_pending h, ← storedLengths_zero, sendStoredBlock,
    putBytes, List.append_nil]
  rfl

theorem clearHistory_of_lookahead_eq_zero {t : Stream} (h : t.lookahead = 0) :
    clearHistory t = { t with head := .empty, strstart := 0, blockStart := 0, insert := 0 } := if_pos h

theorem clearHistory_of_lookahead_ne_zero {t : Stream} (h : t.lookahead ≠ 0) :
    clearHistory t = { t with head := .empty } := if_neg h

/-- The flush marker in a mode that keeps the history. -/
theorem flushMarker_of_ne {f : Flush} (hf : f ≠ .fullFlush) {t : Stream} (h : WriterOk t) :
    flushMarker f t = { t with bitacc := 0, bitcount := 0, pending := t.pending ++ markerBytes t } := by
  rw [← emptyStoredBlock_eq h]
  exact if_neg hf

/-- FULL_FLUSH with no lookahead. -/
theorem flushMarker_fullFlush_drained {t : Stream} (h : WriterOk t) (h0 : t.lookahead = 0) :
    flushMarker .fullFlush t = { t with
      bitacc := 0
      bitcount := 0
      pending := t.pending ++ markerBytes t
      head := .empty
      strstart := 0
      blockStart := 0
      insert := 0 } := by
  change clearHistory (sendStoredBlock [] false t) = _
  rw [emptyStoredBlock_eq h]
  exact clearHistory_of_lookahead_eq_zero h0

/-- FULL_FLUSH with lookahead left. -/
theorem flushMarker_fullFlush_waiting {t : Stream} (h : WriterOk t) (h0 : t.lookahead ≠ 0) :
    flushMarker .fullFlush t =
      { t with bitacc := 0, bitcount := 0, pending := t.pending ++ markerBytes t, head := .empty } := by
  change clearHistory (sendStoredBlock [] false t) = _
  rw [emptyStoredBlock_eq h]
  exact clearHistory_of_lookahead_ne_zero h0

/-- Settles O35: the three forms of the marker, which queue the same bytes. -/
theorem flushMarkerBytes : Obligations.FlushMarkerBytes := by
  intro f t ht
  rw [List.append_assoc, ← markerBytes]
  have hhead : ∀ h, Table.get (0 : BitVec 16) .empty h = 0 := Table.get_empty 0
  by_cases hf : f = .fullFlush
  · subst hf
    by_cases h0 : t.lookahead = 0
    · rw [flushMarker_fullFlush_drained ht h0]
      exact ⟨rfl, rfl, rfl, rfl, fun _ => rfl, by simp,
        fun _ => ⟨hhead, fun _ => ⟨rfl, rfl, rfl⟩, fun hn => absurd h0 hn⟩⟩
    · rw [flushMarker_fullFlush_waiting ht h0]
      exact ⟨rfl, rfl, rfl, rfl, fun _ => rfl, by simp,
        fun _ => ⟨hhead, fun hz => absurd hz h0, fun _ => ⟨rfl, rfl, rfl⟩⟩⟩
  · rw [flushMarker_of_ne hf ht]
    exact ⟨rfl, rfl, rfl, rfl, fun _ => rfl, fun _ => ⟨rfl, rfl, rfl, rfl⟩, fun h => absurd h hf⟩

end Sys2Proof.Machine
end

section
/-! DEFLATE: the ways a command can go, what each says about the state it ends in (40_commands.md R155, R159). -/

namespace Sys2Proof.Machine

/-! The checks of 40_commands.md R155 lines 1 to 5. -/

theorem DeflateAccepted.check {f : Flush} {s : State} (h : DeflateAccepted f s) : deflateCheck f s = none := by
  obtain ⟨herr, hout, -, -⟩ := h
  rw [deflateCheck_passed herr, if_neg (mt (word_eq_zero _).mp hout)]

theorem deflate_of_accepted {f : Flush} {s : State} (h : DeflateAccepted f s) : deflate f s = deflateBody f s := by
  simp only [deflate, h.check]

/-- The checks turn a command away with StreamError or BufError, and then it is not an accepted one. -/
theorem deflateCheck_some {f : Flush} {s : State} {e : Result} (h : deflateCheck f s = some e) :
    (e = .streamError ∨ e = .bufError) ∧ ¬ DeflateAccepted f s := by
  refine ⟨?_, fun ha => by simp [ha.check] at h⟩
  by_cases herr : DeflateStreamError f s
  · rw [deflateCheck_error herr] at h
    exact .inl (Option.some.inj h).symm
  · rw [deflateCheck_passed herr] at h
    split at h
    · exact .inr (Option.some.inj h).symm
    · cases h

theorem deflateCheck_none {f : Flush} {s : State} (h : deflateCheck f s = none) :
    ¬ DeflateStreamError f s ∧ s.outAvail.toNat ≠ 0 := by
  have herr : ¬ DeflateStreamError f s := fun he => by simp [deflateCheck_error he] at h
  refine ⟨herr, fun h0 => ?_⟩
  rw [deflateCheck_passed herr, if_pos ((word_eq_zero _).mpr h0)] at h
  cases h

/-- The test of 40_commands.md R155 line 10 (R160). -/
theorem noProgress_iff (f : Flush) (s : State) : noProgress f s.stream.lastFlush (setLastFlush (.mode f) s) = true ↔
    s.inAvail.toNat = 0 ∧ f.rank ≤ s.stream.lastFlush.rank ∧ f ≠ .finish := by
  simp [noProgress, ← BitVec.toNat_inj]

theorem DeflateAccepted.no_input_in_finishing {f : Flush} {s : State} (h : DeflateAccepted f s)
    (hp : s.phase = .finishing) : s.inAvail = 0 := by
  obtain ⟨-, -, hin, -⟩ := h
  exact (word_eq_zero _).mpr (hin hp)

/-- An accepted DEFLATE is not turned away for lack of progress. -/
theorem DeflateAccepted.progress {f : Flush} {s : State} (h : DeflateAccepted f s) (hq : s.stream.pending = []) :
    ¬ noProgress f s.stream.lastFlush (setLastFlush (.mode f) s) = true := by
  obtain ⟨-, -, -, hrank⟩ := h
  rw [noProgress_iff]
  rintro ⟨h0, hr, hf⟩
  exact absurd (hrank hq h0 hf) (Int.not_lt.mpr hr)

/-! From the checks to the strategy. -/

/-- `v` comes from `s` by the parts of a DEFLATE that stand before the strategy: the queue is flushed and the header
emitted, and `S.state` leaves INIT only. -/
structure Enters (s v : State) : Prop where
  moved : Moved s v
  streamOk : StreamOk s.stream → StreamOk v.stream
  phase : v.phase = s.phase ∨ s.phase = .init ∧ v.phase = .active

theorem Enters.trans {s v w : State} (h : Enters s v) (k : Enters v w) : Enters s w where
  moved := h.moved.trans k.moved
  streamOk ht := k.streamOk (h.streamOk ht)
  phase := by
    obtain hp | ⟨hs, hv⟩ := h.phase
    · rw [← hp]
      exact k.phase
    · obtain hw | ⟨hi, -⟩ := k.phase
      · exact .inr ⟨hs, hw.trans hv⟩
      · rw [hv] at hi
        cases hi

theorem Enters.setLastFlush (l : LastFlush) (s : State) : Enters s (setLastFlush l s) :=
  ⟨(Moves.setLastFlush l s).moved, id, .inl rfl⟩

theorem Enters.flushPending (s : State) : Enters s (flushPending s) :=
  ⟨(Moves.flush s).moved, flushPending_streamOk s, .inl (flushPending_kept s).1⟩

/-- The state in which the header has been queued (40_commands.md R155 lines 13 and 14). -/
def headerQueued (s : State) : State := setPhase .active (s.onStream emitHeader)

theorem Enters.headerQueued {s : State} (h : s.phase = .init) : Enters s (headerQueued s) :=
  ⟨(Moves.onStream _ emitHeader_same s).moved.trans (Moves.setPhase _ _).moved,
    (putBytes_writes _ _).streamOk, .inr ⟨h, rfl⟩⟩

/-- The ways a DEFLATE goes from `s`: it ends with an error code before the strategy, it ends with Ok because the queue
fills the output space, or it goes on to the strategy (40_commands.md R155 lines 1 to 18). -/
inductive DeflateWay (f : Flush) (s : State) : State → Prop
  | raised (e : Result) (u : State) (he : e = .streamError ∨ e = .bufError) (hn : ¬ DeflateAccepted f s) :
    DeflateWay f s (raise e u)
  | outFull (v : State) (hv : Enters s v) (hz : v.outAvail = 0) (hi : s.stream.pending = [] → v.phase ≠ .init) :
    DeflateWay f s (returnOutFull v)
  | run (v : State) (hv : Enters s v) (hi : v.phase ≠ .init) (hc : deflateCheck f s = none) :
    DeflateWay f s (deflateRun f v)

theorem deflateHeader_of_ne_init {s : State} (h : s.phase ≠ .init) (f : Flush) : deflateHeader f s = deflateRun f s :=
  if_neg h

theorem deflateHeader_of_init {s : State} (h : s.phase = .init) (f : Flush) : deflateHeader f s =
    if s.stream.wrap ≠ .raw then
      if (flushPending (headerQueued s)).stream.pending ≠ [] then returnOutFull (flushPending (headerQueued s))
      else deflateRun f (flushPending (headerQueued s))
    else deflateRun f (headerQueued s) := if_pos h

theorem deflateHeader_way {f : Flush} {s v : State} (hc : deflateCheck f s = none) (hv : Enters s v) :
    DeflateWay f s (deflateHeader f v) := by
  by_cases hi : v.phase = .init
  · have hq := hv.trans (Enters.headerQueued hi)
    have hqf := hq.trans (Enters.flushPending _)
    have hp : (flushPending (headerQueued v)).phase = .active := (flushPending_kept _).1
    rw [deflateHeader_of_init hi]
    split
    · split
      next hne =>
        refine .outFull _ hqf (by_contra fun hz => hne (flushPending_empties _ hz)) fun _ => ?_
        rw [hp]
        decide
      next => exact .run _ hqf (by rw [hp]; decide) hc
    · exact .run _ hq (show Phase.active ≠ .init by decide) hc
  · rw [deflateHeader_of_ne_init hi]
    exact .run _ hv hi hc

theorem deflateFinishing_way {f : Flush} {s v : State} (hc : deflateCheck f s = none) (hv : Enters s v)
    (hin : v.inAvail = s.inAvail) (hp : v.phase = s.phase) : DeflateWay f s (deflateFinishing f v) := by
  unfold deflateFinishing
  split
  next h =>
    exact .raised _ _ (.inr rfl) fun ha => h.2 (hin.trans (ha.no_input_in_finishing (hp.symm.trans h.1)))
  next => exact deflateHeader_way hc hv

/-- Every DEFLATE goes one of the three ways. -/
theorem deflate_way (f : Flush) (s : State) : DeflateWay f s (deflate f s) := by
  unfold deflate
  split
  next e he => exact .raised e s (deflateCheck_some he).1 (deflateCheck_some he).2
  next hc =>
    have hl := Enters.setLastFlush (.mode f) s
    have hlf := hl.trans (Enters.flushPending _)
    obtain ⟨hp, hin, -⟩ := flushPending_kept (setLastFlush (.mode f) s)
    simp only [deflateBody]
    split
    next hq =>
      split
      next hz => exact .outFull _ hlf hz fun h0 => absurd h0 hq
      next => exact deflateFinishing_way hc hlf hin hp
    next hq =>
      split
      next hnp => exact .raised _ _ (.inr rfl) fun ha => ha.progress (not_not.mp hq) hnp
      next => exact deflateFinishing_way hc hl rfl rfl

/-! From the strategy to the end (40_commands.md R155 lines 19 to 35). -/

theorem StoredPoint.streamOk {t : Stream} (h : StoredPoint t) : StreamOk t := by
  have ⟨_, _, _, _, _, _, hs, _⟩ := h
  exact (streamOk_stored t hs).mpr h

theorem FastPoint.streamOk {t : Stream} (h : FastPoint t) : StreamOk t := by
  have ⟨_, _, _, _, hs, _⟩ := h
  exact (streamOk_fast t hs).mpr h

theorem SlowPoint.streamOk {t : Stream} (h : SlowPoint t) : StreamOk t := by
  have ⟨_, _, _, _, hs⟩ := h
  exact (streamOk_slow t hs).mpr h

/-- What the strategy of a started stream answers, and that it keeps the stream's invariants (41_lz77.md R212, R217). -/
theorem runStrategy_spec (f : Flush) {s : State} (h : StreamOk s.stream) :
    StrategyPost f (runStrategy f s).1 (runStrategy f s).2 ∧ StreamOk (runStrategy f s).2.stream := by
  have hturns : s.stream.lookahead + s.inAvail.toNat < turnBound s := Nat.lt_succ_self _
  unfold runStrategy
  cases hs : s.stream.strategy with
  | stored => exact (storedLoop_spec f _ s ((streamOk_stored _ hs).mp h) (by omega)).imp_right StoredPoint.streamOk
  | fast => exact (fastLoop_spec f _ s ((streamOk_fast _ hs).mp h) hturns).imp_right FastPoint.streamOk
  | slow => exact (slowLoop_spec f _ s ((streamOk_slow _ hs).mp h) hturns).imp_right SlowPoint.streamOk

/-- A DEFLATE that reached the strategy from `s` ends in `t`: with Ok, or with StreamEnd under FINISH, and not back in
INIT. -/
structure Completes (f : Flush) (s t : State) : Prop where
  result : t.result = .ok ∨ (f = .finish ∧ t.result = .streamEnd)
  phase : s.phase ≠ .init → t.phase ≠ .init

theorem deflateTail_completes (f : Flush) (s : State) : Completes f s (deflateTail f s) := by
  have hdone : Phase.done ≠ .init := by decide
  simp only [deflateTail]
  split
  · exact ⟨.inl rfl, id⟩
  next hf =>
    have hf : f = .finish := not_not.mp hf
    split
    · exact ⟨.inr ⟨hf, rfl⟩, fun _ => hdone⟩
    · split
      · refine ⟨.inl rfl, fun h => ?_⟩
        rwa [endCommand_phase, (flushPending_kept _).1]
      · exact ⟨.inr ⟨hf, rfl⟩, fun _ => hdone⟩

theorem enterFinishing_phase (b : BlockState) {s : State} (h : s.phase ≠ .init) :
    (enterFinishing b s).phase ≠ .init := by
  unfold enterFinishing
  split
  · exact show Phase.finishing ≠ .init by decide
  · exact h

theorem afterStrategy_completes (f : Flush) (b : BlockState) (s : State) :
    Completes f s (afterStrategy f b s) := by
  have he := enterFinishing_phase b (s := s)
  simp only [afterStrategy]
  generalize enterFinishing b s = u at *
  have hm : (flushPending (u.onStream (flushMarker f))).phase = u.phase := (flushPending_kept _).1
  split
  · split
    · exact ⟨.inl rfl, he⟩
    · exact ⟨.inl rfl, he⟩
  · split
    · split
      · exact ⟨.inl rfl, fun h => by rw [returnOutFull, endCommand_phase, setLastFlush_phase, hm]; exact he h⟩
      · obtain ⟨hr, hp⟩ := deflateTail_completes f (flushPending (u.onStream (flushMarker f)))
        rw [hm] at hp
        exact ⟨hr, fun h => hp (he h)⟩
    · obtain ⟨hr, hp⟩ := deflateTail_completes f u
      exact ⟨hr, fun h => hp (he h)⟩

theorem deflateRun_completes (f : Flush) (s : State) : Completes f s (deflateRun f s) := by
  simp only [deflateRun]
  split
  · obtain ⟨hr, hp⟩ := afterStrategy_completes f (runStrategy f s).1 (runStrategy f s).2
    rw [(runStrategy_kept f s).2.1] at hp
    exact ⟨hr, hp⟩
  · exact deflateTail_completes f s

/-- An accepted DEFLATE ends with Ok, or with StreamEnd under FINISH, and has left INIT if nothing was queued before the
header. -/
theorem DeflateAccepted.ends {f : Flush} {s : State} (h : DeflateAccepted f s) :
    ((deflate f s).result = .ok ∨ (f = .finish ∧ (deflate f s).result = .streamEnd)) ∧
      (s.stream.pending = [] → (deflate f s).phase ≠ .init) := by
  have hway := deflate_way f s
  generalize deflate f s = t at *
  cases hway with
  | raised e u he hn => exact absurd h hn
  | outFull v hv hz hi => exact ⟨.inl rfl, hi⟩
  | run v hv hi hc => exact ⟨(deflateRun_completes f v).result, fun _ => (deflateRun_completes f v).phase hi⟩

theorem apart_of_no_streamError {f : Flush} {s : State} (h : ¬ DeflateStreamError f s) : Apart s :=
  fun hbad => h (.inr (.inr (.inr (.inl hbad))))

theorem DeflateAccepted.apart {f : Flush} {s : State} (h : DeflateAccepted f s) : Apart s :=
  apart_of_no_streamError h.1

/-- Settles O22: `DeflateAccepted.ends`, and `Moves` for the cursors, the counters and the checksum. -/
theorem deflateCompletes : Obligations.DeflateCompletes := by
  intro f s h
  obtain ⟨hresult, hphase⟩ := h.ends
  obtain ⟨k, m, hm⟩ := deflate_moved f s
  exact ⟨deflate f s, k, m, exec_deflateInstr f s, deflate_running f s, hresult, hphase, hm.kLe, hm.mLe, hm.inPtr,
    hm.toNat_inAvail, hm.totalIn, hm.outPtr, hm.toNat_outAvail, hm.totalOut, hm.check h.apart⟩

/-! The progress property (40_commands.md R159). -/

theorem Moved.inAvail_zero {s t : State} (h : Moved s t) (h0 : s.inAvail = 0) : t.inAvail = 0 := by
  obtain ⟨k, m, hm⟩ := h
  rw [word_eq_zero] at h0 ⊢
  rw [hm.toNat_inAvail, h0, Nat.zero_sub]

theorem Moved.outAvail_zero {s t : State} (h : Moved s t) (h0 : s.outAvail = 0) : t.outAvail = 0 := by
  obtain ⟨k, m, hm⟩ := h
  rw [word_eq_zero] at h0 ⊢
  rw [hm.toNat_outAvail, h0, Nat.zero_sub]

/-- Every answer of a strategy leaves no input or no output space. -/
theorem StrategyPost.progress {f : Flush} {b : BlockState} {s : State} (h : StrategyPost f b s) :
    s.inAvail = 0 ∨ s.outAvail = 0 := by
  cases b with
  | needMore => exact h.symm.imp_left And.right
  | blockDone => exact .inl h.2.1
  | finishStarted => exact .inl h.2.1.1
  | finishDone => exact .inl h.2.1.1

theorem strategyHasWork_iff (f : Flush) (s : State) : strategyHasWork f s = true ↔
    s.inAvail ≠ 0 ∨ s.stream.lookahead ≠ 0 ∨ (f ≠ .noFlush ∧ s.phase ≠ .finishing) := by
  simp [strategyHasWork]

theorem deflateRun_progress (f : Flush) {s : State} (h : StreamOk s.stream) :
    (deflateRun f s).inAvail = 0 ∨ (deflateRun f s).outAvail = 0 := by
  simp only [deflateRun]
  split
  · have hm := afterStrategy_moved f (runStrategy f s).1 (runStrategy f s).2
    exact (runStrategy_spec f h).1.progress.imp hm.inAvail_zero hm.outAvail_zero
  next hwork =>
    rw [strategyHasWork_iff, not_or, not_not] at hwork
    exact .inl ((deflateTail_moved f s).inAvail_zero hwork.1)

/-- Past the checks of 40_commands.md R155 a stream has been started. -/
theorem Inv.streamOk {f : Flush} {s : State} (h : Inv s) (hc : deflateCheck f s = none) : StreamOk s.stream := by
  obtain ⟨-, hok, -⟩ := h
  exact hok fun hp => (deflateCheck_none hc).1 (.inl hp)

theorem raise_ne_ok {e : Result} (he : e = .streamError ∨ e = .bufError) (s : State) : (raise e s).result ≠ .ok := by
  rw [raise_result]
  obtain rfl | rfl := he
  · decide
  · decide

/-- Settles O25: a command that raises returns no Ok, a full output space is one of the two answers, and
`deflateRun_progress` covers the rest. -/
theorem progressProperty : Obligations.ProgressProperty := by
  intro f s t hinv ht hok
  rw [exec_deflateInstr] at ht
  cases ht
  have hway := deflate_way f s
  generalize deflate f s = t at *
  cases hway with
  | raised e u he hn => exact absurd hok (raise_ne_ok he u)
  | outFull v hv hz hi => exact .inr hz
  | run v hv hi hc => exact deflateRun_progress f (hv.streamOk (hinv.streamOk hc))

end Sys2Proof.Machine
end

section
/-! The bytes a DEFLATE stores: how stored ranges follow one another, and the queue's bytes in memory (20_memory.md R88);
flush points (40_commands.md R158). -/

namespace Sys2Proof.Machine

theorem storeBytes_append (p : Word) (a b : List Byte) (m : Memory) :
    storeBytes p (a ++ b) m = storeBytes (p + BitVec.ofNat 32 a.length) b (storeBytes p a m) := by
  induction a generalizing p m with
  | nil => simp [storeBytes]
  | cons x a ih => rw [List.cons_append, storeBytes, ih, succ_word, storeBytes, List.length_cons]

/-- Between `s` and `t` exactly the bytes `bs` have been stored, from OUT_PTR on. -/
structure Stores (bs : List Byte) (s t : State) : Prop where
  fits : bs.length ≤ s.outAvail.toNat
  outPtr : t.outPtr = s.outPtr + BitVec.ofNat 32 bs.length
  outAvail : t.outAvail = s.outAvail - BitVec.ofNat 32 bs.length
  memory : t.memory = storeBytes s.outPtr bs s.memory

/-- The output range does not run over the end of the address space (20_memory.md R86). -/
def RoomOk (s : State) : Prop := s.outPtr.toNat + s.outAvail.toNat ≤ 2 ^ 32

theorem Apart.roomOk {s : State} (h : Apart s) : RoomOk s := by
  simp only [Apart, BadRanges, not_or, Nat.not_lt] at h
  exact h.2.1

namespace Stores

theorem toNat_outAvail {bs : List Byte} {s t : State} (h : Stores bs s t) :
    t.outAvail.toNat = s.outAvail.toNat - bs.length := by rw [h.outAvail, toNat_sub_count _ _ h.fits]

/-- Only the output registers and memory of the first state matter. -/
theorem of_same_output {bs : List Byte} {s s' t : State} (h : Stores bs s t) (hp : s'.outPtr = s.outPtr)
    (ha : s'.outAvail = s.outAvail) (hm : s'.memory = s.memory) : Stores bs s' t where
  fits := ha ▸ h.fits
  outPtr := hp ▸ h.outPtr
  outAvail := ha ▸ h.outAvail
  memory := hp ▸ hm ▸ h.memory

theorem trans {a b : List Byte} {s t u : State} (h : Stores a s t) (k : Stores b t u) : Stores (a ++ b) s u where
  fits := by
    have := h.fits
    have := k.fits
    rw [h.toNat_outAvail] at this
    rw [List.length_append]
    omega
  outPtr := by rw [k.outPtr, h.outPtr, List.length_append, BitVec.ofNat_add, BitVec.add_assoc]
  outAvail := by rw [k.outAvail, h.outAvail, List.length_append, BitVec.ofNat_add, BitVec.sub_sub]
  memory := by rw [k.memory, h.memory, h.outPtr, storeBytes_append]

/-- `FlushPending` stores the head of the queue. -/
theorem flushPending (s : State) : Stores (s.stream.pending.take (flushCount s)) s (flushPending s) := by
  have hlen : (s.stream.pending.take (flushCount s)).length = flushCount s :=
    List.length_take_of_le (Nat.min_le_left ..)
  rw [flushPending_eq]
  exact ⟨by rw [hlen]; exact flushCount_le s, by rw [hlen], by rw [hlen], rfl⟩

/-- With space for all of it, `FlushPending` stores the whole queue. -/
theorem flushPending_all {s : State} (h : s.stream.pending.length ≤ s.outAvail.toNat) :
    Stores s.stream.pending s (Machine.flushPending s) := by
  have hs := flushPending s
  rwa [flushCount, Nat.min_eq_left h, List.take_length] at hs

theorem read {bs : List Byte} {s t : State} (h : Stores bs s t) (hm : s.memory.wf = true) (hr : RoomOk s) {i : Nat}
    (hi : i < bs.length) : t.memory.read (s.outPtr.toNat + i) = bs[i] := by
  have := h.fits
  rw [h.memory, storeBytes_same _ _ _ hm (by unfold RoomOk at hr; omega) i hi]

/-- OUT_PTR moves past the stored bytes; where space is left it does not reach the end of the address space. -/
theorem toNat_outPtr {bs : List Byte} {s t : State} (h : Stores bs s t) (hr : RoomOk s)
    (hlt : bs.length < s.outAvail.toNat) : t.outPtr.toNat = s.outPtr.toNat + bs.length := by
  unfold RoomOk at hr
  rw [h.outPtr, BitVec.toNat_add, BitVec.toNat_ofNat]
  omega

/-- The last bytes stored, counted back from where OUT_PTR stands now. -/
theorem read_back {a b : List Byte} {s t : State} (h : Stores (a ++ b) s t) (hm : s.memory.wf = true) (hr : RoomOk s)
    (hlt : (a ++ b).length < s.outAvail.toNat) {j : Nat} (hj : j < b.length) :
    t.memory.read (t.outPtr.toNat - (b.length - j)) = b[j] := by
  have hi : a.length + j < (a ++ b).length := by rw [List.length_append]; omega
  have hread := h.read hm hr hi
  rw [List.getElem_append_right (by omega)] at hread
  rw [h.toNat_outPtr hr hlt, List.length_append]
  simpa [show s.outPtr.toNat + (a.length + b.length) - (b.length - j) = s.outPtr.toNat + (a.length + j) by omega]
    using hread

end Stores

/-- What comes later keeps the bytes stored so far. -/
theorem Moves.read_stored {bs : List Byte} {s t u : State} {k m : Nat} (h : Stores bs s t) (hm : Moves k m t u)
    (hr : RoomOk s) {i : Nat} (hi : i < bs.length) :
    u.memory.read (s.outPtr.toNat + i) = t.memory.read (s.outPtr.toNat + i) := by
  have hfits := h.fits
  have hle := hm.mLe
  rw [h.toNat_outAvail] at hle
  unfold RoomOk at hr
  apply hm.memory
  intro j hj
  rw [h.outPtr, BitVec.add_assoc, ← BitVec.ofNat_add, BitVec.toNat_add, BitVec.toNat_ofNat]
  omega

/-- The head of a queue that has been flushed, as far as there was space for it, stands at the old OUT_PTR from then
on. -/
theorem read_flushed_head {s t : State} (hm : s.memory.wf = true) (hr : RoomOk s) (ht : Moved (flushPending s) t)
    {i : Nat} (hi : i < s.stream.pending.length) (ho : i < s.outAvail.toNat) :
    s.stream.pending[i]? = some (t.memory.read (s.outPtr.toNat + i)) := by
  obtain ⟨k, m, hrest⟩ := ht
  have hstores := Stores.flushPending s
  have hlen : i < (s.stream.pending.take (flushCount s)).length := by
    rw [List.length_take, flushCount]
    omega
  rw [Moves.read_stored hstores hrest hr hlen, hstores.read hm hr hlen, List.getElem_take, List.getElem?_eq_getElem hi]

/-- Where space is left after `FlushPending`, there was more than the queue needed. -/
theorem pending_lt_of_outAvail_ne_zero {s : State} (h : (flushPending s).outAvail ≠ 0) :
    s.stream.pending.length < s.outAvail.toNat := by
  have hout := (Stores.flushPending s).toNat_outAvail
  by_contra hge
  refine h ((word_eq_zero _).mpr ?_)
  rw [hout, List.length_take, flushCount]
  omega

/-! Flush points (40_commands.md R158, R164). -/

/-- A flush that leaves output space has sent everything consumed, and then the marker. -/
theorem deflateRun_flush {f : Flush} {s : State} (hf : f = .syncFlush ∨ f = .fullFlush) (h : StreamOk s.stream)
    (hp : s.phase ≠ .finishing) (hout : (deflateRun f s).outAvail ≠ 0) :
    ∃ u, Moved s u ∧ StreamOk u.stream ∧ AllEncoded u ∧
      deflateRun f s = endCommand .ok (flushPending (u.onStream (flushMarker f))) := by
  have hfin : f ≠ .finish := by rintro rfl; simp at hf
  have hno : f ≠ .noFlush := by rintro rfl; simp at hf
  have hwork : strategyHasWork f s = true := (strategyHasWork_iff f s).mpr (.inr (.inr ⟨hno, hp⟩))
  have hrun : deflateRun f s = afterStrategy f (runStrategy f s).1 (runStrategy f s).2 := if_pos hwork
  obtain ⟨hpost, hok⟩ := runStrategy_spec f h
  have hmoved := runStrategy_moved f s
  rw [hrun] at hout ⊢
  generalize (runStrategy f s).1 = b at *
  generalize (runStrategy f s).2 = u at *
  cases b with
  | needMore =>
    have hz : u.outAvail = 0 := hpost.resolve_right fun hn => hno hn.1
    exact absurd ((afterStrategy_moved f _ u).outAvail_zero hz) hout
  | finishStarted => exact absurd hpost.1 hfin
  | finishDone => exact absurd hpost.1 hfin
  | blockDone =>
    refine ⟨u, hmoved, hok, hpost.2, ?_⟩
    have hafter : afterStrategy f .blockDone u = if (flushPending (u.onStream (flushMarker f))).outAvail = 0
        then returnOutFull (flushPending (u.onStream (flushMarker f)))
        else deflateTail f (flushPending (u.onStream (flushMarker f))) := rfl
    rw [hafter] at hout ⊢
    split at hout
    next hz => exact absurd hz hout
    next hz => rw [if_neg hz, deflateTail, if_pos hfin]

/-- A SYNC_FLUSH or FULL_FLUSH that returns Ok with output space left has sent everything consumed, and then the
marker. -/
theorem deflate_flush {f : Flush} {s : State} (hinv : Inv s) (hf : f = .syncFlush ∨ f = .fullFlush)
    (hok : (deflate f s).result = .ok) (hout : (deflate f s).outAvail ≠ 0) :
    Apart s ∧ ∃ u, Moved s u ∧ StreamOk u.stream ∧ AllEncoded u ∧
      deflate f s = endCommand .ok (flushPending (u.onStream (flushMarker f))) := by
  have hway := deflate_way f s
  generalize deflate f s = t at *
  cases hway with
  | raised e u he hn => exact absurd hok (raise_ne_ok he u)
  | outFull v hv hz hi => exact absurd hz hout
  | run v hv hi hc =>
    obtain ⟨herr, -⟩ := deflateCheck_none hc
    have hp : v.phase ≠ .finishing := by
      obtain hp | ⟨-, hp⟩ := hv.phase
      · rw [hp]
        intro hs
        exact herr (.inr (.inr (.inr (.inr ⟨hs, by rintro rfl; simp at hf⟩))))
      · rw [hp]
        decide
    obtain ⟨u, hu, hrest⟩ := deflateRun_flush hf (hv.streamOk (hinv.streamOk hc)) hp hout
    exact ⟨apart_of_no_streamError herr, u, hv.moved.trans hu, hrest⟩

theorem Moved.apart {s t : State} (h : Moved s t) (ha : Apart s) : Apart t := by
  obtain ⟨k, m, hm⟩ := h
  exact hm.apart ha

theorem Moved.wf {s t : State} (h : Moved s t) (hm : s.memory.wf = true) : t.memory.wf = true := by
  obtain ⟨k, m, hmv⟩ := h
  exact hmv.wf hm

/-- While output space is left, OUT_PTR only rises. -/
theorem Moved.outPtr_le {s t : State} (h : Moved s t) (hr : RoomOk s) (hout : t.outAvail ≠ 0) :
    s.outPtr.toNat ≤ t.outPtr.toNat := by
  obtain ⟨k, m, hm⟩ := h
  have hlt := hm.toNat_outAvail
  rw [Ne, word_eq_zero] at hout
  unfold RoomOk at hr
  rw [hm.toNat_outPtr (by omega)]
  omega

/-- A queue that ends in the marker, flushed with space left: the marker stands in front of OUT_PTR. -/
theorem flushed_marker_in_memory {a : List Byte} {s : State} (hq : s.stream.pending = a ++ [0x00, 0x00, 0xFF, 0xFF])
    (hm : s.memory.wf = true) (hr : RoomOk s) (hout : (flushPending s).outAvail ≠ 0) :
    s.outPtr.toNat + 4 ≤ (flushPending s).outPtr.toNat ∧
      (flushPending s).memory.read ((flushPending s).outPtr.toNat - 4) = 0x00 ∧
      (flushPending s).memory.read ((flushPending s).outPtr.toNat - 3) = 0x00 ∧
      (flushPending s).memory.read ((flushPending s).outPtr.toNat - 2) = 0xFF ∧
      (flushPending s).memory.read ((flushPending s).outPtr.toNat - 1) = 0xFF := by
  have hlt := pending_lt_of_outAvail_ne_zero hout
  have h := Stores.flushPending_all hlt.le
  rw [hq] at hlt h
  refine ⟨?_, h.read_back hm hr hlt (j := 0) (by decide), h.read_back hm hr hlt (j := 1) (by decide),
    h.read_back hm hr hlt (j := 2) (by decide), h.read_back hm hr hlt (j := 3) (by decide)⟩
  rw [h.toNat_outPtr hr hlt, List.length_append]
  simp

/-- The queue after the marker: everything before its last four bytes, then those. -/
theorem flushMarker_pending {f : Flush} {t : Stream} (h : WriterOk t) :
    ∃ a, (flushMarker f t).pending = a ++ [0x00, 0x00, 0xFF, 0xFF] := by
  obtain ⟨hp, -⟩ := flushMarkerBytes f t h
  exact ⟨_, hp⟩

/-- What the marker keeps of a stream with nothing left to encode, and where it leaves the positions. -/
theorem flushMarker_drained {f : Flush} {t : Stream} (hf : f = .syncFlush ∨ f = .fullFlush) (h : WriterOk t)
    (h0 : t.lookahead = 0) (hb : t.blockStart = t.strstart) :
    (flushMarker f t).lookahead = 0 ∧ (flushMarker f t).syms = t.syms ∧
      (flushMarker f t).matchAvailable = t.matchAvailable ∧ (flushMarker f t).bitcount = 0 ∧
      (f = .syncFlush → (flushMarker f t).blockStart = (flushMarker f t).strstart) ∧
      (f = .fullFlush → (∀ i, (flushMarker f t).head.get 0 i = 0) ∧ (flushMarker f t).strstart = 0 ∧
        (flushMarker f t).blockStart = 0 ∧ (flushMarker f t).insert = 0) := by
  obtain rfl | rfl := hf
  · rw [flushMarker_of_ne (by decide) h]
    exact ⟨h0, rfl, rfl, rfl, fun _ => hb, by simp⟩
  · rw [flushMarker_fullFlush_drained h h0]
    exact ⟨h0, rfl, rfl, rfl, by simp, fun _ => ⟨Table.get_empty 0, rfl, rfl, rfl⟩⟩

/-- Settles O27: `deflate_flush`, the queue ending in the marker, and `flushMarker_drained` for the stream. -/
theorem flushPointInMemory : Obligations.FlushPointInMemory := by
  intro f s t hinv hf ht hok hout
  rw [exec_deflateInstr] at ht
  cases ht
  obtain ⟨hapart, u, hmoved, ⟨-, hwriter, -, -⟩, ⟨hin, h0, hsyms, hheld, hb⟩, heq⟩ := deflate_flush hinv hf hok hout
  rw [heq] at hout ⊢
  obtain ⟨a, hqueue⟩ := flushMarker_pending (f := f) hwriter
  obtain ⟨hm0, hmsyms, hmheld, hmcount, hsync, hfull⟩ := flushMarker_drained hf hwriter h0 hb
  have hv : Moved s (u.onStream (flushMarker f)) := hmoved.trans (Moves.onStream _ (flushMarker_same f) u).moved
  obtain ⟨hmemory, -, -⟩ := hinv
  obtain ⟨hge, h4, h3, h2, h1⟩ :=
    flushed_marker_in_memory hqueue (hv.wf hmemory) (hv.apart hapart).roomOk hout
  have hle := hv.outPtr_le hapart.roomOk fun hz => hout ((Moves.flush _).moved.outAvail_zero hz)
  have hsent := flushPending_empties _ hout
  obtain ⟨-, hfin, p, hfs⟩ := flushPending_kept (u.onStream (flushMarker f))
  refine ⟨(Nat.add_le_add_right hle 4).trans hge, h4, h3, h2, h1, hfin.trans hin, ?_⟩
  rw [hfs] at hsent
  rw [endCommand_stream, hfs]
  exact ⟨hm0, hmsyms.trans hsyms, hmheld.trans hheld, hmcount, hsent, hsync, hfull⟩

end Sys2Proof.Machine
end

section
/-! The first DEFLATE of a stream: the wrapper's header comes first; the empty stream (40_commands.md R155, R156). -/

namespace Sys2Proof.Machine

/-- The bytes of the header of a stream. -/
def streamHeader (t : Stream) : List Byte := headerBytes t.wrap t.level t.reqWbits

theorem headerQueued_pending (s : State) :
    (headerQueued s).stream.pending = s.stream.pending ++ streamHeader s.stream := rfl

theorem streamHeader_raw {t : Stream} (h : t.wrap = .raw) : streamHeader t = [] := by rw [streamHeader, h]; rfl

theorem flushPending_of_empty {s : State} (h : s.stream.pending = []) : flushPending s = s := by
  rw [flushPending, h]
  rfl

/-- `FlushPending` with space for the whole queue empties it. -/
theorem flushPending_stream_of_fits {s : State} (h : s.stream.pending.length ≤ s.outAvail.toNat) :
    (flushPending s).stream = { s.stream with pending := [] } := by
  rw [flushPending_eq, flushCount, Nat.min_eq_left h, List.drop_length]

theorem flushPending_check (s : State) : (flushPending s).check = s.check := by rw [flushPending_eq]

theorem flushPending_totalIn (s : State) : (flushPending s).totalIn = s.totalIn := by rw [flushPending_eq]

theorem onStream_eq_self {g : Stream → Stream} {s : State} (h : g s.stream = s.stream) : s.onStream g = s := by
  rw [State.onStream, h]

/-- The first DEFLATE of a stream with nothing queued starts with the header (40_commands.md R155 line 13). -/
theorem DeflateAccepted.first {f : Flush} {s : State} (h : DeflateAccepted f s) (hi : s.phase = .init)
    (hq : s.stream.pending = []) : deflate f s = deflateHeader f (setLastFlush (.mode f) s) := by
  have hq' : ¬ (setLastFlush (.mode f) s).stream.pending ≠ [] := not_not.mpr hq
  have hp : ¬ ((setLastFlush (.mode f) s).phase = .finishing ∧ (setLastFlush (.mode f) s).inAvail ≠ 0) := by
    rw [setLastFlush_phase, hi]
    simp
  rw [deflate_of_accepted h, deflateBody, if_neg hq', if_neg (h.progress hq), deflateFinishing, if_neg hp]

/-- The header is flushed, and the rest of the command follows. -/
theorem deflateHeader_moved_from_header (f : Flush) {s : State} (hi : s.phase = .init) (hq : s.stream.pending = []) :
    Moved (flushPending (headerQueued s)) (deflateHeader f s) := by
  rw [deflateHeader_of_init hi]
  split
  · split
    · exact returnOutFull_moved _
    · exact deflateRun_moved f _
  next hraw =>
    rw [flushPending_of_empty]
    · exact deflateRun_moved f _
    · rw [headerQueued_pending, hq, streamHeader_raw (not_not.mp hraw)]
      rfl

/-- Settles O28: the header is the first thing flushed, and what follows keeps the stored bytes. -/
theorem headerComesFirst : Obligations.HeaderComesFirst := by
  intro f s hm hi hq h
  refine ⟨deflate f s, exec_deflateInstr f s, h.ends.2 hq, fun i hi1 hi2 => ?_⟩
  have hrest := deflateHeader_moved_from_header f (s := setLastFlush (.mode f) s) hi hq
  rw [← h.first hi hq] at hrest
  have hqueue : (headerQueued (setLastFlush (.mode f) s)).stream.pending = streamHeader s.stream := by
    rw [headerQueued_pending]
    exact congrArg (· ++ _) hq
  have hread := read_flushed_head (s := headerQueued (setLastFlush (.mode f) s)) hm h.apart.roomOk hrest (i := i)
  rw [hqueue] at hread
  exact hread hi2 hi1

/-! FINISH with no input (40_commands.md R155; 43_block_serializer.md R285). -/

theorem deflateAccepted_finish_of_init {s : State} (herr : ¬ DeflateStreamError .finish s) (hi : s.phase = .init)
    (hout : s.outAvail.toNat ≠ 0) : DeflateAccepted .finish s :=
  ⟨herr, hout, fun h => absurd (hi.symm.trans h) (by decide), fun _ _ h => absurd rfl h⟩

/-- With space for the header, the first DEFLATE of a stream flushes it and goes on to the strategy. -/
theorem deflateHeader_of_fits (f : Flush) {s : State} (hi : s.phase = .init) (hq : s.stream.pending = [])
    (hfits : (headerQueued s).stream.pending.length ≤ (headerQueued s).outAvail.toNat) :
    deflateHeader f s = deflateRun f (flushPending (headerQueued s)) := by
  have hqueue : (headerQueued s).stream.pending = streamHeader s.stream := by rw [headerQueued_pending, hq]; rfl
  rw [deflateHeader_of_init hi]
  split
  · rw [flushPending_stream_of_fits hfits, if_neg (not_not.mpr rfl)]
  next hraw => rw [flushPending_of_empty (hqueue.trans (streamHeader_raw (not_not.mp hraw)))]

/-- With nothing to read and a window that need not slide, the fill does nothing. -/
theorem refill_of_no_input {s : State} (hin : s.inAvail = 0) (hroom : s.stream.strstart < s.stream.wSize) :
    refill s = s := by
  unfold refill
  split
  · have hslide : s.onStream slideIfFull = s := onStream_eq_self (if_neg (by omega))
    rw [fillWindow, fillLoop, hslide, if_pos hin]
  · rfl

/-- FINISH with nothing to encode: a matching strategy only ends its block. -/
theorem runStrategy_finish_of_nothing {s : State} (hs : s.stream.strategy ≠ .stored) (hin : s.inAvail = 0)
    (h0 : s.stream.lookahead = 0) (hroom : s.stream.strstart < s.stream.wSize)
    (hheld : s.stream.matchAvailable = false) : runStrategy .finish s = finishStrategy .finish s := by
  have hrefill := refill_of_no_input hin hroom
  have hlast : s.onStream slowLast = s := onStream_eq_self (if_neg (by simp [hheld]))
  unfold runStrategy
  split
  next h => exact absurd h hs
  · rw [deflateFast, turnBound, fastLoop, hrefill, if_neg (by simp), if_pos h0]
  · rw [deflateSlow, turnBound, slowLoop, hrefill, if_neg (by simp), if_pos h0, hlast]

/-- The last steps of FINISH, once everything is encoded and sent, with space for the trailer. -/
theorem deflateTail_finish {s : State} (hq : s.stream.pending = []) (htr : s.stream.trailerDone = false)
    (hfits : (trailerBytes s.stream.wrap s.check s.totalIn).length ≤ s.outAvail.toNat) :
    ∃ u, deflateTail .finish s = endCommand .streamEnd (setPhase .done u) ∧
      Stores (trailerBytes s.stream.wrap s.check s.totalIn) s u := by
  have hfin : ¬ (Flush.finish ≠ .finish) := not_not.mpr rfl
  rw [deflateTail, if_neg hfin]
  split
  next h =>
    have hraw : s.stream.wrap = .raw := by simpa [htr] using h
    refine ⟨s, rfl, ?_⟩
    rw [hraw]
    exact ⟨Nat.zero_le _, by simp [trailerBytes], by simp [trailerBytes], rfl⟩
  next h =>
    have hqueue : (markTrailer (emitTrailer s)).stream.pending = trailerBytes s.stream.wrap s.check s.totalIn := by
      rw [← List.nil_append (trailerBytes _ _ _), ← hq]
      rfl
    have hstores := Stores.flushPending_all (s := markTrailer (emitTrailer s)) (hqueue ▸ hfits)
    rw [hqueue] at hstores
    have hempty : (flushPending (markTrailer (emitTrailer s))).stream.pending = [] := by
      rw [flushPending_stream_of_fits (hqueue ▸ hfits)]
    exact ⟨flushPending (markTrailer (emitTrailer s)), if_neg (not_not.mpr hempty),
      hstores.of_same_output rfl rfl rfl⟩

set_option maxRecDepth 4000 in
/-- The estimates of a block with no symbol but the end-of-block code, by evaluation of the three trees, whose scans over
the alphabets are deeper than the default recursion limit. -/
theorem blockCodes_empty_cost : (blockCodes (Table.empty.set 0 256 1) .empty).cost = ⟨89, 7⟩ := by decide +kernel

/-- An empty block of a level above 0 is a fixed one. -/
theorem blockForm_empty {level : Nat} (h : level > 0) :
    blockForm level true 0 (blockCodes (Table.empty.set 0 256 1) .empty).cost = .fixed := by
  rw [blockCodes_empty_cost, blockForm, if_pos h]
  decide

/-- A final fixed block with no symbols: three header bits and the seven bits of the end-of-block code. -/
theorem sendBlock_fixed_empty (bc : BlockCodes) (buf : List Byte) {t : Stream} (hsyms : t.syms = [])
    (hacc : t.bitacc = 0) (hcount : t.bitcount = 0) : sendBlock .fixed bc buf true t =
      { t with bitacc := 0, bitcount := 2, pending := t.pending ++ [0x03] } := by
  have hheader : sendHeader 1 true t = { t with bitacc := 3, bitcount := 3 } := by
    simp only [sendHeader, sendBits, finalBit, hacc, hcount]
    simp [lowBytes]
  have hcode : fixedLitCode 256 = 0 := by decide
  have hlen : fixedLitLen 256 = 7 := by decide
  simp only [sendBlock, compressBlock, hheader, hsyms, List.reverse_nil, List.foldl_nil, sendSym, sendBits, hcode, hlen]
  simp [lowBytes]

/-- The stream of an accepted FINISH on a fresh stream, when the header is out. -/
def freshFinish (t : Stream) : Stream := { resetFields t with lastFlush := .mode .finish }

/-- The final block of a stream that has encoded nothing: BFINAL, BTYPE 1, the end-of-block code and the padding
(43_block_serializer.md R285). -/
theorem closeBlock_freshFinish {t : Stream} (h : t.level > 0) :
    closeBlock true (freshFinish t) = { freshFinish t with pending := [0x03, 0x00] } := by
  have hform : blockForm (freshFinish t).level true 0 (blockCodes (freshFinish t).lfreq (freshFinish t).dfreq).cost =
      .fixed := blockForm_empty h
  have hbytes : blockBytes (freshFinish t) = some [] := rfl
  have hlen : ((freshFinish t).strstart : Int) - (freshFinish t).blockStart = 0 := rfl
  rw [closeBlock, hbytes, hlen, flushBlock, Option.isSome_some, hform, if_pos rfl,
    sendBlock_fixed_empty _ _ rfl rfl rfl]
  rfl

/-- Every level above 0 has a matching strategy (00_scope.md R8). -/
theorem ConfigOk.strategy_ne_stored {t : Stream} (h : ConfigOk t) (h0 : t.level ≠ 0) : t.strategy ≠ .stored := by
  obtain ⟨h9, -, -, -, -, -, -, -, hs⟩ := h
  have hall : ∀ l, l ≤ 9 → l ≠ 0 → (configTable l).strategy ≠ .stored := by decide
  rw [hs]
  exact hall _ h9 h0

/-- The final block of a stream that has encoded nothing, with space for more than its two bytes. -/
theorem finalBlock_freshFinish {t : Stream} {s : State} (h0 : t.level ≠ 0) (hs : s.stream = freshFinish t)
    (hout : 2 < s.outAvail.toNat) : ∃ w, finalBlock s = (.finishDone, w) ∧ Stores [0x03, 0x00] s w ∧
      w.stream = freshFinish t ∧ w.check = s.check ∧ w.totalIn = s.totalIn := by
  have hclosed : (s.onStream (closeBlock true)).stream = { freshFinish t with pending := [0x03, 0x00] } := by
    rw [onStream_stream, hs, closeBlock_freshFinish (Nat.pos_of_ne_zero h0)]
  have hroom : (s.onStream (closeBlock true)).stream.pending.length ≤
      (s.onStream (closeBlock true)).outAvail.toNat := by
    rw [hclosed]
    exact hout.le
  have hsent := flushPending_stream_of_fits hroom
  have hstores := Stores.flushPending_all hroom
  rw [hclosed] at hsent hstores
  have hblock : Stores [0x03, 0x00] s (flushBlockOnly true s) := hstores.of_same_output rfl rfl rfl
  have hleft : (flushBlockOnly true s).outAvail ≠ 0 := by
    rw [Ne, word_eq_zero, hblock.toNat_outAvail]
    exact Nat.sub_ne_zero_of_lt hout
  refine ⟨flushBlockOnly true s, ?_, hblock, hsent, flushPending_check _, flushPending_totalIn _⟩
  rw [finalBlock, if_neg hleft]

/-- FINISH on a fresh stream whose header is out: the empty final block and the trailer, with space left. -/
theorem deflateRun_freshFinish {t : Stream} {s : State} (hc : ConfigOk t) (h0 : t.level ≠ 0)
    (hs : s.stream = freshFinish t) (hp : s.phase ≠ .finishing) (hin : s.inAvail = 0)
    (hfits : 2 + (trailerBytes t.wrap s.check s.totalIn).length < s.outAvail.toNat) :
    ∃ u, deflateRun .finish s = endCommand .streamEnd (setPhase .done u) ∧
      Stores ([0x03, 0x00] ++ trailerBytes t.wrap s.check s.totalIn) s u := by
  have hwork : strategyHasWork .finish s = true := (strategyHasWork_iff _ s).mpr (.inr (.inr ⟨by decide, hp⟩))
  have hrun : runStrategy .finish s = finalBlock s := by
    rw [runStrategy_finish_of_nothing (by rw [hs]; exact hc.strategy_ne_stored h0) hin (by rw [hs]; rfl)
      (by rw [hs]; exact Nat.two_pow_pos _) (by rw [hs]; rfl), finishStrategy, if_pos rfl,
      onStream_eq_self (by rw [hs]; rfl)]
  obtain ⟨w, hfinal, hblock, hws, hcheck, htotal⟩ := finalBlock_freshFinish h0 hs (by omega)
  have htail := deflateTail_finish (s := setPhase .finishing w)
  simp only [setPhase_stream, setPhase_check, setPhase_totalIn, setPhase_outAvail, hws, hcheck, htotal,
    hblock.toNat_outAvail] at htail
  obtain ⟨u, hu, htrailer⟩ := htail rfl rfl (Nat.le_sub_of_add_le' hfits.le)
  refine ⟨u, ?_, hblock.trans (htrailer.of_same_output rfl rfl rfl)⟩
  rw [deflateRun, if_pos hwork, hrun, hfinal]
  exact hu

/-- FINISH on a fresh stream with space for the header: it is out before the strategy runs. -/
theorem finish_freshHeader {t : Stream} {s : State} (hs : s.stream = resetFields t)
    (ha : DeflateAccepted .finish s) (hi : s.phase = .init) (hfits : (streamHeader t).length ≤ s.outAvail.toNat) :
    ∃ v, deflate .finish s = deflateRun .finish v ∧ Stores (streamHeader t) s v ∧ v.stream = freshFinish t ∧
      v.phase = .active ∧ v.inAvail = s.inAvail ∧ v.check = s.check ∧ v.totalIn = s.totalIn := by
  have hq : s.stream.pending = [] := by rw [hs]; rfl
  have hqueue : (headerQueued (setLastFlush (.mode .finish) s)).stream =
      { freshFinish t with pending := streamHeader t } := by
    change emitHeader { s.stream with lastFlush := .mode .finish } = _
    rw [hs]
    rfl
  have hroom : (headerQueued (setLastFlush (.mode .finish) s)).stream.pending.length ≤
      (headerQueued (setLastFlush (.mode .finish) s)).outAvail.toNat := by
    rw [hqueue]
    exact hfits
  have hsent := flushPending_stream_of_fits hroom
  have hstores := Stores.flushPending_all hroom
  rw [hqueue] at hsent hstores
  obtain ⟨hphase, hin, -⟩ := flushPending_kept (headerQueued (setLastFlush (.mode .finish) s))
  exact ⟨_, (ha.first hi hq).trans (deflateHeader_of_fits .finish hi hq hroom), hstores.of_same_output rfl rfl rfl,
    hsent, hphase, hin, flushPending_check _, flushPending_totalIn _⟩

/-- Settles O30: `finish_freshHeader`, then `deflateRun_freshFinish`, and the bytes stored by both read back. -/
theorem emptyStreamBytes : Obligations.EmptyStreamBytes := by
  intro s t0 bytes hc h0 hs hi hm herr hin hbytes hlt
  have ha := deflateAccepted_finish_of_init herr hi (by omega)
  have hsplit : bytes = streamHeader t0 ++ ([0x03, 0x00] ++ trailerBytes t0.wrap s.check s.totalIn) := by
    rw [hbytes, List.append_assoc]
    rfl
  have hlen : (streamHeader t0).length + (2 + (trailerBytes t0.wrap s.check s.totalIn).length) < s.outAvail.toNat := by
    rw [hsplit, List.length_append, List.length_append] at hlt
    exact hlt
  obtain ⟨v, hrun, hheader, hvs, hphase, hvin, hcheck, htotal⟩ := finish_freshHeader hs ha hi (by omega)
  have hend := deflateRun_freshFinish hc h0 hvs (by rw [hphase]; decide) (hvin.trans hin)
  rw [hcheck, htotal, hheader.toNat_outAvail] at hend
  obtain ⟨u, hu, hrest⟩ := hend (by omega)
  have hall := hheader.trans hrest
  rw [← hsplit] at hall
  refine ⟨deflate .finish s, rfl, ?_⟩
  rw [hrun, hu]
  refine ⟨rfl, rfl, hall.toNat_outPtr ha.apart.roomOk hlt, fun i hlt' => ?_⟩
  exact (List.getElem?_eq_getElem hlt').trans (congrArg some (hall.read hm ha.apart.roomOk hlt').symm)

end Sys2Proof.Machine
end

section
/-! What the answers of a strategy mean (41_lz77.md R212), and that every step keeps the invariant (10_state.md R41, R45;
20_memory.md R80; 41_lz77.md R217; 43_block_serializer.md R284, R289). Of memory `Moved` says what it
must; the rest is about `S.state` and the stream. -/

namespace Sys2Proof.Machine

/-- Settles O26: `runStrategy_spec`, which brings the three loops together. -/
theorem strategyAnswers : Obligations.StrategyAnswers := fun f _ h => runStrategy_spec f h

/-- What the invariant says besides the form of memory. -/
def StreamInv (s : State) : Prop := (s.phase ≠ .uninit → StreamOk s.stream) ∧ FinishedOk s

/-- What `FinishedOk` says of the stream once the final block is out. -/
def Finished (t : Stream) : Prop :=
  t.lookahead = 0 ∧ t.bitcount = 0 ∧ t.syms = [] ∧ t.blockStart = t.strstart

/-- `t` is `s` with the same `S.state` and a stream that differs in the queue and the flags of the wrapper at most, of which
the invariant does not speak. -/
def SameCoding (s t : State) : Prop :=
  t.phase = s.phase ∧ ∃ p l d, t.stream = { s.stream with pending := p, lastFlush := l, trailerDone := d }

theorem SameCoding.refl (s : State) : SameCoding s s := ⟨rfl, _, _, _, rfl⟩

theorem SameCoding.trans {s t u : State} (h : SameCoding s t) (k : SameCoding t u) : SameCoding s u := by
  obtain ⟨hp, p, l, d, hs⟩ := h
  obtain ⟨kp, p', l', d', ks⟩ := k
  exact ⟨kp.trans hp, p', l', d', by rw [ks, hs]⟩

theorem SameCoding.endCommand (r : Result) (s : State) : SameCoding s (endCommand r s) := ⟨rfl, _, _, _, rfl⟩

theorem SameCoding.setLastFlush (l : LastFlush) (s : State) : SameCoding s (setLastFlush l s) := ⟨rfl, _, _, _, rfl⟩

theorem SameCoding.returnOutFull (s : State) : SameCoding s (returnOutFull s) := ⟨rfl, _, _, _, rfl⟩

theorem SameCoding.flushPending (s : State) : SameCoding s (flushPending s) := by
  obtain ⟨hp, -, p, hs⟩ := flushPending_kept s
  exact ⟨hp, p, _, _, hs⟩

theorem SameCoding.streamOk {s t : State} (h : SameCoding s t) (hs : StreamOk s.stream) : StreamOk t.stream := by
  obtain ⟨-, p, l, d, e⟩ := h
  rw [e]
  exact hs

theorem SameCoding.finished {s t : State} (h : SameCoding s t) (hs : Finished s.stream) : Finished t.stream := by
  obtain ⟨-, p, l, d, e⟩ := h
  rw [e]
  exact hs

theorem SameCoding.streamInv {s t : State} (h : SameCoding s t) (hs : StreamInv s) : StreamInv t := by
  obtain ⟨hok, hfin⟩ := hs
  refine ⟨fun hp => h.streamOk (hok ?_), fun hp => h.finished (hfin ?_)⟩
  · rwa [← h.1]
  · rwa [← h.1]

/-- A sound stream that is still open meets the invariant. -/
theorem StreamInv.of_open {s : State} (h : StreamOk s.stream) (hp : s.phase = .init ∨ s.phase = .active) :
    StreamInv s := by
  refine ⟨fun _ => h, fun hf => ?_⟩
  obtain hp | hp := hp
  all_goals simp [hp] at hf

/-- A sound stream whose final block is out meets the invariant. -/
theorem StreamInv.of_closed {s : State} (h : StreamOk s.stream) (hf : Finished s.stream) : StreamInv s :=
  ⟨fun _ => h, fun _ => hf⟩

/-- Lines 29 to 35 of 40_commands.md R155: only a finished stream is declared DONE. -/
theorem deflateTail_streamInv {f : Flush} {s : State} (h : StreamInv s) (hp : s.phase ≠ .uninit)
    (hfin : f = .finish → Finished s.stream) : StreamInv (deflateTail f s) := by
  simp only [deflateTail]
  split
  · exact (SameCoding.endCommand _ s).streamInv h
  next hf =>
    have hdone : ∀ {u}, SameCoding s u → StreamInv (endCommand .streamEnd (setPhase .done u)) := fun hu =>
      (SameCoding.endCommand _ _).streamInv
        (.of_closed (hu.streamOk (h.1 hp)) (hu.finished (hfin (not_not.mp hf))))
    split
    · exact hdone (.refl s)
    · have hsent : SameCoding s (flushPending (markTrailer (emitTrailer s))) :=
        SameCoding.trans ⟨rfl, _, _, _, rfl⟩ (.flushPending _)
      split
      · exact (SameCoding.endCommand _ _).streamInv (hsent.streamInv h)
      · exact hdone hsent

/-- A stream with everything encoded and no bits waiting is a finished one. -/
theorem AllEncoded.finished {s : State} (h : AllEncoded s) (h0 : s.stream.bitcount = 0) : Finished s.stream := by
  obtain ⟨-, hla, hsyms, -, hb⟩ := h
  exact ⟨hla, h0, hsyms, hb⟩

/-- Lines 21 to 35 of 40_commands.md R155, after any answer a strategy can give. -/
theorem afterStrategy_streamInv {f : Flush} {b : BlockState} {s : State} (h : StreamOk s.stream)
    (hp : s.phase = .active) (hpost : StrategyPost f b s) : StreamInv (afterStrategy f b s) := by
  have hopen : StreamInv s := .of_open h (.inr hp)
  have hreturn : ∀ {u}, StreamInv u → StreamInv (if u.outAvail = 0 then returnOutFull u else endCommand .ok u) := by
    intro u hu
    split
    · exact (SameCoding.returnOutFull u).streamInv hu
    · exact (SameCoding.endCommand _ u).streamInv hu
  cases b with
  | needMore => exact hreturn hopen
  | finishStarted =>
    obtain ⟨-, henc, h0, -⟩ := hpost
    exact hreturn (u := setPhase .finishing s) (.of_closed h (henc.finished h0))
  | finishDone =>
    obtain ⟨-, henc, h0, -⟩ := hpost
    exact deflateTail_streamInv (s := setPhase .finishing s) (.of_closed h (henc.finished h0))
      (show Phase.finishing ≠ .uninit by decide) (fun _ => henc.finished h0)
  | blockDone =>
    obtain ⟨hf, -, hla, hsyms, hheld, -⟩ := hpost
    have hmark : StreamInv (s.onStream (flushMarker f)) :=
      .of_open (flushMarker_streamOk f h fun _ => ⟨hsyms, hheld⟩) (.inr hp)
    have hsent := SameCoding.flushPending (s.onStream (flushMarker f))
    have hne : f ≠ .finish := by obtain rfl | rfl := hf <;> decide
    change StreamInv (if (flushPending (s.onStream (flushMarker f))).outAvail = 0 then
      returnOutFull (flushPending (s.onStream (flushMarker f)))
      else deflateTail f (flushPending (s.onStream (flushMarker f))))
    split
    · exact (SameCoding.returnOutFull _).streamInv (hsent.streamInv hmark)
    · refine deflateTail_streamInv (hsent.streamInv hmark) ?_ (fun hf => absurd hf hne)
      rw [hsent.1, onStream_phase, hp]
      decide

/-- A DEFLATE past the checks: a stream is started and not DONE, and one that is finishing gets FINISH only
(40_commands.md R155 lines 1 and 4). -/
structure Running (f : Flush) (s : State) : Prop where
  inv : StreamInv s
  started : s.phase ≠ .uninit
  notDone : s.phase ≠ .done
  finishing : s.phase = .finishing → f = .finish

theorem Running.same {f : Flush} {s t : State} (h : Running f s) (k : SameCoding s t) : Running f t where
  inv := k.streamInv h.inv
  started := by rw [k.1]; exact h.started
  notDone := by rw [k.1]; exact h.notDone
  finishing := by rw [k.1]; exact h.finishing

/-- The strategy runs on an open stream only: one that is finishing, with no input left, has no work for it. -/
theorem deflateRun_streamInv {f : Flush} {s : State} (h : Running f s) (hi : s.phase ≠ .init)
    (hin : s.phase = .finishing → s.inAvail = 0) : StreamInv (deflateRun f s) := by
  have hok := h.inv.1 h.started
  by_cases hp : s.phase = .finishing
  · have hfin : Finished s.stream := h.inv.2 (.inl hp)
    have hwork : ¬ strategyHasWork f s = true := by
      rw [strategyHasWork_iff]
      rintro (h1 | h1 | ⟨-, h1⟩)
      · exact h1 (hin hp)
      · exact h1 hfin.1
      · exact h1 hp
    rw [deflateRun, if_neg hwork]
    exact deflateTail_streamInv h.inv h.started (fun _ => hfin)
  · have hactive : s.phase = .active := by
      cases he : s.phase with
      | uninit => exact absurd he h.started
      | init => exact absurd he hi
      | active => rfl
      | finishing => exact absurd he hp
      | done => exact absurd he h.notDone
    simp only [deflateRun]
    split
    · obtain ⟨hpost, hok'⟩ := runStrategy_spec f hok
      exact afterStrategy_streamInv hok' ((runStrategy_kept f s).2.1.trans hactive) hpost
    next hwork =>
      refine deflateTail_streamInv h.inv h.started fun hf => absurd ((strategyHasWork_iff f s).mpr ?_) hwork
      exact .inr (.inr ⟨by rw [hf]; decide, hp⟩)

theorem Running.headerQueued {f : Flush} {s : State} (h : Running f s) : Running f (headerQueued s) where
  inv := .of_open ((putBytes_writes _ _).streamOk (h.inv.1 h.started)) (.inr rfl)
  started := show Phase.active ≠ .uninit by decide
  notDone := show Phase.active ≠ .done by decide
  finishing := fun hp => absurd (show Phase.active = .finishing from hp) (by decide)

theorem deflateHeader_streamInv {f : Flush} {s : State} (h : Running f s)
    (hin : s.phase = .finishing → s.inAvail = 0) : StreamInv (deflateHeader f s) := by
  have hrun : ∀ {u}, SameCoding (headerQueued s) u → StreamInv (deflateRun f u) := by
    intro u hu
    have hp : u.phase = .active := hu.1
    exact deflateRun_streamInv (h.headerQueued.same hu) (by rw [hp]; decide) (by rw [hp]; exact fun e => by cases e)
  by_cases hi : s.phase = .init
  · rw [deflateHeader_of_init hi]
    split
    · split
      · exact (SameCoding.trans (.flushPending _) (.returnOutFull _)).streamInv h.headerQueued.inv
      · exact hrun (.flushPending _)
    · exact hrun (.refl _)
  · rw [deflateHeader_of_ne_init hi]
    exact deflateRun_streamInv h hi hin

theorem deflateFinishing_streamInv {f : Flush} {s : State} (h : Running f s) : StreamInv (deflateFinishing f s) := by
  unfold deflateFinishing
  split
  · exact (SameCoding.endCommand _ s).streamInv h.inv
  next hc => exact deflateHeader_streamInv h fun hp => by_contra fun hne => hc ⟨hp, hne⟩

theorem deflate_streamInv (f : Flush) {s : State} (h : StreamInv s) : StreamInv (deflate f s) := by
  unfold deflate
  split
  · exact (SameCoding.endCommand _ s).streamInv h
  next hc =>
    obtain ⟨herr, -⟩ := deflateCheck_none hc
    have hs : Running f s := ⟨h, fun hp => herr (.inl hp), fun hp => herr (.inr (.inl hp)),
      fun hp => by_contra fun hf => herr (.inr (.inr (.inr (.inr ⟨hp, hf⟩))))⟩
    have hl := SameCoding.setLastFlush (.mode f) s
    have hlf := hl.trans (.flushPending _)
    simp only [deflateBody]
    split
    · split
      · exact (SameCoding.returnOutFull _).streamInv (hlf.streamInv h)
      · exact deflateFinishing_streamInv (hs.same hlf)
    · split
      · exact (SameCoding.endCommand _ _).streamInv (hl.streamInv h)
      · exact deflateFinishing_streamInv (hs.same hl)

/-! The other commands. -/

theorem levelOperand_le {level : BitVec 4} {lv : Nat} (h : levelOperand level = some lv) : lv ≤ 9 := by
  unfold levelOperand at h
  split at h
  · cases h
    decide
  · split at h
    next hle =>
      cases h
      exact hle
    · cases h

theorem wbitsOperand_range {wbits : BitVec 8} {wrap : Wrap} {wb : Nat} (h : wbitsOperand wbits = some (wrap, wb)) :
    8 ≤ wb ∧ wb ≤ 15 := by
  simp only [wbitsOperand] at h
  split at h
  · cases h
    omega
  · split at h
    · cases h
      omega
    · split at h
      · cases h
        omega
      · cases h

/-- INIT raises a code, or starts a stream whose configuration is legal (40_commands.md R152). -/
theorem initCommand_streamInv (level : BitVec 4) (wbits : BitVec 8) {s : State} (h : StreamInv s) :
    StreamInv (initCommand level wbits s) := by
  have hraise : ∀ e, StreamInv (raise e s) := fun e => (SameCoding.endCommand e s).streamInv h
  unfold initCommand
  split
  · exact hraise _
  next lv hl =>
    split
    · exact hraise _
    next wrap wb hw =>
      split
      · exact hraise _
      · obtain ⟨h8, h15⟩ := wbitsOperand_range hw
        exact .of_open (resetFields_streamOk _ (configureStream_configOk lv wrap wb _ _ (levelOperand_le hl) h8 h15))
          (.inl rfl)

/-- Every command keeps the invariant. -/
theorem exec_inv {i : Instr} {s t : State} (h : Inv s) (ht : exec i s = .next t) : Inv t := by
  obtain ⟨hm, hs⟩ := h
  have hdeflate : ∀ f, Inv (deflate f s) := fun f => ⟨(deflate_moved f s).wf hm, deflate_streamInv f hs⟩
  have hraise : Inv (raise .streamError s) := ⟨hm, (SameCoding.endCommand _ s).streamInv hs⟩
  cases i with
  | init level wbits =>
    have hmem : t.memory = s.memory := (execInit_frame ht).1.memory
    cases ht
    exact ⟨hmem ▸ hm, initCommand_streamInv level wbits hs⟩
  | reset =>
    cases ht
    split
    · exact hraise
    next hp => exact ⟨hm, StreamInv.of_open (resetFields_streamOk _ (hs.1 hp).1) (.inl rfl)⟩
  | deflateNoFlush => cases ht; exact hdeflate .noFlush
  | deflateSyncFlush => cases ht; exact hdeflate .syncFlush
  | deflateFullFlush => cases ht; exact hdeflate .fullFlush
  | deflateFinish => cases ht; exact hdeflate .finish
  | endStream =>
    cases ht
    split
    · exact hraise
    · exact ⟨hm, fun hp => absurd rfl hp, fun hp => by obtain hp | hp := hp <;> cases hp⟩
  | bound => cases ht; exact ⟨hm, hs⟩

theorem execute_inv {w : Word} {s t : State} (h : Inv s) (ht : execute w s = .next t) : Inv t := by
  unfold execute at ht
  split at ht
  · exact exec_inv h ht
  · cases ht
    exact ⟨h.1, (SameCoding.endCommand _ s).streamInv h.2⟩

/-! The host's moves (70_reset_and_hazards.md R360, R365 to R367, R376). -/

/-- A hardware reset leaves memory in its canonical form: the output range of a command that may write lies in the address
space (20_memory.md R86). -/
theorem abandonedMemory_wf {s : State} (h : s.memory.wf = true) : (abandonedMemory s).wf = true := by
  unfold abandonedMemory
  split
  next hw =>
    refine scramble_wf _ _ _ _ h ?_
    unfold mayWrite at hw
    split at hw
    next f hf =>
      have hc : deflateCheck f s = none := Option.isNone_iff_eq_none.mp hw
      exact (apart_of_no_streamError (deflateCheck_none hc).1).roomOk
    next => cases hw
  next => exact h

theorem hardReset_inv {s : State} (h : Inv s) : Inv (hardReset s) :=
  ⟨abandonedMemory_wf h.1, fun hp => absurd rfl hp, fun hp => by obtain hp | hp := hp <;> cases hp⟩

theorem hostStore_inv {s : State} {a : Nat} (v : Byte) (h : Inv s) (ha : a < Memory.size) : Inv (hostStore a v s) :=
  ⟨hostStore_wf a v s h.1 ha, h.2⟩

theorem writeReg_inv {s : State} (offset : Nat) (v : Word) (h : Inv s) : Inv (writeReg offset v s) := by
  rw [writeReg_eq]
  exact h

theorem idleMove_inv {m : HostMove} {s t : State} (h : Inv s) (ht : idleMove m s = .next t) : Inv t := by
  cases m with
  | regRead offset =>
    simp only [idleMove] at ht
    split at ht <;> cases ht
    exact h
  | regWrite offset v =>
    simp only [idleMove] at ht
    split at ht <;> cases ht
    split
    · exact h
    · exact writeReg_inv offset v h
  | memRead addr =>
    simp only [idleMove] at ht
    split at ht <;> cases ht
    exact h
  | memWrite addr v =>
    simp only [idleMove] at ht
    split at ht <;> cases ht
    exact hostStore_inv v h ‹_›
  | hardReset => cases ht; exact hardReset_inv h
  | cmdDone => cases ht; exact h

theorem busyMove_inv {m : HostMove} {s t : State} (h : Inv s) (ht : busyMove m s = .next t) : Inv t := by
  cases m with
  | regRead offset =>
    simp only [busyMove] at ht
    split at ht <;> cases ht
    unfold busyRead
    split <;> exact h
  | regWrite offset v =>
    simp only [busyMove] at ht
    split at ht <;> cases ht
    unfold busyWrite
    split <;> exact h
  | memRead addr =>
    simp only [busyMove] at ht
    split at ht
    · split at ht <;> cases ht
      exact h
    · cases ht
  | memWrite addr v =>
    simp only [busyMove] at ht
    split at ht
    · split at ht <;> cases ht
      exact hostStore_inv v h ‹_›
    · cases ht
  | hardReset => cases ht; exact hardReset_inv h
  | cmdDone => cases ht; exact h

/-- Settles O59: a step is a host move or the command in progress, and each keeps the invariant. -/
theorem stepKeepsInv : Obligations.StepKeepsInv := by
  intro s t h ht
  have hrest : ∀ rest, Inv { s with inputs := rest } := fun _ => h
  simp only [step, nextMove] at ht
  split at ht
  · cases ht
    exact h
  · exact idleMove_inv (hrest _) ht
  · exact execute_inv h ht
  · exact execute_inv (hrest _) ht
  · exact busyMove_inv (hrest _) ht

end Sys2Proof.Machine
end

section
/-! The match finder: hashing, insertion and the slide, the turns of the matching strategies and the window fill
(41_lz77.md R200 to R214). -/

namespace Sys2Proof.Machine

/-! Hashing (41_lz77.md R200). -/

theorem and_7FFF (x : Nat) : x &&& 0x7FFF = x % 2 ^ 15 := Nat.and_two_pow_sub_one_eq_mod x 15

theorem updateHash_toNat (h : BitVec 15) (c : Byte) :
    (updateHash h c).toNat = ((h.toNat <<< 5) ^^^ c.toNat) &&& 0x7FFF := by
  rw [updateHash, BitVec.toNat_xor, BitVec.toNat_shiftLeft, BitVec.toNat_setWidth, and_7FFF, Nat.xor_mod_two_pow]

/-- Three updates shift the old hash out. -/
theorem updateHash_three (h : BitVec 15) (a b c : Byte) :
    updateHash (updateHash (updateHash h a) b) c =
      (a.setWidth 15 <<< 10) ^^^ (b.setWidth 15 <<< 5) ^^^ c.setWidth 15 := by
  have hout : h <<< 15 = 0#15 := BitVec.shiftLeft_eq_zero (Nat.le_refl 15)
  simp only [updateHash, BitVec.shiftLeft_xor_distrib, ← BitVec.shiftLeft_add]
  change h <<< 15 ^^^ a.setWidth 15 <<< 10 ^^^ b.setWidth 15 <<< 5 ^^^ c.setWidth 15 = _
  rw [hout, BitVec.zero_xor]

/-- Settles O47: `updateHash_toNat`, and `updateHash_three` read as a number. -/
theorem hashOfThreeBytes : Obligations.HashOfThreeBytes := by
  intro h a b c
  refine ⟨updateHash_toNat h c, ?_⟩
  rw [updateHash_three, and_7FFF, Nat.xor_mod_two_pow, Nat.xor_mod_two_pow]
  simp [BitVec.toNat_xor, BitVec.toNat_shiftLeft, BitVec.toNat_setWidth, Nat.shiftLeft_eq, Nat.mod_mul_mod]

/-! Insertion (41_lz77.md R201). -/

/-- Settles O48: one write of `S.head` and one of `S.prev`, at indices inside the tables. -/
theorem insertStringLinks : Obligations.InsertStringLinks := by
  intro t p h hp hw rfl
  generalize hh : updateHash t.insH (t.windowAt (p + 2)) = hash
  have hhash : hash.toNat < 2 ^ Table.depth := lt_of_lt_of_le hash.isLt (by decide)
  have hsize : t.wSize ≤ 2 ^ Table.depth := Nat.pow_le_pow_right (by decide) (by simp; omega)
  have hcell : p % t.wSize < 2 ^ Table.depth := (Nat.mod_lt p (wSize_pos t)).trans_le hsize
  have hpos : (BitVec.ofNat 16 p).toNat = p := by rw [BitVec.toNat_ofNat, Nat.mod_eq_of_lt hp]
  refine ⟨by rw [insertAnswer, hh], by rw [insertString_insH, hh], ?_, fun j hj hne => ?_, ?_, fun j hj hne => ?_⟩
  · rw [insertString_head, hh, Table.get_set_same, hpos]
  · rw [insertString_head, hh]
    exact Table.get_set_other _ _ _ _ _ hhash (hj.trans_le (by decide)) hne
  · rw [Stream.prevAt, insertString_prev, hh, Table.read?_write_same]
    rfl
  · simp only [Stream.prevAt, insertString_prev, insertString_prevEpoch, insertString_prevLowered]
    rw [Table.read?_write_other _ _ _ _ hcell (hj.trans_le hsize) hne]

/-! The slide (41_lz77.md R205). -/

/-- The first `n` bytes moved down by `size`, none of them over a byte still to be moved. -/
theorem slideBytes_get {n size : Nat} (hn : n ≤ size) (hsize : size ≤ 32768) (window : Table Byte) {j : Nat}
    (hj : j < 65536) :
    ((List.range n).foldl (fun win i => win.set 0 i (win.get 0 (i + size))) window).get 0 j =
      if j < n then window.get 0 (j + size) else window.get 0 j := by
  induction n generalizing j with
  | zero => rfl
  | succ n ih =>
    have hcells : n < 2 ^ Table.depth ∧ j < 2 ^ Table.depth := by simp only [Table.depth]; omega
    rw [List.range_succ, List.foldl_append, List.foldl_cons, List.foldl_nil]
    by_cases hjn : j = n
    · rw [hjn, Table.get_set_same, ih (by omega) (by omega), if_neg (by omega), if_pos (by omega)]
    · rw [Table.get_set_other _ _ _ _ _ hcells.1 hcells.2 hjn, ih (by omega) hj]
      exact if_congr (by omega) rfl rfl

theorem slide_windowAt_low {t : Stream} (hw : t.wSize ≤ 32768) {i : Nat} (hi : i < t.wSize) :
    (slide t).windowAt i = t.windowAt (i + t.wSize) := by
  rw [Stream.windowAt, slide_window, slideWindow, slideBytes_get (Nat.le_refl _) hw _ (by omega), if_pos hi]
  rfl

theorem slide_windowAt_high {t : Stream} (hw : t.wSize ≤ 32768) {i : Nat} (hi : t.wSize ≤ i) (h2 : i < 2 * t.wSize) :
    (slide t).windowAt i = t.windowAt i := by
  rw [Stream.windowAt, slide_window, slideWindow, slideBytes_get (Nat.le_refl _) hw _ (by omega),
    if_neg (Nat.not_lt.mpr hi)]
  rfl

/-- Settles O52: the two halves of the window, and `slidePos` for every entry of `S.head` and `S.prev`. -/
theorem slideKeepsUpperHalf : Obligations.SlideKeepsUpperHalf := by
  intro t h9 h15 hfull hins
  have hlow : 2 ^ 9 ≤ t.wSize := Nat.pow_le_pow_right (by decide) h9
  have hhigh : t.wSize ≤ 2 ^ 15 := Nat.pow_le_pow_right (by decide) h15
  have hdist : t.maxDist = t.wSize - 262 := rfl
  refine ⟨fun i => slide_windowAt_low hhigh, fun i => slide_windowAt_high hhigh, ?_, rfl, rfl, ?_, fun j => ?_,
    slide_prevAt t⟩
  · rw [slide_strstart]
    omega
  · rw [slide_insert, if_neg (by omega)]
  · rw [slide_headAt, slidePos_toNat]
    split <;> omega

/-! One turn of a matching strategy (41_lz77.md R213, R214). -/

/-- The window's bytes stand in `S.window` only. -/
theorem windowAt_congr {t u : Stream} (h : u.window = t.window) (i : Nat) : u.windowAt i = t.windowAt i := by
  rw [Stream.windowAt, Stream.windowAt, h]

/-- Settles O49: the search answers a found match or none worth emitting, and either is emitted for its bytes. -/
theorem fastTurnIsSound : Obligations.FastTurnIsSound := by
  intro t hok hs hla
  obtain ⟨hm, hf, -⟩ := (streamOk_fast t hs).mp hok
  obtain ⟨⟨a, b, c, d, e, hu⟩, hturn, hfound⟩ := fastSearch_spec hm hf
  have hwin : (fastSearch t).window = t.window := by rw [hu]
  have hpos : (fastSearch t).strstart = t.strstart := by rw [hu]
  have hlook : (fastSearch t).lookahead = t.lookahead := by rw [hu]
  have hsyms : (fastSearch t).syms = t.syms := by rw [hu]
  have hins : (fastSearch t).insert = t.insert := by rw [hu]
  have hdist : (fastSearch t).maxDist = t.maxDist := by rw [hu]; rfl
  rw [fastStep]
  generalize fastSearch t = u at *
  split
  next h3 =>
    obtain ⟨h0, -, hfd⟩ := hfound h3
    obtain ⟨-, a', b', c', d', heq, -⟩ := fastMatch_spec hturn (hins.trans h0) h3 hfd
    obtain ⟨h258, hle, s, hstart, ⟨hs1, hs2⟩, hnear, hbytes⟩ := hfd
    have hd : distanceFrom u.strstart u.matchStart = t.strstart - s := by
      rw [distanceFrom, hstart]
      omega
    rw [heq, hd]
    refine ⟨hwin, .inr ⟨t.strstart - s, u.matchLength, ?_, ?_, ?_, h3, h258, by omega, by omega, by omega, by omega,
      fun i hi => ?_⟩⟩
    · exact congrArg _ hsyms
    · exact congrArg (· + u.matchLength) hpos
    · exact congrArg (· - u.matchLength) hlook
    · have := hbytes i hi
      rw [windowAt_congr hwin, windowAt_congr hwin, hpos] at this
      rw [show t.strstart - (t.strstart - s) = s by omega]
      exact this
  next h3 =>
    refine ⟨hwin, .inl ⟨?_, congrArg (· + 1) hpos, congrArg (· - 1) hlook⟩⟩
    rw [fastLiteral, ← hsyms, ← hpos, ← windowAt_congr hwin]
    rfl

/-- A match found at `S.strstart` is the held match's agreement once that byte is passed. -/
theorem Found.heldAgrees {t : Stream} (h : 3 ≤ t.matchLength → Found t) : HeldAgrees (passByte t) := by
  intro h3
  obtain ⟨-, -, s, hstart, -, -, hbytes⟩ := h h3
  have hms : (passByte t).matchStart = (s : Int) := hstart
  rw [hms]
  refine ⟨by omega, fun i hi _ => ?_⟩
  rw [show ((s : Int) + (i : Int)).toNat = s + i by omega]
  exact hbytes i hi

/-- Emitting the held match: its bytes, from `S.match_start`, are those from the held byte on. -/
theorem slowMatch_sound {t : Stream} (h : SlowOk t) (ha : HeldAgrees t) (h3 : 3 ≤ t.matchLength) :
    ∃ d, distanceFrom ((t.strstart : Int) - 1) t.matchStart = d ∧ 1 ≤ d ∧ d ≤ t.maxDist ∧ d ≤ t.strstart ∧
      ∀ i, i < t.matchLength → d + 1 ≤ t.strstart + i →
        t.windowAt (t.strstart - 1 + i - d) = t.windowAt (t.strstart - 1 + i) := by
  obtain ⟨-, -, hbefore, hnear⟩ := h.2 h3
  obtain ⟨hlow, hbytes⟩ := ha h3
  have hd : (distanceFrom ((t.strstart : Int) - 1) t.matchStart : Int) = (t.strstart : Int) - 1 - t.matchStart := by
    rw [distanceFrom]
    omega
  generalize distanceFrom ((t.strstart : Int) - 1) t.matchStart = d at *
  refine ⟨d, rfl, by omega, by omega, by omega, fun i hi hin => ?_⟩
  rw [← hbytes i hi (by omega), show (t.matchStart + (i : Int)).toNat = t.strstart - 1 + i - d by omega]

/-- Settles O50: a turn emits the held match or passes a byte, and a match held afterwards is one the search found. -/
theorem slowTurnIsSound : Obligations.SlowTurnIsSound := by
  intro t hok hs hla hagrees
  obtain ⟨hm, hslow, -⟩ := (streamOk_slow t hs).mp hok
  obtain ⟨⟨a, b, c, d, e, hu⟩, hturn, hfound, -⟩ := slowSearch_spec hm hslow
  have hwin : (slowSearch t).window = t.window := by rw [hu]
  have hpos : (slowSearch t).strstart = t.strstart := by rw [hu]
  have hlook : (slowSearch t).lookahead = t.lookahead := by rw [hu]
  have hsyms : (slowSearch t).syms = t.syms := by rw [hu]
  have hpl : (slowSearch t).prevLength = t.matchLength := by rw [hu]
  have hpm : (slowSearch t).prevMatch = t.matchStart := by rw [hu]
  have hheld : (slowSearch t).matchAvailable = t.matchAvailable := by rw [hu]
  have hdist : (slowSearch t).maxDist = t.maxDist := by rw [hu]; rfl
  simp only [slowTurn]
  generalize slowSearch t = u at *
  rw [hpl, hheld]
  split
  next hc =>
    obtain ⟨hav, hle, hbefore, hnear⟩ := hslow.2 hc.1
    rw [show heldByte t = 1 by simp [heldByte, hav]] at hturn
    have hlen := hslow.1
    obtain ⟨-, a', b', c', heq⟩ := slowMatch_spec hturn (by omega) (by omega) (by omega) (by omega) (by omega)
    obtain ⟨d, hd, hd1, hd2, hd3, hbytes⟩ := slowMatch_sound hslow hagrees hc.1
    rw [hpl, hpm, hpos, hlook, hd] at heq
    rw [heq]
    refine ⟨fun h => absurd h (show ¬ 3 ≤ 2 by decide), hwin, .inr (.inr ⟨hav, d, t.matchLength, ?_, rfl, ?_,
      ?_, hc.1, hlen, hd1, hd2, hd3, hbytes⟩)⟩
    · exact congrArg _ hsyms
    · show t.strstart + (t.matchLength - 2) + 1 + 1 = t.strstart + t.matchLength
      omega
    · show t.lookahead - (t.matchLength - 1) + t.matchLength = t.lookahead + 1
      omega
  next hc =>
    have hfd : 3 ≤ u.matchLength → Found u := fun h3 => hfound h3 (by omega)
    have hstart : (passByte u).strstart = t.strstart + 1 := congrArg (· + 1) hpos
    have hlook' : (passByte u).lookahead = t.lookahead - 1 := congrArg (· - 1) hlook
    split
    next hav =>
      refine ⟨Found.heldAgrees (t := slowLiteral u) hfd, hwin,
        .inr (.inl ⟨hav, ?_, hheld.trans hav, hstart, hlook'⟩)⟩
      rw [← hsyms, ← hpos, ← windowAt_congr hwin]
      rfl
    next hav =>
      exact ⟨Found.heldAgrees (t := { u with matchAvailable := true }) hfd, hwin,
        .inl ⟨by simpa using hav, hsyms, rfl, hstart, hlook'⟩⟩

/-! The window fill (41_lz77.md R204). -/

/-- What the deferred insertions leave alone. -/
theorem insertDeferred_eq (n st : Nat) (t : Stream) :
    ∃ a b c d, insertDeferred n st t = { t with insH := a, prev := b, head := c, insert := d } := by
  induction n generalizing st t with
  | zero => exact ⟨_, _, _, _, rfl⟩
  | succ n ih =>
    simp only [insertDeferred]
    split
    · exact ⟨_, _, _, _, rfl⟩
    · obtain ⟨a, b, c, d, e⟩ := ih (st + 1) { insertString st t with insert := n }
      exact ⟨a, b, c, d, e⟩

/-- What follows a read changes the lookahead and the chains only. -/
theorem afterRead_eq (k : Nat) (t : Stream) : ∃ a b c d, afterRead k t =
    { t with lookahead := t.lookahead + k, insH := a, prev := b, head := c, insert := d } := by
  simp only [afterRead]
  split
  · obtain ⟨a, b, c, d, e⟩ := insertDeferred_eq t.insert (t.strstart - t.insert)
      (preloadHash (t.strstart - t.insert) { t with lookahead := t.lookahead + k })
    exact ⟨a, b, c, d, e⟩
  · exact ⟨_, _, _, _, rfl⟩

/-- The stream after the read of one turn of `FillWindow`. -/
theorem fillRead_stream (more : Nat) (s : State) : ∃ a b c d, (fillRead more s).stream = { s.stream with
    window := loadBytes (s.stream.strstart + s.stream.lookahead) (inputBytes s (readCount more s)) s.stream.window
    lookahead := s.stream.lookahead + readCount more s, insH := a, prev := b, head := c, insert := d } := by
  rw [fillRead, readInput_eq, onStream_stream]
  exact afterRead_eq _ _

theorem slideIfFull_of_full {t : Stream} (h : t.wSize + t.maxDist ≤ t.strstart) : slideIfFull t = slide t := by
  rw [slideIfFull, if_pos h]

theorem slideIfFull_of_room {t : Stream} (h : ¬ t.wSize + t.maxDist ≤ t.strstart) : slideIfFull t = t := by
  rw [slideIfFull, if_neg h]

/-- What two invariants need, each of them needs alone. -/
theorem FillKeeps.or {P Q : Stream → Prop} (hP : FillKeeps P) (hQ : FillKeeps Q) : FillKeeps (fun t => P t ∨ Q t) where
  cfg h := h.elim hP.cfg hQ.cfg
  room h := h.elim hP.room hQ.room
  window w := Or.imp (hP.window w) (hQ.window w)
  slide h hf := h.imp (hP.slide · hf) (hQ.slide · hf)
  read k h hk := h.imp (hP.read k · hk) (hQ.read k · hk)

/-- A stream at the loop point of one of the strategies. -/
def AtPoint (t : Stream) : Prop := StoredPoint t ∨ FastPoint t ∨ SlowPoint t

theorem fillKeeps_atPoint : FillKeeps AtPoint := fillKeeps_stored.or (fillKeeps_fast.or fillKeeps_slow)

theorem StreamOk.atPoint {t : Stream} (h : StreamOk t) : AtPoint t := by
  cases hs : t.strategy with
  | stored => exact .inl ((streamOk_stored t hs).mp h)
  | fast => exact .inr (.inl ((streamOk_fast t hs).mp h))
  | slow => exact .inr (.inr ((streamOk_slow t hs).mp h))

theorem AtPoint.slowOk {t : Stream} (h : AtPoint t) (hs : t.strategy = .slow) : SlowOk t := by
  obtain ⟨-, -, -, -, -, -, h1, -⟩ | ⟨-, -, -, -, h1, -⟩ | ⟨-, h1, -⟩ := h
  · rw [hs] at h1
    cases h1
  · rw [hs] at h1
    cases h1
  · exact h1

/-- From `s` to `s'` the next `k` input bytes have joined the end of the lookahead; the old lookahead, the history within
`MAX_DIST` and a held match stand as they stood relative to `S.strstart`. -/
structure Fills (k : Nat) (s s' : State) : Prop where
  kLe : k ≤ s.inAvail.toNat
  inAvail : s'.inAvail.toNat = s.inAvail.toNat - k
  input : ∀ i, inputByte s' i = inputByte s (k + i)
  lookahead : s'.stream.lookahead = s.stream.lookahead + k
  wBits : s'.stream.wBits = s.stream.wBits
  strategy : s'.stream.strategy = s.stream.strategy
  old : ∀ i, i < s.stream.lookahead →
    s'.stream.windowAt (s'.stream.strstart + i) = s.stream.windowAt (s.stream.strstart + i)
  new : ∀ i, i < k → s'.stream.windowAt (s'.stream.strstart + s.stream.lookahead + i) = inputByte s i
  history : ∀ d, 1 ≤ d → d ≤ s.stream.maxDist → d ≤ s.stream.strstart → d ≤ s'.stream.strstart ∧
    s'.stream.windowAt (s'.stream.strstart - d) = s.stream.windowAt (s.stream.strstart - d)
  held : s.stream.strategy = .slow → HeldAgrees s.stream → HeldAgrees s'.stream

theorem Fills.refl (s : State) : Fills 0 s s where
  kLe := Nat.zero_le _
  inAvail := rfl
  input i := by rw [Nat.zero_add]
  lookahead := rfl
  wBits := rfl
  strategy := rfl
  old _ _ := rfl
  new _ hi := absurd hi (Nat.not_lt_zero _)
  history _ _ _ h := ⟨h, rfl⟩
  held _ h := h

theorem Fills.trans {k k' : Nat} {s s' s'' : State} (h : Fills k s s') (h' : Fills k' s' s'') :
    Fills (k + k') s s'' where
  kLe := by
    have hk := h.kLe
    have hk' := h'.kLe
    rw [h.inAvail] at hk'
    omega
  inAvail := by rw [h'.inAvail, h.inAvail, Nat.sub_sub]
  input i := by rw [h'.input, h.input, Nat.add_assoc]
  lookahead := by rw [h'.lookahead, h.lookahead, Nat.add_assoc]
  wBits := h'.wBits.trans h.wBits
  strategy := h'.strategy.trans h.strategy
  old i hi := by rw [h'.old i (by rw [h.lookahead]; omega), h.old i hi]
  new i hi := by
    by_cases hik : i < k
    · have := h'.old (s.stream.lookahead + i) (by rw [h.lookahead]; omega)
      rw [Nat.add_assoc, this, ← Nat.add_assoc, h.new i hik]
    · have := h'.new (i - k) (by omega)
      rw [h.lookahead, h.input] at this
      rw [show s''.stream.strstart + s.stream.lookahead + i =
        s''.stream.strstart + (s.stream.lookahead + k) + (i - k) by omega, this, show k + (i - k) = i by omega]
  history d h1 hd hs := by
    obtain ⟨hs', e⟩ := h.history d h1 hd hs
    obtain ⟨hs'', e'⟩ := h'.history d h1 (by rw [maxDist_congr h.wBits]; exact hd) hs'
    exact ⟨hs'', e'.trans e⟩
  held hs ha := h'.held (h.strategy.trans hs) (h.held hs ha)

/-- A match held at a distance up to `MAX_DIST` starts in the upper half or one byte before it when the window is full. -/
theorem slide_heldAgrees {t : Stream} (hw : t.wSize ≤ 32768) (hd : t.maxDist < t.wSize) (h : SlowOk t)
    (hroom : t.strstart + t.lookahead ≤ 2 * t.wSize) (hfull : t.wSize + t.maxDist ≤ t.strstart) (ha : HeldAgrees t) :
    HeldAgrees (slide t) := by
  intro h3
  obtain ⟨-, hlen, hbefore, hnear⟩ := h.2 h3
  obtain ⟨hlow, hbytes⟩ := ha h3
  rw [slide_matchStart, slide_strstart]
  refine ⟨by omega, fun i hi hin => ?_⟩
  rw [slide_matchLength] at hi
  rw [slide_windowAt_low hw (by omega), slide_windowAt_low hw (by omega),
    show (t.matchStart - t.wSize + i).toNat + t.wSize = (t.matchStart + i).toNat by omega,
    show t.strstart - t.wSize - 1 + i + t.wSize = t.strstart - 1 + i by omega]
  exact hbytes i hi (by omega)

/-- A slide reads nothing, and what it must keep is in the upper half of the window. -/
theorem Fills.slide {s : State} (h : AtPoint s.stream) : Fills 0 s (s.onStream slideIfFull) := by
  obtain ⟨-, w2, w3, -⟩ := (fillKeeps_atPoint.cfg h).window
  have hroom := fillKeeps_atPoint.room h
  by_cases hfull : s.stream.wSize + s.stream.maxDist ≤ s.stream.strstart
  · have hst : (s.onStream slideIfFull).stream = Machine.slide s.stream := by
      rw [onStream_stream, slideIfFull_of_full hfull]
    exact {
      kLe := Nat.zero_le _
      inAvail := rfl
      input := fun i => by rw [Nat.zero_add, inputByte, onStream_memory, onStream_inPtr, inputByte]
      lookahead := by rw [hst]; rfl
      wBits := by rw [hst]; rfl
      strategy := by rw [hst]; rfl
      old := fun i hi => by
        rw [hst, slide_strstart, slide_windowAt_low w2 (by omega),
          show s.stream.strstart - s.stream.wSize + i + s.stream.wSize = s.stream.strstart + i by omega]
      new := fun _ hi => absurd hi (Nat.not_lt_zero _)
      history := fun d h1 hd hs => by
        rw [hst, slide_strstart, slide_windowAt_low w2 (by omega),
          show s.stream.strstart - s.stream.wSize - d + s.stream.wSize = s.stream.strstart - d by omega]
        exact ⟨by omega, rfl⟩
      held := fun hs ha => by
        rw [hst]
        exact slide_heldAgrees w2 (by omega) (h.slowOk hs) hroom hfull ha }
  · rw [onStream_eq_self (slideIfFull_of_room hfull)]
    exact .refl s

/-- A read puts the next input bytes behind the lookahead and leaves the bytes before them alone. -/
theorem Fills.read {s : State} {more : Nat} (h : AtPoint s.stream)
    (hmore : s.stream.strstart + s.stream.lookahead + more ≤ 2 * s.stream.wSize) :
    Fills (readCount more s) s (fillRead more s) := by
  obtain ⟨-, w2, -, -⟩ := (fillKeeps_atPoint.cfg h).window
  have hk : readCount more s ≤ more := Nat.min_le_left ..
  obtain ⟨a, b, c, d, hst⟩ := fillRead_stream more s
  have hpos : (fillRead more s).stream.strstart = s.stream.strstart := by rw [hst]
  have hwin : ∀ j, j < 2 * s.stream.wSize → (fillRead more s).stream.windowAt j =
      if j < s.stream.strstart + s.stream.lookahead ∨ s.stream.strstart + s.stream.lookahead + readCount more s ≤ j
      then s.stream.windowAt j else inputByte s (j - (s.stream.strstart + s.stream.lookahead)) := by
    intro j hj
    rw [Stream.windowAt, hst]
    have hlen := inputBytes_length s (readCount more s)
    refine (loadBytes_get _ _ _ _ (by omega) (by omega)).trans ?_
    split
    next hin =>
      rw [if_neg (by omega)]
      simp [inputBytes]
    next hin =>
      rw [if_pos (by omega)]
      rfl
  exact {
    kLe := readCount_le more s
    inAvail := by
      rw [fillRead, onStream_inAvail, readInput_eq]
      exact toNat_sub_count _ _ (readCount_le more s)
    input := fun i => by
      rw [inputByte, fillRead, onStream_memory, onStream_inPtr, readInput_eq]
      simp only
      rw [BitVec.add_assoc, ← BitVec.ofNat_add]
      rfl
    lookahead := by rw [hst]
    wBits := by rw [hst]
    strategy := by rw [hst]
    old := fun i hi => by rw [hpos, hwin _ (by omega), if_pos (by omega)]
    new := fun i hi => by
      rw [hpos, hwin _ (by omega), if_neg (by omega)]
      congr 1
      omega
    history := fun d h1 hd hs => by
      rw [hpos, hwin _ (by omega), if_pos (by omega)]
      exact ⟨hs, rfl⟩
    held := fun hs ha h3 => by
      have hml : (fillRead more s).stream.matchLength = s.stream.matchLength := by rw [hst]
      have hms : (fillRead more s).stream.matchStart = s.stream.matchStart := by rw [hst]
      rw [hml] at h3 ⊢
      rw [hms, hpos]
      obtain ⟨-, hlen, hbefore, -⟩ := (h.slowOk hs).2 h3
      obtain ⟨hlow, hbytes⟩ := ha h3
      refine ⟨hlow, fun i hi hin => ?_⟩
      rw [hwin _ (by omega), hwin _ (by omega), if_pos (by omega), if_pos (by omega)]
      exact hbytes i hi hin }

/-- The room `FillWindow` counts before a slide is there after it. -/
theorem windowRoom_slid {t : Stream} (h : AtPoint t) :
    (slideIfFull t).strstart + (slideIfFull t).lookahead + windowRoom t ≤ 2 * (slideIfFull t).wSize := by
  obtain ⟨-, -, w3, -⟩ := (fillKeeps_atPoint.cfg h).window
  have hroom := fillKeeps_atPoint.room h
  simp only [slideIfFull, windowRoom, Stream.windowBytes]
  split
  · rw [slide_strstart, slide_lookahead, wSize_congr (slide_wBits t)]
    omega
  · omega

theorem AtPoint.slideIfFull {t : Stream} (h : AtPoint t) : AtPoint (slideIfFull t) := by
  by_cases hfull : t.wSize + t.maxDist ≤ t.strstart
  · rw [slideIfFull_of_full hfull]
    exact fillKeeps_atPoint.slide h hfull
  · rwa [slideIfFull_of_room hfull]

theorem fillLoop_fills (n : Nat) (s : State) (h : AtPoint s.stream) : ∃ k, Fills k s (fillLoop n s) := by
  induction n generalizing s with
  | zero => exact ⟨0, .refl s⟩
  | succ n ih =>
    have hslide := Fills.slide h
    have hmore := windowRoom_slid h
    have hslid := h.slideIfFull
    simp only [fillLoop]
    generalize windowRoom s.stream = more at *
    rw [← onStream_stream Machine.slideIfFull s] at hmore hslid
    generalize s.onStream Machine.slideIfFull = u at *
    split
    · exact ⟨0, hslide⟩
    · have hread := hslide.trans (Fills.read hslid hmore)
      split
      · obtain ⟨k, hk⟩ := ih _ (fillRead_spec fillKeeps_atPoint more u hslid hmore).1
        exact ⟨_, hread.trans hk⟩
      · exact ⟨_, hread⟩

/-- Settles O51: `fillLoop_fills` for the contents, `fillWindow_spec` for where the fill ends. -/
theorem fillWindowContent : Obligations.FillWindowContent := by
  intro s hok hla
  obtain ⟨-, hend, -⟩ := fillWindow_spec fillKeeps_atPoint s hok.atPoint hla
  obtain ⟨k, h⟩ := fillLoop_fills (s.inAvail.toNat + 1) s hok.atPoint
  rw [← fillWindow] at h
  refine ⟨k, h.kLe, h.inAvail, h.lookahead, ?_, h.old, h.new, h.history, h.held⟩
  rw [h.lookahead, word_eq_zero, h.inAvail] at hend
  have := h.kLe
  omega

end Sys2Proof.Machine
end

section
/-! FINISH on a fresh stream of level 0: one stored block holds the input (41_lz77.md R215; 43_block_serializer.md R278,
R282). -/

namespace Sys2Proof.Machine

/-! The header. -/

/-- The state in which a FINISH on a fresh stream has flushed the header. -/
def headerSent (s : State) : State := flushPending (headerQueued (setLastFlush (.mode .finish) s))

theorem headerSent_moves (s : State) : Moves 0 (flushCount (headerQueued (setLastFlush (.mode .finish) s))) s
    (headerSent s) := by
  have h := (((Moves.setLastFlush (.mode .finish) s).trans (Moves.onStream _ emitHeader_same _)).trans
    (Moves.setPhase .active _)).trans (Moves.flush _)
  rwa [Nat.add_comm _ (flushCount _)] at h

theorem headerSent_phase (s : State) : (headerSent s).phase = .active := (flushPending_kept _).1

/-- With space for the header, a FINISH on a fresh stream stores it and goes on with nothing queued. -/
theorem deflate_finish_fresh {t : Stream} {s : State} (hs : s.stream = resetFields t)
    (ha : DeflateAccepted .finish s) (hi : s.phase = .init) (hfits : (streamHeader t).length ≤ s.outAvail.toNat) :
    deflate .finish s = deflateRun .finish (headerSent s) ∧ Stores (streamHeader t) s (headerSent s) ∧
      (headerSent s).stream = freshFinish t := by
  have hq : s.stream.pending = [] := by rw [hs]; rfl
  have hqueue : (headerQueued (setLastFlush (.mode .finish) s)).stream =
      { freshFinish t with pending := streamHeader t } := by
    change emitHeader { s.stream with lastFlush := .mode .finish } = _
    rw [hs]
    rfl
  have hroom : (headerQueued (setLastFlush (.mode .finish) s)).stream.pending.length ≤
      (headerQueued (setLastFlush (.mode .finish) s)).outAvail.toNat := by
    rw [hqueue]
    exact hfits
  have hstores := Stores.flushPending_all hroom
  have hsent := flushPending_stream_of_fits hroom
  rw [hqueue] at hstores hsent
  exact ⟨(ha.first hi hq).trans (deflateHeader_of_fits .finish hi hq hroom), hstores.of_same_output rfl rfl rfl, hsent⟩

/-- What has been stored is not part of the input: what is left of it stays what it was (20_memory.md R86). -/
theorem Moves.inputByte_eq {k m : Nat} {s s' : State} (h : Moves k m s s') (ha : Apart s) {i : Nat}
    (hi : k + i < s.inAvail.toNat) : inputByte s' i = inputByte s (k + i) := by
  have hm := h.mLe
  rw [Apart, BadRanges, not_or, not_or] at ha
  obtain ⟨hin, hout, hno⟩ := ha
  rw [inputByte, h.inPtr, BitVec.add_assoc, ← BitVec.ofNat_add]
  refine h.memory _ fun j hj heq => hno ⟨s.inPtr.toNat + (k + i), ?_⟩
  have hread : (s.inPtr + BitVec.ofNat 32 (k + i)).toNat = s.inPtr.toNat + (k + i) := by
    rw [BitVec.toNat_add, BitVec.toNat_ofNat]
    omega
  have hstored : (s.outPtr + BitVec.ofNat 32 j).toNat = s.outPtr.toNat + j := by
    rw [BitVec.toNat_add, BitVec.toNat_ofNat]
    omega
  rw [hread, hstored] at heq
  omega

theorem Moves.inputBytes_eq {m : Nat} {s s' : State} (h : Moves 0 m s s') (ha : Apart s) :
    inputBytes s' s.inAvail.toNat = inputBytes s s.inAvail.toNat :=
  List.map_congr_left fun i hi => by
    rw [h.inputByte_eq ha (by rw [Nat.zero_add]; exact List.mem_range.mp hi), Nat.zero_add]

/-! The strategy. -/

theorem fillWindow_of_no_input {s : State} (hin : s.inAvail = 0) (hroom : s.stream.strstart < s.stream.wSize) :
    fillWindow s = s := by
  have hslide : s.onStream slideIfFull = s := onStream_eq_self (slideIfFull_of_room (by omega))
  rw [fillWindow, fillLoop, hslide, if_pos hin]

/-- `ReadInput` with nothing left to read. -/
theorem readInput_of_no_input {s : State} (hin : s.inAvail = 0) (n dst : Nat) : readInput n dst s = s := by
  have h0 : readCount n s = 0 := by rw [readCount, (word_eq_zero _).mp hin, Nat.min_zero]
  rw [readInput, h0, List.range_zero, List.map_nil, updateCheck_nil, readBytes]

/-- `ReadInput` of the whole input. -/
theorem readInput_all {n : Nat} {s : State} (h : s.inAvail.toNat ≤ n) (dst : Nat) : readInput n dst s = { s with
    stream := { s.stream with window := loadBytes dst (inputBytes s s.inAvail.toNat) s.stream.window }
    inPtr := s.inPtr + s.inAvail
    inAvail := 0
    totalIn := s.totalIn + s.inAvail
    check := updateCheck s.stream.wrap s.check (inputBytes s s.inAvail.toNat) } := by
  have hword : BitVec.ofNat 32 s.inAvail.toNat = s.inAvail := by rw [BitVec.ofNat_toNat, BitVec.setWidth_eq]
  rw [readInput_eq, readCount, Nat.min_eq_right h, hword, BitVec.sub_self]
  rfl

/-- Everything there is to read, read into an empty window; `STORED` then takes it into the block. -/
def inputTaken (s : State) : State :=
  (readInput s.inAvail.toNat 0 s).onStream (fun t => { t with strstart := s.inAvail.toNat })

theorem inputTaken_eq (s : State) : inputTaken s = { s with
    stream := { s.stream with
      window := loadBytes 0 (inputBytes s s.inAvail.toNat) s.stream.window
      strstart := s.inAvail.toNat }
    inPtr := s.inPtr + s.inAvail
    inAvail := 0
    totalIn := s.totalIn + s.inAvail
    check := updateCheck s.stream.wrap s.check (inputBytes s s.inAvail.toNat) } := by
  rw [inputTaken, readInput_all (Nat.le_refl _)]
  rfl

/-- FINISH by strategy STORED with the input used up and the lookahead taken: the last block. -/
theorem storedLoop_finish_of_nothing {s : State} (n : Nat) (hin : s.inAvail = 0) (hla : s.stream.lookahead = 0)
    (hins : s.stream.insert = 0) (hroom : s.stream.strstart < s.stream.wSize) :
    storedLoop .finish (n + 1) s = finalBlock s := by
  have hzero : s.onStream (fun t => { t with insert := 0 }) = s := onStream_eq_self (by rw [← hins])
  have hfill : (if s.stream.lookahead ≤ 1 then fillWindow s else s) = s := by
    rw [fillWindow_of_no_input hin hroom, ite_self]
  rw [storedLoop, hfill, if_pos hla, if_neg (by decide), storedEnd, hzero, if_pos rfl]

/-- A turn of the loop of `DeflateStored` that ends no block. -/
theorem storedLoop_of_open {f : Flush} {n : Nat} {s u : State}
    (hfill : (if s.stream.lookahead ≤ 1 then fillWindow s else s) = u) (hla : u.stream.lookahead ≠ 0)
    (hfull : storedBlockFull (storedTake u.stream) = false) (hlong : storedBlockLong (storedTake u.stream) = false) :
    storedLoop f (n + 1) s = storedLoop f n (u.onStream storedTake) := by
  rw [storedLoop, hfill, if_neg hla]
  simp [hfull, hlong]

/-- A stream of strategy STORED that has read nothing, with less than `MAX_DIST` bytes of input. -/
structure StoredFresh (s : State) : Prop where
  stored : s.stream.strategy = .stored
  strstart : s.stream.strstart = 0
  lookahead : s.stream.lookahead = 0
  blockStart : s.stream.blockStart = 0
  insert : s.stream.insert = 0
  fits : s.inAvail.toNat < s.stream.maxDist
  size : s.stream.maxDist < s.stream.wSize ∧ s.stream.wSize ≤ 32768

theorem storedFresh_of_freshFinish {t : Stream} {s : State} (hc : ConfigOk t) (h0 : t.level = 0)
    (hs : s.stream = freshFinish t) (hn : s.inAvail.toNat < t.maxDist) : StoredFresh s := by
  obtain ⟨-, w2, w3, -⟩ := hc.window
  obtain ⟨-, -, -, -, -, -, -, -, hstrategy⟩ := hc
  have hsize : s.stream.wSize = t.wSize := wSize_congr (by rw [hs]; rfl)
  have hdist : s.stream.maxDist = t.maxDist := maxDist_congr (by rw [hs]; rfl)
  exact {
    stored := by
      rw [hs]
      change t.strategy = .stored
      rw [hstrategy, h0]
      rfl
    strstart := by rw [hs]; rfl
    lookahead := by rw [hs]; rfl
    blockStart := by rw [hs]; rfl
    insert := by rw [hs]; rfl
    fits := by omega
    size := by omega }

section
variable {s : State} (h : StoredFresh s)
include h

theorem StoredFresh.inputTaken_of_no_input (hin : s.inAvail = 0) : inputTaken s = s := by
  rw [inputTaken, readInput_of_no_input hin, (word_eq_zero _).mp hin]
  exact onStream_eq_self (by rw [← h.strstart])

/-- One fill reads the whole input. -/
theorem StoredFresh.fillWindow_eq (hin : s.inAvail ≠ 0) : fillWindow s =
    (readInput s.inAvail.toNat 0 s).onStream (fun t => { t with lookahead := s.inAvail.toNat }) := by
  obtain ⟨hsize, -⟩ := h.size
  have hpos := h.strstart
  have hfits := h.fits
  have hslide : s.onStream slideIfFull = s := onStream_eq_self (slideIfFull_of_room (by omega))
  have hmore : s.inAvail.toNat ≤ windowRoom s.stream := by
    rw [windowRoom, if_neg (by omega), Stream.windowBytes, h.lookahead]
    omega
  have hread : fillRead (windowRoom s.stream) s =
      (readInput s.inAvail.toNat 0 s).onStream (fun t => { t with lookahead := s.inAvail.toNat }) := by
    rw [fillRead, h.lookahead, hpos, readInput_all hmore, readInput_all (Nat.le_refl _), readCount,
      Nat.min_eq_right hmore]
    simp [State.onStream, afterRead, h.stored, h.lookahead]
  have hdone : (fillRead (windowRoom s.stream) s).inAvail = 0 := by
    rw [hread, onStream_inAvail, readInput_all (Nat.le_refl _)]
  rw [fillWindow, fillLoop, hslide, if_neg hin, if_neg (fun hc => hc.2 hdone), hread]

/-- One turn takes the whole input into the block, which it does not fill. -/
theorem StoredFresh.storedLoop_succ (hin : s.inAvail ≠ 0) (f : Flush) (n : Nat) :
    storedLoop f (n + 1) s = storedLoop f n (inputTaken s) := by
  have hlook := h.lookahead
  have hfits := h.fits
  obtain ⟨hsize, hlimit⟩ := h.size
  have hne : s.inAvail.toNat ≠ 0 := fun h0 => hin ((word_eq_zero _).mpr h0)
  have hfill : (if s.stream.lookahead ≤ 1 then fillWindow s else s) =
      { inputTaken s with stream := { (inputTaken s).stream with strstart := 0, lookahead := s.inAvail.toNat } } := by
    rw [if_pos (by omega), h.fillWindow_eq hin, readInput_all (Nat.le_refl _), inputTaken_eq]
    simp only [State.onStream, h.strstart]
  have hblock : (inputTaken s).stream.blockStart = 0 := by rw [inputTaken_eq]; exact h.blockStart
  have hdist : (inputTaken s).stream.maxDist = s.stream.maxDist := maxDist_congr (by rw [inputTaken_eq])
  have hmax : maxStart (inputTaken s).stream = 65531 := by rw [maxStart, hblock]; rfl
  have htake : storedTake { (inputTaken s).stream with strstart := 0, lookahead := s.inAvail.toNat } =
      (inputTaken s).stream := by
    rw [storedTake, if_neg (by
      change ¬ maxStart (inputTaken s).stream ≤ ((0 + s.inAvail.toNat : Nat) : Int)
      omega), inputTaken_eq]
    simp only [Nat.zero_add, hlook]
  rw [storedLoop_of_open hfill hne ?_ ?_, State.onStream, htake]
  · rw [htake]
    exact decide_eq_false (show ¬ maxStart (inputTaken s).stream ≤ (s.inAvail.toNat : Int) by omega)
  · rw [htake]
    exact decide_eq_false
      (show ¬ ((inputTaken s).stream.maxDist : Int) ≤ s.inAvail.toNat - (inputTaken s).stream.blockStart by omega)

/-- With the input taken only the last block is left. -/
theorem StoredFresh.storedLoop_inputTaken (n : Nat) :
    storedLoop .finish (n + 1) (inputTaken s) = finalBlock (inputTaken s) := by
  have hfits := h.fits
  obtain ⟨hsize, -⟩ := h.size
  apply storedLoop_finish_of_nothing
  · rw [inputTaken_eq]
  · rw [inputTaken_eq]
    exact h.lookahead
  · rw [inputTaken_eq]
    exact h.insert
  · rw [inputTaken_eq]
    show s.inAvail.toNat < s.stream.wSize
    omega

/-- FINISH by strategy STORED: a turn takes the input, if there is any, and the next ends the block. -/
theorem StoredFresh.runStrategy_finish : runStrategy .finish s = finalBlock (inputTaken s) := by
  rw [runStrategy, h.stored]
  change storedLoop .finish (s.stream.lookahead + s.inAvail.toNat + 1 + s.stream.strstart +
    s.stream.blockStart.natAbs + 1) s = _
  by_cases hin : s.inAvail = 0
  · have htaken := h.inputTaken_of_no_input hin
    have hend := h.storedLoop_inputTaken
    rw [htaken] at hend ⊢
    exact hend _
  · rw [h.storedLoop_succ hin, h.lookahead, h.strstart, h.blockStart]
    exact h.storedLoop_inputTaken _

end

/-! The block (43_block_serializer.md R278, R282). -/

/-- Level 0 stores every block whose bytes are in the window. -/
theorem blockForm_level_zero (storedLen : Int) (cost : Cost) : blockForm 0 true storedLen cost = .stored := by
  have h : storedLen + 4 ≤ storedLen + 5 := by omega
  simp [blockForm, chooseForm, h]

/-- The last stored block of a stream with nothing queued: BFINAL, BTYPE 0 and the padding make one byte. -/
theorem sendStoredBlock_last (buf : List Byte) {t : Stream} (hacc : t.bitacc = 0) (hcount : t.bitcount = 0)
    (hq : t.pending = []) : sendStoredBlock buf true t =
      { t with bitacc := 0, bitcount := 0, pending := [0x01] ++ storedLengths buf.length ++ buf } := by
  have hheader : sendHeader 0 true t = { t with bitacc := 1, bitcount := 3 } := by
    simp [sendHeader, sendBits, finalBit, hacc, hcount, lowBytes]
  simp [sendStoredBlock, hheader, alignByte, putBytes, hq]

/-- The last block of a stream of level 0 with nothing queued. -/
theorem closeBlock_level_zero {t : Stream} {buf : List Byte} (h0 : t.level = 0) (hbytes : blockBytes t = some buf)
    (hacc : t.bitacc = 0) (hcount : t.bitcount = 0) (hq : t.pending = []) : closeBlock true t =
      { initBlock t with
        bitacc := 0
        bitcount := 0
        pending := [0x01] ++ storedLengths buf.length ++ buf
        blockStart := t.strstart } := by
  rw [closeBlock, hbytes, flushBlock, h0, Option.isSome_some, blockForm_level_zero, Option.getD_some, sendBlock,
    sendStoredBlock_last buf hacc hcount hq, if_pos rfl]
  rfl

/-- The bytes between the stream's header and its trailer. -/
def storedBlockBytes (s : State) : List Byte :=
  [0x01] ++ storedLengths s.inAvail.toNat ++ inputBytes s s.inAvail.toNat

/-- The bytes of the block are the input's. -/
theorem blockBytes_inputTaken {t : Stream} {s : State} (hs : s.stream = freshFinish t) (hn : s.inAvail.toNat ≤ 65536) :
    blockBytes (inputTaken s).stream = some (inputBytes s s.inAvail.toNat) := by
  have hblock : (inputTaken s).stream.blockStart = 0 := by
    rw [inputTaken_eq, hs]
    rfl
  have hpos : (inputTaken s).stream.strstart = s.inAvail.toNat := rfl
  have hwin : ∀ i, i < s.inAvail.toNat → (inputTaken s).stream.windowAt i = inputByte s i := by
    intro i hi
    rw [inputTaken_eq]
    refine (loadBytes_get 0 _ _ _ (by omega) (by rw [inputBytes_length]; omega)).trans ?_
    rw [dif_pos ⟨Nat.zero_le _, by rw [inputBytes_length]; omega⟩]
    simp [inputBytes]
  rw [blockBytes, hblock, if_pos (Int.le_refl _), hpos, Int.toNat_zero, Nat.sub_zero, ← List.range_eq_range']
  exact congrArg some (List.map_congr_left fun i hi => hwin i (List.mem_range.mp hi))

theorem closeBlock_inputTaken {t : Stream} {s : State} (h0 : t.level = 0) (hs : s.stream = freshFinish t)
    (hn : s.inAvail.toNat ≤ 65536) : (closeBlock true (inputTaken s).stream).pending = storedBlockBytes s ∧
      (closeBlock true (inputTaken s).stream).wrap = t.wrap ∧
      (closeBlock true (inputTaken s).stream).trailerDone = false := by
  have hbytes := blockBytes_inputTaken hs hn
  have htaken : (inputTaken s).stream.level = 0 ∧ (inputTaken s).stream.bitacc = 0 ∧
      (inputTaken s).stream.bitcount = 0 ∧ (inputTaken s).stream.pending = [] ∧ (inputTaken s).stream.wrap = t.wrap ∧
      (inputTaken s).stream.trailerDone = false := by
    rw [inputTaken_eq, hs]
    exact ⟨h0, rfl, rfl, rfl, rfl, rfl⟩
  generalize (inputTaken s).stream = u at *
  obtain ⟨hlevel, hacc, hcount, hq, hwrap, htrailer⟩ := htaken
  rw [closeBlock_level_zero hlevel hbytes hacc hcount hq, storedBlockBytes, inputBytes_length]
  exact ⟨rfl, hwrap, htrailer⟩

/-- The final block of a stream that holds its whole input, with space for more than the block. -/
theorem finalBlock_inputTaken {t : Stream} {s : State} (h0 : t.level = 0) (hs : s.stream = freshFinish t)
    (hn : s.inAvail.toNat ≤ 65536) (hout : (storedBlockBytes s).length < s.outAvail.toNat) :
    ∃ w, finalBlock (inputTaken s) = (.finishDone, w) ∧ Stores (storedBlockBytes s) s w ∧
      (w.stream.pending = [] ∧ w.stream.wrap = t.wrap ∧ w.stream.trailerDone = false) ∧ w.inAvail = 0 ∧
      w.check = updateCheck t.wrap s.check (inputBytes s s.inAvail.toNat) ∧ w.totalIn = s.totalIn + s.inAvail := by
  obtain ⟨hq, hwrap, htrailer⟩ := closeBlock_inputTaken h0 hs hn
  rw [← onStream_stream (closeBlock true)] at hq hwrap htrailer
  have hregs : (inputTaken s).outPtr = s.outPtr ∧ (inputTaken s).outAvail = s.outAvail ∧
      (inputTaken s).memory = s.memory ∧ (inputTaken s).inAvail = 0 ∧
      (inputTaken s).check = updateCheck t.wrap s.check (inputBytes s s.inAvail.toNat) ∧
      (inputTaken s).totalIn = s.totalIn + s.inAvail := by
    rw [inputTaken_eq, hs]
    exact ⟨rfl, rfl, rfl, rfl, rfl, rfl⟩
  obtain ⟨hptr, havail, hmem, hin, hcheck, htotal⟩ := hregs
  have hroom : ((inputTaken s).onStream (closeBlock true)).stream.pending.length ≤
      ((inputTaken s).onStream (closeBlock true)).outAvail.toNat := by
    rw [hq, onStream_outAvail, havail]
    exact hout.le
  have hstores := Stores.flushPending_all hroom
  have hsent := flushPending_stream_of_fits hroom
  rw [hq] at hstores
  have hblock : Stores (storedBlockBytes s) s (flushBlockOnly true (inputTaken s)) :=
    hstores.of_same_output hptr.symm havail.symm hmem.symm
  have hleft : (flushBlockOnly true (inputTaken s)).outAvail ≠ 0 := by
    rw [Ne, word_eq_zero, hblock.toNat_outAvail]
    exact Nat.sub_ne_zero_of_lt hout
  refine ⟨flushBlockOnly true (inputTaken s), by rw [finalBlock, if_neg hleft], hblock, ?_, ?_, ?_, ?_⟩
  · rw [flushBlockOnly, hsent]
    exact ⟨rfl, hwrap, htrailer⟩
  · exact (flushPending_kept _).2.1.trans hin
  · exact (flushPending_check _).trans hcheck
  · exact (flushPending_totalIn _).trans htotal

/-- FINISH on a fresh stream of level 0 whose header is out: the block with the input and the trailer, with space left. -/
theorem deflateRun_freshStored {t : Stream} {s : State} (hc : ConfigOk t) (h0 : t.level = 0)
    (hs : s.stream = freshFinish t) (hp : s.phase ≠ .finishing) (hn : s.inAvail.toNat < t.maxDist) {trailer : List Byte}
    (htrailer : trailer = trailerBytes t.wrap (updateCheck t.wrap s.check (inputBytes s s.inAvail.toNat))
      (s.totalIn + s.inAvail))
    (hfits : (storedBlockBytes s).length + trailer.length < s.outAvail.toNat) :
    ∃ u, deflateRun .finish s = endCommand .streamEnd (setPhase .done u) ∧ u.inAvail = 0 ∧
      Stores (storedBlockBytes s ++ trailer) s u := by
  obtain ⟨-, w2, w3, -⟩ := hc.window
  have hwork : strategyHasWork .finish s = true := (strategyHasWork_iff _ s).mpr (.inr (.inr ⟨by decide, hp⟩))
  obtain ⟨w, hfinal, hblock, ⟨hq, hwrap, htr⟩, hin, hcheck, htotal⟩ :=
    finalBlock_inputTaken h0 hs (by omega) (by omega)
  have hrun : deflateRun .finish s = deflateTail .finish (setPhase .finishing w) := by
    rw [deflateRun, if_pos hwork, (storedFresh_of_freshFinish hc h0 hs hn).runStrategy_finish, hfinal]
    rfl
  have htail := deflateTail_finish (s := setPhase .finishing w) hq htr
  have hmoved := deflateTail_moved .finish (setPhase .finishing w)
  simp only [setPhase_stream, setPhase_check, setPhase_totalIn, setPhase_outAvail, hwrap, hcheck, htotal, ← htrailer,
    hblock.toNat_outAvail] at htail
  obtain ⟨u, hu, hlast⟩ := htail (by omega)
  rw [hu] at hmoved
  exact ⟨u, hrun.trans hu, hmoved.inAvail_zero hin, hblock.trans (hlast.of_same_output rfl rfl rfl)⟩

/-- Settles O31: `deflate_finish_fresh`, then `deflateRun_freshStored`, and the bytes stored by both read back. -/
theorem storedOneShotBytes : Obligations.StoredOneShotBytes := by
  rintro s t0 n bytes hc h0 hs hi hm herr rfl hn hbytes hlt
  have ha := deflateAccepted_finish_of_init herr hi (by omega)
  have hmoves := headerSent_moves s
  have hin : (headerSent s).inAvail = s.inAvail := by rw [hmoves.inAvail, BitVec.sub_zero]
  have hcheck : (headerSent s).check = s.check := by
    rw [hmoves.check ha.apart, inputBytes, List.range_zero, List.map_nil, updateCheck_nil]
  have htotal : (headerSent s).totalIn = s.totalIn := by rw [hmoves.totalIn, BitVec.add_zero]
  have hinput := hmoves.inputBytes_eq ha.apart
  have hblock : storedBlockBytes (headerSent s) =
      [0x01] ++ storedLengths s.inAvail.toNat ++ inputBytes s s.inAvail.toNat := by
    rw [storedBlockBytes, hin, hinput]
  obtain ⟨-, w2, w3, -⟩ := hc.window
  generalize htrailer : trailerBytes t0.wrap (updateCheck t0.wrap s.check (inputBytes s s.inAvail.toNat))
    (s.totalIn + BitVec.ofNat 32 s.inAvail.toNat) = trailer at hbytes
  have hsplit : bytes = streamHeader t0 ++ (storedBlockBytes (headerSent s) ++ trailer) := by
    rw [hbytes, hblock, storedLengths_eq (by omega)]
    simp [streamHeader]
  have hlen : (streamHeader t0).length + ((storedBlockBytes (headerSent s)).length + trailer.length) <
      s.outAvail.toNat := by
    rwa [hsplit, List.length_append, List.length_append] at hlt
  obtain ⟨hrun, hheader, hfresh⟩ := deflate_finish_fresh hs ha hi (by omega)
  obtain ⟨u, hu, huin, hrest⟩ := deflateRun_freshStored hc h0 hfresh (by rw [headerSent_phase]; decide)
    (by rw [hin]; exact hn) (trailer := trailer)
    (by rw [hin, hcheck, htotal, hinput, ← htrailer, BitVec.ofNat_toNat, BitVec.setWidth_eq])
    (by rw [hheader.toNat_outAvail]; omega)
  have hall := hheader.trans hrest
  rw [← hsplit] at hall
  refine ⟨deflate .finish s, rfl, ?_⟩
  rw [hrun, hu]
  refine ⟨rfl, rfl, huin, hall.toNat_outPtr ha.apart.roomOk hlt, fun i hlt' => ?_⟩
  exact (List.getElem?_eq_getElem hlt').trans (congrArg some (hall.read hm ha.apart.roomOk hlt').symm)

end Sys2Proof.Machine
end

section
/-! The Huffman builder: canonical codes, bit reversal and the lengths of a built tree (42_huffman_builder.md R244 to
R253). -/

namespace Sys2Proof.Machine

/-! Symbols without a code (42_huffman_builder.md R252). -/

/-- `GenCodes` never sets the code of a symbol of length 0. -/
theorem genCodeSteps_uncoded {len : Table Nat} {n : Nat} (h0 : len.get 0 n = 0) (hn : n < 65536) {is : List Nat}
    (his : ∀ i ∈ is, i < 65536) (acc : Table Nat × Table Nat) :
    (is.foldl (genCodeStep len) acc).1.get 0 n = acc.1.get 0 n := by
  induction is generalizing acc with
  | nil => rfl
  | cons i is ih =>
    obtain ⟨hi, his⟩ := List.forall_mem_cons.mp his
    rw [List.foldl_cons, ih his]
    by_cases hl : len.get 0 i = 0
    · rw [genCodeStep_uncoded hl]
    · have hne : n ≠ i := fun heq => hl (heq ▸ h0)
      rw [genCodeStep_coded hl, Table.get_set_other _ _ _ _ _ hi hn hne]

theorem genCodes_get_uncoded {len : Table Nat} (blCount : Table Nat) {maxCode n : Nat} (hmax : maxCode < 65536)
    (hn : n ≤ maxCode) (h0 : len.get 0 n = 0) : (genCodes len maxCode blCount).get 0 n = 0 := by
  have his : ∀ i ∈ List.range (maxCode + 1), i < 65536 := fun i hi => by
    rw [List.mem_range] at hi
    omega
  rw [genCodes, genCodeSteps_uncoded h0 (by omega) his, Table.get_empty]

/-! Bit reversal (42_huffman_builder.md R253). -/

/-- Read off the bits on the wire: least significant first, those of the reversed code are the code's, most significant
first. -/
theorem bitReverse_testBit (v : Nat) {i k : Nat} (hi : i < k) : (bitReverse v k).testBit i = v.testBit (k - 1 - i) := by
  have hwire : (lowBits (bitReverse v k) k)[i]? = (msbBits v k)[i]? := by rw [lowBits_bitReverse]
  have hrev : k - 1 - i < k := by omega
  simpa [msbBits, lowBits, List.getElem?_reverse, hi, hrev] using hwire

/-! What the heap leaves of the lengths (42_huffman_builder.md R243 to R245). -/

@[simp] theorem siftLoop_len (v turns k : Nat) (w : Work) : (siftLoop v turns k w).len = w.len := by
  induction turns generalizing k w with
  | zero => rfl
  | succ turns ih =>
    simp only [siftLoop]
    split_ifs
    · rfl
    · exact ih _ _
    · rfl

@[simp] theorem downHeap_len (k : Nat) (w : Work) : (downHeap k w).len = w.len := siftLoop_len ..

@[simp] theorem heapify_len (m : Nat) (w : Work) : (heapify m w).len = w.len := by
  induction m generalizing w with
  | zero => rfl
  | succ m ih => rw [heapify, ih, downHeap_len]

@[simp] theorem shelve_len (n : Nat) (w : Work) : (shelve n w).len = w.len := rfl

@[simp] theorem mergeStep_len (node : Nat) (w : Work) : (mergeStep node w).len = w.len := by
  simp [mergeStep, popLeast]

@[simp] theorem mergeLoop_len (turns node : Nat) (w : Work) : (mergeLoop turns node w).len = w.len := by
  induction turns generalizing node w with
  | zero => rfl
  | succ turns ih =>
    simp only [mergeLoop]
    split_ifs
    · exact mergeStep_len node w
    · rw [ih, mergeStep_len]

@[simp] theorem forceLeaves_len (kind : TreeKind) (turns : Nat) (w : Work) : (forceLeaves kind turns w).len = w.len := by
  induction turns generalizing w with
  | zero => rfl
  | succ turns ih =>
    rw [forceLeaves]
    split_ifs
    · exact ih _
    · rfl

/-! No length above the ceiling (42_huffman_builder.md R246, R250). -/

/-- Every length is at most `m`. -/
def LenAtMost (m : Nat) (w : Work) : Prop := ∀ n, w.len.get 0 n ≤ m

theorem LenAtMost.of_len_eq {m : Nat} {w u : Work} (h : LenAtMost m w) (he : u.len = w.len) : LenAtMost m u := by
  unfold LenAtMost
  rwa [he]

theorem LenAtMost.of_len_set {m i v : Nat} {w u : Work} (h : LenAtMost m w) (hv : v ≤ m) (he : u.len = w.len.set 0 i v) :
    LenAtMost m u := by
  intro n
  rw [he]
  rcases Table.get_set_cases 0 v w.len i n with e | e
  · exact e.trans_le hv
  · exact e.trans_le (h n)

theorem addLeaf_lenAtMost {m : Nat} {w : Work} (h : LenAtMost m w) (n : Nat) : LenAtMost m (addLeaf w n) := by
  unfold addLeaf
  split_ifs
  · exact h.of_len_eq rfl
  · exact h.of_len_set (Nat.zero_le m) rfl

theorem buildHeap_lenAtMost (m : Nat) (kind : TreeKind) (freq : Table Nat) (cost : Cost) :
    LenAtMost m (buildHeap kind freq cost) := by
  have hstart : LenAtMost m (Work.start freq cost) := fun n => by simp [Work.start]
  have hleaves : LenAtMost m ((List.range kind.elems).foldl addLeaf (Work.start freq cost)) :=
    List.foldlRecOn _ _ hstart fun _ h n _ => addLeaf_lenAtMost h n
  exact hleaves.of_len_eq (by simp [buildHeap])

/-- The length of a node is one more than its parent's, cut off at the ceiling. -/
theorem bitLenStep_len (kind : TreeKind) (w : Work) (h : Nat) : (bitLenStep kind w h).len =
    w.len.set 0 (w.heap.get 0 h) (min kind.maxLength (w.len.get 0 (w.dad.get 0 (w.heap.get 0 h)) + 1)) := by
  rw [min_def_lt]
  simp only [bitLenStep]
  split_ifs <;> rfl

theorem genBitLen_lenAtMost (kind : TreeKind) {w : Work} (h : LenAtMost kind.maxLength w) :
    LenAtMost kind.maxLength (genBitLen kind w) :=
  List.foldlRecOn _ _ (h.of_len_set (Nat.zero_le _) rfl) fun _ h i _ =>
    h.of_len_set (Nat.min_le_left ..) (bitLenStep_len kind _ i)

theorem assignLevel_lenAtMost {m bits : Nat} (hb : bits ≤ m) (h k : Nat) {w : Work} (hw : LenAtMost m w) :
    LenAtMost m (assignLevel bits h k w).2 := by
  induction h generalizing k w with
  | zero => cases k <;> exact hw
  | succ h ih =>
    cases k with
    | zero => exact hw
    | succ k =>
      simp only [assignLevel]
      split_ifs
      · exact ih _ hw
      · exact ih _ (hw.of_len_set hb rfl)
      · exact ih _ hw

theorem assignLevels_lenAtMost {m bits : Nat} (hb : bits ≤ m) {hw : Nat × Work} (h : LenAtMost m hw.2) :
    LenAtMost m (assignLevels bits hw).2 := by
  induction bits generalizing hw with
  | zero => exact h
  | succ bits ih => exact ih (by omega) (assignLevel_lenAtMost hb _ _ h)

theorem limitLengths_lenAtMost (kind : TreeKind) {w : Work} (h : LenAtMost kind.maxLength w) :
    LenAtMost kind.maxLength (limitLengths kind w) := by
  unfold limitLengths
  split_ifs
  · exact h
  · exact assignLevels_lenAtMost (Nat.le_refl _) (h.of_len_eq (repairLoop_len _ _ w))

theorem growTree_lenAtMost (kind : TreeKind) {w : Work} (h : LenAtMost kind.maxLength w) :
    LenAtMost kind.maxLength (growTree kind w) :=
  limitLengths_lenAtMost kind (genBitLen_lenAtMost kind (h.of_len_eq (by simp)))

theorem buildTree_len_le (kind : TreeKind) (freq : Table Nat) (cost : Cost) (n : Nat) :
    (buildTree kind freq cost).1.len.get 0 n ≤ kind.maxLength :=
  growTree_lenAtMost kind (buildHeap_lenAtMost kind.maxLength kind freq cost) n

/-! Every leaf has a code (42_huffman_builder.md R244, R251). -/

/-- The sizes of a tree that `BuildTree` can build. -/
structure TreeKind.Sized (kind : TreeKind) : Prop where
  three_le_elems : 3 ≤ kind.elems
  elems_le : kind.elems ≤ 286
  one_le_maxLength : 1 ≤ kind.maxLength

theorem treeKind_sized {kind : TreeKind} (h : kind = litKind ∨ kind = distKind ∨ kind = blKind) : kind.Sized := by
  rcases h with rfl | rfl | rfl <;> constructor <;> decide

/-- The heap before the merges: the used symbols, and at least two leaves (42_huffman_builder.md R244). -/
structure HoldsLeaves (kind : TreeKind) (freq : Table Nat) (w : Work) : Prop where
  two_le_heapLen : 2 ≤ w.heapLen
  heapLen_le : w.heapLen ≤ 286
  heapMax_eq : w.heapMax = 573
  used : ∀ n, n < kind.elems → freq.get 0 n ≠ 0 → InHeap w n
  two : ∃ a b, a < b ∧ b < kind.elems ∧ InHeap w a ∧ InHeap w b

/-- Nothing is on the shelf before the merges, so ordering the heap leaves each node in it. -/
theorem heapify_holdsLeaves {kind : TreeKind} {freq : Table Nat} {w : Work} {m : Nat} (h : HoldsLeaves kind freq w)
    (hm : m ≤ w.heapLen) : HoldsLeaves kind freq (heapify m w) := by
  obtain ⟨hl2, hl, hx, hused, a, b, hab, hb, hina, hinb⟩ := h
  obtain ⟨⟨-, -, hkept⟩, hlen, hmax⟩ :=
    heapify_kept (S := InHeap w) m w hm ⟨by omega, by omega, fun _ => .inl⟩
  have hin : ∀ n, InHeap w n → InHeap (heapify m w) n := fun n hn =>
    (hkept n hn).resolve_right fun ⟨i, hlow, hhigh, _⟩ => by omega
  exact ⟨by omega, by omega, by omega, fun n hn hf => hin n (hused n hn hf), a, b, hab, hb, hin a hina, hin b hinb⟩

theorem buildHeap_holdsLeaves {kind : TreeKind} (hk : kind.Sized) (freq : Table Nat) (cost : Cost) :
    HoldsLeaves kind freq (buildHeap kind freq cost) := by
  obtain ⟨w, hw, -, hmax, hle, hused, hcode, -, hzero, hone, htwo⟩ :=
    addLeaves_spec freq cost kind.elems hk.elems_le
  obtain ⟨u, hu, humax, hu2, hule, hkeep, htwo'⟩ :=
    forced_spec kind w hmax hle ⟨hk.three_le_elems, hk.elems_le⟩ hcode hzero hone htwo
  have hforced : HoldsLeaves kind freq u := ⟨hu2, hule, humax, fun n hn hf => hkeep n (hused n hn hf), htwo'⟩
  rw [buildHeap, ← hw, ← hu]
  exact heapify_holdsLeaves hforced (Nat.div_le_self ..)

/-- Each leaf of the heap before the merges has a code of at least one bit. -/
theorem buildTree_len_pos {kind : TreeKind} (hk : kind.Sized) (freq : Table Nat) (cost : Cost) {n : Nat}
    (hn : n < kind.elems) (hin : InHeap (buildHeap kind freq cost) n) : 1 ≤ (buildTree kind freq cost).1.len.get 0 n := by
  have hheap := buildHeap_holdsLeaves hk freq cost
  exact growTree_pos kind hk.one_le_maxLength (fun n => n < kind.elems ∧ InHeap (buildHeap kind freq cost) n) _
    hheap.two_le_heapLen hheap.heapLen_le hheap.heapMax_eq (fun _ h => h) n ⟨hn, hin⟩

/-! The obligations. -/

/-- Settles O40: `genCodes_get` for a symbol that has a code, `genCodes_get_uncoded` for one of length 0; the first codes
are so by definition. -/
theorem canonicalCodes : Obligations.CanonicalCodes := by
  intro len blCount maxCode n hmax hn hlen
  refine ⟨?_, rfl, fun _ => rfl⟩
  split_ifs with h0
  · exact genCodes_get_uncoded blCount hmax hn h0
  · exact genCodes_get blCount hmax hlen hn h0

/-- Settles O41: the bits by `bitReverse_testBit`, the wire by `lowBits_bitReverse`. -/
theorem bitReversedCodes : Obligations.BitReversedCodes := by
  intro v k _
  refine ⟨bitReverse_lt v k, fun i hi => bitReverse_testBit v hi, fun t ht => ?_⟩
  rw [(sendBits_appends _ k t).queued ht, lowBits_bitReverse]

/-- Settles O44: every length set is cut off at the ceiling, and each leaf of the heap, the forced ones too, gets one of at
least 1. -/
theorem codeLengthCeiling : Obligations.CodeLengthCeiling := by
  refine ⟨buildTree_len_le, fun kind freq cost len hkind hlen => ?_⟩
  subst hlen
  have hk := treeKind_sized hkind
  have hheap := buildHeap_holdsLeaves hk freq cost
  obtain ⟨a, b, hab, hb, hina, hinb⟩ := hheap.two
  exact ⟨fun n hn hf => ⟨buildTree_len_pos hk freq cost hn (hheap.used n hn hf), buildTree_len_le kind freq cost n⟩,
    a, b, hab, hb, buildTree_len_pos hk freq cost (hab.trans hb) hina, buildTree_len_pos hk freq cost hb hinb⟩

end Sys2Proof.Machine
end

section
/-! The block serializer: the run-length ops of the code lengths, `SendBits` as the rule's loop, and the choice of a
block's form (43_block_serializer.md R274, R278, R290). -/

namespace Sys2Proof.Machine

/-! Code-length symbols (30_encoding.md R130). -/

/-- An op that can go on the wire: a code-length symbol with its number of extra bits and a value that fits in them. -/
def LegalOp (op : RunOp) : Prop := op.sym ≤ 18 ∧ op.bits = blExtra op.sym ∧ op.value < 2 ^ op.bits

/-- After the lengths `done`, the ops `ops` describe the lengths `lens`, and all of them are legal. -/
structure Describes (done : List Nat) (ops : List RunOp) (lens : List Nat) : Prop where
  legal : ∀ op ∈ ops, LegalOp op
  expand : expandOps ops done = done ++ lens

theorem expandOps_append (a b : List RunOp) (done : List Nat) :
    expandOps (a ++ b) done = expandOps b (expandOps a done) := by
  induction a generalizing done with
  | nil => rfl
  | cons op a ih => exact ih _

theorem Describes.nil (done : List Nat) : Describes done [] [] := ⟨by simp, (List.append_nil done).symm⟩

theorem Describes.append {done : List Nat} {a b : List RunOp} {x y : List Nat} (h : Describes done a x)
    (k : Describes (done ++ x) b y) : Describes done (a ++ b) (x ++ y) where
  legal := List.forall_mem_append.mpr ⟨h.legal, k.legal⟩
  expand := by rw [expandOps_append, h.expand, k.expand, List.append_assoc]

/-- A symbol up to 15 is the length itself. -/
theorem describes_length (done : List Nat) {l : Nat} (hl : l ≤ 15) : Describes done [⟨l, 0, 0⟩] [l] := by
  have h16 : l ≠ 16 := by omega
  have h17 : l ≠ 17 := by omega
  have h18 : l ≠ 18 := by omega
  have hle : l ≤ 18 := by omega
  constructor
  · simp [LegalOp, blExtra, h16, h17, h18, hle]
  · simp [expandOps, h16, h17, h18]

theorem describes_lengths (done : List Nat) {l : Nat} (hl : l ≤ 15) (n : Nat) :
    Describes done (List.replicate n ⟨l, 0, 0⟩) (List.replicate n l) := by
  induction n generalizing done with
  | zero => exact Describes.nil done
  | succ n ih => exact (describes_length done hl).append (ih _)

/-- 16 repeats the last length 3 to 6 times. -/
theorem describes_repeat {done : List Nat} {l n : Nat} (hlast : done.getLastD 0 = l) (h3 : 3 ≤ n) (h6 : n ≤ 6) :
    Describes done [⟨16, n - 3, 2⟩] (List.replicate n l) := by
  have hfit : n - 3 < 4 := by omega
  constructor
  · simp [LegalOp, blExtra, hfit]
  · simp only [expandOps, if_true, hlast, Nat.sub_add_cancel h3]

/-- 17 is a run of 3 to 10 zeros. -/
theorem describes_shortZeros (done : List Nat) {n : Nat} (h3 : 3 ≤ n) (h10 : n ≤ 10) :
    Describes done [⟨17, n - 3, 3⟩] (List.replicate n 0) := by
  have hfit : n - 3 < 8 := by omega
  constructor
  · simp [LegalOp, blExtra, hfit]
  · simp [expandOps, Nat.sub_add_cancel h3]

/-- 18 is a run of 11 to 138 zeros. -/
theorem describes_longZeros (done : List Nat) {n : Nat} (h11 : 11 ≤ n) (h138 : n ≤ 138) :
    Describes done [⟨18, n - 11, 7⟩] (List.replicate n 0) := by
  have hfit : n - 11 < 128 := by omega
  constructor
  · simp [LegalOp, blExtra, hfit]
  · simp [expandOps, Nat.sub_add_cancel h11]

/-! Runs of equal lengths (43_block_serializer.md R274). -/

theorem runLimits_zero (prev : Option Nat) : runLimits 0 prev = (138, 3) := rfl

theorem runLimits_same {l : Nat} (h0 : l ≠ 0) : runLimits l (some l) = (6, 3) := by simp [runLimits, h0]

theorem runLimits_other {l : Nat} {prev : Option Nat} (h0 : l ≠ 0) (hp : prev ≠ some l) :
    runLimits l prev = (7, 4) := by
  simp [runLimits, h0, hp]

theorem runLimits_pos (l : Nat) (prev : Option Nat) : 0 < (runLimits l prev).1 := by
  unfold runLimits
  split_ifs <;> decide

/-- A finished run within its limits is described by its ops: by single lengths when it is short, else by a repetition,
with the length in front when it is not the last one described, or by a run of zeros. -/
theorem describes_runEmit {done : List Nat} {l n : Nat} {prev : Option Nat} (hl : l ≤ 15)
    (hprev : prev = some l → done.getLastD 0 = l) (hn : n ≤ (runLimits l prev).1) :
    Describes done (runEmit l n (runLimits l prev).2 prev) (List.replicate n l) := by
  by_cases hshort : n < (runLimits l prev).2
  · rw [runEmit, if_pos hshort]
    exact describes_lengths done hl n
  rw [runEmit, if_neg hshort]
  by_cases h0 : l = 0
  · subst h0
    rw [runLimits_zero] at hn hshort
    rw [if_neg (not_not.mpr rfl)]
    split_ifs with h10
    · exact describes_shortZeros done (by omega) h10
    · exact describes_longZeros done (by omega) hn
  rw [if_pos h0]
  by_cases hp : prev = some l
  · subst hp
    rw [runLimits_same h0] at hn hshort
    rw [if_neg (not_not.mpr rfl)]
    exact describes_repeat (hprev rfl) (by omega) hn
  · rw [runLimits_other h0 hp] at hn hshort
    rw [if_pos hp]
    obtain ⟨m, rfl⟩ : ∃ m, n = m + 1 := ⟨n - 1, by omega⟩
    exact (describes_length done hl).append (describes_repeat (by simp) (by omega) (by omega))

/-- The loop describes the `count` lengths of the run it has passed and those still to come; the run ends within its
limits, which are those of its length and of the length before it. -/
theorem describes_runLoop {lens : List Nat} (hlens : ∀ l ∈ lens, l ≤ 15) {done : List Nat} {prev : Option Nat}
    {count : Nat} (hprev : ∀ p, prev = some p → done.getLastD 0 = p) (hnil : lens = [] → count = 0)
    (hcount : count < (runLimits (lens.headD guardLen) prev).1) :
    Describes done (runLoop lens prev count (runLimits (lens.headD guardLen) prev))
      (List.replicate count (lens.headD guardLen) ++ lens) := by
  induction lens generalizing done prev count with
  | nil =>
    rw [hnil rfl]
    exact Describes.nil done
  | cons cur rest ih =>
    obtain ⟨hcur, hrest⟩ := List.forall_mem_cons.mp hlens
    have hrun : List.replicate count cur ++ cur :: rest = List.replicate (count + 1) cur ++ rest := by
      rw [List.replicate_succ', List.append_assoc, List.singleton_append]
    rw [List.headD_cons] at hcount ⊢
    rw [hrun, runLoop]
    split_ifs with hgo
    · obtain ⟨hlt, hnext⟩ := hgo
      have hne : rest ≠ [] := by
        rintro rfl
        rw [hnext] at hcur
        exact absurd hcur (by decide)
      rw [hnext] at hlt ⊢
      exact ih hrest hprev (fun h => absurd h hne) hlt
    · have hemit := describes_runEmit hcur (hprev cur) hcount
      exact hemit.append (ih hrest (by simp [List.replicate_succ']) (fun _ => rfl) (runLimits_pos ..))

theorem describes_runOpsOf {lens : List Nat} (hlens : ∀ l ∈ lens, l ≤ 15) : Describes [] (runOpsOf lens) lens :=
  describes_runLoop hlens (by simp) (fun _ => rfl) (runLimits_pos ..)

/-! The loop of `SendBits` (43_block_serializer.md R290). -/

/-- The whole bytes of the accumulator queued, the bits left over kept: what the closed form of `sendBits` does. -/
def bytesQueued (t : Stream) : Stream :=
  { t with
    bitacc := t.bitacc / 256 ^ (t.bitcount / 8)
    bitcount := t.bitcount % 8
    pending := t.pending ++ lowBytes (t.bitcount / 8) t.bitacc }

/-- One turn of the rule's loop. -/
def byteQueued (t : Stream) : Stream :=
  { t with
    pending := t.pending ++ [BitVec.ofNat 8 (t.bitacc &&& 0xFF)]
    bitacc := t.bitacc >>> 8
    bitcount := t.bitcount - 8 }

theorem drainBits_succ (n : Nat) (t : Stream) :
    drainBits (n + 1) t = if 8 ≤ t.bitcount then drainBits n (byteQueued t) else t := rfl

theorem sendBits_eq_bytesQueued {v n : Nat} (t : Stream) (hv : v < 2 ^ n) : sendBits v n t =
    bytesQueued { t with bitacc := t.bitacc ||| v <<< t.bitcount, bitcount := t.bitcount + n } := by
  rw [sendBits, Nat.mod_eq_of_lt hv, ← Nat.shiftLeft_eq, bytesQueued]

theorem bytesQueued_of_lt {t : Stream} (h : t.bitcount < 8) : bytesQueued t = t := by
  simp [bytesQueued, Nat.div_eq_of_lt h, Nat.mod_eq_of_lt h, lowBytes]

@[simp] theorem byteQueued_bitcount (t : Stream) : (byteQueued t).bitcount = t.bitcount - 8 := rfl

theorem bytesQueued_byteQueued {t : Stream} (h : 8 ≤ t.bitcount) : bytesQueued (byteQueued t) = bytesQueued t := by
  have hk : t.bitcount / 8 = (t.bitcount - 8) / 8 + 1 := by omega
  have hr : (t.bitcount - 8) % 8 = t.bitcount % 8 := by omega
  have hbyte : BitVec.ofNat 8 (t.bitacc &&& 0xFF) = BitVec.ofNat 8 t.bitacc := by
    rw [Nat.and_two_pow_sub_one_eq_mod t.bitacc 8]
    exact BitVec.eq_of_toNat_eq (by simp)
  have hacc : t.bitacc >>> 8 = t.bitacc / 256 := Nat.shiftRight_eq_div_pow t.bitacc 8
  simp [bytesQueued, byteQueued, hk, hr, hbyte, hacc, lowBytes, Nat.pow_succ', Nat.div_div_eq_div_mul]

/-- With turns enough for the whole bytes, the loop queues them all. -/
theorem drainBits_eq_bytesQueued {n : Nat} {t : Stream} (h : t.bitcount / 8 ≤ n) : drainBits n t = bytesQueued t := by
  induction n generalizing t with
  | zero =>
    have h8 : t.bitcount < 8 := by omega
    exact (bytesQueued_of_lt h8).symm
  | succ n ih =>
    rw [drainBits_succ]
    split_ifs with h8
    · have hturns : (byteQueued t).bitcount / 8 ≤ n := by rw [byteQueued_bitcount]; omega
      rw [ih hturns, bytesQueued_byteQueued h8]
    · exact (bytesQueued_of_lt (not_le.mp h8)).symm

theorem sendBits_eq_drainBits {v n : Nat} {t : Stream} (ht : WriterOk t) (hv : v < 2 ^ n) :
    sendBits v n t =
      drainBits n { t with bitacc := t.bitacc ||| v <<< t.bitcount, bitcount := t.bitcount + n } := by
  obtain ⟨hcount, -⟩ := ht
  have hturns : (t.bitcount + n) / 8 ≤ n := by omega
  rw [sendBits_eq_bytesQueued t hv, drainBits_eq_bytesQueued hturns]

/-! The choice of a block's form (43_block_serializer.md R278). -/

/-- An estimate in whole bytes is the least number of bytes that holds its bits and the 3 header bits. -/
theorem costBytes_eq {bits bytes : Int} (hlow : bytes * 8 - 8 < bits + 3) (hhigh : bits + 3 ≤ bytes * 8) :
    costBytes bits = bytes := by
  rw [costBytes]
  omega

theorem chooseForm_eq (hasBuf : Bool) (storedLen optB staticB : Int) : chooseForm hasBuf storedLen optB staticB =
    if hasBuf = true ∧ storedLen + 4 ≤ min optB staticB then .stored
    else if staticB ≤ optB then .fixed else .dynamic := by
  by_cases h : staticB ≤ optB
  · simp [chooseForm, h]
  · have hlt : optB < staticB := not_le.mp h
    simp [chooseForm, h, hlt.le, hlt.ne']

theorem blockForm_of_costs {level : Nat} {cost : Cost} {optB staticB : Int} (h0 : level ≠ 0)
    (hopt : costBytes cost.optLen = optB) (hstatic : costBytes cost.staticLen = staticB) (hasBuf : Bool)
    (storedLen : Int) : blockForm level hasBuf storedLen cost = chooseForm hasBuf storedLen optB staticB := by
  rw [blockForm, if_pos (Nat.pos_of_ne_zero h0), hopt, hstatic]

/-! The obligations. -/

/-- Settles O43: the loop's ops describe the run it has passed and the lengths still to come (`describes_runLoop`). -/
theorem runOpsReproduceLengths : Obligations.RunOpsReproduceLengths :=
  fun _ hlens => ⟨(describes_runOpsOf hlens).expand, (describes_runOpsOf hlens).legal⟩

/-- Settles O32: the loop queues the whole bytes it is given, which is the closed form; the bits are those of
`queuedBits_sendBits`. -/
theorem sendBitsAppendsLowBits : Obligations.SendBitsAppendsLowBits :=
  fun v n t ht _ hv => ⟨sendBits_eq_drainBits ht hv, queuedBits_sendBits v n t ht⟩

/-- Settles O33: by `alignByte_appends`, and `queuedBits_putBytes` of one byte. -/
theorem alignAndPutByte : Obligations.AlignAndPutByte := by
  intro t b ht
  refine ⟨⟨(alignByte_appends t).queued ht, rfl, rfl⟩, fun h0 => ⟨?_, h0⟩⟩
  calc queuedBits (putByte b t) = queuedBits t ++ byteBits [b] := queuedBits_putBytes [b] t h0
    _ = queuedBits t ++ lowBits b.toNat 8 := by rw [byteBits, List.flatMap_singleton]

/-- Settles O38: the bits that `sendAllTrees_appends` names. -/
theorem treeDescriptionBits : Obligations.TreeDescriptionBits :=
  fun lit dist bl maxBl t ht => (sendAllTrees_appends lit dist bl maxBl t).queued ht

/-- Settles O39: the estimates are those of `costBytes`, and `chooseForm_eq` compares them; level 0 is
`blockForm_level_zero`. -/
theorem blockChoice : Obligations.BlockChoice := by
  intro level hasBuf storedLen cost optB staticB hoptLow hoptHigh hstaticLow hstaticHigh
  have hform (h0 : level ≠ 0) := (blockForm_of_costs h0 (costBytes_eq hoptLow hoptHigh)
    (costBytes_eq hstaticLow hstaticHigh) hasBuf storedLen).trans (chooseForm_eq ..)
  have hnot (h : hasBuf = false ∨ min optB staticB < storedLen + 4) :
      ¬ (hasBuf = true ∧ storedLen + 4 ≤ min optB staticB) := by
    rintro ⟨hbuf, hle⟩
    exact h.elim (by simp [hbuf]) (not_lt.mpr hle)
  refine ⟨fun h0 hbuf hle => ?_, fun h0 h hle => ?_, fun h0 h hlt => ?_, fun h0 hbuf => ?_⟩
  · rw [hform h0, if_pos ⟨hbuf, hle⟩]
  · rw [hform h0, if_neg (hnot h), if_pos hle]
  · rw [hform h0, if_neg (hnot h), if_neg (not_le.mpr hlt)]
  · rw [h0, hbuf]
    exact blockForm_level_zero storedLen cost

end Sys2Proof.Machine
end

section
/-! The checksums (44_checksum.md): Adler-32 as two sums mod 65521, CRC-32 as division bit by bit, and both over
concatenated input. -/

namespace Sys2Proof.Machine

/-! Adler-32 (44_checksum.md R311). -/

/-- Each byte weighted by the number of bytes from it to the end: how often the high half of Adler-32 adds it. -/
def weightedSum (bytes : List Byte) : Nat :=
  ((List.range bytes.length).map (fun i => (bytes.length - i) * (bytes.getD i 0).toNat)).sum

@[simp] theorem weightedSum_nil : weightedSum [] = 0 := rfl

@[simp] theorem weightedSum_cons (b : Byte) (bytes : List Byte) :
    weightedSum (b :: bytes) = (bytes.length + 1) * b.toNat + weightedSum bytes := by
  simp [weightedSum, List.range_succ_eq_map, Function.comp_def]

theorem adlerStep_mod (a c : Nat) (b : Byte) :
    adlerStep (a % 65521, c % 65521) b = ((a + b.toNat) % 65521, (c + (a + b.toNat)) % 65521) := by
  simp [adlerStep]

/-- From any two sums, the low one gains every byte, the high one its start, the low one's start once a byte, and the
weighted bytes. -/
theorem foldl_adlerStep (bytes : List Byte) (a c : Nat) :
    bytes.foldl adlerStep (a % 65521, c % 65521) =
      ((a + (bytes.map BitVec.toNat).sum) % 65521, (c + bytes.length * a + weightedSum bytes) % 65521) := by
  induction bytes generalizing a c with
  | nil => simp
  | cons b bytes ih =>
    have hlow : a + b.toNat + (bytes.map BitVec.toNat).sum = a + ((b :: bytes).map BitVec.toNat).sum := by
      rw [List.map_cons, List.sum_cons, Nat.add_assoc]
    have hhigh : c + (a + b.toNat) + bytes.length * (a + b.toNat) + weightedSum bytes =
        c + (b :: bytes).length * a + weightedSum (b :: bytes) := by
      rw [weightedSum_cons, List.length_cons]
      ring
    rw [List.foldl_cons, adlerStep_mod, ih, hlow, hhigh]

/-! CRC-32 (44_checksum.md R312). -/

theorem crcTable_eq_iterate (k : Byte) : crcTable k = crcShift^[8] (k.setWidth 32) := rfl

theorem crcShift_eq_ite_mod (r : Word) :
    crcShift r = if r.toNat % 2 = 1 then 0xEDB88320 ^^^ (r >>> 1) else r >>> 1 := by
  simp [crcShift, BitVec.getLsbD, Nat.testBit_zero]

/-- A bit step is linear over xor, as the remainder of a division by a polynomial is. -/
theorem crcShift_xor (x y : Word) : crcShift (x ^^^ y) = crcShift x ^^^ crcShift y := by
  have hshift : (x ^^^ y) >>> 1 = x >>> 1 ^^^ y >>> 1 := BitVec.ushiftRight_xor_distrib x y 1
  rw [crcShift, crcShift, crcShift, BitVec.getLsbD_xor, hshift]
  cases x.getLsbD 0 <;> cases y.getLsbD 0
  case false.false => rfl
  case false.true =>
    show 0xEDB88320 ^^^ (x >>> 1 ^^^ y >>> 1) = x >>> 1 ^^^ (0xEDB88320 ^^^ y >>> 1)
    ac_rfl
  case true.false => exact (BitVec.xor_assoc ..).symm
  case true.true =>
    calc x >>> 1 ^^^ y >>> 1 = (0xEDB88320 ^^^ 0xEDB88320) ^^^ (x >>> 1 ^^^ y >>> 1) := by
          rw [BitVec.xor_self, BitVec.zero_xor]
      _ = (0xEDB88320 ^^^ x >>> 1) ^^^ (0xEDB88320 ^^^ y >>> 1) := by ac_rfl

theorem crcShift_iterate_xor (n : Nat) (x y : Word) : crcShift^[n] (x ^^^ y) = crcShift^[n] x ^^^ crcShift^[n] y :=
  Function.Semiconj₂.iterate crcShift_xor n x y

/-- While the bits that fall out are 0, bit steps only shift. -/
theorem crcShift_iterate_of_low_zero {n : Nat} {r : Word} (h : r.toNat % 2 ^ n = 0) : crcShift^[n] r = r >>> n := by
  induction n generalizing r with
  | zero => simp
  | succ n ih =>
    have hsplit := Nat.mod_mul (x := r.toNat) (a := 2) (b := 2 ^ n)
    rw [← Nat.pow_succ', h] at hsplit
    have hone : crcShift r = r >>> 1 := by rw [crcShift_eq_ite_mod, if_neg (by omega)]
    have hrest : (r >>> 1).toNat % 2 ^ n = 0 := by
      rw [BitVec.toNat_ushiftRight, Nat.shiftRight_one]
      omega
    rw [Function.iterate_succ_apply, hone, ih hrest, ← BitVec.shiftRight_add, Nat.add_comm]

/-- The table takes the low byte through the eight bit steps; the same steps only move the other bits down. -/
theorem crcStep_eq_iterate (c : Word) (b : Byte) : crcStep c b = crcShift^[8] (c ^^^ b.setWidth 32) := by
  have hbytes : c ^^^ b.setWidth 32 = (c.setWidth 8 ^^^ b).setWidth 32 ^^^ (c >>> 8 <<< 8) := by
    apply BitVec.eq_of_getLsbD_eq
    intro i hi
    by_cases h8 : i < 8
    · simp [hi, h8]
    · simp [hi, h8, Nat.add_sub_cancel' (not_lt.mp h8), BitVec.getLsbD_of_ge b i (not_lt.mp h8)]
  have hlow : (c >>> 8 <<< 8).toNat % 2 ^ 8 = 0 := by simp [Nat.shiftLeft_eq]
  have hhigh : c >>> 8 <<< 8 >>> 8 = c >>> 8 := by
    apply BitVec.eq_of_getLsbD_eq
    intro i hi
    simpa [hi] using fun h => BitVec.lt_of_getLsbD h
  rw [hbytes, crcShift_iterate_xor, crcShift_iterate_of_low_zero hlow, hhigh, crcStep, crcTable_eq_iterate]

/-! The obligations. -/

/-- Settles O56: `crcStep_eq_iterate`, a bit step by `crcShift_eq_ite_mod`. -/
theorem crcIsBitSerial : Obligations.CrcIsBitSerial := by
  intro c b
  rw [crcStep_eq_iterate]
  exact congrArg (·^[8] _) (funext crcShift_eq_ite_mod)

/-- Settles O57: `foldl_adlerStep` from the two sums 1 and 0. -/
theorem adlerClosedForm : Obligations.AdlerClosedForm := by
  intro bytes
  have hsums : bytes.foldl adlerStep ((1 : Word).toNat % 65536, (1 : Word).toNat / 65536) =
      ((1 + (bytes.map BitVec.toNat).sum) % 65521, (bytes.length + weightedSum bytes) % 65521) := by
    simpa using foldl_adlerStep bytes 1 0
  rw [adler32, hsums, BitVec.toNat_ofNat]
  exact Nat.mod_eq_of_lt (by omega)

/-- Settles O55: `updateCheck_nil` and `updateCheck_append` at the two wrappers that have a checksum. -/
theorem checksumsCombine : Obligations.ChecksumsCombine :=
  ⟨fun a c => ⟨updateCheck_nil .zlib a, updateCheck_nil .gzip c⟩,
    fun a c x y => ⟨updateCheck_append .zlib a x y, updateCheck_append .gzip c x y⟩, rfl, rfl⟩

end Sys2Proof.Machine
end

section
/-! DEFLATE's exits before the strategy, and the result code it ends with in each case (40_commands.md R155, R160;
60_exceptions.md R323, R326). -/

namespace Sys2Proof.Machine

theorem flushPending_setLastFlush (l : LastFlush) (s : State) :
    flushPending (setLastFlush l s) = setLastFlush l (flushPending s) := by
  rw [flushPending_eq, flushPending_eq]
  rfl

theorem flushPending_outAvail_eq_zero_iff (s : State) :
    (flushPending s).outAvail = 0 ↔ s.outAvail.toNat ≤ s.stream.pending.length := by
  rw [word_eq_zero, (Moves.flush s).toNat_outAvail, flushCount]
  omega

/-- The no-progress rule (40_commands.md R160): nothing queued, no input, not FINISH, and a rank not above the last one. -/
def NoProgress (f : Flush) (s : State) : Prop :=
  s.stream.pending = [] ∧ s.inAvail = 0 ∧ f ≠ .finish ∧ f.rank ≤ s.stream.lastFlush.rank

theorem noProgress_iff_of_empty {f : Flush} {s : State} (hq : s.stream.pending = []) :
    noProgress f s.stream.lastFlush (setLastFlush (.mode f) s) = true ↔ NoProgress f s := by
  rw [noProgress_iff, ← word_eq_zero]
  exact ⟨fun ⟨hin, hr, hf⟩ => ⟨hq, hin, hf, hr⟩, fun ⟨_, hin, hf, hr⟩ => ⟨hin, hr, hf⟩⟩

theorem deflate_of_streamError {f : Flush} {s : State} (h : DeflateStreamError f s) :
    deflate f s = onlyResult .streamError s := by
  simp only [deflate, deflateCheck_error h]
  rfl

theorem deflate_of_no_space {f : Flush} {s : State} (h : ¬ DeflateStreamError f s) (h0 : s.outAvail = 0) :
    deflate f s = onlyResult .bufError s := by
  simp only [deflate, deflateCheck_passed h, if_pos h0]
  rfl

theorem deflate_of_space {f : Flush} {s : State} (h : ¬ DeflateStreamError f s) (h0 : s.outAvail ≠ 0) :
    deflate f s = deflateBody f s := by
  simp only [deflate, deflateCheck_passed h, if_neg h0]

theorem deflateBody_of_noProgress {f : Flush} {s : State} (h : NoProgress f s) :
    deflateBody f s = raise .bufError (setLastFlush (.mode f) s) := by
  have ⟨hq, _⟩ := h
  have hq' : ¬ (setLastFlush (.mode f) s).stream.pending ≠ [] := not_not.mpr hq
  rw [deflateBody, if_neg hq', if_pos ((noProgress_iff_of_empty hq).mpr h)]

/-- A queue that fills the output space ends the command with Ok (40_commands.md R155 line 9). -/
theorem deflateBody_of_queue_filling {f : Flush} {s : State} (h0 : s.outAvail ≠ 0)
    (hge : s.outAvail.toNat ≤ s.stream.pending.length) :
    deflateBody f s = returnOutFull (setLastFlush (.mode f) (flushPending s)) := by
  have hq : (setLastFlush (.mode f) s).stream.pending ≠ [] := by
    intro hnil
    rw [show s.stream.pending = [] from hnil, List.length_nil, Nat.le_zero, ← word_eq_zero] at hge
    exact h0 hge
  have hfull : (setLastFlush (.mode f) (flushPending s)).outAvail = 0 :=
    (flushPending_outAvail_eq_zero_iff s).mpr hge
  rw [deflateBody, if_pos hq, flushPending_setLastFlush, if_pos hfull]

/-- A queue that leaves output space is sent, and the command goes on (40_commands.md R155 lines 7 to 12). -/
theorem deflateBody_of_queue_sent {f : Flush} {s : State} (hlt : s.stream.pending.length < s.outAvail.toNat)
    (hp : ¬ NoProgress f s) : deflateBody f s = deflateFinishing f (setLastFlush (.mode f) (flushPending s)) := by
  by_cases hq : s.stream.pending = []
  · have hq' : ¬ (setLastFlush (.mode f) s).stream.pending ≠ [] := not_not.mpr hq
    rw [deflateBody, if_neg hq', if_neg (mt (noProgress_iff_of_empty hq).mp hp), flushPending_of_empty hq]
  · have hleft : ¬ (setLastFlush (.mode f) (flushPending s)).outAvail = 0 :=
      mt (flushPending_outAvail_eq_zero_iff s).mp (Nat.not_le.mpr hlt)
    rw [deflateBody, if_pos (show (setLastFlush (.mode f) s).stream.pending ≠ [] from hq), flushPending_setLastFlush,
      if_neg hleft]

/-- New input for a stream that is finishing is refused, once the queue has been sent (40_commands.md R155 line 12). -/
theorem deflateBody_of_input_in_finishing {f : Flush} {s : State} (hlt : s.stream.pending.length < s.outAvail.toNat)
    (hp : s.phase = .finishing) (hin : s.inAvail ≠ 0) :
    deflateBody f s = raise .bufError (setLastFlush (.mode f) (flushPending s)) := by
  obtain ⟨kphase, kin, -⟩ := flushPending_kept s
  rw [deflateBody_of_queue_sent hlt fun ⟨_, h0, _⟩ => hin h0]
  exact if_pos ⟨kphase.trans hp, kin ▸ hin⟩

/-- A DEFLATE with output space that makes progress is accepted, unless it brings input to a stream that is finishing. -/
theorem deflateAccepted_of {f : Flush} {s : State} (herr : ¬ DeflateStreamError f s) (h0 : s.outAvail ≠ 0)
    (hp : ¬ NoProgress f s) (hfin : ¬ (s.phase = .finishing ∧ s.inAvail ≠ 0)) : DeflateAccepted f s := by
  refine ⟨herr, mt (word_eq_zero _).mpr h0, fun h => ?_, fun hq hin hf => ?_⟩
  · rw [← word_eq_zero]
    exact by_contra fun hin => hfin ⟨h, hin⟩
  · exact not_le.mp fun hr => hp ⟨hq, (word_eq_zero _).mpr hin, hf, hr⟩

/-- The last case of 60_exceptions.md R326: neither the no-progress rule nor input in FINISHING raises BufError. -/
theorem deflate_result_of_progress {f : Flush} {s : State} (herr : ¬ DeflateStreamError f s) (h0 : s.outAvail ≠ 0)
    (hp : ¬ NoProgress f s)
    (hfin : ¬ (s.phase = .finishing ∧ s.inAvail ≠ 0 ∧ s.stream.pending.length < s.outAvail.toNat)) :
    (deflate f s).result = .ok ∨ (f = .finish ∧ (deflate f s).result = .streamEnd) := by
  by_cases hinput : s.phase = .finishing ∧ s.inAvail ≠ 0
  · obtain ⟨hphase, hin⟩ := hinput
    have hge := not_lt.mp fun hlt => hfin ⟨hphase, hin, hlt⟩
    rw [deflate_of_space herr h0, deflateBody_of_queue_filling h0 hge]
    exact .inl rfl
  · exact (deflateAccepted_of herr h0 hp hinput).ends.1

/-- Without a cause of StreamError, a DEFLATE ends with Ok, with StreamEnd under FINISH, or with BufError. -/
theorem deflate_result {f : Flush} {s : State} (herr : ¬ DeflateStreamError f s) :
    (deflate f s).result = .ok ∨ (f = .finish ∧ (deflate f s).result = .streamEnd) ∨
      (deflate f s).result = .bufError := by
  by_cases h0 : s.outAvail = 0
  · rw [deflate_of_no_space herr h0]
    exact .inr (.inr rfl)
  by_cases hp : NoProgress f s
  · rw [deflate_of_space herr h0, deflateBody_of_noProgress hp]
    exact .inr (.inr rfl)
  by_cases hfin : s.phase = .finishing ∧ s.inAvail ≠ 0 ∧ s.stream.pending.length < s.outAvail.toNat
  · obtain ⟨hphase, hin, hlt⟩ := hfin
    rw [deflate_of_space herr h0, deflateBody_of_input_in_finishing hlt hphase hin]
    exact .inr (.inr rfl)
  · exact (deflate_result_of_progress herr h0 hp hfin).imp_right .inl

end Sys2Proof.Machine
end

section
/-! Result codes: which words and states lead to each of them, and with what effect (60_exceptions.md R320 to R328). -/

namespace Sys2Proof.Machine

/-! INIT (40_commands.md R152). -/

/-- LEVEL or WBITS of an INIT is a reserved value (30_encoding.md R114, R115). -/
def ReservedOperand (level : BitVec 4) (wbits : BitVec 8) : Prop :=
  (10 ≤ level.toNat ∧ level.toNat ≤ 14) ∨
    ¬ ((-15 ≤ wbits.toInt ∧ wbits.toInt ≤ -8) ∨ (8 ≤ wbits.toInt ∧ wbits.toInt ≤ 15) ∨
      (24 ≤ wbits.toInt ∧ wbits.toInt ≤ 31))

theorem initCommand_of_reserved {level : BitVec 4} {wbits : BitVec 8} (h : ReservedOperand level wbits) (s : State) :
    initCommand level wbits s = onlyResult .streamError s := by
  obtain hl | hw := h
  · exact initCommand_level_reserved (levelOperand_reserved hl) wbits s
  · simp only [not_or] at hw
    obtain ⟨hr, hz, hg⟩ := hw
    exact initCommand_wbits_reserved (wbitsOperand_reserved hr hz hg) level s

theorem initCommand_result_of_legal {level : BitVec 4} {wbits : BitVec 8} (h : ¬ ReservedOperand level wbits)
    (s : State) : (initCommand level wbits s).result = .ok := by
  obtain ⟨hl, hw⟩ := not_or.mp h
  have hlt := level.isLt
  obtain ⟨wrap, wb, hwb, -, h15, -⟩ := wbitsOperand_legal (not_not.mp hw)
  rw [initCommand_legal (levelOperand_legal (by omega)) hwb h15]
  rfl

/-! Every command. -/

/-- The causes of StreamError of a command, its word being one of the opcode table (60_exceptions.md R323 causes 4 to 10). -/
def CommandStreamError (s : State) : Instr → Prop
  | .init level wbits => ReservedOperand level wbits
  | .reset => s.phase = .uninit
  | .deflateNoFlush => DeflateStreamError .noFlush s
  | .deflateSyncFlush => DeflateStreamError .syncFlush s
  | .deflateFullFlush => DeflateStreamError .fullFlush s
  | .deflateFinish => DeflateStreamError .finish s
  | .endStream => s.phase = .uninit
  | .bound => False

/-- The codes a command writes without a cause of StreamError: BufError by DEFLATE only, StreamEnd by DEFLATE with FINISH
only. -/
def CommandCode (i : Instr) (r : Result) : Prop :=
  r = .ok ∨ (i = .deflateFinish ∧ r = .streamEnd) ∨ ((∃ f, i = deflateInstr f) ∧ r = .bufError)

theorem CommandCode.ne_streamError {i : Instr} {r : Result} (h : CommandCode i r) : r ≠ .streamError := by
  obtain rfl | ⟨-, rfl⟩ | ⟨-, rfl⟩ := h <;> decide

theorem deflate_commandCode {f : Flush} {s : State} (h : ¬ DeflateStreamError f s) :
    CommandCode (deflateInstr f) (deflate f s).result := by
  obtain hok | ⟨rfl, hend⟩ | hbuf := deflate_result h
  · exact .inl hok
  · exact .inr (.inl ⟨rfl, hend⟩)
  · exact .inr (.inr ⟨⟨f, rfl⟩, hbuf⟩)

theorem exec_deflate_of_streamError {f : Flush} {s : State} (h : DeflateStreamError f s) :
    exec (deflateInstr f) s = .next (onlyResult .streamError s) := by
  rw [exec_deflateInstr, deflate_of_streamError h]

theorem exec_of_streamError {i : Instr} {s : State} (h : CommandStreamError s i) :
    exec i s = .next (onlyResult .streamError s) := by
  cases i with
  | init level wbits => exact congrArg Host.Outcome.next (initCommand_of_reserved h s)
  | reset => exact execReset_uninit h
  | deflateNoFlush => exact exec_deflate_of_streamError (f := .noFlush) h
  | deflateSyncFlush => exact exec_deflate_of_streamError (f := .syncFlush) h
  | deflateFullFlush => exact exec_deflate_of_streamError (f := .fullFlush) h
  | deflateFinish => exact exec_deflate_of_streamError (f := .finish) h
  | endStream => exact execEndStream_uninit h
  | bound => exact h.elim

theorem exec_commandCode {i : Instr} {s : State} (h : ¬ CommandStreamError s i) :
    ∃ t, exec i s = .next t ∧ CommandCode i t.result := by
  cases i with
  | init level wbits => exact ⟨_, rfl, .inl (initCommand_result_of_legal h s)⟩
  | reset => exact ⟨_, execReset_started h, .inl rfl⟩
  | deflateNoFlush => exact ⟨_, rfl, deflate_commandCode (f := .noFlush) h⟩
  | deflateSyncFlush => exact ⟨_, rfl, deflate_commandCode (f := .syncFlush) h⟩
  | deflateFullFlush => exact ⟨_, rfl, deflate_commandCode (f := .fullFlush) h⟩
  | deflateFinish => exact ⟨_, rfl, deflate_commandCode (f := .finish) h⟩
  | endStream => exact ⟨_, execEndStream_started h, .inl rfl⟩
  | bound => exact ⟨_, rfl, .inl rfl⟩

/-- What a command word ends with: StreamError and no other effect, or a code that its command may write. -/
theorem execute_result (w : Word) (s : State) :
    execute w s = .next (onlyResult .streamError s) ∨
      ∃ i t, w = encode i ∧ execute w s = .next t ∧ CommandCode i t.result := by
  cases hd : decode w with
  | error e => exact .inl (execute_of_error hd s)
  | ok i =>
    rw [execute_of_ok hd]
    by_cases h : CommandStreamError s i
    · exact .inl (exec_of_streamError h)
    · obtain ⟨t, ht, hcode⟩ := exec_commandCode h
      exact .inr ⟨i, t, (encode_of_decode hd).symm, ht, hcode⟩

/-- A word that ends with a code other than StreamError is the word of a command that may write it. -/
theorem execute_commandCode {w : Word} {s t : State} (h : execute w s = .next t) (hr : t.result ≠ .streamError) :
    ∃ i, w = encode i ∧ CommandCode i t.result := by
  obtain he | ⟨i, u, hw, he, hcode⟩ := execute_result w s
  · cases h.symm.trans he
    exact absurd rfl hr
  · cases h.symm.trans he
    exact ⟨i, hw, hcode⟩

/-! Which words are no command (60_exceptions.md R323 causes 1 to 3). -/

/-- OP is reserved, an unused field is not zero, or FLUSH is reserved. -/
def NoCommandWord (w : Word) : Prop :=
  (w.toNat % 16 = 0 ∨ 6 ≤ w.toNat % 16) ∨
  (w.toNat % 16 = 1 ∧ (w.toNat / 16 % 16 ≠ 0 ∨ w.toNat / 2 ^ 20 ≠ 0)) ∨
  ((w.toNat % 16 = 2 ∨ w.toNat % 16 = 4 ∨ w.toNat % 16 = 5) ∧ w.toNat / 16 ≠ 0) ∨
  (w.toNat % 16 = 3 ∧ w.toNat / 256 ≠ 0) ∨
  (w.toNat % 16 = 3 ∧ (w.toNat / 16 % 16 = 1 ∨ 5 ≤ w.toNat / 16 % 16))

theorem encode_init_toNat (level : BitVec 4) (wbits : BitVec 8) :
    (encode (.init level wbits)).toNat = 1 + 256 * level.toNat + 4096 * wbits.toNat := commandWord_toNat wbits level 0 1

theorem encode_is_command (i : Instr) : ¬ NoCommandWord (encode i) := by
  unfold NoCommandWord
  cases i with
  | init level wbits =>
    have := level.isLt
    have := wbits.isLt
    rw [encode_init_toNat]
    omega
  | reset => decide
  | deflateNoFlush => decide
  | deflateSyncFlush => decide
  | deflateFullFlush => decide
  | deflateFinish => decide
  | endStream => decide
  | bound => decide

/-- A word whose fields are legal is an INIT word or one of the seven fixed words. -/
theorem command_of_legal_fields {w : Word} (h : ¬ NoCommandWord w) :
    (w.toNat % 16 = 1 ∧ w.toNat / 16 % 16 = 0 ∧ w.toNat / 2 ^ 20 = 0) ∨
      w.toNat ∈ [0x02, 0x03, 0x23, 0x33, 0x43, 0x04, 0x05] := by
  simp only [List.mem_cons, List.not_mem_nil, or_false]
  unfold NoCommandWord at h
  omega

theorem exists_encode {w : Word} (h : ¬ NoCommandWord w) : ∃ i, w = encode i := by
  have hword : ∀ i, w.toNat = (encode i).toNat → ∃ i, w = encode i := fun i hi => ⟨i, BitVec.eq_of_toNat_eq hi⟩
  obtain ⟨hop, hflush, hrsvd⟩ | hmem := command_of_legal_fields h
  · refine hword (.init (fieldLevel w) (fieldWbits w)) ?_
    rw [encode_init_toNat, fieldLevel_toNat, fieldWbits_toNat]
    omega
  · simp only [List.mem_cons, List.not_mem_nil, or_false] at hmem
    obtain h | h | h | h | h | h | h := hmem
    · exact hword .reset h
    · exact hword .deflateNoFlush h
    · exact hword .deflateSyncFlush h
    · exact hword .deflateFullFlush h
    · exact hword .deflateFinish h
    · exact hword .endStream h
    · exact hword .bound h

theorem encode_injective : Function.Injective encode := fun i j h =>
  Except.ok.inj ((decode_encode i).symm.trans (h ▸ decode_encode j))

theorem execute_noCommand {w : Word} (h : NoCommandWord w) (s : State) :
    execute w s = .next (onlyResult .streamError s) := by
  cases hd : decode w with
  | error e => exact execute_of_error hd s
  | ok i => exact absurd (encode_of_decode hd ▸ h) (encode_is_command i)

/-! The ten causes, by what shows them: a word that is no command, INIT's operands, or the state. -/

theorem streamErrorCause_iff (w : Word) (s : State) : StreamErrorCause w s ↔
    NoCommandWord w ∨ (w.toNat % 16 = 1 ∧ ReservedOperand (fieldLevel w) (fieldWbits w)) ∨
      ((w.toNat = 2 ∨ w.toNat = 4) ∧ s.phase = .uninit) ∨ ∃ f, w = encode (deflateInstr f) ∧ DeflateStreamError f s := by
  rw [StreamErrorCause, NoCommandWord, ReservedOperand, fieldLevel_toNat]
  simp only [and_or_left, or_assoc]

theorem exists_flush {p : Flush → Prop} : (∃ f, p f) ↔ p .noFlush ∨ p .syncFlush ∨ p .fullFlush ∨ p .finish := by
  refine ⟨fun ⟨f, hf⟩ => ?_, ?_⟩
  · cases f <;> simp [hf]
  · rintro (h | h | h | h) <;> exact ⟨_, h⟩

theorem streamErrorCause_encode (i : Instr) (s : State) : StreamErrorCause (encode i) s ↔ CommandStreamError s i := by
  rw [streamErrorCause_iff, or_iff_right (encode_is_command i)]
  simp only [encode_injective.eq_iff, exists_flush, deflateInstr]
  cases i with
  | init level wbits =>
    have hop : (encode (.init level wbits)).toNat % 16 = 1 := by rw [encode_init_toNat]; omega
    have h24 : ¬ ((encode (.init level wbits)).toNat = 2 ∨ (encode (.init level wbits)).toNat = 4) := by omega
    have hl : fieldLevel (encode (.init level wbits)) = level := fieldLevel_commandWord wbits level 0 1
    have hw : fieldWbits (encode (.init level wbits)) = wbits := fieldWbits_commandWord wbits level 0 1
    simp [hop, h24, hl, hw, CommandStreamError]
  | reset => simp [show (encode .reset).toNat = 2 from rfl, CommandStreamError]
  | deflateNoFlush => simp [show (encode .deflateNoFlush).toNat = 3 from rfl, CommandStreamError]
  | deflateSyncFlush => simp [show (encode .deflateSyncFlush).toNat = 35 from rfl, CommandStreamError]
  | deflateFullFlush => simp [show (encode .deflateFullFlush).toNat = 51 from rfl, CommandStreamError]
  | deflateFinish => simp [show (encode .deflateFinish).toNat = 67 from rfl, CommandStreamError]
  | endStream => simp [show (encode .endStream).toNat = 4 from rfl, CommandStreamError]
  | bound => simp [show (encode .bound).toNat = 5 from rfl, CommandStreamError]

/-- Settles O18: a word that is no command by its fields, and every command by its own causes. -/
theorem streamErrorHasTenCauses : Obligations.StreamErrorHasTenCauses := by
  intro w s
  by_cases hw : NoCommandWord w
  · exact ⟨fun _ => execute_noCommand hw s, fun h => absurd ((streamErrorCause_iff w s).mpr (.inl hw)) h⟩
  · obtain ⟨i, rfl⟩ := exists_encode hw
    rw [streamErrorCause_encode, execute_of_ok (decode_encode i)]
    refine ⟨exec_of_streamError, fun h => ?_⟩
    obtain ⟨t, ht, hcode⟩ := exec_commandCode h
    exact ⟨t, ht, hcode.ne_streamError⟩

/-- Settles O19: `execute_commandCode` for the word, and one exit of `deflateBody` for each case. -/
theorem bufErrorHasThreeCauses : Obligations.BufErrorHasThreeCauses := by
  refine ⟨fun w s t ht hr => ?_, fun f s herr => ?_⟩
  · obtain ⟨i, rfl, hcode⟩ := execute_commandCode ht (by rw [hr]; decide)
    rw [hr] at hcode
    obtain h | ⟨-, h⟩ | ⟨⟨f, rfl⟩, -⟩ := hcode
    · cases h
    · cases h
    · exact ⟨f, rfl⟩
  · rw [exec_deflateInstr]
    refine ⟨fun h0 => ?_, fun h0 hq hin hf hr => ?_, fun h0 hp hin hlt => ?_, fun h0 hp hfin => ?_⟩
    · rw [deflate_of_no_space herr h0]
    · rw [deflate_of_space herr h0, deflateBody_of_noProgress ⟨hq, hin, hf, hr⟩]
      rfl
    · rw [deflate_of_space herr h0, deflateBody_of_input_in_finishing hlt hp hin]
      rfl
    · refine ⟨_, rfl, ?_⟩
      obtain h | ⟨-, h⟩ := deflate_result_of_progress herr h0 hp hfin
      · rw [h]; decide
      · rw [h]; decide

/-! The codes of a command and of a step (60_exceptions.md R327, R328). -/

theorem idleMove_result {m : HostMove} {s t : State} (h : idleMove m s = .next t) :
    t.result = s.result ∨ t.result = .ok := by
  cases m with
  | regRead offset =>
    simp only [idleMove] at h
    split at h <;> cases h
    exact .inl rfl
  | regWrite offset v =>
    simp only [idleMove] at h
    split at h <;> cases h
    split
    · exact .inl rfl
    · rw [writeReg_eq]
      exact .inl rfl
  | memRead addr =>
    simp only [idleMove] at h
    split at h <;> cases h
    exact .inl rfl
  | memWrite addr v =>
    simp only [idleMove] at h
    split at h <;> cases h
    exact .inl rfl
  | hardReset => cases h; exact .inr rfl
  | cmdDone => cases h; exact .inl rfl

theorem busyMove_result {m : HostMove} {s t : State} (h : busyMove m s = .next t) :
    t.result = s.result ∨ t.result = .ok := by
  cases m with
  | regRead offset =>
    simp only [busyMove] at h
    split at h <;> cases h
    unfold busyRead
    split <;> exact .inl rfl
  | regWrite offset v =>
    simp only [busyMove] at h
    split at h <;> cases h
    unfold busyWrite
    split <;> exact .inl rfl
  | memRead addr =>
    simp only [busyMove] at h
    split at h
    · split at h <;> cases h
      exact .inl rfl
    · cases h
  | memWrite addr v =>
    simp only [busyMove] at h
    split at h
    · split at h <;> cases h
      exact .inl rfl
    · cases h
  | hardReset => cases h; exact .inr rfl
  | cmdDone => cases h; exact .inl rfl

/-- The four codes that this hardware writes (60_exceptions.md R327, R328). -/
def WrittenCode (r : Result) : Prop := r = .ok ∨ r = .streamEnd ∨ r = .bufError ∨ r = .streamError

theorem writtenCode_iff (r : Result) :
    WrittenCode r ↔ r ≠ .dataError ∧ r ≠ .needDict ∧ r ≠ .versionError ∧ r ≠ .memError := by
  cases r <;> simp [WrittenCode]

theorem CommandCode.written {i : Instr} {r : Result} (h : CommandCode i r) : WrittenCode r := by
  obtain h | ⟨-, h⟩ | ⟨-, h⟩ := h
  · exact .inl h
  · exact .inr (.inl h)
  · exact .inr (.inr (.inl h))

theorem execute_writtenCode (w : Word) (s : State) : ∃ t, execute w s = .next t ∧ WrittenCode t.result := by
  obtain h | ⟨i, t, -, h, hcode⟩ := execute_result w s
  · exact ⟨_, h, .inr (.inr (.inr rfl))⟩
  · exact ⟨t, h, hcode.written⟩

/-- A step is a host move or the command in progress: RESULT keeps its value, or is a code that a command writes. -/
theorem step_result {s t : State} (h : step s = .next t) : t.result = s.result ∨ WrittenCode t.result := by
  have hexec : ∀ {w u}, execute w u = .next t → t.result = s.result ∨ WrittenCode t.result := by
    intro w u hu
    obtain ⟨t', ht', hcode⟩ := execute_writtenCode w u
    cases hu.symm.trans ht'
    exact .inr hcode
  simp only [step, nextMove] at h
  split at h
  · cases h
    exact .inl rfl
  · exact (idleMove_result h).imp_right .inl
  · exact hexec h
  · exact hexec h
  · exact (busyMove_result h).imp_right .inl

/-- Settles O21: `execute_writtenCode`, and `step_result` for every step. -/
theorem resultCodesWritten : Obligations.ResultCodesWritten := by
  refine ⟨execute_writtenCode, fun s t h hs => ?_⟩
  rw [← writtenCode_iff] at hs ⊢
  obtain hkept | hcode := step_result h
  · rwa [hkept]
  · exact hcode

end Sys2Proof.Machine
end

section
/-! StreamEnd: what is out and what is left when it is written (60_exceptions.md R325; 40_commands.md R162, R166). -/

namespace Sys2Proof.Machine

theorem deflateHeader_streamEnd {f : Flush} {s : State} (hq : s.stream.pending = [])
    (hr : (deflateHeader f s).result = .streamEnd) :
    ∃ v, deflateHeader f s = deflateRun f v ∧ Enters s v ∧ v.stream.pending = [] := by
  by_cases hi : s.phase = .init
  · have hv := Enters.headerQueued hi
    rw [deflateHeader_of_init hi] at hr ⊢
    split at hr
    next hwrap =>
      split at hr
      next => cases hr
      next hsent =>
        rw [if_pos hwrap, if_neg hsent]
        exact ⟨_, rfl, hv.trans (.flushPending _), not_not.mp hsent⟩
    next hraw =>
      rw [if_neg hraw]
      refine ⟨_, rfl, hv, ?_⟩
      rw [headerQueued_pending, hq, streamHeader_raw (not_not.mp hraw)]
      rfl
  · exact ⟨s, deflateHeader_of_ne_init hi f, ⟨.refl s, id, .inl rfl⟩, hq⟩

/-- A DEFLATE that ends with StreamEnd has gone on to the strategy with an empty queue: the other ways end with another
code. -/
theorem deflate_streamEnd {f : Flush} {s : State} (hr : (deflate f s).result = .streamEnd) :
    f = .finish ∧ ¬ DeflateStreamError f s ∧ ∃ v, deflate f s = deflateRun f v ∧ Enters s v ∧ v.stream.pending = [] := by
  have herr : ¬ DeflateStreamError f s := fun h => by rw [deflate_of_streamError h] at hr; cases hr
  have h0 : s.outAvail ≠ 0 := fun h => by rw [deflate_of_no_space herr h] at hr; cases hr
  have hf : f = .finish := by
    obtain h | ⟨hf, -⟩ | h := deflate_result herr
    · cases h.symm.trans hr
    · exact hf
    · cases h.symm.trans hr
  rw [deflate_of_space herr h0] at hr ⊢
  have hp : ¬ NoProgress f s := fun ⟨_, _, hne, _⟩ => hne hf
  have hlt : s.stream.pending.length < s.outAvail.toNat := by
    by_contra hge
    rw [deflateBody_of_queue_filling h0 (not_lt.mp hge)] at hr
    cases hr
  rw [deflateBody_of_queue_sent hlt hp, deflateFinishing] at hr ⊢
  split at hr
  next => cases hr
  next hin =>
    have hq : (setLastFlush (.mode f) (flushPending s)).stream.pending = [] := by
      rw [setLastFlush_stream, flushPending_stream_of_fits hlt.le]
    obtain ⟨v, hrun, hv, hempty⟩ := deflateHeader_streamEnd hq hr
    rw [if_neg hin]
    exact ⟨hf, herr, v, hrun, ((Enters.flushPending s).trans (.setLastFlush _ _)).trans hv, hempty⟩

/-- What StreamEnd says besides the invariant: the stream is DONE, no input is left, and everything queued is out, the
trailer included. -/
structure StreamEnded (t : State) : Prop where
  phase : t.phase = .done
  inAvail : t.inAvail = 0
  pending : t.stream.pending = []
  trailer : t.stream.wrap = .raw ∨ t.stream.trailerDone = true

theorem deflateTail_streamEnd {f : Flush} {s : State} (hin : s.inAvail = 0) (hq : s.stream.pending = []) :
    (deflateTail f s).result = .streamEnd → StreamEnded (deflateTail f s) := by
  simp only [deflateTail]
  split
  next => exact fun hr => by cases hr
  next =>
    split
    next htrailer => exact fun _ => ⟨rfl, hin, hq, htrailer⟩
    next =>
      split
      next => exact fun hr => by cases hr
      next hsent =>
        obtain ⟨-, kin, p, ks⟩ := flushPending_kept (markTrailer (emitTrailer s))
        refine fun _ => ⟨rfl, kin.trans hin, not_not.mp hsent, .inr ?_⟩
        rw [endCommand_stream, setPhase_stream, ks]
        rfl

/-- Under FINISH, only a strategy that has sent its final block leads to StreamEnd (40_commands.md R162). -/
theorem afterStrategy_streamEnd {b : BlockState} {s : State} (hpost : StrategyPost .finish b s)
    (hr : (afterStrategy .finish b s).result = .streamEnd) : StreamEnded (afterStrategy .finish b s) := by
  have hreturn : ∀ u : State, (if u.outAvail = 0 then returnOutFull u else endCommand .ok u).result = .ok := by
    intro u
    split <;> rfl
  cases b with
  | needMore => cases (hreturn s).symm.trans hr
  | blockDone => obtain ⟨h | h, -⟩ := hpost <;> cases h
  | finishStarted => cases (hreturn (setPhase .finishing s)).symm.trans hr
  | finishDone =>
    obtain ⟨-, ⟨hin, -⟩, -, -, hq⟩ := hpost
    exact deflateTail_streamEnd (f := .finish) (s := setPhase .finishing s) hin hq hr

theorem deflateRun_streamEnd {s : State} (hok : StreamOk s.stream) (hq : s.stream.pending = [])
    (hr : (deflateRun .finish s).result = .streamEnd) : StreamEnded (deflateRun .finish s) := by
  by_cases hwork : strategyHasWork .finish s = true
  · have hrun : deflateRun .finish s = afterStrategy .finish (runStrategy .finish s).1 (runStrategy .finish s).2 :=
      if_pos hwork
    rw [hrun] at hr ⊢
    exact afterStrategy_streamEnd (runStrategy_spec .finish hok).1 hr
  · rw [deflateRun, if_neg hwork] at hr ⊢
    obtain ⟨hin, -⟩ := not_or.mp (mt (strategyHasWork_iff .finish s).mpr hwork)
    exact deflateTail_streamEnd (not_not.mp hin) hq hr

/-- A word that ends with StreamEnd is DEFLATE with FINISH. -/
theorem execute_streamEnd {w : Word} {s t : State} (h : execute w s = .next t) (hr : t.result = .streamEnd) :
    w = encode .deflateFinish ∧ t = deflate .finish s := by
  obtain ⟨i, rfl, hcode⟩ := execute_commandCode h (by rw [hr]; decide)
  rw [hr] at hcode
  obtain hok | ⟨rfl, -⟩ | ⟨-, hbuf⟩ := hcode
  · cases hok
  · rw [execute_of_ok (decode_encode _)] at h
    cases h
    exact ⟨rfl, rfl⟩
  · cases hbuf

/-- Settles O20: StreamEnd comes from the strategy with an empty queue (`deflate_streamEnd`), `deflateRun_streamEnd` says
what is out by then, and the invariant of the next state what is encoded. -/
theorem streamEndMeansComplete : Obligations.StreamEndMeansComplete := by
  intro w s t hinv ht hr
  obtain ⟨-, -, hfinished⟩ := execute_inv hinv ht
  obtain ⟨-, hstarted, -⟩ := hinv
  obtain ⟨hw, rfl⟩ := execute_streamEnd ht hr
  obtain ⟨-, herr, v, hrun, hv, hq⟩ := deflate_streamEnd hr
  have hok : StreamOk v.stream := hv.streamOk (hstarted fun hp => herr (.inl hp))
  have hend : StreamEnded (deflate .finish s) := by
    rw [hrun] at hr ⊢
    exact deflateRun_streamEnd hok hq hr
  obtain ⟨hla, hbits, hsyms, hblock⟩ := hfinished (.inr hend.phase)
  exact ⟨hw, fun hp => herr (.inr (.inl hp)), hend.phase, hend.inAvail, hla, hsyms, hblock, hbits, hend.pending,
    hend.trailer, fun f => exec_deflate_of_streamError (.inr (.inl hend.phase))⟩

end Sys2Proof.Machine
end

section
/-! Hazards and hardware reset: what a command in progress answers to the host, OVERRUN, and the state after a reset
(70_reset_and_hazards.md R360 to R367). -/

namespace Sys2Proof.Machine

/-! Moves while BUSY = 1 (70_reset_and_hazards.md R365, R366; 20_memory.md R83, R90). -/

theorem inRange_iff (ptr avail : Word) (a : Nat) :
    inRange ptr avail a = true ↔ ptr.toNat ≤ a ∧ a < ptr.toNat + avail.toNat := by simp [inRange]

theorem inRange_output_iff (s : State) (a : Nat) : inRange s.outPtr s.outAvail a = true ↔ InOutput s a := inRange_iff ..

theorem inRange_input_iff (s : State) (a : Nat) : inRange s.inPtr s.inAvail a = true ↔ InInput s a := inRange_iff ..

/-- A step while BUSY = 1 takes the next move, unless that move ends the command. -/
theorem step_busy {s : State} {w : Word} {m : HostMove} {rest : List HostMove} (hr : s.running = some w)
    (hi : s.inputs = m :: rest) (hm : m ≠ .cmdDone) : step s = busyMove m { s with inputs := rest } := by
  cases m with
  | cmdDone => exact absurd rfl hm
  | regRead => simp only [step, nextMove, hr, hi]
  | regWrite => simp only [step, nextMove, hr, hi]
  | memRead => simp only [step, nextMove, hr, hi]
  | memWrite => simp only [step, nextMove, hr, hi]
  | hardReset => simp only [step, nextMove, hr, hi]

theorem busyMove_command (v : Word) (s : State) :
    busyMove (.regWrite 0x04 v) s = .next { s with overrun := true } := rfl

theorem busyMove_status (s : State) : busyMove (.regRead 0x08) s = .next { s with readData := statusWord s } := rfl

theorem busyMove_regRead {offset : Nat} (ho : WordOffset offset) (hs : offset ≠ 0x08) (s : State) :
    busyMove (.regRead offset) s =
      .next { s with readData := Config.freeRead s.draws offset, draws := s.draws + 1 } := by
  rw [busyMove, if_pos ((registerOffset_iff offset).mpr ho), busyRead, if_neg (show ¬ offset = statusOffset from hs)]

theorem busyMove_regWrite {offset : Nat} (ho : WordOffset offset) (hc : offset ≠ 0x04) (v : Word) (s : State) :
    busyMove (.regWrite offset v) s = .next s := by
  rw [busyMove, if_pos ((registerOffset_iff offset).mpr ho), busyWrite, if_neg (show ¬ offset = cmdOffset from hc)]

theorem busyMove_regRead_refused {offset : Nat} (ho : ¬ WordOffset offset) (s : State) :
    busyMove (.regRead offset) s = .refused .registerAccessWithoutMeaning := by
  rw [busyMove, if_neg (mt (registerOffset_iff offset).mp ho)]

theorem busyMove_regWrite_refused {offset : Nat} (ho : ¬ WordOffset offset) (v : Word) (s : State) :
    busyMove (.regWrite offset v) s = .refused .registerAccessWithoutMeaning := by
  rw [busyMove, if_neg (mt (registerOffset_iff offset).mp ho)]

theorem busyMove_memRead {a : Nat} (ha : a < Memory.size) (s : State) : busyMove (.memRead a) s =
    if inRange s.outPtr s.outAvail a then .refused .hostTouchesBufferWhileBusy
    else .next { s with readData := (s.memory.read a).setWidth 32 } := if_pos ha

theorem busyMove_memWrite {a : Nat} (ha : a < Memory.size) (b : Byte) (s : State) : busyMove (.memWrite a b) s =
    if inRange s.outPtr s.outAvail a || inRange s.inPtr s.inAvail a then .refused .hostTouchesBufferWhileBusy
    else .next { s with memory := s.memory.write a b } := if_pos ha

theorem busyMove_memRead_outside {a : Nat} (ha : Memory.size ≤ a) (s : State) :
    busyMove (.memRead a) s = .fault .addressOutsideHostMemory := if_neg (Nat.not_lt.mpr ha)

theorem busyMove_memWrite_outside {a : Nat} (ha : Memory.size ≤ a) (b : Byte) (s : State) :
    busyMove (.memWrite a b) s = .fault .addressOutsideHostMemory := if_neg (Nat.not_lt.mpr ha)

theorem busyMove_memRead_forbidden {a : Nat} {s : State} (ha : a < Memory.size) (ho : InOutput s a) :
    busyMove (.memRead a) s = .refused .hostTouchesBufferWhileBusy := by
  rw [busyMove_memRead ha, if_pos ((inRange_output_iff s a).mpr ho)]

theorem busyMove_memWrite_forbidden {a : Nat} {b : Byte} {s : State} (ha : a < Memory.size)
    (h : InOutput s a ∨ InInput s a) : busyMove (.memWrite a b) s = .refused .hostTouchesBufferWhileBusy := by
  rw [busyMove_memWrite ha, if_pos]
  rwa [Bool.or_eq_true, inRange_output_iff, inRange_input_iff]

theorem busyMove_memRead_allowed {a : Nat} {s : State} (ha : a < Memory.size) (ho : ¬ InOutput s a) :
    busyMove (.memRead a) s = .next { s with readData := (s.memory.read a).setWidth 32 } := by
  rw [busyMove_memRead ha, if_neg (mt (inRange_output_iff s a).mp ho)]

theorem busyMove_memWrite_allowed {a : Nat} {b : Byte} {s : State} (ha : a < Memory.size) (ho : ¬ InOutput s a)
    (hin : ¬ InInput s a) : busyMove (.memWrite a b) s = .next { s with memory := s.memory.write a b } := by
  rw [busyMove_memWrite ha, if_neg]
  rw [Bool.or_eq_true, inRange_output_iff, inRange_input_iff]
  exact not_or.mpr ⟨ho, hin⟩

/-! OVERRUN (70_reset_and_hazards.md R367). -/

theorem idleMove_overrun {m : HostMove} {s t : State} (h : idleMove m s = .next t) :
    t.overrun = s.overrun ∨ m = .hardReset ∧ t.overrun = false := by
  cases m with
  | regRead offset =>
    simp only [idleMove] at h
    split at h <;> cases h
    exact .inl rfl
  | regWrite offset v =>
    simp only [idleMove] at h
    split at h <;> cases h
    split
    · exact .inl rfl
    · rw [writeReg_eq]
      exact .inl rfl
  | memRead a =>
    simp only [idleMove] at h
    split at h <;> cases h
    exact .inl rfl
  | memWrite a v =>
    simp only [idleMove] at h
    split at h <;> cases h
    exact .inl rfl
  | hardReset => cases h; exact .inr ⟨rfl, rfl⟩
  | cmdDone => cases h; exact .inl rfl

theorem busyMove_overrun {m : HostMove} {s t : State} (h : busyMove m s = .next t) :
    t.overrun = s.overrun ∨ m = .hardReset ∧ t.overrun = false ∨ (∃ v, m = .regWrite 0x04 v) ∧ t.overrun = true := by
  cases m with
  | regRead offset =>
    simp only [busyMove] at h
    split at h <;> cases h
    unfold busyRead
    split <;> exact .inl rfl
  | regWrite offset v =>
    simp only [busyMove] at h
    split at h <;> cases h
    unfold busyWrite
    split
    next hc => exact .inr (.inr ⟨⟨v, by rw [hc]; rfl⟩, rfl⟩)
    next => exact .inl rfl
  | memRead a =>
    simp only [busyMove] at h
    split at h
    · split at h <;> cases h
      exact .inl rfl
    · cases h
  | memWrite a v =>
    simp only [busyMove] at h
    split at h
    · split at h <;> cases h
      exact .inl rfl
    · cases h
  | hardReset => cases h; exact .inr (.inl ⟨rfl, rfl⟩)
  | cmdDone => cases h; exact .inl rfl

theorem deflate_overrun (f : Flush) (s : State) : (deflate f s).overrun = s.overrun := by
  obtain ⟨_, _, h⟩ := deflate_moved f s
  exact h.overrun

theorem exec_overrun {i : Instr} {s t : State} (h : exec i s = .next t) : t.overrun = s.overrun := by
  cases i with
  | init => exact (execInit_frame h).1.overrun
  | reset => exact (execReset_frame h).1.overrun
  | deflateNoFlush => cases h; exact deflate_overrun .noFlush s
  | deflateSyncFlush => cases h; exact deflate_overrun .syncFlush s
  | deflateFullFlush => cases h; exact deflate_overrun .fullFlush s
  | deflateFinish => cases h; exact deflate_overrun .finish s
  | endStream => exact (execEndStream_frame h).1.overrun
  | bound => exact (execBound_frame h).1.overrun

theorem execute_overrun {w : Word} {s t : State} (h : execute w s = .next t) : t.overrun = s.overrun := by
  cases hd : decode w with
  | ok i => exact exec_overrun ((execute_of_ok hd s).symm.trans h)
  | error e => cases (execute_of_error hd s).symm.trans h; rfl

/-- What a step does to OVERRUN: nothing, or it is a hardware reset, or a CMD write while BUSY = 1. -/
theorem step_overrun {s t : State} (h : step s = .next t) :
    t.overrun = s.overrun ∨ s.inputs.head? = some .hardReset ∧ t.overrun = false ∨
      (s.running.isSome = true ∧ ∃ v, s.inputs.head? = some (.regWrite 0x04 v)) ∧ t.overrun = true := by
  simp only [step, nextMove] at h
  split at h
  next => cases h; exact .inl rfl
  next m rest hr hi =>
    rw [hi]
    obtain hkept | ⟨rfl, hf⟩ := idleMove_overrun h
    · exact .inl hkept
    · exact .inr (.inl ⟨rfl, hf⟩)
  next => exact .inl (execute_overrun h)
  next w rest hr hi => exact .inl (execute_overrun (s := { s with inputs := rest }) h)
  next w m rest hr hi =>
    rw [hr, hi]
    obtain hkept | ⟨rfl, hf⟩ | ⟨⟨v, rfl⟩, ht⟩ := busyMove_overrun h
    · exact .inl hkept
    · exact .inr (.inl ⟨rfl, hf⟩)
    · exact .inr (.inr ⟨⟨rfl, v, rfl⟩, ht⟩)

/-! Hardware reset (70_reset_and_hazards.md R360, R361). -/

/-- A hardware reset acts alike whether a command is in progress or not. -/
theorem step_hardReset {s : State} {rest : List HostMove} (hi : s.inputs = .hardReset :: rest) :
    step s = .next (hardReset { s with inputs := rest }) := by
  obtain hr | ⟨w, hr⟩ := Option.eq_none_or_eq_some s.running
  · exact step_idle hr hi
  · exact step_busy hr hi nofun

/-- Every register after a hardware reset reads as at `State.reset`. -/
theorem registerRead_hardReset (offset : Nat) (s : State) :
    registerRead (hardReset s) offset = if offset = 0 then Config.implId else 0 := registerRead_reset offset

theorem statusWord_hardReset (s : State) : statusWord (hardReset s) = 0 := statusWord_reset

theorem mayWrite_of_idle {s : State} (h : s.running = none) : mayWrite s = false := by
  rw [mayWrite, h]
  rfl

/-- An abandoned command has disturbed its output range at most (log 9). -/
theorem abandonedMemory_read {s : State} {a : Nat} (h : s.running = none ∨ ¬ InOutput s a) :
    (abandonedMemory s).read a = s.memory.read a := by
  unfold abandonedMemory
  split
  next hw =>
    obtain hr | ho := h
    · rw [mayWrite_of_idle hr] at hw
      cases hw
    · unfold InOutput at ho
      exact scramble_other _ _ _ _ _ (by omega)
  next => rfl

/-! The obligations. -/

/-- Settles O10: the CMD write is `busyMove_command`, and `step_overrun` says what every other step does to OVERRUN. -/
theorem busyCommandWriteOverruns : Obligations.BusyCommandWriteOverruns := by
  refine ⟨fun s w v rest hr hi => ?_, fun s t h hs hm => ?_, fun s t h hs ht => ?_⟩
  · rw [step_busy hr hi nofun, busyMove_command]
  · obtain hkept | ⟨hreset, -⟩ | ⟨-, hset⟩ := step_overrun h
    · exact hkept.trans hs
    · exact absurd hreset hm
    · exact hset
  · obtain hkept | ⟨-, hclear⟩ | ⟨hcmd, -⟩ := step_overrun h
    · rw [hkept, hs] at ht
      cases ht
    · rw [hclear] at ht
      cases ht
    · exact hcmd

/-- Settles O11: a move while BUSY = 1 is `busyMove`, one lemma for each kind of access. -/
theorem busyAccess : Obligations.BusyAccess := by
  intro s w offset a v b rest hr
  refine ⟨fun hi => ⟨?_, ?_⟩, fun ho hs hi => ⟨Config.freeRead s.draws offset, ?_⟩, fun ho hc hi => ?_,
    fun ho hi => ?_, fun ha ho hi => ?_, fun ha hin hi => ?_, fun ha ho hi => ?_, fun ha ho hin hm hi => ?_,
    fun ha hi => ?_⟩
  · exact (step_busy hr hi nofun).trans (busyMove_status _)
  · rw [statusWord_busy, hr]
    rfl
  · exact (step_busy hr hi nofun).trans (busyMove_regRead ho hs _)
  · exact (step_busy hr hi nofun).trans (busyMove_regWrite ho hc v _)
  · obtain hi | hi := hi
    · exact (step_busy hr hi nofun).trans (busyMove_regRead_refused ho _)
    · exact (step_busy hr hi nofun).trans (busyMove_regWrite_refused ho v _)
  · obtain hi | hi := hi
    · exact (step_busy hr hi nofun).trans (busyMove_memRead_forbidden ha ho)
    · exact (step_busy hr hi nofun).trans (busyMove_memWrite_forbidden ha (.inl ho))
  · exact (step_busy hr hi nofun).trans (busyMove_memWrite_forbidden ha (.inr hin))
  · exact (step_busy hr hi nofun).trans (busyMove_memRead_allowed ha ho)
  · exact ⟨s.memory.write a b, (step_busy hr hi nofun).trans (busyMove_memWrite_allowed ha ho hin),
      Memory.wf_write hm ha, fun c => Memory.read_write hm a c b⟩
  · obtain hi | hi := hi
    · exact (step_busy hr hi nofun).trans (busyMove_memRead_outside ha _)
    · exact (step_busy hr hi nofun).trans (busyMove_memWrite_outside ha b _)

/-- Settles O12: `step_hardReset`, then the registers as at `State.reset` and memory by `abandonedMemory_read`. -/
theorem hardwareResetEffect : Obligations.HardwareResetEffect := fun s _ hi =>
  ⟨_, step_hardReset hi, fun offset _ => registerRead_hardReset offset _, statusWord_hardReset _, rfl, rfl, rfl,
    ⟨s.draws, rfl⟩, fun _ ha => abandonedMemory_read ha⟩

/-- Settles O58: no cell of memory is listed at reset, and `S.state` is UNINIT. -/
theorem invAtReset : Obligations.InvAtReset :=
  ⟨reset_memory_wf, fun hp => absurd rfl hp, fun hp => by obtain hp | hp := hp <;> cases hp⟩

end Sys2Proof.Machine
end

section
/-! Determinism: what a command does depends on the registers, `S` and its input bytes only
(70_reset_and_hazards.md R377). -/

namespace Sys2Proof.Machine

/-- What a state holds of the world outside the block: host memory, the coming moves and the last read. -/
structure HostSide where
  memory : Memory
  moves : List HostMove
  lastRead : Word

/-- The state with another host. -/
def State.withHost (h : HostSide) (s : State) : State :=
  { s with memory := h.memory, inputs := h.moves, readData := h.lastRead }

/-- Bytes stored in that host's memory. -/
def HostSide.store (p : Word) (bs : List Byte) (h : HostSide) : HostSide :=
  { h with memory := storeBytes p bs h.memory }

/-! The two memory primitives under another host. -/

theorem Apart.toNat_inPtr_add {s : State} (h : Apart s) {i : Nat} (hi : i < s.inAvail.toNat) :
    (s.inPtr + BitVec.ofNat 32 i).toNat = s.inPtr.toNat + i := by
  rw [Apart, BadRanges, not_or] at h
  obtain ⟨hin, -⟩ := h
  rw [BitVec.toNat_add, BitVec.toNat_ofNat]
  omega

/-- What is left of the input lies in the input range. -/
theorem Moves.inInput {k m : Nat} {s s' : State} (h : Moves k m s s') (ha : Apart s) {a : Nat} (hin : InInput s' a) :
    InInput s a := by
  have hk := h.kLe
  rw [Apart, BadRanges, not_or] at ha
  obtain ⟨hi, -⟩ := ha
  rw [InInput, h.toNat_inAvail, h.inPtr, BitVec.toNat_add, BitVec.toNat_ofNat] at hin
  unfold InInput
  omega

/-- Storing in the output range leaves the input bytes alone, in any memory. -/
theorem Stores.read_input {bs : List Byte} {s t : State} (h : Stores bs s t) (ha : Apart s) {a : Nat}
    (hin : InInput s a) (m : Memory) : (storeBytes s.outPtr bs m).read a = m.read a := by
  have hfits := h.fits
  rw [Apart, BadRanges, not_or, not_or, not_exists] at ha
  obtain ⟨-, hout, hno⟩ := ha
  have := hno a
  unfold InInput at hin
  exact storeBytes_outside _ _ _ (by omega) (by omega)

theorem inputBytes_withHost {s : State} (ha : Apart s) {h : HostSide} (hm : SameInput h.memory s) {k : Nat}
    (hk : k ≤ s.inAvail.toNat) : inputBytes (s.withHost h) k = inputBytes s k := by
  refine List.map_congr_left fun i hi => hm (s.inPtr + BitVec.ofNat 32 i).toNat ?_
  have := List.mem_range.mp hi
  rw [InInput, ha.toNat_inPtr_add (by omega)]
  omega

theorem readInput_withHost {s : State} (ha : Apart s) {h : HostSide} (hm : SameInput h.memory s) (n dst : Nat) :
    readInput n dst (s.withHost h) = (readInput n dst s).withHost h := by
  have hbytes : inputBytes (s.withHost h) (readCount n (s.withHost h)) = inputBytes s (readCount n s) :=
    inputBytes_withHost ha hm (readCount_le n s)
  rw [readInput_eq, readInput_eq, hbytes]
  rfl

theorem flushPending_withHost (s : State) (h : HostSide) : flushPending (s.withHost h) =
    (flushPending s).withHost (h.store s.outPtr (s.stream.pending.take (flushCount s))) := by
  rw [flushPending_eq, flushPending_eq]
  rfl

/-- The same bytes stored in two memories read back alike, and what was alike stays alike. -/
theorem storeBytes_read_congr {m m' : Memory} (hm : m.wf = true) (hm' : m'.wf = true) (p : Word) (bs : List Byte)
    {a : Nat} (ha : m.read a = m'.read a ∨ ∃ i, i < bs.length ∧ a = (p + BitVec.ofNat 32 i).toNat) :
    (storeBytes p bs m).read a = (storeBytes p bs m').read a := by
  induction bs generalizing p m m' with
  | nil => exact ha.resolve_right fun ⟨_, hi, _⟩ => absurd hi (Nat.not_lt_zero _)
  | cons b bs ih =>
    refine ih (Memory.wf_write hm p.isLt) (Memory.wf_write hm' p.isLt) (p + 1) ?_
    rw [Memory.read_write hm, Memory.read_write hm']
    obtain ha | ⟨i, hi, rfl⟩ := ha
    · exact .inl (by rw [ha])
    · cases i with
      | zero => exact .inl (by simp)
      | succ i => exact .inr ⟨i, Nat.lt_of_succ_lt_succ hi, by rw [succ_word]⟩

/-! Two runs of a DEFLATE side by side. -/

/-- `t` and `t'` are where `s` and `s` with the host `h` have come to: they differ in their hosts only, and the same
bytes have been stored in the two memories. -/
def Alike (s : State) (h : HostSide) (t t' : State) : Prop :=
  ∃ bs, Stores bs s t ∧ t' = t.withHost (h.store s.outPtr bs)

/-- A part of a command that has nothing to do with the host: it moves no byte and acts alike under every host. -/
structure Inside (g : State → State) : Prop where
  moves : ∀ s, Moves 0 0 s (g s)
  memory : ∀ s, (g s).memory = s.memory
  withHost : ∀ h s, g (s.withHost h) = (g s).withHost h

theorem Inside.onStream {g : Stream → Stream} (hg : ∀ t, SameConfig t (g t)) : Inside (State.onStream g) :=
  ⟨Moves.onStream g hg, fun _ => rfl, fun _ _ => rfl⟩

theorem Inside.setPhase (p : Phase) : Inside (setPhase p) := ⟨Moves.setPhase p, fun _ => rfl, fun _ _ => rfl⟩

theorem Inside.endCommand (r : Result) : Inside (endCommand r) := ⟨Moves.endCommand r, fun _ => rfl, fun _ _ => rfl⟩

theorem Inside.setLastFlush (l : LastFlush) : Inside (setLastFlush l) :=
  ⟨Moves.setLastFlush l, fun _ => rfl, fun _ _ => rfl⟩

theorem Inside.returnOutFull : Inside returnOutFull := ⟨fun s => { Moves.refl s with }, fun _ => rfl, fun _ _ => rfl⟩

theorem Inside.emitTrailer : Inside emitTrailer :=
  ⟨fun s => { Moves.refl s with }, fun _ => rfl, fun _ _ => rfl⟩

theorem Inside.markTrailer : Inside markTrailer :=
  ⟨fun s => { Moves.refl s with }, fun _ => rfl, fun _ _ => rfl⟩

/-- `Alike` in the course of a DEFLATE, which has moved some bytes. -/
structure Twin (s : State) (h : HostSide) (a b : State) : Prop where
  moved : Moved s a
  alike : Alike s h a b

namespace Twin

variable {s : State} {h : HostSide} {a b : State}

theorem refl (s : State) (h : HostSide) : Twin s h s (s.withHost h) where
  moved := .refl s
  alike := ⟨[], ⟨Nat.zero_le _, by simp, by simp, rfl⟩, rfl⟩

theorem stream (k : Twin s h a b) : b.stream = a.stream := by
  obtain ⟨-, _, -, rfl⟩ := k
  rfl

theorem inAvail (k : Twin s h a b) : b.inAvail = a.inAvail := by
  obtain ⟨-, _, -, rfl⟩ := k
  rfl

theorem outAvail (k : Twin s h a b) : b.outAvail = a.outAvail := by
  obtain ⟨-, _, -, rfl⟩ := k
  rfl

theorem phase (k : Twin s h a b) : b.phase = a.phase := by
  obtain ⟨-, _, -, rfl⟩ := k
  rfl

theorem inside (k : Twin s h a b) {g : State → State} (hg : Inside g) : Twin s h (g a) (g b) := by
  obtain ⟨hmoved, bs, hs, rfl⟩ := k
  have hm := hg.moves a
  refine ⟨hmoved.trans hm.moved, bs, ⟨hs.fits, ?_, ?_, (hg.memory a).trans hs.memory⟩, hg.withHost _ a⟩
  · rw [hm.outPtr, hs.outPtr, BitVec.add_zero]
  · rw [hm.outAvail, hs.outAvail, BitVec.sub_zero]

theorem flush (k : Twin s h a b) : Twin s h (flushPending a) (flushPending b) := by
  obtain ⟨hmoved, bs, hs, rfl⟩ := k
  refine ⟨hmoved.trans (Moves.flush a).moved, _, hs.trans (.flushPending a), ?_⟩
  rw [flushPending_withHost, hs.outPtr, HostSide.store, HostSide.store, HostSide.store, storeBytes_append]

theorem read (ha : Apart s) (hin : SameInput h.memory s) (n dst : Nat) (k : Twin s h a b) :
    Twin s h (readInput n dst a) (readInput n dst b) := by
  obtain ⟨hmoved, bs, hs, rfl⟩ := k
  have hsame : SameInput (h.store s.outPtr bs).memory a := by
    intro x hx
    obtain ⟨_, _, hm⟩ := hmoved
    have hx := hm.inInput ha hx
    rw [HostSide.store, hs.read_input ha hx, hs.memory, hs.read_input ha hx, hin x hx]
  refine ⟨hmoved.trans (Moves.read n dst a).moved, bs, ?_, readInput_withHost (hmoved.apart ha) hsame n dst⟩
  rw [readInput_eq]
  exact ⟨hs.fits, hs.outPtr, hs.outAvail, hs.memory⟩

theorem strategic (ha : Apart s) (hin : SameInput h.memory s) : Strategic (Twin s h) where
  same k := ⟨k.stream, k.inAvail, k.outAvail⟩
  onStream _ hg k := k.inside (.onStream hg)
  read := read ha hin
  flush := flush

theorem streamEnd (k : Twin s h a b) :
    Twin s h (endCommand .streamEnd (setPhase .done a)) (endCommand .streamEnd (setPhase .done b)) :=
  (k.inside (.setPhase _)).inside (.endCommand _)

theorem deflateTail (f : Flush) (k : Twin s h a b) : Twin s h (deflateTail f a) (deflateTail f b) := by
  have kf := ((k.inside .emitTrailer).inside .markTrailer).flush
  simp only [Machine.deflateTail, k.stream, kf.stream]
  split
  · exact k.inside (.endCommand _)
  · split
    · exact k.streamEnd
    · split
      · exact kf.inside (.endCommand _)
      · exact kf.streamEnd

theorem enterFinishing (c : BlockState) (k : Twin s h a b) : Twin s h (enterFinishing c a) (enterFinishing c b) := by
  unfold Machine.enterFinishing
  split
  · exact k.inside (.setPhase _)
  · exact k

theorem afterStrategy (f : Flush) (c : BlockState) (k : Twin s h a b) :
    Twin s h (afterStrategy f c a) (afterStrategy f c b) := by
  have ke := k.enterFinishing c
  have km := (ke.inside (.onStream (flushMarker_same f))).flush
  simp only [Machine.afterStrategy, ke.outAvail, km.outAvail]
  split
  · split
    · exact ke.inside .returnOutFull
    · exact ke.inside (.endCommand _)
  · split
    · split
      · exact km.inside .returnOutFull
      · exact km.deflateTail f
    · exact ke.deflateTail f

variable (ha : Apart s) (hin : SameInput h.memory s)

include ha hin

theorem deflateRun (f : Flush) (k : Twin s h a b) : Twin s h (deflateRun f a) (deflateRun f b) := by
  have hwork : strategyHasWork f b = strategyHasWork f a := by
    rw [strategyHasWork, k.stream, k.inAvail, k.phase]
    rfl
  obtain ⟨hanswer, kr⟩ := (strategic ha hin).runStrategy f k
  simp only [Machine.deflateRun, hwork, ← hanswer]
  split
  · exact kr.afterStrategy f _
  · exact k.deflateTail f

theorem deflateHeader (f : Flush) (k : Twin s h a b) : Twin s h (deflateHeader f a) (deflateHeader f b) := by
  by_cases hi : a.phase = .init
  · have kq : Twin s h (headerQueued a) (headerQueued b) :=
      (k.inside (.onStream emitHeader_same)).inside (.setPhase _)
    rw [deflateHeader_of_init hi, deflateHeader_of_init (k.phase.trans hi), k.stream, kq.flush.stream]
    split
    · split
      · exact kq.flush.inside .returnOutFull
      · exact kq.flush.deflateRun ha hin f
    · exact kq.deflateRun ha hin f
  · rw [deflateHeader_of_ne_init hi, deflateHeader_of_ne_init (k.phase.trans_ne hi)]
    exact k.deflateRun ha hin f

theorem deflateFinishing (f : Flush) (k : Twin s h a b) : Twin s h (deflateFinishing f a) (deflateFinishing f b) := by
  simp only [Machine.deflateFinishing, k.phase, k.inAvail]
  split
  · exact k.inside (.endCommand _)
  · exact k.deflateHeader ha hin f

theorem deflateBody (f : Flush) (k : Twin s h a b) : Twin s h (deflateBody f a) (deflateBody f b) := by
  have kl := k.inside (.setLastFlush (.mode f))
  have hprogress : noProgress f b.stream.lastFlush (Machine.setLastFlush (.mode f) b) =
      noProgress f a.stream.lastFlush (Machine.setLastFlush (.mode f) a) := by
    rw [noProgress, kl.inAvail, k.stream]
    rfl
  simp only [Machine.deflateBody, kl.stream, kl.flush.outAvail, hprogress]
  split
  · split
    · exact kl.flush.inside .returnOutFull
    · exact kl.flush.deflateFinishing ha hin f
  · split
    · exact kl.inside (.endCommand _)
    · exact kl.deflateFinishing ha hin f

end Twin

theorem deflate_twin (f : Flush) {s : State} {h : HostSide} (hin : SameInput h.memory s) :
    Twin s h (deflate f s) (deflate f (s.withHost h)) := by
  have hcheck : deflateCheck f (s.withHost h) = deflateCheck f s := rfl
  simp only [deflate, hcheck]
  split
  next => exact (Twin.refl s h).inside (.endCommand _)
  next hc => exact (Twin.refl s h).deflateBody (apart_of_no_streamError (deflateCheck_none hc).1) hin f

/-! The other commands. -/

/-- A command that ends quietly stores nothing. -/
theorem EndsQuietly.alike {s t : State} (hq : EndsQuietly s t) (h : HostSide) : Alike s h t (t.withHost h) :=
  ⟨[], ⟨Nat.zero_le _, by rw [hq.outPtr]; simp, by rw [hq.outAvail]; simp, hq.memory⟩, rfl⟩

theorem initCommand_withHost (level : BitVec 4) (wbits : BitVec 8) (h : HostSide) (s : State) :
    initCommand level wbits (s.withHost h) = (initCommand level wbits s).withHost h := by
  unfold initCommand
  split
  · rfl
  · split
    · rfl
    · split
      · rfl
      · rfl

/-! Every command. -/

theorem exec_alike (i : Instr) {s : State} {h : HostSide} (hin : SameInput h.memory s) :
    ∃ t t', exec i s = .next t ∧ exec i (s.withHost h) = .next t' ∧ Alike s h t t' := by
  cases i with
  | init level wbits =>
    exact ⟨_, _, rfl, congrArg Host.Outcome.next (initCommand_withHost level wbits h s), (execInit_frame rfl).1.alike h⟩
  | reset =>
    refine ⟨_, _, rfl, ?_, (execReset_frame rfl).1.alike h⟩
    rw [apply_ite (State.withHost h)]
    rfl
  | deflateNoFlush => exact ⟨_, _, rfl, rfl, (deflate_twin .noFlush hin).alike⟩
  | deflateSyncFlush => exact ⟨_, _, rfl, rfl, (deflate_twin .syncFlush hin).alike⟩
  | deflateFullFlush => exact ⟨_, _, rfl, rfl, (deflate_twin .fullFlush hin).alike⟩
  | deflateFinish => exact ⟨_, _, rfl, rfl, (deflate_twin .finish hin).alike⟩
  | endStream =>
    refine ⟨_, _, rfl, ?_, (execEndStream_frame rfl).1.alike h⟩
    rw [apply_ite (State.withHost h)]
    rfl
  | bound => exact ⟨_, _, rfl, rfl, (execBound_frame rfl).1.alike h⟩

theorem execute_alike (w : Word) {s : State} {h : HostSide} (hin : SameInput h.memory s) :
    ∃ t t', execute w s = .next t ∧ execute w (s.withHost h) = .next t' ∧ Alike s h t t' := by
  cases hd : decode w with
  | ok i =>
    rw [execute_of_ok hd, execute_of_ok hd]
    exact exec_alike i hin
  | error e => exact ⟨_, _, execute_of_error hd s, execute_of_error hd _, (raise_endsQuietly .streamError s).alike h⟩

theorem Stores.storedCount_eq {bs : List Byte} {s t : State} (h : Stores bs s t) : storedCount s t = bs.length := by
  have hfits := h.fits
  have hlt := s.outAvail.isLt
  rw [storedCount, BitVec.toNat_sub, h.toNat_outAvail]
  omega

/-- Every stored byte is the same in both memories. -/
theorem Alike.read_stored {s t t' : State} {h : HostSide} (k : Alike s h t t') (hs : s.memory.wf = true)
    (hm : h.memory.wf = true) {i : Nat} (hi : i < storedCount s t) :
    t'.memory.read (storeAddress s i) = t.memory.read (storeAddress s i) := by
  obtain ⟨bs, hst, rfl⟩ := k
  rw [hst.storedCount_eq] at hi
  rw [hst.memory]
  exact storeBytes_read_congr hm hs s.outPtr bs (.inr ⟨i, hi, rfl⟩)

/-! The obligation. -/

/-- Settles O60: `execute_alike`, and the stored bytes by `Alike.read_stored`. -/
theorem commandDependsOnInputOnly : Obligations.CommandDependsOnInputOnly := by
  intro w s m moves lastRead hs hm hin
  obtain ⟨t, t', ht, ht', k⟩ := execute_alike w (h := ⟨m, moves, lastRead⟩) hin
  refine ⟨t, t', ht, ht', ?_, fun i hi => k.read_stored hs hm hi⟩
  obtain ⟨bs, -, rfl⟩ := k
  rfl

end Sys2Proof.Machine
end
